-- ==== Sys2Proof/Word.lean ====
section
/-! DEFINITION. The word types of the machine and their plainest arithmetic. -/

namespace Sys2Proof

/-- A byte of memory. -/
abbrev Byte := BitVec 8

/-- An instruction word (R43) and a vector lane. -/
abbrev W32 := BitVec 32

/-- A scalar or address register (R8). -/
abbrev W64 := BitVec 64

/-- A vector register or the payload of a channel entry: lane `l` is bits `32l+31 : 32l`, so element `e` of width `w` is
bits `(e+1)w-1 : ew` (R24). -/
abbrev Vec := BitVec 2048

end Sys2Proof
end

