-- ==== Sys2Proof/Machine/Num.lean ====
section
/-! DEFINITION. Exact values, the fourteen number formats and rounding (spec/02_number_formats.md, R23 to R42). -/

namespace Sys2Proof.Machine

/-- The element formats in the order of their codes (R19, R23). -/
inductive Fmt where
  | fp32 | bf16 | fp16 | mk8 | e4m3 | e5m2 | mxfp4 | af40 | int32 | int16 | int8 | uint8 | int4 | int64
  deriving DecidableEq, Repr

/-- The format a 5-bit code names; codes 14 to 31 are reserved (R23). -/
def Fmt.ofCode (c : Nat) : Option Fmt :=
  match c with
  | 0 => some .fp32 | 1 => some .bf16 | 2 => some .fp16 | 3 => some .mk8 | 4 => some .e4m3 | 5 => some .e5m2
  | 6 => some .mxfp4 | 7 => some .af40 | 8 => some .int32 | 9 => some .int16 | 10 => some .int8 | 11 => some .uint8
  | 12 => some .int4 | 13 => some .int64 | _ => none

/-- The code of a format (R23). -/
def Fmt.code : Fmt → Nat
  | .fp32 => 0 | .bf16 => 1 | .fp16 => 2 | .mk8 => 3 | .e4m3 => 4 | .e5m2 => 5 | .mxfp4 => 6 | .af40 => 7
  | .int32 => 8 | .int16 => 9 | .int8 => 10 | .uint8 => 11 | .int4 => 12 | .int64 => 13

/-- Element width in bits (R23). -/
def Fmt.width : Fmt → Nat
  | .fp32 => 32 | .bf16 => 16 | .fp16 => 16 | .mk8 => 8 | .e4m3 => 8 | .e5m2 => 8 | .mxfp4 => 4 | .af40 => 40
  | .int32 => 32 | .int16 => 16 | .int8 => 8 | .uint8 => 8 | .int4 => 4 | .int64 => 64

/-- Integer formats (R35). -/
def Fmt.isInt : Fmt → Bool
  | .int32 | .int16 | .int8 | .uint8 | .int4 | .int64 => true
  | _ => false

/-- Signed integer formats: all but UINT8 (R35). -/
def Fmt.isSigned : Fmt → Bool
  | .uint8 => false
  | f => f.isInt

/-- The outlier code of a format, where it has one (R39). -/
def Fmt.outlier : Fmt → Option Nat
  | .mk8 => some 0x80 | .e4m3 => some 0xFF | .e5m2 => some 0xFF | .mxfp4 => some 8 | .int8 => some 0x80
  | _ => none

/-- Rounding modes in the order of their codes (R36). -/
inductive Rnd where
  | rne | rtz | rup | rdn | rna | rsto
  deriving DecidableEq, Repr

/-- The mode a 3-bit code names; 6 and 7 are reserved (R36). -/
def Rnd.ofCode (c : Nat) : Option Rnd :=
  match c with
  | 0 => some .rne | 1 => some .rtz | 2 => some .rup | 3 => some .rdn | 4 => some .rna | 5 => some .rsto
  | _ => none

/-- A real number: the magnitude is `man * 2^exp` when `sticky` is false, and lies strictly between `man * 2^exp` and
`(man + 1) * 2^exp` when it is true.  A sticky value only ever stands between an exact function and its rounding; its
`exp` is then far below the last place of every format. -/
structure Dy where
  neg : Bool
  man : Nat
  exp : Int
  sticky : Bool := false
  deriving DecidableEq, Repr

/-- A real number, an infinity or NaN (R25, R26). -/
inductive Val where
  | nan
  | inf (neg : Bool)
  | num (d : Dy)
  deriving DecidableEq, Repr

/-- Zero with a sign. -/
def Val.zero (neg : Bool) : Val := .num { neg := neg, man := 0, exp := 0 }

/-- The exact value of an integer. -/
def Val.ofInt (i : Int) : Val := .num { neg := i < 0, man := i.natAbs, exp := 0 }

/-- `n * 2^e`. -/
def Val.ofNatExp (n : Nat) (e : Int) : Val := .num { neg := false, man := n, exp := e }

/-- Signed numerator of an exact value at exponent `e`, which must not exceed its own. -/
def Dy.toIntAt (d : Dy) (e : Int) : Int :=
  let m : Int := (d.man <<< (d.exp - e).toNat : Nat)
  if d.neg then -m else m

/-- Exact zero. -/
def Dy.isZero (d : Dy) : Bool := d.man == 0 && !d.sticky

/-- Exact sum.  Zeros of one sign keep it; any other exact zero is +0, or -0 under RDN (R34, R26). A sticky left operand
is allowed when its exponent is the smaller one. -/
def Dy.add (a b : Dy) (m : Rnd) : Dy :=
  if a.isZero && b.isZero then { neg := if a.neg == b.neg then a.neg else decide (m = .rdn), man := 0, exp := 0 }
  else
    let e := min a.exp b.exp
    let s := a.toIntAt e + b.toIntAt e
    if a.sticky || b.sticky then
      -- the sticky part pushes the sum away from zero when it has the sum's sign, and towards zero otherwise
      let sneg := if a.sticky then a.neg else b.neg
      if s < 0 then
        if sneg then { neg := true, man := s.natAbs, exp := e, sticky := true }
        else { neg := true, man := s.natAbs - 1, exp := e, sticky := true }
      else if s > 0 then
        if sneg then { neg := false, man := s.natAbs - 1, exp := e, sticky := true }
        else { neg := false, man := s.natAbs, exp := e, sticky := true }
      else { neg := sneg, man := 0, exp := e, sticky := true }
    else if s = 0 then { neg := decide (m = .rdn), man := 0, exp := 0 }
    else { neg := s < 0, man := s.natAbs, exp := e }

/-- Exact product.  Its sign is the exclusive or of the operands' signs, also where an integer-valued factor is zero: -3 times 0 gives -0
(DESIGN CHOICE, log entry 45). -/
def Dy.mul (a b : Dy) : Dy := { neg := a.neg != b.neg, man := a.man * b.man, exp := a.exp + b.exp }

/-- Opposite. -/
def Val.neg : Val → Val
  | .nan => .nan
  | .inf n => .inf !n
  | .num d => .num { d with neg := !d.neg }

/-- Absolute value. -/
def Val.abs : Val → Val
  | .nan => .nan
  | .inf _ => .inf false
  | .num d => .num { d with neg := false }

/-- `x * 2^k`, exact. -/
def Val.scale (v : Val) (k : Int) : Val :=
  match v with
  | .num d => .num { d with exp := d.exp + k }
  | x => x

/-- Exact sum with the IEEE rules for infinities and NaN; the mode decides the sign of an exact zero (R26, R34). -/
def Val.add (a b : Val) (m : Rnd) : Val :=
  match a, b with
  | .nan, _ => .nan
  | _, .nan => .nan
  | .inf x, .inf y => if x == y then .inf x else .nan
  | .inf x, .num _ => .inf x
  | .num _, .inf y => .inf y
  | .num x, .num y => .num (x.add y m)

/-- Exact difference. -/
def Val.sub (a b : Val) (m : Rnd) : Val := a.add b.neg m

/-- Exact product with the IEEE rules (R26, R34). -/
def Val.mul (a b : Val) : Val :=
  match a, b with
  | .nan, _ => .nan
  | _, .nan => .nan
  | .inf x, .inf y => .inf (x != y)
  | .inf x, .num y => if y.isZero then .nan else .inf (x != y.neg)
  | .num x, .inf y => if x.isZero then .nan else .inf (x.neg != y)
  | .num x, .num y => .num (x.mul y)

/-- Exact comparison of two reals; +0 equals -0.  A sticky left operand compares above its truncation. -/
def Dy.cmp (a b : Dy) : Ordering :=
  let e := min a.exp b.exp
  let x := a.toIntAt e
  let y := b.toIntAt e
  if x < y then .lt
  else if x > y then .gt
  else if a.sticky then (if a.neg then .lt else .gt)
  else if b.sticky then (if b.neg then .gt else .lt)
  else .eq

/-- Comparison of two values: none when either is NaN. -/
def Val.cmp (a b : Val) : Option Ordering :=
  match a, b with
  | .nan, _ => none
  | _, .nan => none
  | .inf x, .inf y => some (if x == y then .eq else if x then .lt else .gt)
  | .inf x, .num _ => some (if x then .lt else .gt)
  | .num _, .inf y => some (if y then .gt else .lt)
  | .num x, .num y => some (x.cmp y)

/-- `a < b`, false when either is NaN. -/
def Val.lt (a b : Val) : Bool := a.cmp b == some .lt

/-- `a <= b`, false when either is NaN. -/
def Val.le (a b : Val) : Bool := a.cmp b == some .lt || a.cmp b == some .eq

/-- Sign bit of a value; NaN counts as positive. -/
def Val.isNeg : Val → Bool
  | .nan => false
  | .inf n => n
  | .num d => d.neg

/-- NaN test. -/
def Val.isNan : Val → Bool
  | .nan => true
  | _ => false

/-- Zero test. -/
def Val.isZero : Val → Bool
  | .num d => d.isZero
  | _ => false

/-- Finite test. -/
def Val.isFinite : Val → Bool
  | .num _ => true
  | _ => false

/-- The lesser of two values by the rules of R75: -0 below +0, one NaN gives the other operand. -/
def Val.min (a b : Val) : Val :=
  match a, b with
  | .nan, x => x
  | x, .nan => x
  | x, y =>
    match x.cmp y with
    | some .lt => x
    | some .gt => y
    | _ => if x.isNeg then x else y

/-- The greater of two values by the rules of R75. -/
def Val.max (a b : Val) : Val :=
  match a, b with
  | .nan, x => x
  | x, .nan => x
  | x, y =>
    match x.cmp y with
    | some .gt => x
    | some .lt => y
    | _ => if x.isNeg then y else x

/-- The shape of a binary floating-point format: total width, precision, exponent of the smallest subnormal, exponent
bias, exponent width, largest finite magnitude `maxMan * 2^maxExp` (R25). -/
structure FpShape where
  w : Nat
  p : Nat
  emin : Int
  bias : Int
  eb : Nat
  maxMan : Nat
  maxExp : Int

/-- The shapes of R25. -/
def Fmt.shape : Fmt → Option FpShape
  | .fp32 => some ⟨32, 24, -149, 127, 8, 2 ^ 24 - 1, 104⟩
  | .bf16 => some ⟨16, 8, -133, 127, 8, 255, 120⟩
  | .fp16 => some ⟨16, 11, -24, 15, 5, 2047, 5⟩
  | .e4m3 => some ⟨8, 4, -9, 7, 4, 14, 5⟩
  | .e5m2 => some ⟨8, 3, -16, 15, 5, 7, 13⟩
  | .mxfp4 => some ⟨4, 2, -1, 1, 2, 3, 1⟩
  | _ => none

/-- The canonical NaN of a format; MK8 and the integers take 0 (R25, R33, R37). -/
def Fmt.nanCode : Fmt → Nat
  | .fp32 => 0x7FC00000 | .bf16 => 0x7FC0 | .fp16 => 0x7E00 | .e4m3 => 0x7F | .e5m2 => 0x7F | .af40 => 0x7FFFFFFFFF
  | _ => 0

/-- Two's-complement reading of the low `w` bits of a code. -/
def signedOf (w : Nat) (c : Nat) : Int :=
  let x : Nat := c % 2 ^ w
  if x < 2 ^ (w - 1) then (x : Int) else (x : Int) - ((2 ^ w : Nat) : Int)

/-- The magnitudes of the MK8 codes 0x00 to 0x7F in units of 2^-11 (R27): by the number `k` of leading zeros of bits 6:0. -/
def mk8Units (c : Nat) : Nat :=
  let x := c % 128
  if x ≥ 64 then (64 + x % 64) * 32                                  -- k = 0: (1 + F/64), e = 0
  else if x ≥ 32 then
    let f := 16 + x % 16
    if x / 16 % 2 = 0 then f * 256 else f * 64                       -- k = 1: e = +1 or -1
  else if x ≥ 16 then
    let f := 4 + x % 4
    let a := 2 + x / 4 % 2
    if x / 8 % 2 = 0 then f * 2 ^ (9 + a) else f * 2 ^ (9 - a)       -- k = 2
  else if x ≥ 8 then
    let a := 4 + x % 4
    if x / 4 % 2 = 0 then 2 ^ (11 + a) else 2 ^ (11 - a)             -- k = 3
  else if x ≥ 4 then
    let a := 8 + x % 2
    if x / 2 % 2 = 0 then 2 ^ (11 + a) else 2 ^ (11 - a)             -- k = 4
  else if x ≥ 2 then (if x % 2 = 0 then 2 ^ 21 else 2)               -- k = 5
  else if x = 1 then 1                                               -- k = 6
  else 0                                                             -- k = 7

/-- The positive MK8 codes in rising order of value (R28). -/
def mk8Sorted : List Nat :=
  [0x00, 0x01, 0x03, 0x07, 0x06, 0x0F, 0x0E, 0x0D, 0x0C, 0x1C, 0x1D, 0x1E, 0x1F, 0x18, 0x19, 0x1A, 0x1B] ++
  (List.range 16).map (0x30 + ·) ++ (List.range 64).map (0x40 + ·) ++ (List.range 16).map (0x20 + ·) ++
  (List.range 8).map (0x10 + ·) ++ [0x08, 0x09, 0x0A, 0x0B, 0x04, 0x05, 0x02]

/-- Value of a finite code of an IEEE-shaped format (R25). -/
def FpShape.decode (f : FpShape) (c : Nat) : Dy :=
  let fb := f.p - 1
  let e : Nat := c / 2 ^ fb % 2 ^ f.eb
  let fr := c % 2 ^ fb
  let neg := decide (c / 2 ^ (f.w - 1) % 2 = 1)
  if e = 0 then { neg := neg, man := fr, exp := f.emin }
  else { neg := neg, man := 2 ^ fb + fr, exp := f.emin + (e : Int) - 1 }

/-- Value of a code, outliers off (R25, R27, R33, R35, R38, R39).  An MXFP4 element is read without its block scale. -/
def Fmt.decode (f : Fmt) (code : Nat) : Val :=
  let c := code % 2 ^ f.width
  match f with
  | .fp32 | .bf16 | .fp16 | .e5m2 =>
    match f.shape with
    | some s =>
      let e : Nat := c / 2 ^ (s.p - 1) % 2 ^ s.eb
      if e = 2 ^ s.eb - 1 then
        if c % 2 ^ (s.p - 1) = 0 then .inf (decide (c / 2 ^ (s.w - 1) % 2 = 1)) else .nan
      else .num (s.decode c)
    | none => .nan
  | .e4m3 => if c % 128 = 127 then .nan else match Fmt.shape .e4m3 with | some s => .num (s.decode c) | none => .nan
  | .mxfp4 => match Fmt.shape .mxfp4 with | some s => .num (s.decode c) | none => .nan
  | .mk8 => if c = 0x80 then .zero false else .num { neg := decide (c ≥ 128), man := mk8Units c, exp := -11 }
  | .af40 =>
    let e : Nat := c / 2 ^ 30 % 512
    let fr := c % 2 ^ 30
    let neg := decide (c / 2 ^ 39 % 2 = 1)
    if e = 0 then .zero neg
    else if e = 511 then (if fr = 0 then .inf neg else .nan)
    else .num { neg := neg, man := 2 ^ 30 + fr, exp := (e : Int) - 255 - 30 }
  | .uint8 => .ofInt c
  | .int32 | .int16 | .int8 | .int4 | .int64 => .ofInt (signedOf f.width c)

/-- Whether the fraction `r / 2^k` (plus a sticky part) of a magnitude rounds away from zero, `odd` being the parity of the
place above.  For RSTO `u` is the drawn word and the neighbours are taken as the signed lo and hi of R36. -/
def roundsUp (m : Rnd) (neg odd : Bool) (r k : Nat) (sticky : Bool) (u : Nat) : Bool :=
  let inexact := r != 0 || sticky
  let half := 2 ^ k / 2
  match m with
  | .rne => decide (r > half) || (decide (r = half) && decide (k ≥ 1) && (sticky || odd))
  | .rtz => false
  | .rup => inexact && !neg
  | .rdn => inexact && neg
  | .rna => decide (k ≥ 1) && decide (r ≥ half)
  | .rsto =>
    if !inexact then false
    else if neg then
      let d := 2 ^ k - r                                   -- distance from lo, the larger magnitude, in units of 2^-k
      let t := (if sticky then d - 1 else d) * 2 ^ 32 / 2 ^ k
      !decide (u < t)
    else decide (u < r * 2 ^ 32 / 2 ^ k)

/-- The multiple of `2^q` a magnitude rounds to. -/
def Dy.roundAt (d : Dy) (q : Int) (m : Rnd) (u : Nat) : Nat :=
  let k := q - d.exp
  if k ≤ 0 then d.man <<< (-k).toNat
  else
    let k := k.toNat
    let n := d.man >>> k
    if roundsUp m d.neg (n % 2 == 1) (d.man % 2 ^ k) k d.sticky u then n + 1 else n

/-- Position of the leading bit: the magnitude lies in `[2^l, 2^(l+1))` when it is not zero. -/
def Dy.lead (d : Dy) : Int := d.exp + (Nat.log2 d.man : Int)

/-- Whether the magnitude exceeds `a * 2^e`. -/
def Dy.magGt (d : Dy) (a : Nat) (e : Int) : Bool :=
  ({ d with neg := false } : Dy).cmp { neg := false, man := a, exp := e } == .gt

/-- Which result an overflow gives: true for infinity, false for the largest finite value (R37). -/
def overflowsToInf (m : Rnd) (neg : Bool) : Bool :=
  match m with
  | .rne | .rna | .rsto => true
  | .rtz => false
  | .rup => !neg
  | .rdn => neg

/-- Code of `n * 2^q` in an IEEE shape, with `n ≤ 2^p` and `q` at least the smallest exponent. -/
def FpShape.encode (f : FpShape) (neg : Bool) (n : Nat) (q : Int) : Nat :=
  let s := if neg then 2 ^ (f.w - 1) else 0
  let fb := f.p - 1
  if n < 2 ^ fb then s + n
  else if n = 2 ^ f.p then s + ((q + 1 - f.emin).toNat + 1) * 2 ^ fb
  else s + ((q - f.emin).toNat + 1) * 2 ^ fb + (n - 2 ^ fb)

/-- The largest finite code of a floating-point format, with a sign. -/
def Fmt.maxCode (f : Fmt) (neg : Bool) : Nat :=
  match f with
  | .fp32 => 0x7F7FFFFF + (if neg then 2 ^ 31 else 0)
  | .bf16 => 0x7F7F + (if neg then 2 ^ 15 else 0)
  | .fp16 => 0x7BFF + (if neg then 2 ^ 15 else 0)
  | .e4m3 => 0x7E + (if neg then 128 else 0)
  | .e5m2 => 0x7B + (if neg then 128 else 0)
  | .mk8 => 0x02 + (if neg then 128 else 0)
  | .mxfp4 => 0x7 + (if neg then 8 else 0)
  | .af40 => 510 * 2 ^ 30 + (2 ^ 30 - 1) + (if neg then 2 ^ 39 else 0)
  | _ => 0

/-- The code of an infinity where the format has one; E4M3 has 0x7F in its place (R37). -/
def Fmt.infCode (f : Fmt) (neg : Bool) : Nat :=
  match f with
  | .fp32 => 0x7F800000 + (if neg then 2 ^ 31 else 0)
  | .bf16 => 0x7F80 + (if neg then 2 ^ 15 else 0)
  | .fp16 => 0x7C00 + (if neg then 2 ^ 15 else 0)
  | .e5m2 => 0x7C + (if neg then 128 else 0)
  | .e4m3 => 0x7F
  | .af40 => 511 * 2 ^ 30 + (if neg then 2 ^ 39 else 0)
  | f => f.maxCode neg

/-- Whether a real overflows an IEEE shape under R37: its rounding with unbounded exponent exceeds the largest finite
value.  RSTO tests with RNE, as R37 has it: E4M3 at exactly ±464, the midpoint that R36 counts as an overflow, goes to the even
neighbour ±448 (DESIGN CHOICE, log entry 45). -/
def FpShape.overflows (f : FpShape) (d : Dy) (m : Rnd) : Bool :=
  if d.man = 0 then false
  else
    let q := max (d.lead - (f.p - 1 : Int)) f.emin
    let n := d.roundAt q (if m = .rsto then .rne else m) 0
    ({ neg := false, man := n, exp := q } : Dy).magGt f.maxMan f.maxExp

/-- Rounding of a real into an IEEE shape (R36, R37). -/
def roundFp (fm : Fmt) (f : FpShape) (d : Dy) (m : Rnd) (u : Nat) (sat : Bool) : Nat :=
  if d.isZero then (if d.neg then 2 ^ (f.w - 1) else 0)
  else
    let m' := if m = .rsto && d.magGt f.maxMan f.maxExp then .rne else m
    if f.overflows d m' then
      if sat then fm.maxCode d.neg
      else if overflowsToInf m' d.neg then fm.infCode d.neg else fm.maxCode d.neg
    else
      let q := if d.man = 0 then f.emin else max (d.lead - (f.p - 1 : Int)) f.emin
      f.encode d.neg (d.roundAt q m' u) q

/-- Rounding of a real into AF40 (R34, R36, R37): 31 significant bits, no subnormals.  Under RSTO a real below 2^-254 is drawn
between the neighbours 0 and 2^-254 of R36, where R34 would make it zero (DESIGN CHOICE, log entry 45). -/
def roundAf40 (d : Dy) (m : Rnd) (u : Nat) (sat : Bool) : Nat :=
  let s := if d.neg then 2 ^ 39 else 0
  if d.isZero then s
  else if d.man = 0 then
    if m = .rsto && roundsUp .rsto d.neg false 0 (-254 - d.exp).toNat true u then s + 2 ^ 30 else s
  else
    let m' := if m = .rsto && d.magGt (2 ^ 31 - 1) 225 then .rne else m
    let tiny := decide (d.lead < -254)
    if m' = .rsto && tiny then
      -- the neighbours are zero and the smallest magnitude (R36)
      if d.roundAt (-254) .rsto u = 0 then s else s + 2 ^ 30
    else
      let q := d.lead - 30
      let n := d.roundAt q m' u
      let (n, q) := if n = 2 ^ 31 then (2 ^ 30, q + 1) else (n, q)
      let e := q + 30 + 255
      if e < 1 then s
      else if e > 510 then
        if sat then Fmt.maxCode .af40 d.neg
        else if overflowsToInf m' d.neg then s + 511 * 2 ^ 30 else Fmt.maxCode .af40 d.neg
      else s + e.toNat * 2 ^ 30 + (n - 2 ^ 30)

/-- The neighbours of a magnitude among the sorted MK8 codes: the last code not above it and the code after it. -/
def mk8Bracket (d : Dy) : List Nat → Nat → Nat × Option Nat
  | [], c => (c, none)
  | x :: xs, c =>
    if ({ d with neg := false } : Dy).cmp { neg := false, man := mk8Units x, exp := -11 } == .lt then (c, some x)
    else mk8Bracket d xs x

/-- Rounding of a real into MK8, on values and never on bit patterns (R29, R36). -/
def roundMk8 (d : Dy) (m : Rnd) (u : Nat) : Nat :=
  let sgn (c : Nat) : Nat := if c = 0 then 0 else if d.neg then c + 128 else c
  if d.magGt 1024 0 then sgn 0x02
  else
    match mk8Bracket d mk8Sorted 0 with
    | (c, none) => sgn c
    | (c, some h) =>
      let lo := mk8Units c
      let gap := mk8Units h - lo                             -- a power of two in every place of the table
      -- the fraction of the gap, with 2^k units of the gap
      let a := ({ d with neg := false } : Dy).add { neg := true, man := lo, exp := -11 } .rne
      let gl := (Nat.log2 gap : Int) - 11
      let k := (max (gl - a.exp) 0).toNat
      let r := if gl - a.exp ≥ 0 then a.man else a.man <<< (a.exp - gl).toNat
      if r = 0 && !a.sticky then sgn c
      else
        let up :=
          match m with
          | .rne =>
            let half := 2 ^ k / 2
            if k = 0 then false
            else if r > half || (r = half && a.sticky) then true
            else if r < half then false
            else if c % 2 = h % 2 then true                  -- equal bit 0: the larger magnitude
            else c % 2 = 1
          | m => roundsUp m d.neg false r k a.sticky u
        sgn (if up then h else c)

/-- Rounding to an integer under a mode. -/
def Dy.roundInt (d : Dy) (m : Rnd) (u : Nat) : Int :=
  let n : Int := ((d.roundAt 0 m u : Nat) : Int)
  if d.neg then -n else n

/-- Least and greatest value of an integer format (R35). -/
def Fmt.intRange : Fmt → Int × Int
  | .int32 => (-2 ^ 31, 2 ^ 31 - 1)
  | .int16 => (-2 ^ 15, 2 ^ 15 - 1)
  | .int8 => (-128, 127)
  | .uint8 => (0, 255)
  | .int4 => (-8, 7)
  | .int64 => (-2 ^ 63, 2 ^ 63 - 1)
  | _ => (0, 0)

/-- Nearest value within a range. -/
def clampInt (lo hi x : Int) : Int := if x < lo then lo else if x > hi then hi else x

/-- Low `w` bits of an integer. -/
def wrapInt (w : Nat) (x : Int) : Nat := (x % ((2 ^ w : Nat) : Int)).toNat

/-- The mode in force for an integer target: RSTO gives way to RNE above the greatest value (R36). -/
def intMode (f : Fmt) (d : Dy) (m : Rnd) : Rnd :=
  if m = .rsto && d.magGt f.intRange.2.toNat 0 then .rne else m

/-- Conversion of a value into an integer format: rounds, then saturates in every case; NaN gives 0 (R35). -/
def roundToInt (f : Fmt) (v : Val) (m : Rnd) (u : Nat) : Nat :=
  let (lo, hi) := f.intRange
  match v with
  | .nan => 0
  | .inf n => wrapInt f.width (if n then lo else hi)
  | .num d => wrapInt f.width (clampInt lo hi (d.roundInt (intMode f d m) u))

/-- `round_to(fmt, value, mode)` of R21 with the results of R37; `u` is the drawn word under RSTO and `sat` the saturate
modifier.  An MXFP4 element never takes the code 0b1000 (R32). -/
def roundTo (f : Fmt) (v : Val) (m : Rnd) (u : Nat) (sat : Bool) : Nat :=
  match f with
  | .int32 | .int16 | .int8 | .uint8 | .int4 | .int64 => roundToInt f v m u
  | .mk8 =>
    match v with
    | .nan => 0
    | .inf n => if n then 0x82 else 0x02
    | .num d => roundMk8 d m u
  | .af40 =>
    match v with
    | .nan => Fmt.nanCode .af40
    | .inf n => if sat then Fmt.maxCode .af40 n else Fmt.infCode .af40 n
    | .num d => roundAf40 d m u sat
  | .mxfp4 =>
    match v with
    | .nan => 0
    | .inf n => Fmt.maxCode .mxfp4 n
    | .num d =>
      match Fmt.shape .mxfp4 with
      | some s =>
        let c := roundFp .mxfp4 s d m u true
        if c % 8 = 0 then 0 else c
      | none => 0
  | f =>
    match v with
    | .nan => f.nanCode
    | .inf n => if sat then f.maxCode n else f.infCode n
    | .num d =>
      match f.shape with
      | some s => roundFp f s d m u sat
      | none => 0

/-- Whether a value overflows a format under R37 (MK8: its magnitude exceeds 1,024; integers: the rounded value leaves the
range, which for INT8 under election is -127 to 127, R35). -/
def overflowsFmt (f : Fmt) (v : Val) (m : Rnd) : Bool :=
  match v with
  | .nan => false
  | .inf _ => true
  | .num d =>
    match f with
    | .mk8 => d.magGt 1024 0
    | .int8 =>
      let i := d.roundInt (if m = .rsto then .rne else m) 0
      decide (i < -127) || decide (i > 127)
    | f => match f.shape with | some s => s.overflows d m | none => false

/-- Magnitude of a finite value floored to a power of two, as the exponent (R32, R367). -/
def Dy.log2Floor (d : Dy) : Int := d.lead

end Sys2Proof.Machine
end

