-- ==== Sys2Proof/Machine/Func.lean ====
section
/-! DEFINITION. The exact functions that VEC and the tangent tables round once (R125, R276, R283), as sticky values found by
interval arithmetic on integers. -/

namespace Sys2Proof.Machine

/-- The exact functions of R125 and R268. -/
inductive Fn where
  | exp2 | log2 | rcp | rsqrt | tanh | sigm | gelu | silu | softplus | exp | sqrelu | relu
  deriving DecidableEq, Repr

/-- The function a `vsf` code names (R116). -/
def Fn.ofVsf (c : Nat) : Fn :=
  match c with
  | 0 => .exp2 | 1 => .log2 | 2 => .rcp | 3 => .rsqrt | 4 => .tanh | 5 => .sigm | 6 => .gelu | _ => .silu

/-- The function of a fold-set class (R268). -/
def Fn.ofClass (c : Nat) : Fn :=
  match c with
  | 0 => .sqrelu | 1 => .relu | 2 => .gelu | 3 => .silu | 4 => .tanh | 5 => .sigm | 6 => .softplus | _ => .exp

/-- An enclosure `lo ≤ x * 2^P ≤ hi` at a scale `P` that the operations take as an argument. -/
structure Iv where
  lo : Int
  hi : Int
  deriving DecidableEq, Repr

/-- Floor of a quotient by a positive integer. -/
def floorDiv (a : Int) (b : Nat) : Int := a.fdiv b

/-- Ceiling of a quotient by a positive integer. -/
def ceilDiv (a : Int) (b : Nat) : Int := -((-a).fdiv b)

def Iv.add (a b : Iv) : Iv := ⟨a.lo + b.lo, a.hi + b.hi⟩
def Iv.neg (a : Iv) : Iv := ⟨-a.hi, -a.lo⟩
def Iv.sub (a b : Iv) : Iv := a.add b.neg

/-- The integer `n`. -/
def Iv.int (P : Nat) (n : Int) : Iv := ⟨n * 2 ^ P, n * 2 ^ P⟩

/-- Product. -/
def Iv.mul (P : Nat) (a b : Iv) : Iv :=
  let p := a.lo * b.lo
  let q := a.lo * b.hi
  let r := a.hi * b.lo
  let s := a.hi * b.hi
  ⟨floorDiv (min (min p q) (min r s)) (2 ^ P), ceilDiv (max (max p q) (max r s)) (2 ^ P)⟩

/-- Quotient by a positive integer. -/
def Iv.divNat (a : Iv) (n : Nat) : Iv := ⟨floorDiv a.lo n, ceilDiv a.hi n⟩

/-- Quotient by a positive enclosure. -/
def Iv.div (P : Nat) (a b : Iv) : Iv :=
  let l := b.lo.toNat
  let h := b.hi.toNat
  ⟨min (floorDiv (a.lo * 2 ^ P) l) (floorDiv (a.lo * 2 ^ P) h),
    max (ceilDiv (a.hi * 2 ^ P) l) (ceilDiv (a.hi * 2 ^ P) h)⟩

/-- Multiplication by `2^k`. -/
def Iv.shift (a : Iv) (k : Int) : Iv :=
  if k ≥ 0 then ⟨a.lo * 2 ^ k.toNat, a.hi * 2 ^ k.toNat⟩
  else ⟨floorDiv a.lo (2 ^ (-k).toNat), ceilDiv a.hi (2 ^ (-k).toNat)⟩

/-- Enclosure of an exact real. -/
def Iv.ofDy (P : Nat) (d : Dy) : Iv :=
  let i : Iv := (Iv.mk d.man d.man).shift (d.exp + P)
  if d.neg then i.neg else i

/-- Sum of `t + t z2 / 3 + t z2² / 5 + …` with `z2` at most 1/9: the rest after a term of at most one unit is below one
unit. -/
def atanhSer (P : Nat) (z2 : Iv) : Nat → Nat → Iv → Iv → Iv
  | 0, _, _, acc => ⟨acc.lo, acc.hi + 2 ^ P⟩
  | fuel + 1, k, t, acc =>
    let acc := acc.add (t.divNat (2 * k + 1))
    if t.hi ≤ 1 then ⟨acc.lo, acc.hi + 1⟩ else atanhSer P z2 fuel (k + 1) (Iv.mul P t z2) acc

/-- ln 2, as 2 artanh(1/3). -/
def ln2Iv (P : Nat) : Iv :=
  let t := (Iv.int P 1).divNat 3
  (atanhSer P ((Iv.int P 1).divNat 9) P 0 t ⟨0, 0⟩).shift 1

/-- The natural logarithm of an enclosure within [1, 2]. -/
def lnIv (P : Nat) (m : Iv) : Iv :=
  let z := Iv.div P (m.sub (Iv.int P 1)) (m.add (Iv.int P 1))
  let z : Iv := ⟨max z.lo 0, z.hi⟩
  (atanhSer P (Iv.mul P z z) (P + 8) 0 z ⟨0, 0⟩).shift 1

/-- Taylor terms of the exponential of an enclosure of magnitude at most 1/2. -/
def expSer (P : Nat) (r : Iv) : Nat → Nat → Iv → Iv → Iv
  | 0, _, _, acc => ⟨acc.lo - 2 ^ P, acc.hi + 2 ^ P⟩
  | fuel + 1, n, t, acc =>
    let acc := acc.add t
    if max t.hi (-t.lo) ≤ 1 then ⟨acc.lo - 1, acc.hi + 1⟩
    else expSer P r fuel (n + 1) ((Iv.mul P t r).divNat (n + 1)) acc

/-- The exponential of an enclosure. -/
def expIv (P : Nat) (y : Iv) : Iv :=
  let l := ln2Iv P
  let k := floorDiv (y.lo + l.lo / 2) l.lo.toNat
  let r := y.sub ⟨min (k * l.lo) (k * l.hi), max (k * l.lo) (k * l.hi)⟩
  let e := (expSer P r (P + 8) 0 (Iv.int P 1) ⟨0, 0⟩).shift k
  ⟨max e.lo 0, e.hi⟩

/-- Alternating terms of the arc tangent of `1/n`. -/
def atanSer (n2 : Nat) : Nat → Nat → Bool → Iv → Iv → Iv
  | 0, _, _, _, acc => acc
  | fuel + 1, k, pos, t, acc =>
    let u := t.divNat (2 * k + 1)
    let acc := if pos then acc.add u else acc.sub u
    if t.hi ≤ 1 then ⟨acc.lo - 1, acc.hi + 1⟩ else atanSer n2 fuel (k + 1) (!pos) (t.divNat n2) acc

/-- π by Machin's formula. -/
def piIv (P : Nat) : Iv :=
  let a := atanSer 25 (P + 8) 0 true ((Iv.int P 1).divNat 5) ⟨0, 0⟩
  let b := atanSer (239 * 239) (P + 8) 0 true ((Iv.int P 1).divNat 239) ⟨0, 0⟩
  (a.shift 4).sub (b.shift 2)

/-- Bits of the integer square root, from bit `k` down. -/
def isqrtBits (n : Nat) : Nat → Nat → Nat
  | 0, r => r
  | k + 1, r => if (r + 2 ^ k) * (r + 2 ^ k) ≤ n then isqrtBits n k (r + 2 ^ k) else isqrtBits n k r

/-- Floor of the square root. -/
def isqrt (n : Nat) : Nat := isqrtBits n (Nat.log2 n / 2 + 1) 0

/-- Square root of a non-negative enclosure. -/
def Iv.sqrt (P : Nat) (a : Iv) : Iv := ⟨isqrt (a.lo.toNat * 2 ^ P), isqrt (a.hi.toNat * 2 ^ P) + 1⟩

/-- The standard normal density at a non-negative enclosure. -/
def densIv (P : Nat) (x : Iv) : Iv :=
  Iv.div P (expIv P ((Iv.mul P x x).shift (-1)).neg) (Iv.sqrt P ((piIv P).shift 1))

/-- Terms `x^(2n+1) / (2n+1)!!`. -/
def phiSer (P : Nat) (x2 : Iv) : Nat → Nat → Iv → Iv → Iv
  | 0, _, _, acc => ⟨acc.lo, acc.hi * 2 + 2 ^ (2 * P)⟩
  | fuel + 1, n, t, acc =>
    let acc := acc.add t
    if t.hi ≤ 1 ∧ x2.hi ≤ (n : Int) * 2 ^ P then ⟨acc.lo, acc.hi + 2⟩
    else phiSer P x2 fuel (n + 1) ((Iv.mul P t x2).divNat (2 * n + 3)) acc

/-- `1 - Φ(x)` for `x ≥ 0`; beyond 45 it lies between 0 and `2^-1400`. -/
def tailIv (P : Nat) (x : Dy) : Iv :=
  if x.magGt 45 0 then ⟨0, 1⟩
  else
    let v := Iv.ofDy P { x with neg := false }
    let s := phiSer P (Iv.mul P v v) 8192 0 v ⟨0, 0⟩
    let h := ((Iv.int P 1).shift (-1)).sub (Iv.mul P (densIv P v) s)
    ⟨max h.lo 0, min h.hi (2 ^ P)⟩

/-- `e^-|x|`; beyond 4,096 it lies between 0 and `2^-5900`. -/
def expNegAbs (P : Nat) (x : Dy) : Iv :=
  if x.magGt 4096 0 then ⟨0, 1⟩ else expIv P (Iv.ofDy P { x with neg := true })

/-- The logistic function. -/
def sigmIv (P : Nat) (x : Dy) : Iv :=
  let q := expNegAbs P x
  let den := (Iv.int P 1).add q
  if x.neg then Iv.div P q den else Iv.div P (Iv.int P 1) den

/-- The normal distribution function. -/
def phiIv (P : Nat) (x : Dy) : Iv := if x.neg then tailIv P x else (Iv.int P 1).sub (tailIv P x)

/-- Enclosure of `F(x) * 2^P` at a non-zero exact `x`, for the functions that are not algebraic. -/
def fnIv (f : Fn) (P : Nat) (x : Dy) : Iv :=
  let v := Iv.ofDy P x
  match f with
  | .exp2 => expIv P (Iv.mul P v (ln2Iv P))
  | .exp => expIv P v
  | .log2 =>
    let l := x.lead
    let m := Iv.ofDy P { neg := false, man := x.man, exp := x.exp - l }
    (Iv.int P l).add (Iv.div P (lnIv P m) (ln2Iv P))
  | .tanh =>
    let q := expNegAbs P { x with exp := x.exp + 1 }
    let t := Iv.div P ((Iv.int P 1).sub q) ((Iv.int P 1).add q)
    if x.neg then t.neg else t
  | .sigm => sigmIv P x
  | .gelu => Iv.mul P v (phiIv P x)
  | .silu => Iv.mul P v (sigmIv P x)
  | .softplus =>
    let l := lnIv P ((Iv.int P 1).add (expNegAbs P x))
    if x.neg then l else v.add l
  | .rcp | .rsqrt | .sqrelu | .relu => v

/-- Enclosure of the derivative `F'(x) * 2^P` for the smooth classes (R283). -/
def fnDerivIv (f : Fn) (P : Nat) (x : Dy) : Iv :=
  let v := Iv.ofDy P x
  match f with
  | .gelu =>
    let d := if x.magGt 45 0 then ⟨0, 1⟩ else densIv P (Iv.ofDy P { x with neg := false })
    (phiIv P x).add (Iv.mul P v d)
  | .silu =>
    let s := sigmIv P x
    Iv.mul P s ((Iv.int P 1).add (Iv.mul P v ((Iv.int P 1).sub s)))
  | .tanh =>
    let q := expNegAbs P { x with exp := x.exp + 1 }
    let d := (Iv.int P 1).add q
    (Iv.div P q (Iv.mul P d d)).shift 2
  | .sigm =>
    let q := expNegAbs P x
    let d := (Iv.int P 1).add q
    Iv.div P q (Iv.mul P d d)
  | .softplus => sigmIv P x
  | .exp => expIv P v
  | _ => v

/-- The scale of the sticky results: every format's last place and the 32 bits of RSTO lie far above `2^-640`. -/
def fnScale : Nat := 640

/-- The first `2^-640` step at which an enclosure decides the value, trying ever finer scales. -/
def resolveIv (enc : Nat → Iv) : Nat → Nat → Dy
  | 0, P =>
    let i := enc P
    { neg := decide (i.hi ≤ 0), man := (floorDiv i.lo (2 ^ (P - fnScale))).natAbs, exp := -(fnScale : Int), sticky := true }
  | fuel + 1, P =>
    let i := enc P
    let l := floorDiv i.lo (2 ^ (P - fnScale))
    let h := ceilDiv i.hi (2 ^ (P - fnScale))
    if l ≥ 0 ∧ h ≤ l + 1 then { neg := false, man := l.toNat, exp := -(fnScale : Int), sticky := true }
    else if h ≤ 0 ∧ h ≤ l + 1 then { neg := true, man := (-h).toNat, exp := -(fnScale : Int), sticky := true }
    else resolveIv enc fuel (P + 64)

/-- Extra bits a function's value or its intermediate terms need above `2^0`. -/
def fnExtra (f : Fn) (x : Dy) : Nat :=
  let mag := (max (x.lead + 1) 0).toNat
  match f with
  | .exp2 => 320 + mag
  | .exp => 1100 + mag
  | .gelu => if x.magGt 45 0 then mag else 1600 + mag
  | _ => mag

/-- A magnitude beyond every format, for exponentials that overflow. -/
def hugeDy (k : Nat) : Dy := { neg := false, man := 2 ^ (k + fnScale), exp := -(fnScale : Int), sticky := true }

/-- A magnitude below every format. -/
def tinyDy (neg : Bool) : Dy := { neg := neg, man := 0, exp := -(fnScale : Int), sticky := true }

/-- Exact power of two test. -/
def isPow2 (n : Nat) : Bool := n != 0 && 2 ^ Nat.log2 n == n

/-- Whether an exact real is an integer, and which. -/
def Dy.toInt? (d : Dy) : Option Int :=
  if d.exp ≥ 0 then some (d.toIntAt 0)
  else
    let k := (-d.exp).toNat
    if d.man % 2 ^ k = 0 then some (if d.neg then -((d.man / 2 ^ k : Nat) : Int) else ((d.man / 2 ^ k : Nat) : Int)) else none

/-- Quotient of two exact non-zero reals, as a sticky value of at least `bits` significant bits. -/
def Dy.quot (a b : Dy) (bits : Nat) : Dy :=
  let sh := bits + Nat.log2 b.man + 1
  let n := a.man <<< sh
  { neg := a.neg != b.neg, man := n / b.man, exp := a.exp - b.exp - sh, sticky := n % b.man != 0 }

/-- Square root of an exact non-negative real, as a sticky value. -/
def Dy.sqrt (a : Dy) : Dy :=
  let e := 2 * fnScale
  let n := if a.exp + e ≥ 0 then a.man <<< (a.exp + e).toNat else a.man >>> (-(a.exp + e)).toNat
  let r := isqrt n
  { neg := false, man := r, exp := -(fnScale : Int), sticky := r * r != n }

/-- F at an exact non-zero real. -/
def fnReal (f : Fn) (x : Dy) : Val :=
  let irr (g : Fn) : Val := .num (resolveIv (fun P => fnIv g P x) 8 (fnScale + 192 + fnExtra g x))
  match f with
  | .relu => if x.neg then .zero false else .num x
  | .sqrelu => if x.neg then .zero false else .num (x.mul x)
  | .rcp => .num (({ neg := false, man := 1, exp := 0 } : Dy).quot x 128)
  | .rsqrt =>
    if x.neg then .nan
    else
      -- 2^(2T) / x, then the floor of its root
      let sh := 2 * fnScale - x.exp.toNat
      let sh := if x.exp < 0 then 2 * fnScale + (-x.exp).toNat else sh
      let q := 2 ^ sh / x.man
      let r := isqrt q
      .num { neg := false, man := r, exp := -(fnScale : Int), sticky := !(r * r * x.man == 2 ^ sh) }
  | .exp2 =>
    if x.magGt 330 0 then .num (if x.neg then tinyDy false else hugeDy 330)
    else
      match x.toInt? with
      | some i => .num { neg := false, man := 1, exp := i }
      | none => irr .exp2
  | .exp =>
    if x.magGt 700 0 then .num (if x.neg then tinyDy false else hugeDy 1000) else irr .exp
  | .log2 =>
    if x.neg then .nan
    else if isPow2 x.man then (if x.lead = 0 then .zero false else .ofInt x.lead)
    else irr .log2
  | .tanh => irr .tanh
  | .sigm => irr .sigm
  | .gelu => irr .gelu
  | .silu => irr .silu
  | .softplus => irr .softplus

/-- F of R125 and R276 at any value, with the special values of R125. `negZero` is the sign of the zero result that the
product functions give at -0 (log entry 21); `tanh` gives -0 there, as the standard that R26 follows does. -/
def fnEval (f : Fn) (negZero : Bool) (v : Val) : Val :=
  match v with
  | .nan => .nan
  | .inf n =>
    match f with
    | .exp2 | .exp => if n then .zero false else .inf false
    | .log2 => if n then .nan else .inf false
    | .rcp => .zero n
    | .rsqrt => if n then .nan else .zero false
    | .tanh => .ofInt (if n then -1 else 1)
    | .sigm => if n then .zero false else .ofInt 1
    | .gelu | .silu => if n then .zero true else .inf false
    | .softplus | .relu | .sqrelu => if n then .zero false else .inf false
  | .num d =>
    if d.isZero then
      match f with
      | .exp2 | .exp => .ofInt 1
      | .log2 => .inf true
      | .rcp | .rsqrt => .inf d.neg
      | .sigm => .ofNatExp 1 (-1)
      | .tanh => .zero d.neg
      | .gelu | .silu => .zero (d.neg && negZero)
      | .softplus => .num (resolveIv (fun P => ln2Iv P) 8 (fnScale + 192))
      | .relu | .sqrelu => .zero false
    else fnReal f d

/-- F' of R283 at an exact real, for the smooth classes. -/
def fnDeriv (f : Fn) (d : Dy) : Val :=
  if d.isZero then
    match f with
    | .gelu | .silu | .softplus => .ofNatExp 1 (-1)
    | .tanh | .exp => .ofInt 1
    | .sigm => .ofNatExp 1 (-2)
    | _ => .zero false
  else if f = .exp ∧ d.magGt 700 0 then .num (if d.neg then tinyDy false else hugeDy 1000)
  else if (f = .gelu ∧ d.magGt 45 0) ∨ (f = .silu ∧ d.magGt 460 0) then
    -- just above 1 on the right, just below 0 on the left
    .num (if d.neg then tinyDy true else { neg := false, man := 2 ^ fnScale, exp := -(fnScale : Int), sticky := true })
  else .num (resolveIv (fun P => fnDerivIv f P d) 8 (fnScale + 192 + fnExtra f d))

end Sys2Proof.Machine
end

