-- ==== Sys2Proof/Fields.lean ====
section
/-! DEFINITION. The operand fields of instruction words (R46, R50, R52, R53, R55) and the data that the device's and the
host's events carry. -/

namespace Sys2Proof

/-- The four token bits of an engine head word (R50). -/
structure Tok where
  wu : Bool := false
  wd : Bool := false
  su : Bool := false
  sd : Bool := false
  deriving DecidableEq, Repr, Inhabited

/-- The modifier word below its check nibble (R55). -/
structure Mod where
  sat : Bool := false
  clamp : Bool := false
  neg : Bool := false
  abs : Bool := false
  scale : BitVec 8 := 0
  clo : BitVec 5 := 0
  chi : BitVec 5 := 0
  round : BitVec 3 := 0
  zero : BitVec 3 := 0
  deriving DecidableEq, Repr, Inhabited

/-- The fields of a VEC instruction (R52). -/
structure VF where
  tok : Tok := {}
  md : Option Mod := none
  vd : BitVec 6 := 0
  va : BitVec 6 := 0
  pg : BitVec 4 := 0
  vb : BitVec 6 := 0
  vc : BitVec 6 := 0
  ty : BitVec 5 := 0
  sub : BitVec 5 := 0
  imm : BitVec 10 := 0
  deriving DecidableEq, Repr, Inhabited

/-- The turn of an engine to issue: which engine, and whether an uncorrectable error befalls a list tile that the entry reads (R66,
R263). -/
structure IssueTurn where
  eng : Nat := 0
  bad : Bool := false
  deriving DecidableEq, Repr, Inhabited

/-- The fields of an LDE, MXE, STE, IDX or LNK instruction: the E layout (R53). -/
structure EF where
  tok : Tok := {}
  md : Option Mod := none
  x : BitVec 6 := 0
  y : BitVec 6 := 0
  al : BitVec 2 := 0
  once : Bool := false
  zero : Bool := false
  sa : BitVec 5 := 0
  sb : BitVec 5 := 0
  sc : BitVec 5 := 0
  ad : BitVec 4 := 0
  p : Bool := false
  sub : BitVec 5 := 0
  imm : BitVec 7 := 0
  deriving DecidableEq, Repr, Inhabited

/-- What the ECC of a line finds (R379). -/
inductive Ecc where
  | clean
  | corrected
  | uncorrectable
  deriving DecidableEq, Repr, Inhabited

/-- A record of the capability list (R376). -/
structure CapRec where
  ident : Nat := 0
  version : Nat := 0
  payload : Nat := 0
  deriving DecidableEq, Repr, Inhabited

/-- Why a word names no instruction (R47, R56, R60). -/
inductive Reject where
  | opcode          -- an unassigned control opcode, or a control word with a field that its map row does not allow
  | op7             -- an op7 unassigned in its engine
  | engine          -- engine 6 or 7
  | modifier        -- M = 1 and bits 31:28 of the third word are not 0b1010
  deriving DecidableEq, Repr, Inhabited

/-- Demand of a placement, or a budget (R90, R97). -/
structure Demand where
  vregs : Nat := 0
  spad : Nat := 0
  tiles : Nat := 0
  rings : Nat := 0
  deriving DecidableEq, Repr, Inhabited

/-- What a context configuration fixes for one core it owns (R308). -/
structure CoreCfg where
  core : Nat := 0
  total : Demand := {}
  r1 : Demand := {}
  r2 : Demand := {}
  r3 : Demand := {}
  /-- table range: first entry and count (R266) -/
  tbase : Nat := 0
  tcount : Nat := 0
  /-- live scratchpad ranges, as (first byte, length); empty means all 768 KiB -/
  live : List (Nat × Nat) := []
  deriving DecidableEq, Repr, Inhabited

/-- A must-save entry as declared (R355). -/
structure MustCfg where
  id : Nat := 0
  base : Nat := 0
  size : Nat := 0
  deriving DecidableEq, Repr, Inhabited

/-- A context configuration, as the host supplies it (R308), with the setup records of the loader (R16, R167). -/
structure CtxCfg where
  id : Nat := 0
  part : Nat := 0
  cores : List CoreCfg := []
  root : Nat := 0
  saveBase : Nat := 0
  saveLen : Nat := 0
  trapVec : W64 := 0
  exact : Bool := false
  wdog : Nat := 0
  jnl : Option Nat := none
  wiring : W64 := 0x16270A1113130202
  /-- barriers allotted, as (cluster, 16-bit mask) -/
  bars : List (Nat × Nat) := []
  musts : List MustCfg := []
  keepPrio : Nat := 0
  /-- `.tile` records: tile, D0, D1 -/
  tiles : List (Nat × W64 × W64) := []
  /-- `.ring` records: ring, home (0–4), base, slots, bytes -/
  rings : List (Nat × Nat × Nat × Nat × Nat) := []
  /-- `.fold` records as loaded: fold-set register number, value -/
  folds : List (Nat × W64) := []
  deriving DecidableEq, Repr, Inhabited

/-- A partition assignment entry (R381): the function, its cores, its quota, and its share in watts and ceiling point on each
die. -/
structure Assign where
  func : Nat := 0
  cores : List Nat := []
  quota : Nat := 0
  share : List Nat := []
  ceil : List Nat := []
  deriving DecidableEq, Repr, Inhabited

/-- A firmware image as boot ROM sees it (R377). -/
structure FwImage where
  version : Nat := 0
  secver : Nat := 0
  sigOk : Bool := true
  hash : Nat := 0
  deriving DecidableEq, Repr, Inhabited

/-- A group handle as the host sets it (R363). Members are (device identity, die, IPv6 address). -/
structure GroupCfg where
  members : List (Nat × Nat × Nat) := []
  me : Nat := 0
  root : Nat := 0
  /-- the deadline D in ns -/
  deadline : Nat := 0
  comp : Bool := false
  deriving DecidableEq, Repr, Inhabited

/-- A block of a compressed contribution, as the values it carries (R367): FP32 codes with the scale's FP32 code, or BF16. -/
structure Contrib where
  op : Nat := 0
  count : Nat := 0
  comp : Bool := false
  /-- per element, the value it is worth, as an AF40 code; for `.ag` its FP32 code -/
  vals : List Nat := []
  bf : Bool := false
  deriving DecidableEq, Repr, Inhabited

/-- A round's result as the root sends it (R366, R371). -/
structure RResult where
  op : Nat := 0
  n : Nat := 0
  count : Nat := 0
  bf : Bool := false
  /-- 0 complete, 2 this member excluded for mismatch -/
  status : Nat := 0
  /-- included member indices -/
  members : List Nat := []
  /-- FP32 codes: the `.ar` sum, or for `.ag` the m·n elements -/
  vals : List Nat := []
  deriving DecidableEq, Repr, Inhabited

/-- What a PORT_ACCESS turn does at a memory port (R205 to R208, R219). -/
inductive PortOp where
  /-- the oldest write that die `src` has sent to home `home` is applied -/
  | deliver (src home : Nat)
  /-- die `die`'s port runs out of held entries and closes its oldest line -/
  | pressure (die : Nat)
  /-- the host writes bytes at a physical address, through a function -/
  | hostWrite (func pa : Nat) (bytes : List Byte)
  /-- the host reads a range, through a function -/
  | hostRead (func pa len : Nat)
  /-- the root port accepts the oldest write to the host aperture -/
  | rootAccept
  deriving DecidableEq, Repr, Inhabited

end Sys2Proof
end

