-- ==== Sys2Proof/Syntax.lean ====
section
/-! DEFINITION. The instructions and events of the VX896: one constructor per row of the opcode table.  The control subset
(R49) carries its fields as R46 lays them out; engine instructions carry the raw fields of R52 and R53; the rows after
CSTAT are steps that the device, another agent or the host takes, with the data they bring. -/

namespace Sys2Proof

/-- One step of the machine. -/
inductive Instr where
  | add (d : BitVec 5) (a : BitVec 5) (b : BitVec 5)
  | sub (d : BitVec 5) (a : BitVec 5) (b : BitVec 5)
  | mul (d : BitVec 5) (a : BitVec 5) (b : BitVec 5)
  | mulh (d : BitVec 5) (a : BitVec 5) (b : BitVec 5)
  | div (d : BitVec 5) (a : BitVec 5) (b : BitVec 5)
  | rem (d : BitVec 5) (a : BitVec 5) (b : BitVec 5)
  | and (d : BitVec 5) (a : BitVec 5) (b : BitVec 5)
  | or (d : BitVec 5) (a : BitVec 5) (b : BitVec 5)
  | xor (d : BitVec 5) (a : BitVec 5) (b : BitVec 5)
  | shl (d : BitVec 5) (a : BitVec 5) (b : BitVec 5)
  | shr (d : BitVec 5) (a : BitVec 5) (b : BitVec 5)
  | sra (d : BitVec 5) (a : BitVec 5) (b : BitVec 5)
  | slt (d : BitVec 5) (a : BitVec 5) (b : BitVec 5)
  | sltu (d : BitVec 5) (a : BitVec 5) (b : BitVec 5)
  | min (d : BitVec 5) (a : BitVec 5) (b : BitVec 5)
  | max (d : BitVec 5) (a : BitVec 5) (b : BitVec 5)
  | minu (d : BitVec 5) (a : BitVec 5) (b : BitVec 5)
  | maxu (d : BitVec 5) (a : BitVec 5) (b : BitVec 5)
  | clz (d : BitVec 5) (a : BitVec 5)
  | ctz (d : BitVec 5) (a : BitVec 5)
  | popc (d : BitVec 5) (a : BitVec 5)
  | sel (d : BitVec 5) (a : BitVec 5) (b : BitVec 5)
  | addi (d : BitVec 5) (a : BitVec 5) (imm : BitVec 14)
  | andi (d : BitVec 5) (a : BitVec 5) (imm : BitVec 14)
  | ori (d : BitVec 5) (a : BitVec 5) (imm : BitVec 14)
  | xori (d : BitVec 5) (a : BitVec 5) (imm : BitVec 14)
  | shli (d : BitVec 5) (a : BitVec 5) (c : BitVec 6)
  | shri (d : BitVec 5) (a : BitVec 5) (c : BitVec 6)
  | srai (d : BitVec 5) (a : BitVec 5) (c : BitVec 6)
  | slti (d : BitVec 5) (a : BitVec 5) (imm : BitVec 14)
  | li (d : BitVec 5) (ext : W32)
  | lih (d : BitVec 5) (ext : W32)
  | mov (d : BitVec 5) (a : BitVec 5)
  | fadd (d : BitVec 5) (a : BitVec 5) (b : BitVec 5) (t : BitVec 5) (rnd : BitVec 3)
  | fsub (d : BitVec 5) (a : BitVec 5) (b : BitVec 5) (t : BitVec 5) (rnd : BitVec 3)
  | fmul (d : BitVec 5) (a : BitVec 5) (b : BitVec 5) (t : BitVec 5) (rnd : BitVec 3)
  | ffma (d : BitVec 5) (a : BitVec 5) (b : BitVec 5) (t : BitVec 5) (rnd : BitVec 3)
  | fmin (d : BitVec 5) (a : BitVec 5) (b : BitVec 5) (t : BitVec 5)
  | fmax (d : BitVec 5) (a : BitVec 5) (b : BitVec 5) (t : BitVec 5)
  | fcmp (d : BitVec 5) (a : BitVec 5) (b : BitVec 5) (t : BitVec 5) (c : BitVec 3)
  | fcvt (d : BitVec 5) (a : BitVec 5) (src : BitVec 5) (t : BitVec 5) (rnd : BitVec 3)
  | acfg (k : BitVec 5) (a : BitVec 5) (b : BitVec 5) (m : BitVec 2)
  | aset (k : BitVec 5) (a : BitVec 5)
  | aget (d : BitVec 5) (k : BitVec 5)
  | aadd (k : BitVec 5) (imm : BitVec 14)
  | apost (k : BitVec 5)
  | lds (d : BitVec 5) (p : BitVec 1) (k : BitVec 4) (sz : BitVec 3) (off : BitVec 11)
  | sts (d : BitVec 5) (p : BitVec 1) (k : BitVec 4) (sz : BitVec 3) (off : BitVec 11)
  | tdef (a : BitVec 5) (b : BitVec 5) (t : BitVec 6)
  | tfill (t : BitVec 6)
  | tfree (t : BitVec 6)
  | tstat (d : BitVec 5) (t : BitVec 6)
  | br (c : BitVec 4) (a : BitVec 5) (off : BitVec 15)
  | brAlways (off : BitVec 15)
  | jmp (off : BitVec 15)
  | jmpFar (ext : W32)
  | call (off : BitVec 15)
  | callFar (ext : W32)
  | jmpr (a : BitVec 5)
  | ret
  | loop (lc : BitVec 2) (src : BitVec 5) (endw : BitVec 16)
  | loopn (lc : BitVec 2) (n : BitVec 5) (endw : BitVec 16)
  | loopp (lc : BitVec 2) (k : BitVec 4) (endw : BitVec 16)
  | lbrk (lc : BitVec 2)
  | wtok (eng : BitVec 4) (dir : BitVec 1) (cnt : BitVec 12)
  | wfil (ring : BitVec 8) (n : BitVec 12)
  | wfre (ring : BitVec 8) (n : BitVec 12)
  | wbar (b : BitVec 8) (p : BitVec 1)
  | wlse
  | rclaim (d : BitVec 5) (ring : BitVec 5) (n : BitVec 12)
  | rpub (d : BitVec 5) (ring : BitVec 5) (n : BitVec 12)
  | rtake (d : BitVec 5) (ring : BitVec 5) (n : BitVec 12)
  | rfree (d : BitVec 5) (ring : BitVec 5) (n : BitVec 12)
  | rback (d : BitVec 5) (ring : BitVec 5) (n : BitVec 12)
  | rsteal (d : BitVec 5) (ring : BitVec 5) (n : BitVec 12)
  | rstat (d : BitVec 5) (ring : BitVec 5)
  | barinit (b : BitVec 8) (c : BitVec 12)
  | barv (b : BitVec 8)
  | tsig (eng : BitVec 4) (dir : BitVec 1) (cnt : BitVec 12)
  | chrd (d : BitVec 5) (c : BitVec 14)
  | lnch (a : BitVec 5)
  | lnchn (d : BitVec 5) (a : BitVec 5)
  | fmtp (a : BitVec 5)
  | mode (m : BitVec 1)
  | swpt (n : BitVec 8) (t0 t1 t2 : W32)
  | pwrl (a : BitVec 5)
  | musts (a : BitVec 5) (b : BitVec 5) (imm : BitVec 4)
  | jmark (a : BitVec 5)
  | nop
  | sysrd (d : BitVec 5) (imm : BitVec 12)
  | syswr (a : BitVec 5) (imm : BitVec 12)
  | modeWrite (a : BitVec 5)
  | trapVecWrite (a : BitVec 5)
  | frResumeWrite (a : BitVec 5)
  | wrapAnWrite (a : BitVec 5) (n : BitVec 4)
  | vstatClear (a : BitVec 5)
  | tokcntWrite (a : BitVec 5)
  | ringdWrite (a : BitVec 5) (n : BitVec 4)
  | foldSetWrite (a : BitVec 5) (n : BitVec 4)
  | droopThrWrite (a : BitVec 5)
  | trap (c : BitVec 14)
  | tret
  | halt
  | yield
  | tstamp (d : BitVec 5) (c : BitVec 1)
  | fenceAcq (scope : BitVec 3)
  | fenceRel (scope : BitVec 3)
  | fenceFull (scope : BitVec 3)
  | hreq (a : BitVec 5)
  | cpin (f : EF)
  | cpinCh (f : EF)
  | cpcv (f : EF)
  | ldch (f : EF)
  | ldbc (f : EF)
  | pfch (f : EF)
  | lease (f : EF)
  | unls (f : EF)
  | wld (f : EF)
  | mma (f : EF)
  | mmas (f : EF)
  | accz (f : EF)
  | drain (f : EF)
  | probe (f : EF)
  | clsf (f : EF)
  | corr (f : EF)
  | tfit (f : EF)
  | tload (f : EF)
  | tsave (f : EF)
  | tset (f : EF)
  | escn (f : EF)
  | rlpop (f : EF)
  | refold (f : EF)
  | vadd (f : VF)
  | vsub (f : VF)
  | vmul (f : VF)
  | vfma (f : VF)
  | vfms (f : VF)
  | vmin (f : VF)
  | vmax (f : VF)
  | vcmp (f : VF)
  | vsel (f : VF)
  | vcvt (f : VF)
  | vand (f : VF)
  | vor (f : VF)
  | vxor (f : VF)
  | vnot (f : VF)
  | vshl (f : VF)
  | vshr (f : VF)
  | vsra (f : VF)
  | vmov (f : VF)
  | vbc (f : VF)
  | vidx (f : VF)
  | vred (f : VF)
  | vscan (f : VF)
  | vperm (f : VF)
  | vbit (f : VF)
  | vbpat (f : VF)
  | vsf (f : VF)
  | vtopk (f : VF)
  | vrnd (f : VF)
  | vqnt (f : VF)
  | vdq (f : VF)
  | vrcv (f : VF)
  | vsnd (f : VF)
  | vrot (f : VF)
  | pand (f : VF)
  | por (f : VF)
  | pxor (f : VF)
  | pnot (f : VF)
  | pcnt (f : VF)
  | pset (f : VF)
  | cpout (f : EF)
  | stch (f : EF)
  | stchApp (f : EF)
  | stg (f : EF)
  | stat (f : EF)
  | gath (f : EF)
  | scat (f : EF)
  | ixlist (f : EF)
  | ixpage (f : EF)
  | ixsum (f : EF)
  | cpost (f : EF)
  | cjoin (f : EF)
  | cstat (f : EF)
  | waitConditionMet (core slot : Nat)
  | translationWalkDone (core slot : Nat)
  | engineIssue (core : Nat) (eng : IssueTurn)
  | commandCompletion (core slot j : Nat)
  | fenceMarkerRetire (core slot eng : Nat)
  | modeDrainComplete (core slot : Nat)
  | haltDrainComplete (core slot : Nat)
  | unitPlacement (die : Nat)
  | priorityAgeing (die nest : Nat)
  | leaseGrant (cluster : Nat)
  | leaseEnd (cluster : Nat)
  | takeTrap (core slot : Nat)
  | watchdogExpiry (core slot : Nat)
  | portAccess (op : PortOp)
  | patrolScrub (line : Nat) (found : Ecc)
  | launchEntry (func ctx die addr : Nat)
  | contextCreate (func : Nat) (cfg : CtxCfg)
  | contextDestroy (func ctx : Nat)
  | contextPreempt (func ctx : Nat) (ben : Option Nat)
  | preemptSaveComplete (ctx : Nat) (bad : Bool)
  | contextRestore (func ctx : Nat)
  | contextRecover (func : Nat) (cfg : CtxCfg)
  | keepReportRelease (func die : Nat)
  | invalidationEntry (func ctx lo len : Nat)
  | invalidationComplete (func : Nat)
  | replyEntry (func ctx ident : Nat) (reply : W64)
  | eventQueueHeadAdvance (func n : Nat)
  | partitionAssignment (func : Nat) (asg : Assign)
  | attestationRequest (func part nonce : Nat)
  | firmwareUpdate (func : Nat) (img : FwImage)
  | weightOverrideLoad (func die : Nat) (w : List (BitVec 12))
  | groupHandleSet (func ctx die g : Nat) (cfg : GroupCfg)
  | supplyTrip
  | keepSaveComplete (die : Nat)
  | bringUp
  | railStep (die : Nat)
  | railHoldEnd (die : Nat)
  | estimatorWindowEnd (cluster : Nat)
  | droopAlarm (cluster sag : Nat)
  | stretchEnd (cluster : Nat)
  | halvingEnd (cluster : Nat)
  | controllerEvaluation (die : Nat)
  | contributionArrival (ctx die g round member : Nat) (c : Contrib)
  | roundDeadline (ctx die g round : Nat)
  | resultArrival (ctx die g round : Nat) (r : RResult)
  | joinDeadline (ctx die g : Nat)
  | earlyResultExpiry (ctx die g round : Nat)
  | sessionRekey (ctx die g peer : Nat)
  | illegalInstruction (r : Reject)
  | unitCompletion (core slot j : Nat) (bad : Bool)
  | partitionSchedulePreempt (ctx : Nat)
  | spillSpaceFreed (stack : Nat)
  | sessionKeyed (ctx die g peer : Nat)
  | reserveLost (die : Nat)
  deriving DecidableEq, Repr, Inhabited

end Sys2Proof
end

