-- ==== Sys2Proof/Decode.lean ====
section
/-! DEFINITION. Decoding instruction words into instructions (R43 to R60), and the encoder written from the same tables. -/

namespace Sys2Proof

/-- Bits `hi:lo` of a word, as a number (R22). -/
def fld (w hi lo : Nat) : Nat := w / 2 ^ lo % 2 ^ (hi - lo + 1)

/-- Bits `hi:lo` of a word, as a field of `n` bits. -/
def bf {n : Nat} (w _hi lo : Nat) : BitVec n := BitVec.ofNat n (w / 2 ^ lo)

/-- Bit `k` of a word. -/
def bt (w k : Nat) : Bool := w / 2 ^ k % 2 == 1

/-- A map row: the instruction when the fixed fields hold, else an unassigned encoding (R47). -/
def row (ok : Bool) (i : Instr) : Except Reject Instr := if ok then .ok i else .error .opcode

/-- Length in words of the instruction that begins with word `w` (R43). -/
def lengthOf (w : Nat) : Nat :=
  if bt w 31 then (if bt w 23 then 3 else 2)
  else
    match w / 2 ^ 24 with
    | 0x1D => 2
    | 0x1E => 2
    | 0x39 => if fld w 23 20 == 1 then 2 else 1
    | 0x3A => if fld w 23 20 == 1 then 2 else 1
    | 0x54 => 4
    | _ => 1

/-- The control subset (R49): `w` is the first word, `w1` to `w3` the words after it. -/
def decodeControl (w w1 w2 w3 : Nat) : Except Reject Instr :=
  match w / 2 ^ 24 with
  | 0x01 => row (fld w 8 0 == 0) (.add (bf w 23 19) (bf w 18 14) (bf w 13 9))
  | 0x02 => row (fld w 8 0 == 0) (.sub (bf w 23 19) (bf w 18 14) (bf w 13 9))
  | 0x03 => row (fld w 8 0 == 0) (.mul (bf w 23 19) (bf w 18 14) (bf w 13 9))
  | 0x04 => row (fld w 8 0 == 0) (.mulh (bf w 23 19) (bf w 18 14) (bf w 13 9))
  | 0x05 => row (fld w 8 0 == 0) (.div (bf w 23 19) (bf w 18 14) (bf w 13 9))
  | 0x06 => row (fld w 8 0 == 0) (.rem (bf w 23 19) (bf w 18 14) (bf w 13 9))
  | 0x07 => row (fld w 8 0 == 0) (.and (bf w 23 19) (bf w 18 14) (bf w 13 9))
  | 0x08 => row (fld w 8 0 == 0) (.or (bf w 23 19) (bf w 18 14) (bf w 13 9))
  | 0x09 => row (fld w 8 0 == 0) (.xor (bf w 23 19) (bf w 18 14) (bf w 13 9))
  | 0x0A => row (fld w 8 0 == 0) (.shl (bf w 23 19) (bf w 18 14) (bf w 13 9))
  | 0x0B => row (fld w 8 0 == 0) (.shr (bf w 23 19) (bf w 18 14) (bf w 13 9))
  | 0x0C => row (fld w 8 0 == 0) (.sra (bf w 23 19) (bf w 18 14) (bf w 13 9))
  | 0x0D => row (fld w 8 0 == 0) (.slt (bf w 23 19) (bf w 18 14) (bf w 13 9))
  | 0x0E => row (fld w 8 0 == 0) (.sltu (bf w 23 19) (bf w 18 14) (bf w 13 9))
  | 0x0F => row (fld w 8 0 == 0) (.min (bf w 23 19) (bf w 18 14) (bf w 13 9))
  | 0x10 => row (fld w 8 0 == 0) (.max (bf w 23 19) (bf w 18 14) (bf w 13 9))
  | 0x11 => row (fld w 8 0 == 0) (.minu (bf w 23 19) (bf w 18 14) (bf w 13 9))
  | 0x12 => row (fld w 8 0 == 0) (.maxu (bf w 23 19) (bf w 18 14) (bf w 13 9))
  | 0x13 =>
    if fld w 13 0 == 0 then .ok (.clz (bf w 23 19) (bf w 18 14))
    else if fld w 13 0 == 1 then .ok (.ctz (bf w 23 19) (bf w 18 14))
    else row (fld w 13 0 == 2) (.popc (bf w 23 19) (bf w 18 14))
  | 0x14 => row (fld w 8 0 == 0) (.sel (bf w 23 19) (bf w 18 14) (bf w 13 9))
  | 0x15 => .ok (.addi (bf w 23 19) (bf w 18 14) (bf w 13 0))
  | 0x16 => .ok (.andi (bf w 23 19) (bf w 18 14) (bf w 13 0))
  | 0x17 => .ok (.ori (bf w 23 19) (bf w 18 14) (bf w 13 0))
  | 0x18 => .ok (.xori (bf w 23 19) (bf w 18 14) (bf w 13 0))
  | 0x19 => row (fld w 13 6 == 0) (.shli (bf w 23 19) (bf w 18 14) (bf w 5 0))
  | 0x1A => row (fld w 13 6 == 0) (.shri (bf w 23 19) (bf w 18 14) (bf w 5 0))
  | 0x1B => row (fld w 13 6 == 0) (.srai (bf w 23 19) (bf w 18 14) (bf w 5 0))
  | 0x1C => .ok (.slti (bf w 23 19) (bf w 18 14) (bf w 13 0))
  | 0x1D => row (fld w 18 0 == 0) (.li (bf w 23 19) (BitVec.ofNat 32 w1))
  | 0x1E => row (fld w 18 0 == 0) (.lih (bf w 23 19) (BitVec.ofNat 32 w1))
  | 0x1F => row (fld w 13 0 == 0) (.mov (bf w 23 19) (bf w 18 14))
  | 0x20 => row (fld w 3 3 == 0) (.fadd (bf w 23 19) (bf w 18 14) (bf w 13 9) (bf w 8 4) (bf w 2 0))
  | 0x21 => row (fld w 3 3 == 0) (.fsub (bf w 23 19) (bf w 18 14) (bf w 13 9) (bf w 8 4) (bf w 2 0))
  | 0x22 => row (fld w 3 3 == 0) (.fmul (bf w 23 19) (bf w 18 14) (bf w 13 9) (bf w 8 4) (bf w 2 0))
  | 0x23 => row (fld w 3 3 == 0) (.ffma (bf w 23 19) (bf w 18 14) (bf w 13 9) (bf w 8 4) (bf w 2 0))
  | 0x24 => row (fld w 3 0 == 0) (.fmin (bf w 23 19) (bf w 18 14) (bf w 13 9) (bf w 8 4))
  | 0x25 => row (fld w 3 0 == 0) (.fmax (bf w 23 19) (bf w 18 14) (bf w 13 9) (bf w 8 4))
  | 0x26 => row (fld w 3 3 == 0) (.fcmp (bf w 23 19) (bf w 18 14) (bf w 13 9) (bf w 8 4) (bf w 2 0))
  | 0x27 => row (fld w 3 3 == 0) (.fcvt (bf w 23 19) (bf w 18 14) (bf w 13 9) (bf w 8 4) (bf w 2 0))
  | 0x28 => row (fld w 8 2 == 0) (.acfg (bf w 23 19) (bf w 18 14) (bf w 13 9) (bf w 1 0))
  | 0x29 => row (fld w 13 0 == 0) (.aset (bf w 23 19) (bf w 18 14))
  | 0x2A => row (fld w 13 0 == 0) (.aget (bf w 23 19) (bf w 18 14))
  | 0x2B => row (fld w 18 14 == 0) (.aadd (bf w 23 19) (bf w 13 0))
  | 0x2C => row (fld w 18 0 == 0) (.apost (bf w 23 19))
  | 0x30 => .ok (.lds (bf w 23 19) (bf w 18 18) (bf w 17 14) (bf w 13 11) (bf w 10 0))
  | 0x31 => .ok (.sts (bf w 23 19) (bf w 18 18) (bf w 17 14) (bf w 13 11) (bf w 10 0))
  | 0x32 => row (fld w 8 6 == 0 && fld w 23 19 == 0) (.tdef (bf w 18 14) (bf w 13 9) (bf w 5 0))
  | 0x33 => row (fld w 23 6 == 0) (.tfill (bf w 5 0))
  | 0x34 => row (fld w 23 6 == 0) (.tfree (bf w 5 0))
  | 0x35 => row (fld w 18 6 == 0) (.tstat (bf w 23 19) (bf w 5 0))
  | 0x38 =>
    if fld w 23 15 == 0xC0 then .ok (.brAlways (bf w 14 0))
    else .ok (.br (bf w 23 20) (bf w 19 15) (bf w 14 0))
  | 0x39 =>
    if fld w 23 15 == 0 then .ok (.jmp (bf w 14 0))
    else row (fld w 23 0 == 0x100000) (.jmpFar (BitVec.ofNat 32 w1))
  | 0x3A =>
    if fld w 23 15 == 0 then .ok (.call (bf w 14 0))
    else row (fld w 23 0 == 0x100000) (.callFar (BitVec.ofNat 32 w1))
  | 0x3B =>
    if fld w 23 0 == 0x4001 then .ok (.ret)
    else row (fld w 13 0 == 0 && fld w 23 19 == 0) (.jmpr (bf w 18 14))
  | 0x3C => row (fld w 16 16 == 0) (.loop (bf w 23 22) (bf w 21 17) (bf w 15 0))
  | 0x3D => row (fld w 16 16 == 0) (.loopn (bf w 23 22) (bf w 21 17) (bf w 15 0))
  | 0x3E => row (fld w 16 16 == 0 && fld w 21 21 == 0) (.loopp (bf w 23 22) (bf w 20 17) (bf w 15 0))
  | 0x3F => row (fld w 21 0 == 0) (.lbrk (bf w 23 22))
  | 0x40 => row (fld w 19 13 == 0) (.wtok (bf w 23 20) (bf w 12 12) (bf w 11 0))
  | 0x41 => row (fld w 23 20 == 0) (.wfil (bf w 19 12) (bf w 11 0))
  | 0x42 => row (fld w 23 20 == 0) (.wfre (bf w 19 12) (bf w 11 0))
  | 0x43 => row (fld w 11 1 == 0 && fld w 23 20 == 0) (.wbar (bf w 19 12) (bf w 0 0))
  | 0x44 => row (fld w 23 0 == 0) (.wlse)
  | 0x45 => row (fld w 13 12 == 0) (.rclaim (bf w 23 19) (bf w 18 14) (bf w 11 0))
  | 0x46 => row (fld w 13 12 == 0) (.rpub (bf w 23 19) (bf w 18 14) (bf w 11 0))
  | 0x47 => row (fld w 13 12 == 0) (.rtake (bf w 23 19) (bf w 18 14) (bf w 11 0))
  | 0x48 => row (fld w 13 12 == 0) (.rfree (bf w 23 19) (bf w 18 14) (bf w 11 0))
  | 0x49 => row (fld w 13 12 == 0) (.rback (bf w 23 19) (bf w 18 14) (bf w 11 0))
  | 0x4A => row (fld w 13 12 == 0) (.rsteal (bf w 23 19) (bf w 18 14) (bf w 11 0))
  | 0x4B => row (fld w 13 0 == 0) (.rstat (bf w 23 19) (bf w 18 14))
  | 0x4C => row (fld w 23 20 == 0) (.barinit (bf w 19 12) (bf w 11 0))
  | 0x4D => row (fld w 11 0 == 0 && fld w 23 20 == 0) (.barv (bf w 19 12))
  | 0x4E => row (fld w 19 13 == 0) (.tsig (bf w 23 20) (bf w 12 12) (bf w 11 0))
  | 0x4F => row (fld w 18 14 == 0) (.chrd (bf w 23 19) (bf w 13 0))
  | 0x50 => row (fld w 13 0 == 0 && fld w 23 19 == 0) (.lnch (bf w 18 14))
  | 0x51 => row (fld w 13 0 == 0) (.lnchn (bf w 23 19) (bf w 18 14))
  | 0x52 => row (fld w 13 0 == 0 && fld w 23 19 == 0) (.fmtp (bf w 18 14))
  | 0x53 => row (fld w 11 0 == 0 && fld w 23 13 == 0) (.mode (bf w 12 12))
  | 0x54 => row (fld w 23 20 == 0 && fld w 11 0 == 0)
      (.swpt (bf w 19 12) (BitVec.ofNat 32 w1) (BitVec.ofNat 32 w2) (BitVec.ofNat 32 w3))
  | 0x55 => row (fld w 13 0 == 0 && fld w 23 19 == 0) (.pwrl (bf w 18 14))
  | 0x58 => row (fld w 8 4 == 0 && fld w 23 19 == 0) (.musts (bf w 18 14) (bf w 13 9) (bf w 3 0))
  | 0x59 => row (fld w 13 0 == 0 && fld w 23 19 == 0) (.jmark (bf w 18 14))
  | 0x60 => row (fld w 23 0 == 0) (.nop)
  | 0x61 => row (fld w 18 12 == 0) (.sysrd (bf w 23 19) (bf w 11 0))
  | 0x62 =>
    if fld w 13 0 == 3 && fld w 23 19 == 0 then .ok (.modeWrite (bf w 18 14))
    else if fld w 13 0 == 4 && fld w 23 19 == 0 then .ok (.trapVecWrite (bf w 18 14))
    else if fld w 13 0 == 0x17 && fld w 23 19 == 0 then .ok (.frResumeWrite (bf w 18 14))
    else if fld w 13 0 == 0x110 && fld w 23 19 == 0 then .ok (.vstatClear (bf w 18 14))
    else if fld w 13 0 == 0x112 && fld w 23 19 == 0 then .ok (.tokcntWrite (bf w 18 14))
    else if fld w 13 0 == 0x20 && fld w 23 19 == 0 then .ok (.droopThrWrite (bf w 18 14))
    else if fld w 13 4 == 0x10 && fld w 23 19 == 0 then .ok (.wrapAnWrite (bf w 18 14) (bf w 3 0))
    else if fld w 13 4 == 0x12 && fld w 23 19 == 0 then .ok (.ringdWrite (bf w 18 14) (bf w 3 0))
    else if fld w 13 4 == 0x14 && fld w 23 19 == 0 then .ok (.foldSetWrite (bf w 18 14) (bf w 3 0))
    else row (fld w 13 12 == 0 && fld w 23 19 == 0) (.syswr (bf w 18 14) (bf w 11 0))
  | 0x63 => row (fld w 23 14 == 0) (.trap (bf w 13 0))
  | 0x64 => row (fld w 23 0 == 0) (.tret)
  | 0x65 => row (fld w 23 0 == 0) (.halt)
  | 0x66 => row (fld w 23 0 == 0) (.yield)
  | 0x67 => row (fld w 18 1 == 0) (.tstamp (bf w 23 19) (bf w 0 0))
  | 0x68 =>
    if fld w 11 0 == 0 && fld w 23 15 == 0 then .ok (.fenceAcq (bf w 14 12))
    else if fld w 11 0 == 0 && fld w 23 15 == 0x20 then .ok (.fenceRel (bf w 14 12))
    else row (fld w 11 0 == 0 && fld w 23 15 == 0x40) (.fenceFull (bf w 14 12))
  | 0x69 => row (fld w 13 0 == 0 && fld w 23 19 == 0) (.hreq (bf w 18 14))
  | _ => .error .opcode

/-- The modifier word below its check nibble (R55). -/
def decodeMod (w : Nat) : Mod :=
  { sat := bt w 27, clamp := bt w 26, neg := bt w 25, abs := bt w 24, scale := bf w 23 16, clo := bf w 15 11,
    chi := bf w 10 6, round := bf w 5 3, zero := bf w 2 0 }

/-- The token bits of a head word (R50). -/
def decodeTok (w : Nat) : Tok := { wu := bt w 27, wd := bt w 26, su := bt w 25, sd := bt w 24 }

/-- The fields of a VEC instruction (R52). -/
def decodeVF (w0 w1 : Nat) (md : Option Mod) : VF :=
  { tok := decodeTok w0, md := md, vd := bf w0 15 10, va := bf w0 9 4, pg := bf w0 3 0, vb := bf w1 31 26, vc := bf w1 25 20,
    ty := bf w1 19 15, sub := bf w1 14 10, imm := bf w1 9 0 }

/-- The fields of the E layout (R53). -/
def decodeEF (w0 w1 : Nat) (md : Option Mod) : EF :=
  { tok := decodeTok w0, md := md, x := bf w0 15 10, y := bf w0 9 4, al := bf w0 3 2, once := bt w0 1, zero := bt w0 0,
    sa := bf w1 31 27, sb := bf w1 26 22, sc := bf w1 21 17, ad := bf w1 16 13, p := bt w1 12, sub := bf w1 11 7,
    imm := bf w1 6 0 }

/-- The op7 map of VEC (R57). -/
def vecOp (op7 : Nat) (f : VF) : Option Instr :=
  match op7 with
  | 1 => some (.vadd f)
  | 2 => some (.vsub f)
  | 3 => some (.vmul f)
  | 4 => some (.vfma f)
  | 5 => some (.vfms f)
  | 6 => some (.vmin f)
  | 7 => some (.vmax f)
  | 8 => some (.vcmp f)
  | 9 => some (.vsel f)
  | 10 => some (.vcvt f)
  | 11 => some (.vand f)
  | 12 => some (.vor f)
  | 13 => some (.vxor f)
  | 14 => some (.vnot f)
  | 15 => some (.vshl f)
  | 16 => some (.vshr f)
  | 17 => some (.vsra f)
  | 18 => some (.vmov f)
  | 19 => some (.vbc f)
  | 20 => some (.vidx f)
  | 21 => some (.vred f)
  | 22 => some (.vscan f)
  | 23 => some (.vperm f)
  | 24 => some (.vbit f)
  | 25 => some (.vbpat f)
  | 26 => some (.vsf f)
  | 27 => some (.vtopk f)
  | 28 => some (.vrnd f)
  | 29 => some (.vqnt f)
  | 30 => some (.vdq f)
  | 31 => some (.vrcv f)
  | 32 => some (.vsnd f)
  | 33 => some (.vrot f)
  | 34 => some (.pand f)
  | 35 => some (.por f)
  | 36 => some (.pxor f)
  | 37 => some (.pnot f)
  | 38 => some (.pcnt f)
  | 39 => some (.pset f)
  | _ => none

/-- The op7 maps of the other engines (R56); `cpin.ch` and `stch.app` are subforms (R153, R157). -/
def engOp (eng op7 : Nat) (f : EF) : Option Instr :=
  match eng, op7 with
  | 0, 1 => some (if f.sub.getLsbD 2 then .cpinCh f else .cpin f)
  | 0, 2 => some (.ldch f)
  | 0, 3 => some (.ldbc f)
  | 0, 4 => some (.pfch f)
  | 0, 5 => some (.cpcv f)
  | 1, 1 => some (.lease f)
  | 1, 2 => some (.unls f)
  | 1, 3 => some (.wld f)
  | 1, 4 => some (.mma f)
  | 1, 5 => some (.mmas f)
  | 1, 6 => some (.accz f)
  | 1, 7 => some (.drain f)
  | 1, 8 => some (.probe f)
  | 1, 9 => some (.clsf f)
  | 1, 10 => some (.corr f)
  | 1, 11 => some (.tfit f)
  | 1, 12 => some (.tload f)
  | 1, 13 => some (.tsave f)
  | 1, 14 => some (.tset f)
  | 1, 15 => some (.escn f)
  | 1, 16 => some (.rlpop f)
  | 1, 17 => some (.refold f)
  | 3, 1 => some (.cpout f)
  | 3, 2 => some (if f.sub.extractLsb' 0 2 == 3 then .stchApp f else .stch f)
  | 3, 3 => some (.stg f)
  | 3, 4 => some (.stat f)
  | 4, 1 => some (.gath f)
  | 4, 2 => some (.scat f)
  | 4, 3 => some (.ixlist f)
  | 4, 4 => some (.ixpage f)
  | 4, 5 => some (.ixsum f)
  | 5, 1 => some (.cpost f)
  | 5, 2 => some (.cjoin f)
  | 5, 3 => some (.cstat f)
  | _, _ => none

/-- Whether an engine has an op7 (R56, R57). -/
def assignedOp7 (eng op7 : Nat) : Bool :=
  if eng == 2 then (vecOp op7 {}).isSome else (engOp eng op7 {}).isSome

/-- The engine space, with the checks of R60 that decide whether the words are an instruction. -/
def decodeEngine (w0 w1 w2 : Nat) : Except Reject Instr :=
  let eng := fld w0 30 28
  let op7 := fld w0 22 16
  if eng ≥ 6 then .error .engine
  else if !assignedOp7 eng op7 then .error .op7
  else if bt w0 23 && fld w2 31 28 != 10 then .error .modifier
  else
    let md := if bt w0 23 then some (decodeMod w2) else none
    match (if eng == 2 then vecOp op7 (decodeVF w0 w1 md) else engOp eng op7 (decodeEF w0 w1 md)) with
    | some i => .ok i
    | none => .error .op7

/-- The instruction that begins with word `w0` (R43, R44). -/
def decodeWords (w0 w1 w2 w3 : Nat) : Except Reject Instr :=
  if bt w0 31 then decodeEngine w0 w1 w2 else decodeControl w0 w1 w2 w3

/-- Bytes in little-endian order as a number (R22). -/
def leNat : List Byte → Nat
  | [] => 0
  | b :: bs => b.toNat + 256 * leNat bs

/-- The low `n` bytes of a number in little-endian order (R22). -/
def leBytes : Nat → Nat → List Byte
  | 0, _ => []
  | n + 1, x => BitVec.ofNat 8 x :: leBytes n (x / 256)

/-- The word at word index `k` of a byte list. -/
def wordOf (bs : List Byte) (k : Nat) : Nat := leNat ((bs.drop (4 * k)).take 4)

/-- The instruction at the head of a byte list, with the bytes after it. -/
def decodeBytes (bs : List Byte) : Except Reject (Instr × List Byte) :=
  match decodeWords (wordOf bs 0) (wordOf bs 1) (wordOf bs 2) (wordOf bs 3) with
  | .ok i => .ok (i, bs.drop (4 * lengthOf (wordOf bs 0)))
  | .error r => .error r

/-- The bytes of an instruction whose bits are `w`, numbered as the opcode table numbers them, padded with zeros to the
longest instruction. -/
def tableBytes (nbits w : Nat) : List Byte := leBytes 16 (w % 2 ^ nbits)

/-- What the decoder reads from an instruction whose bits are `w`. -/
def decodeTableWord (nbits w : Nat) : Option Instr :=
  match decodeBytes (tableBytes nbits w) with
  | .ok (i, _) => some i
  | .error _ => none

/-- A bit as a number. -/
def bn (b : Bool) : Nat := if b then 1 else 0

/-- The modifier word (R55). -/
def encodeMod (m : Mod) : Nat :=
  0xA0000000 + bn m.sat * 2 ^ 27 + bn m.clamp * 2 ^ 26 + bn m.neg * 2 ^ 25 + bn m.abs * 2 ^ 24 + m.scale.toNat * 2 ^ 16 +
    m.clo.toNat * 2 ^ 11 + m.chi.toNat * 2 ^ 6 + m.round.toNat * 2 ^ 3 + m.zero.toNat

/-- The head word without field A (R50). -/
def encodeHead (eng op7 : Nat) (t : Tok) (m : Bool) : Nat :=
  0x80000000 + eng * 2 ^ 28 + bn t.wu * 2 ^ 27 + bn t.wd * 2 ^ 26 + bn t.su * 2 ^ 25 + bn t.sd * 2 ^ 24 + bn m * 2 ^ 23 +
    op7 * 2 ^ 16

/-- The third word, where there is one. -/
def encodeTail (md : Option Mod) : List Nat :=
  match md with
  | some m => [encodeMod m]
  | none => []

/-- The words of an engine instruction in the E layout (R53). -/
def encodeE (eng op7 : Nat) (f : EF) : List Nat :=
  [encodeHead eng op7 f.tok f.md.isSome + f.x.toNat * 2 ^ 10 + f.y.toNat * 2 ^ 4 + f.al.toNat * 2 ^ 2 + bn f.once * 2 +
      bn f.zero,
    f.sa.toNat * 2 ^ 27 + f.sb.toNat * 2 ^ 22 + f.sc.toNat * 2 ^ 17 + f.ad.toNat * 2 ^ 13 + bn f.p * 2 ^ 12 +
      f.sub.toNat * 2 ^ 7 + f.imm.toNat] ++ encodeTail f.md

/-- The words of a VEC instruction (R52). -/
def encodeV (op7 : Nat) (f : VF) : List Nat :=
  [encodeHead 2 op7 f.tok f.md.isSome + f.vd.toNat * 2 ^ 10 + f.va.toNat * 2 ^ 4 + f.pg.toNat,
    f.vb.toNat * 2 ^ 26 + f.vc.toNat * 2 ^ 20 + f.ty.toNat * 2 ^ 15 + f.sub.toNat * 2 ^ 10 + f.imm.toNat] ++ encodeTail f.md

/-- A control word of format C3 (R46). -/
def c3 (op d a b fn : Nat) : Nat := op * 2 ^ 24 + d * 2 ^ 19 + a * 2 ^ 14 + b * 2 ^ 9 + fn

/-- A control word of format CI (R46). -/
def ci (op d a imm : Nat) : Nat := op * 2 ^ 24 + d * 2 ^ 19 + a * 2 ^ 14 + imm

/-- A control word of format CB (R46). -/
def cb (op cc a off : Nat) : Nat := op * 2 ^ 24 + cc * 2 ^ 20 + a * 2 ^ 15 + off

/-- A control word of format CL (R46). -/
def cl (op lc src endw : Nat) : Nat := op * 2 ^ 24 + lc * 2 ^ 22 + src * 2 ^ 17 + endw

/-- A control word of format CW (R46). -/
def cw (op kind obj cnt : Nat) : Nat := op * 2 ^ 24 + kind * 2 ^ 20 + obj * 2 ^ 12 + cnt

/-- The words of an instruction, written from the encoding tables (R46, R49 to R57).  The device's own steps have none. -/
def encode (i : Instr) : List Nat :=
  match i with
  | .add d a b => [c3 0x01 d.toNat a.toNat b.toNat 0]
  | .sub d a b => [c3 0x02 d.toNat a.toNat b.toNat 0]
  | .mul d a b => [c3 0x03 d.toNat a.toNat b.toNat 0]
  | .mulh d a b => [c3 0x04 d.toNat a.toNat b.toNat 0]
  | .div d a b => [c3 0x05 d.toNat a.toNat b.toNat 0]
  | .rem d a b => [c3 0x06 d.toNat a.toNat b.toNat 0]
  | .and d a b => [c3 0x07 d.toNat a.toNat b.toNat 0]
  | .or d a b => [c3 0x08 d.toNat a.toNat b.toNat 0]
  | .xor d a b => [c3 0x09 d.toNat a.toNat b.toNat 0]
  | .shl d a b => [c3 0x0A d.toNat a.toNat b.toNat 0]
  | .shr d a b => [c3 0x0B d.toNat a.toNat b.toNat 0]
  | .sra d a b => [c3 0x0C d.toNat a.toNat b.toNat 0]
  | .slt d a b => [c3 0x0D d.toNat a.toNat b.toNat 0]
  | .sltu d a b => [c3 0x0E d.toNat a.toNat b.toNat 0]
  | .min d a b => [c3 0x0F d.toNat a.toNat b.toNat 0]
  | .max d a b => [c3 0x10 d.toNat a.toNat b.toNat 0]
  | .minu d a b => [c3 0x11 d.toNat a.toNat b.toNat 0]
  | .maxu d a b => [c3 0x12 d.toNat a.toNat b.toNat 0]
  | .clz d a => [c3 0x13 d.toNat a.toNat 0 0]
  | .ctz d a => [c3 0x13 d.toNat a.toNat 0 1]
  | .popc d a => [c3 0x13 d.toNat a.toNat 0 2]
  | .sel d a b => [c3 0x14 d.toNat a.toNat b.toNat 0]
  | .addi d a imm => [ci 0x15 d.toNat a.toNat imm.toNat]
  | .andi d a imm => [ci 0x16 d.toNat a.toNat imm.toNat]
  | .ori d a imm => [ci 0x17 d.toNat a.toNat imm.toNat]
  | .xori d a imm => [ci 0x18 d.toNat a.toNat imm.toNat]
  | .shli d a c => [ci 0x19 d.toNat a.toNat c.toNat]
  | .shri d a c => [ci 0x1A d.toNat a.toNat c.toNat]
  | .srai d a c => [ci 0x1B d.toNat a.toNat c.toNat]
  | .slti d a imm => [ci 0x1C d.toNat a.toNat imm.toNat]
  | .li d ext => [ci 0x1D d.toNat 0 0, ext.toNat]
  | .lih d ext => [ci 0x1E d.toNat 0 0, ext.toNat]
  | .mov d a => [c3 0x1F d.toNat a.toNat 0 0]
  | .fadd d a b t rnd => [c3 0x20 d.toNat a.toNat b.toNat (t.toNat * 2 ^ 4 + rnd.toNat)]
  | .fsub d a b t rnd => [c3 0x21 d.toNat a.toNat b.toNat (t.toNat * 2 ^ 4 + rnd.toNat)]
  | .fmul d a b t rnd => [c3 0x22 d.toNat a.toNat b.toNat (t.toNat * 2 ^ 4 + rnd.toNat)]
  | .ffma d a b t rnd => [c3 0x23 d.toNat a.toNat b.toNat (t.toNat * 2 ^ 4 + rnd.toNat)]
  | .fmin d a b t => [c3 0x24 d.toNat a.toNat b.toNat (t.toNat * 2 ^ 4)]
  | .fmax d a b t => [c3 0x25 d.toNat a.toNat b.toNat (t.toNat * 2 ^ 4)]
  | .fcmp d a b t c => [c3 0x26 d.toNat a.toNat b.toNat (t.toNat * 2 ^ 4 + c.toNat)]
  | .fcvt d a src t rnd => [c3 0x27 d.toNat a.toNat src.toNat (t.toNat * 2 ^ 4 + rnd.toNat)]
  | .acfg k a b m => [c3 0x28 k.toNat a.toNat b.toNat m.toNat]
  | .aset k a => [c3 0x29 k.toNat a.toNat 0 0]
  | .aget d k => [c3 0x2A d.toNat k.toNat 0 0]
  | .aadd k imm => [ci 0x2B k.toNat 0 imm.toNat]
  | .apost k => [c3 0x2C k.toNat 0 0 0]
  | .lds d p k sz off => [ci 0x30 d.toNat (p.toNat * 2 ^ 4 + k.toNat) (sz.toNat * 2 ^ 11 + off.toNat)]
  | .sts d p k sz off => [ci 0x31 d.toNat (p.toNat * 2 ^ 4 + k.toNat) (sz.toNat * 2 ^ 11 + off.toNat)]
  | .tdef a b t => [c3 0x32 0 a.toNat b.toNat t.toNat]
  | .tfill t => [c3 0x33 0 0 0 t.toNat]
  | .tfree t => [c3 0x34 0 0 0 t.toNat]
  | .tstat d t => [c3 0x35 d.toNat 0 0 t.toNat]
  | .br c a off => [cb 0x38 c.toNat a.toNat off.toNat]
  | .brAlways off => [cb 0x38 6 0 off.toNat]
  | .jmp off => [cb 0x39 0 0 off.toNat]
  | .jmpFar ext => [cb 0x39 1 0 0, ext.toNat]
  | .call off => [cb 0x3A 0 0 off.toNat]
  | .callFar ext => [cb 0x3A 1 0 0, ext.toNat]
  | .jmpr a => [c3 0x3B 0 a.toNat 0 0]
  | .ret => [c3 0x3B 0 1 0 1]
  | .loop lc src endw => [cl 0x3C lc.toNat src.toNat endw.toNat]
  | .loopn lc n endw => [cl 0x3D lc.toNat n.toNat endw.toNat]
  | .loopp lc k endw => [cl 0x3E lc.toNat k.toNat endw.toNat]
  | .lbrk lc => [cl 0x3F lc.toNat 0 0]
  | .wtok eng dir cnt => [cw 0x40 eng.toNat dir.toNat cnt.toNat]
  | .wfil ring n => [cw 0x41 0 ring.toNat n.toNat]
  | .wfre ring n => [cw 0x42 0 ring.toNat n.toNat]
  | .wbar b p => [cw 0x43 0 b.toNat p.toNat]
  | .wlse => [0x44000000]
  | .rclaim d ring n => [ci 0x45 d.toNat ring.toNat n.toNat]
  | .rpub d ring n => [ci 0x46 d.toNat ring.toNat n.toNat]
  | .rtake d ring n => [ci 0x47 d.toNat ring.toNat n.toNat]
  | .rfree d ring n => [ci 0x48 d.toNat ring.toNat n.toNat]
  | .rback d ring n => [ci 0x49 d.toNat ring.toNat n.toNat]
  | .rsteal d ring n => [ci 0x4A d.toNat ring.toNat n.toNat]
  | .rstat d ring => [ci 0x4B d.toNat ring.toNat 0]
  | .barinit b c => [cw 0x4C 0 b.toNat c.toNat]
  | .barv b => [cw 0x4D 0 b.toNat 0]
  | .tsig eng dir cnt => [cw 0x4E eng.toNat dir.toNat cnt.toNat]
  | .chrd d c => [ci 0x4F d.toNat 0 c.toNat]
  | .lnch a => [c3 0x50 0 a.toNat 0 0]
  | .lnchn d a => [c3 0x51 d.toNat a.toNat 0 0]
  | .fmtp a => [c3 0x52 0 a.toNat 0 0]
  | .mode m => [cw 0x53 0 m.toNat 0]
  | .swpt n t0 t1 t2 => [cw 0x54 0 n.toNat 0, t0.toNat, t1.toNat, t2.toNat]
  | .pwrl a => [c3 0x55 0 a.toNat 0 0]
  | .musts a b imm => [c3 0x58 0 a.toNat b.toNat imm.toNat]
  | .jmark a => [c3 0x59 0 a.toNat 0 0]
  | .nop => [0x60000000]
  | .sysrd d imm => [ci 0x61 d.toNat 0 imm.toNat]
  | .syswr a imm => [ci 0x62 0 a.toNat imm.toNat]
  | .modeWrite a => [ci 0x62 0 a.toNat 3]
  | .trapVecWrite a => [ci 0x62 0 a.toNat 4]
  | .frResumeWrite a => [ci 0x62 0 a.toNat 0x17]
  | .wrapAnWrite a n => [ci 0x62 0 a.toNat (0x100 + n.toNat)]
  | .vstatClear a => [ci 0x62 0 a.toNat 0x110]
  | .tokcntWrite a => [ci 0x62 0 a.toNat 0x112]
  | .ringdWrite a n => [ci 0x62 0 a.toNat (0x120 + n.toNat)]
  | .foldSetWrite a n => [ci 0x62 0 a.toNat (0x140 + n.toNat)]
  | .droopThrWrite a => [ci 0x62 0 a.toNat 0x20]
  | .trap c => [ci 0x63 0 0 c.toNat]
  | .tret => [0x64000000]
  | .halt => [0x65000000]
  | .yield => [0x66000000]
  | .tstamp d c => [ci 0x67 d.toNat 0 c.toNat]
  | .fenceAcq scope => [cw 0x68 0 scope.toNat 0]
  | .fenceRel scope => [cw 0x68 1 scope.toNat 0]
  | .fenceFull scope => [cw 0x68 2 scope.toNat 0]
  | .hreq a => [c3 0x69 0 a.toNat 0 0]
  | .cpin f => encodeE 0 1 f
  | .cpinCh f => encodeE 0 1 f
  | .ldch f => encodeE 0 2 f
  | .ldbc f => encodeE 0 3 f
  | .pfch f => encodeE 0 4 f
  | .cpcv f => encodeE 0 5 f
  | .lease f => encodeE 1 1 f
  | .unls f => encodeE 1 2 f
  | .wld f => encodeE 1 3 f
  | .mma f => encodeE 1 4 f
  | .mmas f => encodeE 1 5 f
  | .accz f => encodeE 1 6 f
  | .drain f => encodeE 1 7 f
  | .probe f => encodeE 1 8 f
  | .clsf f => encodeE 1 9 f
  | .corr f => encodeE 1 10 f
  | .tfit f => encodeE 1 11 f
  | .tload f => encodeE 1 12 f
  | .tsave f => encodeE 1 13 f
  | .tset f => encodeE 1 14 f
  | .escn f => encodeE 1 15 f
  | .rlpop f => encodeE 1 16 f
  | .refold f => encodeE 1 17 f
  | .cpout f => encodeE 3 1 f
  | .stch f => encodeE 3 2 f
  | .stchApp f => encodeE 3 2 f
  | .stg f => encodeE 3 3 f
  | .stat f => encodeE 3 4 f
  | .gath f => encodeE 4 1 f
  | .scat f => encodeE 4 2 f
  | .ixlist f => encodeE 4 3 f
  | .ixpage f => encodeE 4 4 f
  | .ixsum f => encodeE 4 5 f
  | .cpost f => encodeE 5 1 f
  | .cjoin f => encodeE 5 2 f
  | .cstat f => encodeE 5 3 f
  | .vadd f => encodeV 1 f
  | .vsub f => encodeV 2 f
  | .vmul f => encodeV 3 f
  | .vfma f => encodeV 4 f
  | .vfms f => encodeV 5 f
  | .vmin f => encodeV 6 f
  | .vmax f => encodeV 7 f
  | .vcmp f => encodeV 8 f
  | .vsel f => encodeV 9 f
  | .vcvt f => encodeV 10 f
  | .vand f => encodeV 11 f
  | .vor f => encodeV 12 f
  | .vxor f => encodeV 13 f
  | .vnot f => encodeV 14 f
  | .vshl f => encodeV 15 f
  | .vshr f => encodeV 16 f
  | .vsra f => encodeV 17 f
  | .vmov f => encodeV 18 f
  | .vbc f => encodeV 19 f
  | .vidx f => encodeV 20 f
  | .vred f => encodeV 21 f
  | .vscan f => encodeV 22 f
  | .vperm f => encodeV 23 f
  | .vbit f => encodeV 24 f
  | .vbpat f => encodeV 25 f
  | .vsf f => encodeV 26 f
  | .vtopk f => encodeV 27 f
  | .vrnd f => encodeV 28 f
  | .vqnt f => encodeV 29 f
  | .vdq f => encodeV 30 f
  | .vrcv f => encodeV 31 f
  | .vsnd f => encodeV 32 f
  | .vrot f => encodeV 33 f
  | .pand f => encodeV 34 f
  | .por f => encodeV 35 f
  | .pxor f => encodeV 36 f
  | .pnot f => encodeV 37 f
  | .pcnt f => encodeV 38 f
  | .pset f => encodeV 39 f
  | .waitConditionMet _ _ => []
  | .translationWalkDone _ _ => []
  | .engineIssue _ _ => []
  | .commandCompletion _ _ _ => []
  | .fenceMarkerRetire _ _ _ => []
  | .modeDrainComplete _ _ => []
  | .haltDrainComplete _ _ => []
  | .unitPlacement _ => []
  | .priorityAgeing _ _ => []
  | .leaseGrant _ => []
  | .leaseEnd _ => []
  | .takeTrap _ _ => []
  | .watchdogExpiry _ _ => []
  | .portAccess _ => []
  | .patrolScrub _ _ => []
  | .launchEntry _ _ _ _ => []
  | .contextCreate _ _ => []
  | .contextDestroy _ _ => []
  | .contextPreempt _ _ _ => []
  | .preemptSaveComplete _ _ => []
  | .contextRestore _ _ => []
  | .contextRecover _ _ => []
  | .keepReportRelease _ _ => []
  | .invalidationEntry _ _ _ _ => []
  | .invalidationComplete _ => []
  | .replyEntry _ _ _ _ => []
  | .eventQueueHeadAdvance _ _ => []
  | .partitionAssignment _ _ => []
  | .attestationRequest _ _ _ => []
  | .firmwareUpdate _ _ => []
  | .weightOverrideLoad _ _ _ => []
  | .groupHandleSet _ _ _ _ _ => []
  | .supplyTrip => []
  | .keepSaveComplete _ => []
  | .bringUp => []
  | .railStep _ => []
  | .railHoldEnd _ => []
  | .estimatorWindowEnd _ => []
  | .droopAlarm _ _ => []
  | .stretchEnd _ => []
  | .halvingEnd _ => []
  | .controllerEvaluation _ => []
  | .contributionArrival _ _ _ _ _ _ => []
  | .roundDeadline _ _ _ _ => []
  | .resultArrival _ _ _ _ _ => []
  | .joinDeadline _ _ _ => []
  | .earlyResultExpiry _ _ _ _ => []
  | .sessionRekey _ _ _ _ => []
  | .illegalInstruction _ => []
  | .unitCompletion _ _ _ _ => []
  | .partitionSchedulePreempt _ => []
  | .spillSpaceFreed _ => []
  | .sessionKeyed _ _ _ _ => []
  | .reserveLost _ => []

end Sys2Proof
end

