-- ==== Sys2Proof/Config.lean ====
section
/-! DEFINITION. What an implementation fixes and what the manual leaves open: constants without a body, so that no proof
can see a value of theirs. -/

namespace Sys2Proof

/-- Who takes the next turn of the machine (log entry 1). -/
inductive Who where
  /-- the sequencer of a core: selects a stream, or fetches and executes the next instruction of the running one -/
  | sequencer (core : Nat)
  /-- a step of the device, of another agent or of the host -/
  | event (i : Instr)
  /-- the host enables a function's queues, giving each ring's size as a power of two: 0 to 7 launch, 8 control, 9 invalidation, 10
  reply, 11 event (R374) -/
  | enable (func : Nat) (sizes : List Nat)
  /-- the host announces an entry of a function's queue (R374) -/
  | doorbell (func queue : Nat) (i : Instr)
  /-- the device serves a function's queues (R374) -/
  | serve (func : Nat)
  deriving DecidableEq, Repr, Inhabited

/-- A turn: the reference nanoseconds that pass before it, and who takes it. -/
structure Turn where
  dt : Nat
  who : Who
  deriving DecidableEq, Repr, Inhabited

end Sys2Proof

namespace Sys2Proof.Config

/-- The agent that moves next when the agenda names none, by the number of the draw (log entry 1). -/
opaque turn (n : Nat) : Turn

/-- A free bit, by the number of the draw (log entry 6). -/
opaque freeBit (n : Nat) : Bool

/-- A free lane mask, by the number of the draw (log entries 6 and 7). -/
opaque freeMask (n : Nat) : BitVec 64

/-- The lanes in which a VEC result, issued with the second number, has landed before the one issued with the first, whose bound
passes before its own (R70, log entry 7). -/
opaque landedBefore (p q : Nat) : BitVec 64

/-- A free number, by the number of the draw (log entries 6 and 8). -/
opaque freeNat (n : Nat) : Nat

/-- A free choice for each byte of an access that races, by the number of the draw (log entries 6 and 10). -/
opaque pick (n i : Nat) : Nat

/-- The fused estimator weight of an event on a die, in 1/16 pJ (R337, log entry 12). -/
opaque weight (die event : Nat) : BitVec 12

/-- The fused static figure of a die at a point, in 1/16 pJ per window (R337, log entry 12). -/
opaque static (die point : Nat) : Nat

/-- The fused figure of a 64-byte access at a die's port, in 1/16 pJ (R338, log entry 12). -/
opaque accessEnergy (die : Nat) : Nat

/-- The sign of the zero that `gelu` or `silu` gives at -0 (R125, log entry 21). -/
opaque vsfZeroSign (fn : Nat) : Bool

/-- The fused minimum security version (R377). -/
opaque minSecver : Nat

/-- The signature that the identity key of a die gives, by the number of the draw (R377, log entry 20). -/
opaque sign (die : Nat) (n : Nat) : Nat

/-- The identity of this module among the members of groups (R363, log entry 20). -/
opaque device : Nat

/-- Whether a recompressed sector still fits the compressed pool of a stack (R203, log entry 18). -/
opaque poolFits (n : Nat) : Bool

end Sys2Proof.Config
end

