-- ==== Sys2Proof/Machine/Store.lean ====
section
/-! DEFINITION. Sparse maps with numbered keys, and byte memories in canonical form. -/

namespace Sys2Proof.Machine

/-- A sparse map: keys strictly rising; a key that is not listed holds a default that the reader names. -/
abbrev Map (α : Type) := List (Nat × α)

/-- The value at a key, where listed. -/
def Map.find {α : Type} (m : Map α) (k : Nat) : Option α :=
  match m with
  | [] => none
  | (i, x) :: r => if i == k then some x else Map.find r k

/-- The value at a key, or a default. -/
def Map.getD {α : Type} (m : Map α) (k : Nat) (d : α) : α := (Map.find m k).getD d

/-- Sets the value at a key. -/
def Map.set {α : Type} (m : Map α) (k : Nat) (x : α) : Map α :=
  match m with
  | [] => [(k, x)]
  | (i, y) :: r => if k < i then (k, x) :: (i, y) :: r else if i == k then (k, x) :: r else (i, y) :: Map.set r k x

/-- Removes a key. -/
def Map.erase {α : Type} (m : Map α) (k : Nat) : Map α :=
  match m with
  | [] => []
  | (i, y) :: r => if i == k then r else (i, y) :: Map.erase r k

/-- A byte memory: addresses strictly rising, no entry equal to what an unlisted address reads as (log entry 5). -/
abbrev Memory := List Host.Cell

/-- What an unlisted byte reads as: HBM4E is zeroed at bring-up (R358) and scratchpad at context creation (R141); log entry 5
for the host aperture. -/
def Memory.unlisted : Byte := 0

/-- The canonical form above an address. -/
def Memory.wfFrom (lo : Nat) (m : Memory) : Bool :=
  match m with
  | [] => true
  | (a, b) :: r => decide (lo ≤ a) && b != Memory.unlisted && Memory.wfFrom (a + 1) r

/-- The canonical form: addresses strictly rising and no listed byte equal to the unlisted one. -/
def Memory.wf (m : Memory) : Bool := Memory.wfFrom 0 m

/-- The byte at an address. -/
def Memory.read (m : Memory) (a : Nat) : Byte :=
  match m with
  | [] => Memory.unlisted
  | (i, b) :: r => if i == a then b else Memory.read r a

/-- Removes what is listed at an address. -/
def Memory.drop (m : Memory) (a : Nat) : Memory :=
  match m with
  | [] => []
  | (i, c) :: r => if i == a then Memory.drop r a else (i, c) :: Memory.drop r a

/-- Lists a byte at an address. -/
def Memory.put (m : Memory) (a : Nat) (b : Byte) : Memory :=
  match m with
  | [] => [(a, b)]
  | (i, c) :: r => if a < i then (a, b) :: (i, c) :: r else if i == a then (a, b) :: r else (i, c) :: Memory.put r a b

/-- Writes one byte, keeping the canonical form. -/
def Memory.write (m : Memory) (a : Nat) (b : Byte) : Memory :=
  if b == Memory.unlisted then Memory.drop m a else Memory.put m a b

/-- The `n` bytes from an address. -/
def Memory.bytes (m : Memory) (a : Nat) : Nat → List Byte
  | 0 => []
  | n + 1 => Memory.read m a :: Memory.bytes m (a + 1) n

/-- Writes bytes from an address up. -/
def Memory.store (m : Memory) (a : Nat) : List Byte → Memory
  | [] => m
  | b :: bs => Memory.store (Memory.write m a b) (a + 1) bs

/-- The bytes of a range, and no others. -/
def Memory.within (m : Memory) (lo hi : Nat) : Memory := m.filter (fun c => decide (lo ≤ c.1) && decide (c.1 < hi))

/-- The bytes outside a range. -/
def Memory.without (m : Memory) (lo hi : Nat) : Memory := m.filter (fun c => !(decide (lo ≤ c.1) && decide (c.1 < hi)))

end Sys2Proof.Machine
end

