-- ==== Sys2Proof/Machine/State.lean ====
section
/-! DEFINITION. The state of the module as plain data, and its value at reset.  A structure's default field values are its
value at reset, or where an iteration starts (R61, R110), as INVENTORY.md lists them. -/

namespace Sys2Proof.Machine

/-- Faults of the model.  There are none: every failure the manual describes is a trap, a context state or a host status,
which are next states. -/
inductive Fault where
  deriving DecidableEq, Repr

/-- Refusals of the model. -/
inductive Refusal where
  /-- An instruction without a meaning: raised by its arm of `exec` only; safe. -/
  | notModelled (mnemonic : String)
  deriving DecidableEq, Repr

/-- An address register with its slot configuration (R61, R78). -/
structure AddrReg where
  value : W64 := 0
  base : W64 := 0
  length : BitVec 32 := 0
  step : BitVec 32 := 0
  mode : BitVec 2 := 0
  wrap : BitVec 32 := 0
  deriving DecidableEq, Repr, Inhabited

/-- A hardware loop counter (R61, R83).  `order` is larger for a newer counter. -/
structure LoopCtr where
  count : BitVec 32 := 0
  start : W64 := 0
  last : W64 := 0
  active : Bool := false
  order : Nat := 0
  deriving DecidableEq, Repr, Inhabited

/-- Why a dispatch waits and is executed afresh (R67, R197, R214, R326). -/
inductive Stall where
  | queue (eng : Nat)       -- the engine's queue is full
  | fenceQueues             -- one of a fence's five queues is full
  | journal                 -- all 32 records of the slot are live
  | pin (entry : Nat)       -- a page's in-flight count stands at 65,535
  | cache                   -- the die cache has no entry left that is not pinned (R216)
  deriving DecidableEq, Repr, Inhabited

/-- What a waiting stream waits for (R62, R63, R87). -/
inductive Wait where
  | tok (byte n : Nat)
  | fil (ring n : Nat)
  | fre (ring n : Nat)
  | bar (b ph : Nat)
  | lse
  | stall (s : Stall)
  | walk (va : Nat)
  | chan (ch : Nat)
  | pool (dies : List Nat) (depth : Nat)
  | post (v : W64)
  | reply
  | drain (exp : Bool)
  deriving DecidableEq, Repr, Inhabited

/-- The state of a stream slot (R62). -/
inductive SState where
  | free
  | ready
  | running
  | waiting (w : Wait)
  | halting
  deriving DecidableEq, Repr, Inhabited

/-- A cached translation: page number, size as a power of two, physical base and rights (R194, R197, R201). -/
structure Pin where
  id : Nat := 0
  vbase : Nat := 0
  size : Nat := 16
  pbase : Nat := 0
  cmp : Bool := false
  deriving DecidableEq, Repr, Inhabited

/-- A range of addresses, upper end excluded. -/
structure Span where
  lo : Nat := 0
  hi : Nat := 0
  deriving DecidableEq, Repr, Inhabited

/-- A channel entry (R182). -/
structure ChEntry where
  data : Vec := 0
  mask : BitVec 64 := 0
  deriving DecidableEq, Repr, Inhabited

/-- Streaming commands and loads of the stream's MXE program order that the bank-group rule still looks at (R239). -/
structure MxeWin where
  /-- plane, bank groups of the A tile, first row, row count of the last streaming command -/
  stream : Option (Nat × Nat × Nat × Nat) := none
  /-- bank groups of the source tile of an open `wld` window, by plane -/
  open0 : Option Nat := none
  open1 : Option Nat := none
  deriving DecidableEq, Repr, Inhabited

/-- A queue entry: an engine command with what it captured at dispatch, or a fence marker (R66, R67, R214, R326). -/
structure Cmd where
  j : Nat := 0
  i : Instr := .nop
  head : W32 := 0
  body : W32 := 0
  modw : W32 := 0
  pc : W64 := 0
  a : W64 := 0
  b : W64 := 0
  c : W64 := 0
  addr : W64 := 0
  clo : W64 := 0
  chi : W64 := 0
  fmt : Option W32 := none
  exact : Bool := false
  /-- kind (0 acq, 1 rel, 2 full) and scope of a marker -/
  mark : Option (Nat × Nat) := none
  pins : List Pin := []
  gspan : List Span := []
  sspan : List Span := []
  al : Nat := 0
  /-- tiles it names, once each, and the tile it writes with whether it is a finishing write (R147) -/
  tiles : List Nat := []
  wr : Option (Nat × Bool) := none
  /-- requeued by replay for its data effects only (R328) -/
  dataOnly : Bool := false
  /-- the list tile's cursor at dispatch, or units published (R262, R304); of a marker, its queue -/
  aux : Nat := 0
  /-- of a replayed `ixlist`, the slot that its present unit had claimed, with the claims that the ring had seen by then (R302, R304) -/
  claim : Option (Nat × Nat) := none
  /-- geometry of the ring that `ixlist` read at dispatch: home core, slots, slot size, base, ring (R301) -/
  ring : Option (Nat × Nat × Nat × Nat × Nat) := none
  /-- a replayed command (R328, R372) -/
  replay : Bool := false
  round : Option Nat := none
  /-- of a command in flight: its slot and its order of issue -/
  slot : Nat := 0
  order : Nat := 0
  /-- of a command requeued by replay: the windows of the bank-group rule after those behind it that replay skips (R239, R328) -/
  winTo : Option MxeWin := none
  deriving DecidableEq, Repr, Inhabited

/-- A release of a stream through memory: its slot, its context, its scope and the narrowest that an acquire may have, the number of the
command that it stands before, and its own number (R220, R221). -/
structure Release where
  core : Nat := 0
  slot : Nat := 0
  ctx : Nat := 0
  scope : Nat := 0
  need : Nat := 0
  j : Nat := 0
  no : Nat := 0
  deriving DecidableEq, Repr, Inhabited

/-- A reduction or atomic on its way to, or held at, a home port (R207, R208). -/
structure Red where
  pa : Nat := 0
  op : Nat := 0
  ty : Nat := 0
  x : Nat := 0
  ctx : Nat := 0
  ident : Nat := 0
  j : Nat := 0
  idx : Nat := 0
  exact : Bool := false
  /-- its page is compressed (R202) -/
  cmp : Bool := false
  /-- its virtual address, the unit of its command that it belongs to, and when that command issued (R162, R226) -/
  va : Nat := 0
  unit : Nat := 0
  order : Nat := 0
  /-- the releases before its command (R220) -/
  rels : List Release := []
  deriving DecidableEq, Repr, Inhabited

/-- A plane-list entry (R254). -/
structure PEntry where
  row : Nat := 0
  col : Nat := 0
  val : W32 := 0
  deriving DecidableEq, Repr, Inhabited

/-- A weight plane (R228).  A row is a number that packs 256 elements from the low bits up; `scales` packs the 256 block
scales of a block row, and `codes` the 256 metadata codes of a group. -/
structure Plane where
  loaded : Bool := false
  fmt : Nat := 0
  sparse : Bool := false
  rows : Map Nat := []
  scales : Map Nat := []
  codes : Map Nat := []
  list : List PEntry := []
  tag : Option Nat := none
  deriving DecidableEq, Repr, Inhabited

/-- Row statistics (R272). -/
structure RowStat where
  norm : W32 := 0
  eta : W32 := 0
  ks : Nat := 0
  deriving DecidableEq, Repr, Inhabited

/-- An escape record (R275). -/
structure Esc where
  t : Nat := 0
  c : Nat := 0
  e : Nat := 0
  near : Bool := false
  z : BitVec 40 := 0
  deriving DecidableEq, Repr, Inhabited

/-- What of the slab a command has changed, as it stood when the command issued (R163, R350): rows, scales and codes of planes, by
2^16·plane + row, planes but for these, rows of the accumulators, and the rest. -/
structure SlabSide where
  rows : Map Nat := []
  scales : Map Nat := []
  codes : Map Nat := []
  heads : Map Plane := []
  acc : Map (BitVec 10240) := []
  stats : Map RowStat := []
  esc : Option (List Esc) := none
  table : Map (BitVec 256) := []
  refresh : Option (List (Nat × Nat)) := none
  deriving DecidableEq, Repr, Inhabited

/-- A command that has issued and not completed, with its progress (R160, R213, R295). -/
structure Flight where
  eng : Nat := 0
  cmd : Cmd := {}
  /-- completed units -/
  cursor : Nat := 0
  units : Nat := 0
  /-- channel pieces of the present unit already moved -/
  piece : Nat := 0
  /-- order of issue -/
  order : Nat := 0
  /-- stopped at its cursor by a fault not yet returned from (R162, R296) -/
  failed : Bool := false
  /-- commit entries of a once-only command, with where each old value goes (R351) -/
  commits : List (Red × Option Nat) := []
  committed : Bool := false
  /-- the old values that it has yet to store in scratchpad after its commit (R212, R351) -/
  rets : List (Nat × List Byte) := []
  /-- the ring sequence number claimed for the present unit (R301) -/
  claim : Option Nat := none
  /-- the claims that the ring had seen by then (R302) -/
  claimNo : Nat := 0
  /-- the row that the present unit has read, and the first failing address of it (R295, R302) -/
  row : List Byte := []
  rowBad : Option Nat := none
  round : Option Nat := none
  /-- channel entries that it has popped, and pushed (R163, R262) -/
  popped : List ChEntry := []
  pushed : List ChEntry := []
  /-- of a VEC command of an exposed region: the effective cycle of its issue and the one by which everything of it has landed (R58) -/
  lands : Option (Nat × Nat) := none
  /-- of a slab command, what it has changed -/
  undo : Option SlabSide := none
  /-- the data effects are complete -/
  done : Bool := false
  deriving DecidableEq, Repr, Inhabited

/-- Where a VEC result lands: a physical register, a physical predicate, a pattern or VSTAT (R58, R109, R136). -/
inductive VDst where
  | v (k : Nat)
  | p (k : Nat)
  | pat (k : Nat)
  | vstat
  deriving DecidableEq, Repr, Inhabited

/-- A VEC result issued and not landed (R70): the bits it still writes, its bound, how many VEC instructions of the stream have
issued since, the effective cycle by which it lands (R58), and the number of the draw that it came with. -/
structure PWrite where
  j : Nat := 0
  dst : VDst := .v 0
  mask : Vec := 0
  val : Vec := 0
  bound : Nat := 0
  age : Nat := 0
  due : Nat := 0
  seed : Nat := 0
  deriving DecidableEq, Repr, Inhabited

/-- A fault of an engine that awaits being taken (R316, R317). -/
structure PFault where
  eng : Nat := 0
  cause : Nat := 0
  pc : W64 := 0
  j : Nat := 0
  stat : W64 := 0
  va : W64 := 0
  cursor : Nat := 0
  /-- the queue is halted at the command until its handler returns -/
  halts : Bool := true
  deriving DecidableEq, Repr, Inhabited

/-- FAULT_REC (R314). -/
structure FaultRec where
  cause : W64 := 0
  ident : W64 := 0
  pc : W64 := 0
  jnum : W64 := 0
  stat : W64 := 0
  va : W64 := 0
  cursor : W64 := 0
  resume : W64 := 0
  deriving DecidableEq, Repr, Inhabited

/-- A journal record (R326): kind 0 command, 1 fence marker, 2 mark. -/
structure JRec where
  j : Nat := 0
  kind : Nat := 0
  cmd : Cmd := {}
  value : W64 := 0
  once : Bool := false
  done : Bool := false
  issued : Bool := false
  /-- the windows of the bank-group rule that the command found when it issued in MXE, and those that it left (R239) -/
  win : Option MxeWin := none
  winAfter : Option MxeWin := none
  deriving DecidableEq, Repr, Inhabited

/-- Lease state of a stream (R230). -/
inductive Lease where
  | none
  | requested
  | held
  | lapsed
  deriving DecidableEq, Repr, Inhabited

/-- The placement unit a slot runs (R94): its nest and the die that launched it, its charge, the nest's levels as (extent, kind,
position), the number of the unit among the combinations of spatial indices, and the number of its present iteration among the
temporal ones. -/
structure UnitRec where
  nest : Nat := 0
  home : Nat := 0
  depth : Nat := 0
  demand : Demand := {}
  entry : W64 := 0
  levels : List (Nat × Nat × Nat) := []
  spatial : Nat := 0
  iter : Nat := 0
  deriving DecidableEq, Repr, Inhabited

/-- A stream slot (R61, R110, and the items of R323). -/
structure Stream where
  st : SState := .free
  pc : W64 := 0
  s : Map W64 := []
  a : Map AddrReg := []
  lc : Map LoopCtr := []
  p : Map (BitVec 64) := []
  alloc : Nat := 8
  v : Map Vec := []
  rrb : Nat := 0
  prb : Nat := 0
  pats : Map (BitVec 224) := []
  dqmiss : Bool := false
  olclamp : Bool := false
  exp : Bool := false
  tok : BitVec 64 := 0
  queues : Map (List Cmd) := []
  flights : List Flight := []
  pend : List PWrite := []
  rctr : W64 := 0
  fmtq : List W32 := []
  lease : Lease := .none
  renew : Bool := false
  reqAt : Nat := 0
  win : MxeWin := {}
  fr : FaultRec := {}
  intrap : Bool := false
  faults : List PFault := []
  /-- the model's own: when a trap that is being taken has last begun to wait for what VEC has issued, plus 1 (R71, R317, R325) -/
  heldAt : Nat := 0
  halted : BitVec 6 := 0
  tscr0 : W64 := 0
  tscr1 : W64 := 0
  jcnt : W64 := 0
  journal : List JRec := []
  jmarkV : W64 := 0
  hreply : W64 := 0
  /-- a host reply that arrived while the context was saved (R322) -/
  heldReply : Option W64 := none
  progress : Nat := 0
  /-- its releases, the releases whose writes it has read and not yet acquired, and its acquires that commands not complete stand before:
  the scope, 8 more for one of `fence.full`, and the number of the command behind it (R220) -/
  rels : List Release := []
  gained : List Release := []
  acqs : List (Nat × Nat) := []
  unit : Option UnitRec := none
  deriving DecidableEq, Repr, Inhabited

/-- State of a tile (R144, R146). -/
inductive TState where
  | empty
  | filling
  | ready
  | draining
  deriving DecidableEq, Repr, Inhabited

/-- A tile-table entry (R144), with the count of outstanding writes and whether the finishing write has completed (R146,
R147). -/
structure Tile where
  d0 : W64 := 0
  d1 : W64 := 0
  st : TState := .empty
  fin : Bool := false
  out : Nat := 0
  cursor : Nat := 0
  writes : Nat := 0
  finDone : Bool := false
  deriving DecidableEq, Repr, Inhabited

/-- A ring at its home (R165, R168). -/
structure Ring where
  slots : Nat := 0
  size : Nat := 16
  base : Nat := 0
  rp : BitVec 32 := 0
  tp : BitVec 32 := 0
  pp : BitVec 32 := 0
  fp : BitVec 32 := 0
  /-- claims made so far (R302) -/
  claims : Nat := 0
  deriving DecidableEq, Repr, Inhabited

/-- A core. -/
structure Core where
  spad : Memory := []
  tiles : Map Tile := []
  rings : Map Ring := []
  /-- home core of each handle, the core's own where not listed (R166) -/
  homes : Map Nat := []
  chans : Map (List ChEntry) := []
  /-- entries that VEC commands have issued and not pushed yet: order of issue, channel and entry (R58, R133) -/
  pushing : List (Nat × Nat × ChEntry) := []
  planes : Map Plane := []
  acc : Map (BitVec 10240) := []
  accBad : Bool := false
  accTag : Option Nat := none
  stats : Map RowStat := []
  esc : List Esc := []
  fsa : Map W64 := []
  fsb : Map W64 := []
  tabTag : Option Nat := none
  last : Nat := 0
  /-- when each engine last served each slot, by 8·engine + slot (R66) -/
  served : Map Nat := []
  resident : Option Nat := none
  streams : Map Stream := []
  /-- charges in use: the shared pool, and whether slots 5 to 7 are charged by their unit (R97) -/
  used : Demand := {}
  deriving DecidableEq, Repr, Inhabited

/-- A barrier (R186). -/
structure Bar where
  expected : Nat := 0
  arrival : Nat := 0
  phase : Bool := false
  deriving DecidableEq, Repr, Inhabited

/-- The clock pattern of the canonical 1-pulse period (R332, point 0). -/
def pattern0 : BitVec 16 := 0x8000

/-- A cluster. -/
structure Cluster where
  bars : Map Bar := []
  holder : Option (Nat × Nat) := none
  grantAt : Nat := 0
  issued : Nat := 0
  lastCore : Nat := 3
  table : Map (BitVec 256) := []
  refresh : List (Nat × Nat) := []
  /-- effective cycles at `since`, the reference time from which the pattern counts, in its slot `phase` (R332, R347) -/
  effBase : Nat := 0
  since : Nat := 0
  phase : Nat := 0
  pattern : BitVec 16 := pattern0
  /-- a pattern that is taken at the start of the next period, and that time (R335) -/
  pending : Option (Nat × BitVec 16) := none
  /-- a stretch of 6 effective cycles begins at `since`, and `phase` is the slot after it (R340) -/
  stretch : Bool := false
  /-- effective cycle at which a halving window of 64 began (R340) -/
  halvingAt : Option Nat := none
  alarms : Nat := 0
  /-- events counted in the running window, by 64·account + event (R337) -/
  counts : Map Nat := []
  /-- charge per account in the previous window, in 1/64 pJ -/
  prevCharge : Map Nat := []
  winStart : Nat := 0
  prevE : Nat := 0
  /-- what ballast brings the next window up to, and the account it is charged to (R341) -/
  ballast : Nat := 0
  ballastAcct : Nat := 0
  deriving DecidableEq, Repr, Inhabited

/-- A nest in a die's pending pool (R100): the snapshot, and what is placed and has not halted.  Every die that the nest uses
holds such a record. -/
structure Nest where
  id : Nat := 0
  ctx : Nat := 0
  /-- the die that launched it -/
  home : Nat := 0
  depth : Nat := 0
  demand : Demand := {}
  entry : W64 := 0
  done : Nat := 0
  donePin : Pin := {}
  value : W64 := 0
  /-- extent, kind and position of each level -/
  levels : List (Nat × Nat × Nat) := []
  mask : Nat := 0
  /-- the next unit of this die, by its number among the spatial combinations -/
  next : Nat := 0
  running : Nat := 0
  /-- declared priority, and the effective one (R99) -/
  decl : Nat := 0
  prio : Nat := 0
  /-- reference time of the last placement, or of acceptance or ageing -/
  since : Nat := 0
  /-- order of service among equal priorities (R99) -/
  turn : Nat := 0
  deriving DecidableEq, Repr, Inhabited

/-- A die-cache entry (R197, R199, R201). -/
structure TlbE where
  ctx : Nat := 0
  pin : Pin := {}
  r : Bool := false
  w : Bool := false
  x : Bool := false
  nc : Bool := false
  count : Nat := 0
  retiring : Bool := false
  deriving DecidableEq, Repr, Inhabited

/-- A line held in exact mode (R208). -/
structure Held where
  line : Nat := 0
  reds : List Red := []
  deriving DecidableEq, Repr, Inhabited

/-- How the rail moves (R335). -/
inductive Rail where
  | still
  | rise
  | hold
  | fall
  deriving DecidableEq, Repr, Inhabited

/-- A region as a keep-store record holds it (R352, R358): 1 whole, 2 torn, 3 absent. -/
structure KRegion where
  id : Nat := 0
  base : Nat := 0
  data : List Byte := []
  len : Nat := 0
  status : Nat := 3
  deriving DecidableEq, Repr, Inhabited

/-- A must-save entry in force (R355, R356). -/
structure Must where
  declared : Nat := 0
  base : Nat := 0
  bytes : Nat := 0
  pins : List (Nat × Pin) := []
  deriving DecidableEq, Repr, Inhabited

/-- What a saved context or a state image holds of one core, of the cluster table and list, and of its barriers (R323, R354). -/
structure Image where
  cores : List (Nat × Core) := []
  bars : List (Nat × Nat × Bar) := []
  table : List (Nat × Nat × BitVec 256) := []
  refresh : List (Nat × Nat × Nat) := []
  /-- (die, record) of its pending records -/
  nests : List (Nat × Nest) := []
  exact : Bool := false
  trapVec : W64 := 0
  deriving DecidableEq, Repr, Inhabited

/-- A context's part of a die record (R352). -/
structure KCtx where
  id : Nat := 0
  part : Nat := 0
  prio : Nat := 0
  cores : List Nat := []
  allCores : List Nat := []
  musts : Map Must := []
  image : Image := {}
  whole : Bool := false
  regions : List KRegion := []
  deriving DecidableEq, Repr, Inhabited

/-- A die record in a keep-store slot (R352). -/
structure KRec where
  seq : Nat := 0
  ts : Nat := 0
  ctxs : List KCtx := []
  sealed : Bool := false
  deriving DecidableEq, Repr, Inhabited

/-- A die. -/
structure Die where
  nests : List Nest := []
  /-- pending records of restored contexts for which their partition of the pool has no room yet (R100, R105) -/
  waiting : List Nest := []
  /-- core after which placement looks next, by context (R96) -/
  rr : Map Nat := []
  tlb : Map TlbE := []
  held : List Held := []
  mv : Nat := 550
  target : Nat := 0
  rail : Rail := .still
  /-- when the next rail step or the end of the hold is due -/
  railAt : Nat := 0
  /-- the last pattern change that a fall of the target brought, or else the fall (R335) -/
  patAt : Nat := 0
  ctrlAt : Nat := 0
  /-- per partition: budget level, energy of the running period, and how many evaluations in a row stood below 0.75 (R343) -/
  level : Map Nat := []
  energy : Map Nat := []
  calm : Map Nat := []
  dieEnergy : Nat := 0
  weights : List (BitVec 12) := []
  keep0 : Option KRec := none
  keep1 : Option KRec := none
  /-- record being written by a save in progress, and its slot -/
  saving : Option (KRec × Nat) := none
  /-- whether the reserve will not last until that save has ended (R360, log entry 34) -/
  failing : Bool := false
  report : Bool := false
  /-- errors that ECC has corrected, counted for the host (R379) -/
  corrected : Nat := 0
  deriving DecidableEq, Repr, Inhabited

/-- Where a context stands (R308, R317, R322, R325). -/
inductive CtxSt where
  | resident
  | saving
  | saved
  | torn
  deriving DecidableEq, Repr, Inhabited

/-- A context (R308). -/
structure Ctx where
  cfg : CtxCfg := {}
  st : CtxSt := .resident
  faulted : Bool := false
  exact : Bool := false
  trapVec : W64 := 0
  thr : Nat := 40
  pclose : Nat := 0
  keepStat : W64 := 0
  musts : Map Must := []
  savePins : List (Nat × Pin) := []
  /-- per die: vote and requested level (R334, R336) -/
  vote : Map Nat := []
  req : Map Nat := []
  image : Image := {}
  /-- rounds that replayed `cpost` commands have taken of handles that the host has not set again, by 16 · die + g: the next one (R372) -/
  taken : Map Nat := []
  /-- its save area has been written while it is saved (R309) -/
  spoiled : Bool := false
  beneficiary : Option Nat := none
  /-- the function whose pre-emption entry completes with the save (R322, R374) -/
  entry : Option Nat := none
  deriving DecidableEq, Repr, Inhabited

/-- A partition (R381, R334). -/
structure Part where
  cores : List Nat := []
  quota : Nat := 0
  share : List Nat := []
  ceil : List Nat := []
  deriving DecidableEq, Repr, Inhabited

/-- A write, or the reductions of a unit, that a die has sent to a remote home and that its home has not applied (R219). -/
structure Transit where
  src : Nat := 0
  home : Nat := 0
  core : Nat := 0
  slot : Nat := 0
  j : Nat := 0
  pa : Nat := 0
  /-- its page is compressed (R202) -/
  cmp : Bool := false
  bytes : List Byte := []
  reds : List Red := []
  /-- the value that a reduction or an atomic gives (R226) -/
  rmw : Bool := false
  /-- when it was sent, and when its command issued, among the commands issued -/
  stamp : Nat := 0
  order : Nat := 0
  /-- the releases before it (R220) -/
  rels : List Release := []
  deriving DecidableEq, Repr, Inhabited

/-- Something done to bytes of memory that matters to commands not complete (R163, R219, R226), in the order in which the accesses take
place: a byte written over, with what it held; or a look, at which an access found what a range held. -/
structure Race where
  addr : Nat := 0
  /-- the bytes of a look -/
  len : Nat := 1
  look : Bool := false
  old : Byte := 0
  /-- the command that did it (core, slot and number) -/
  who : Option (Nat × Nat × Nat) := none
  /-- when it was sent and when it took place, among the commands issued -/
  stamp : Nat := 0
  at_ : Nat := 0
  rmw : Bool := false
  /-- the number of the access, and the releases before the write that it has written over (R220) -/
  no : Nat := 0
  rels : List Release := []
  deriving DecidableEq, Repr, Inhabited

/-- Who comes after something done, or what passes it on (R143, R217 to R223, R227): a stream's instructions of a slot (loads, or stores with
`wr`); a command of a slot (reads, or writes with `wr`); a command that did it or found it, with its alias class; the commands of a slot that
have completed (through their reads, or all that they did with `wr`) and those dispatched behind a fence of it; what a stream has observed
without acquiring it; a token counter, the completed writes into a tile, a ready tile, a slot of a ring, a barrier's running phase and its
completed ones, a release through memory, a nest and the ends of its streams. -/
inductive Knower where
  | str (core slot : Nat) (wr : Bool)
  | cmd (core slot j : Nat) (wr : Bool)
  | own (core slot j al : Nat)
  | done (core slot : Nat) (wr : Bool)
  | fen (core slot : Nat) (wr : Bool)
  | obs (core slot : Nat)
  | tok (core slot byte : Nat)
  | fill (core tile : Nat)
  | tile (core tile : Nat)
  | ring (home ring slot : Nat)
  | arr (cl bar : Nat)
  | bar (cl bar : Nat)
  | rel (no : Nat)
  | nest (id : Nat)
  | out (id : Nat)
  deriving DecidableEq, Repr, Inhabited

/-- What has been done: bytes of a core's scratchpad written over, with what they held; or MODE.EXACT written by the stream of a slot, with
its value before (R143, R313). -/
inductive What where
  | bytes (core addr : Nat) (old : List Byte)
  | exact (by_ : Option (Nat × Nat)) (old : Bool)
  deriving DecidableEq, Repr, Inhabited

/-- Something done in a context, in the order of each byte: its number, the command that did it (core, slot and number), who comes after
it, and the releases before it (R220). -/
structure Deed where
  no : Nat := 0
  ctx : Nat := 0
  what : What := .exact none false
  who : Option (Nat × Nat × Nat) := none
  known : List Knower := []
  rels : List Release := []
  deriving DecidableEq, Repr, Inhabited

/-- A page-table word that a device's write has replaced: how many invalidations came before, its number in words of 8 bytes, and
what it held (R199). -/
structure OldEntry where
  epoch : Nat := 0
  word : Nat := 0
  old : Nat := 0
  deriving DecidableEq, Repr, Inhabited

/-- An event that the device posts to a function's event queue (R374). -/
inductive HostEvent where
  | hreq (ctx ident : Nat) (value : W64) (fr : FaultRec)
  | faulted (ctx : Nat) (fr : FaultRec) (second : Option FaultRec)
  | refused (ctx : Nat)
  | saved (ctx : Nat)
  | torn (ctx : Nat)
  | spill (stack : Nat)
  /-- slots by die, and each region's report -/
  | keepReport (ctx : Nat) (whole : Bool) (slots regions : List (Nat × Nat))
  | resetCause (cause : Nat)
  /-- firmware measurement, capability list, configurations, and the signature of each die -/
  | attestation (part nonce hash : Nat) (caps : List CapRec) (cfg : Part) (ctxs : List CtxCfg) (signatures : List (Nat × Nat))
  deriving DecidableEq, Repr, Inhabited

/-- A completion entry (R374): function, queue (0 launch, 1 control, 2 invalidation, 3 reply) and status. -/
structure Completion where
  func : Nat := 0
  queue : Nat := 0
  status : Nat := 0
  deriving DecidableEq, Repr, Inhabited

/-- An invalidation request in progress (R199). -/
structure Inval where
  ctx : Nat := 0
  lo : Nat := 0
  len : Nat := 0
  /-- (die, entry) of the cached translations it waits for -/
  ents : List (Nat × Nat) := []
  deriving DecidableEq, Repr, Inhabited

/-- A round of a group handle (R365, R369); `at_` is when this member's `cpost` issued. -/
structure Round where
  r : Nat := 0
  op : Nat := 0
  n : Nat := 0
  comp : Bool := false
  at_ : Nat := 0
  /-- at the root: what has come in time, by member, and whether this member's own source has been read -/
  contribs : List (Nat × Contrib) := []
  own : Bool := false
  result : Option RResult := none
  /-- taken by a `cjoin`; lost to it, as 2D has passed; and it has completed while the root has still to form the result -/
  joined : Bool := false
  lost : Bool := false
  gone : Bool := false
  deriving DecidableEq, Repr, Inhabited

/-- A group handle of a context on a die (R363 to R371). -/
structure Group where
  ctx : Nat := 0
  die : Nat := 0
  g : Nat := 0
  cfg : GroupCfg := {}
  next : Nat := 0
  rounds : List Round := []
  /-- contributions that came before this member's own `cpost`: round, member -/
  ahead : List (Nat × Nat × Contrib) := []
  /-- early results: round, arrival time -/
  early : List (Nat × Nat × RResult) := []
  /-- members whose session is keyed -/
  keyed : List Nat := []
  /-- packets that failed authentication, counted for the host (R364) -/
  failed : Nat := 0
  /-- of members on this module, the handle that this one is paired with there, as far as packets have shown: context, die and number -/
  peers : Map (Nat × Nat × Nat) := []
  deriving DecidableEq, Repr, Inhabited

/-- A packet that a member of this module has sealed and sent, and that no member of this module has received (R364, R365): the
group by its members, the sender's handle (context, die and number), sender and receiver by index, the round, and a contribution or a result. -/
structure Packet where
  sender : Nat × Nat × Nat := (0, 0, 0)
  members : List (Nat × Nat × Nat) := []
  src : Nat := 0
  dst : Nat := 0
  round : Nat := 0
  contrib : Option Contrib := none
  result : Option RResult := none
  deriving DecidableEq, Repr, Inhabited

/-- Where bring-up stands (R377, R378). -/
inductive Boot where
  | off                     -- powered or reset, firmware not yet verified
  | recovery                -- firmware refused
  | up
  | saving                  -- a supply loss is being saved
  deriving DecidableEq, Repr, Inhabited

/-- An energy account (R338): nanojoules, and the remainder in 1/64 pJ. -/
structure Account where
  nj : Nat := 0
  rem : Nat := 0
  deriving DecidableEq, Repr, Inhabited

/-- The module. -/
structure State where
  /-- TSTAMP_REF, in ns (R347) -/
  now : Nat := 0
  boot : Boot := .off
  resetCause : Nat := 0
  /-- when the supply monitor last tripped, and what the hold-up reserve still holds of its energy, in 1/64 pJ (R1, R348) -/
  tripAt : Nat := 0
  reserve : Nat := 0
  fw : FwImage := {}
  fwNext : Option FwImage := none
  mem : Memory := []
  poison : List Nat := []
  /-- what saves have laid down in save areas: physical ranges, upper ends excluded, with the number of a draw (R309, R322) -/
  laid : List (Nat × Nat × Nat) := []
  transit : List Transit := []
  /-- writes to the host aperture that die 0's port has accepted and the root port has not (R219) -/
  root : List Transit := []
  /-- words of page tables that the device has overwritten, and the ranges (context, base, length) that the host has invalidated or a
  creation has covered, oldest first (R199) -/
  oldEntries : List OldEntry := []
  covers : List (Nat × Nat × Nat) := []
  /-- code: pages a context has fetched from, and words (context, virtual address, old word) overwritten since (R45) -/
  fetched : List (Nat × Pin) := []
  stale : List (Nat × Nat × W32) := []
  /-- what has been done to bytes of memory while it matters to commands not complete; what has been done to scratchpad and to MODE.EXACT
  that someone need not come after; and how many accesses have been noted -/
  races : List Race := []
  deeds : List Deed := []
  accesses : Nat := 0
  /-- ranges of memory that hold what a write after releases has left there, with these (R220, R313) -/
  marks : List (Nat × Nat × List Release) := []
  cores : Map Core := []
  clusters : Map Cluster := []
  dies : Map Die := []
  ctxs : Map Ctx := []
  parts : Map Part := []
  accounts : Map Account := []
  groups : List Group := []
  wire : List Packet := []
  /-- by function whose queues the host has enabled, the sizes of its rings as powers of two, the event queue's at number 11 (R374) -/
  queues : Map (List Nat) := []
  /-- a function's event ring, and the events that wait for a free entry of it -/
  events : Map (List HostEvent) := []
  lateEvents : Map (List HostEvent) := []
  /-- entries that the host has announced and the device has not yet served, by 16·function + queue (0 to 7 launch, 8 control, 9
  invalidation, 10 reply), each as the row that serves it; and the queue of each function served last (R374) -/
  subs : Map (List Instr) := []
  served : Map Nat := []
  completions : List Completion := []
  invals : Map (List Inval) := []
  /-- sectors in the spill area of each stack (R203) -/
  spill : Map Nat := []
  nextNest : Nat := 0
  nextPin : Nat := 0
  stamp : Nat := 0
  /-- the model's own: the turns to come, the number of the next draw, the core whose stream a control step is of -/
  agenda : List Turn := []
  draws : Nat := 0
  sel : Nat := 0
  /-- what has been done in the present cycle to objects that order one cycle's operations: (object, key) (R172, R178, R188, R336, R345) -/
  cycle : List (Nat × Nat) := []
  deriving DecidableEq, Repr, Inhabited

/-- The module right after power-up: nothing verified, placed, mapped or owned (R378, R381). -/
def State.reset : State := {}

end Sys2Proof.Machine
end

