-- ==== Sys2Proof/Machine/Access.lean ====
section
/-! DEFINITION. Reading and updating the parts of the state: cores, clusters, dies, contexts and stream slots, and a stream's
registers under their names (R8, R9, R61, R109). -/

namespace Sys2Proof.Machine

/-! ## Numbering -/

/-- The die of a core numbered 0 to 383 (R1, R9). -/
def dieOf (c : Nat) : Nat := c / 48

/-- The cluster, 0 to 95, of a core. -/
def clusterOf (c : Nat) : Nat := c / 4

/-- The identity word of a stream slot (R9). -/
def identOf (c k : Nat) : Nat := c / 48 * 1024 + c / 4 % 12 * 64 + c % 4 * 16 + k

/-- The core of an identity word. -/
def identCore (i : Nat) : Nat := i / 1024 % 8 * 48 + i / 64 % 16 * 4 + i / 16 % 4

/-- The slot of an identity word. -/
def identSlot (i : Nat) : Nat := i % 8

/-! ## Parts of the state -/

def State.core (s : State) (c : Nat) : Core := s.cores.getD c {}
def State.setCore (s : State) (c : Nat) (x : Core) : State := { s with cores := s.cores.set c x }
def State.modCore (s : State) (c : Nat) (f : Core → Core) : State := s.setCore c (f (s.core c))

def State.cluster (s : State) (k : Nat) : Cluster := s.clusters.getD k {}
def State.setCluster (s : State) (k : Nat) (x : Cluster) : State := { s with clusters := s.clusters.set k x }
def State.modCluster (s : State) (k : Nat) (f : Cluster → Cluster) : State := s.setCluster k (f (s.cluster k))

def State.die (s : State) (d : Nat) : Die := s.dies.getD d {}
def State.setDie (s : State) (d : Nat) (x : Die) : State := { s with dies := s.dies.set d x }
def State.modDie (s : State) (d : Nat) (f : Die → Die) : State := s.setDie d (f (s.die d))

def State.ctx (s : State) (i : Nat) : Ctx := s.ctxs.getD i {}
def State.setCtx (s : State) (i : Nat) (x : Ctx) : State := { s with ctxs := s.ctxs.set i x }
def State.modCtx (s : State) (i : Nat) (f : Ctx → Ctx) : State := s.setCtx i (f (s.ctx i))

def Core.stream (x : Core) (k : Nat) : Stream := x.streams.getD k {}
def Core.setStream (x : Core) (k : Nat) (t : Stream) : Core := { x with streams := x.streams.set k t }

def State.stream (s : State) (c k : Nat) : Stream := (s.core c).stream k
def State.setStream (s : State) (c k : Nat) (t : Stream) : State := s.modCore c (·.setStream k t)
def State.modStream (s : State) (c k : Nat) (f : Stream → Stream) : State := s.setStream c k (f (s.stream c k))

/-- The slot whose block runs on a core, or ran last (R64). -/
def State.slot (s : State) : Nat := (s.core s.sel).last

/-- The stream that a control step is of: the running stream of the selected core. -/
def State.cur (s : State) : Stream := s.stream s.sel s.slot
def State.modCur (s : State) (f : Stream → Stream) : State := s.modStream s.sel s.slot f

/-- The context resident on a core (R308). -/
def State.ctxOf (s : State) (c : Nat) : Nat := (s.core c).resident.getD 0

/-- The context of the selected core. -/
def State.curCtx (s : State) : Ctx := s.ctx (s.ctxOf s.sel)

/-- The energy account of a partition's function (R338). -/
def acctOf (part : Nat) : Nat := part + 1

/-- The account charged for work on a core: the resident context's partition, or housekeeping. -/
def State.acct (s : State) (c : Nat) : Nat :=
  match (s.core c).resident with
  | some i => acctOf (s.ctx i).cfg.part
  | none => 0

/-- Adds to the count of an estimator event on a cluster for an account. -/
def State.addCount (s : State) (cl acct ev n : Nat) : State :=
  s.modCluster cl (fun x => { x with counts := x.counts.set (64 * acct + ev) (x.counts.getD (64 * acct + ev) 0 + n) })

/-- Counts `n` occurrences of an estimator event on a cluster for an account (R337). -/
def State.count (s : State) (cl acct ev n : Nat) : State := if n = 0 then s else s.addCount cl acct ev n

/-- Counts an event of the per-core group 8c to 8c + 7 (R337). -/
def State.countCore (s : State) (c ev n : Nat) : State := s.count (clusterOf c) (s.acct c) (8 * (c % 4) + ev) n

/-! ## A stream's registers -/

/-- A scalar register; s0 reads zero (R8). -/
def Stream.getS (t : Stream) (r : Nat) : W64 := if r = 0 then 0 else t.s.getD r 0

/-- Writes a scalar register; s0 discards writes (R8). -/
def Stream.setS (t : Stream) (r : Nat) (x : W64) : Stream := if r = 0 then t else { t with s := t.s.set r x }

def Stream.getA (t : Stream) (k : Nat) : AddrReg := t.a.getD k {}
def Stream.setA (t : Stream) (k : Nat) (x : AddrReg) : Stream := { t with a := t.a.set k x }

def Stream.getL (t : Stream) (k : Nat) : LoopCtr := t.lc.getD k {}
def Stream.setL (t : Stream) (k : Nat) (x : LoopCtr) : Stream := { t with lc := t.lc.set k x }

/-- The physical predicate that a name denotes (R109). -/
def Stream.physP (t : Stream) (k : Nat) : Nat := if k < 8 then k else 8 + (k - 8 + t.prb) % 8

/-- A physical predicate; p0 is all ones (R61). -/
def Stream.predAt (t : Stream) (k : Nat) : BitVec 64 := if k = 0 then BitVec.allOnes 64 else t.p.getD k 0

/-- Number of rotating registers (R109). -/
def Stream.nrot (t : Stream) : Nat := t.alloc - 32

/-- The physical register that a name denotes (R109). -/
def Stream.physV (t : Stream) (k : Nat) : Nat :=
  if k < 32 then k else 32 + (k - 32 + t.rrb) % (max t.nrot 1)

def Stream.vecAt (t : Stream) (k : Nat) : Vec := t.v.getD k 0

def Stream.queue (t : Stream) (e : Nat) : List Cmd := t.queues.getD e []
def Stream.setQueue (t : Stream) (e : Nat) (q : List Cmd) : Stream := { t with queues := t.queues.set e q }

/-- Byte `i` of TOKCNT (R176, R181). -/
def Stream.tokAt (t : Stream) (i : Nat) : Nat := t.tok.toNat / 2 ^ (8 * i) % 256

/-- Sets byte `i` of TOKCNT. -/
def Stream.setTok (t : Stream) (i n : Nat) : Stream :=
  { t with tok := BitVec.ofNat 64 (t.tok.toNat - t.tokAt i * 2 ^ (8 * i) + n % 256 * 2 ^ (8 * i)) }

def Stream.bitHalted (t : Stream) (e : Nat) : Bool := t.halted.getLsbD e

/-- Every queue is empty and every command has completed (R68, R103). -/
def Stream.drained (t : Stream) : Bool :=
  (t.queues.all fun q => q.2.isEmpty) && t.flights.isEmpty && t.pend.isEmpty

/-! ## Parts of a core -/

def Core.tile (x : Core) (k : Nat) : Tile := x.tiles.getD k {}
def Core.ring (x : Core) (k : Nat) : Ring := x.rings.getD k {}
def Core.chan (x : Core) (k : Nat) : List ChEntry := x.chans.getD k []
def Core.plane (x : Core) (k : Nat) : Plane := x.planes.getD k {}
def Core.accRow (x : Core) (k : Nat) : BitVec 10240 := x.acc.getD k 0
def Core.stat (x : Core) (k : Nat) : RowStat := x.stats.getD k {}

def State.tile (s : State) (c k : Nat) : Tile := (s.core c).tile k
def State.modTile (s : State) (c k : Nat) (f : Tile → Tile) : State :=
  s.modCore c (fun x => { x with tiles := x.tiles.set k (f (x.tile k)) })

/-- The home core of a ring handle (R165, R166). -/
def State.homeOf (s : State) (c r : Nat) : Nat := c / 4 * 4 + ((s.core c).homes.getD r (c % 4))
def State.ring (s : State) (c r : Nat) : Ring := (s.core (s.homeOf c r)).ring r
def State.setRing (s : State) (home r : Nat) (x : Ring) : State :=
  s.modCore home (fun y => { y with rings := y.rings.set r x })

def State.bar (s : State) (cl b : Nat) : Bar := (s.cluster cl).bars.getD b {}
def State.setBar (s : State) (cl b : Nat) (x : Bar) : State := s.modCluster cl (fun y => { y with bars := y.bars.set b x })

def State.chan (s : State) (c ch : Nat) : List ChEntry := (s.core c).chan ch
def State.setChan (s : State) (c ch : Nat) (l : List ChEntry) : State :=
  s.modCore c (fun x => { x with chans := x.chans.set ch l })

/-- Bytes of a core's scratchpad. -/
def State.spadBytes (s : State) (c a n : Nat) : List Byte := (s.core c).spad.bytes a n

/-- Stores bytes in a core's scratchpad. -/
def State.spadStore (s : State) (c a : Nat) (bs : List Byte) : State :=
  s.modCore c (fun x => { x with spad := x.spad.store a bs })

/-- Whether the context owns a core. -/
def Ctx.owns (x : Ctx) (c : Nat) : Bool := x.cfg.cores.any (fun k => k.core == c)

/-- Cores of the context in ascending order of (die, cluster, core). -/
def Ctx.coreList (x : Ctx) : List Nat := (List.range 384).filter x.owns

/-- The configuration of a core. -/
def Ctx.coreCfg (x : Ctx) (c : Nat) : CoreCfg := (x.cfg.cores.find? (fun k => k.core == c)).getD {}

/-- First byte of the journal range (R142, R308). -/
def Ctx.jnlBase (x : Ctx) : Nat := x.cfg.jnl.getD 0xBC000

/-- Whether a barrier of a cluster is allotted to the context (R186). -/
def Ctx.hasBar (x : Ctx) (cl b : Nat) : Bool :=
  x.cfg.bars.any (fun e => e.1 == cl && e.2 / 2 ^ b % 2 == 1)

/-- Producer engine of a channel (R183). -/
def Ctx.producer (x : Ctx) (ch : Nat) : Nat := x.cfg.wiring.toNat / 2 ^ (8 * (ch / 8) + 3) % 8

/-- Consumer code of a channel (R183). -/
def Ctx.consumer (x : Ctx) (ch : Nat) : Nat := x.cfg.wiring.toNat / 2 ^ (8 * (ch / 8)) % 8

/-- Whether an engine (or 6, the sequencer) may pop a channel: code 7 admits LDE and VEC (R183). -/
def Ctx.mayPop (x : Ctx) (eng ch : Nat) : Bool := x.consumer ch == eng || (x.consumer ch == 7 && (eng == 0 || eng == 2))

/-- Whether the context's streams run: resident, not faulted and no supply loss under way. -/
def State.runs (s : State) (c : Nat) : Bool :=
  match (s.core c).resident with
  | some i => (s.ctx i).st == .resident && !(s.ctx i).faulted && s.boot == .up
  | none => false

/-! ## Draws of free values (log entry 6) -/

def State.draw (s : State) : State := { s with draws := s.draws + 1 }

/-- Errors that ECC corrects in an access are counted for the host: how many is open (R379, log entry 19). -/
def State.countCorrected (s : State) (d i : Nat) : State :=
  (s.modDie d (fun x => { x with corrected := x.corrected + Config.pick s.draws i })).draw

end Sys2Proof.Machine
end

