-- ==== Sys2Proof/Machine/Deed.lean ====
section
/-! DEFINITION. What has been done to scratchpad and to MODE.EXACT that someone need not come after (R143, R163, R175, R190, R217 to R227,
R313): how releases and acquires pass it on, what an access finds in a byte, and where a write of a byte takes its place (log entries 10
and 37). -/

namespace Sys2Proof.Machine

/-- Entries of a stream that have not completed: queued commands and commands in flight. -/
def Stream.incomplete (t : Stream) : List Cmd :=
  (t.queues.flatMap (·.2)).filter (fun m => m.mark.isNone) ++ t.flights.map (·.cmd)

/-! ## Who comes after what -/

/-- The slot that a knower belongs to. -/
def Knower.slot? (x : Knower) : Option (Nat × Nat) :=
  match x with
  | .str c k _ | .cmd c k _ _ | .own c k _ _ | .done c k _ | .fen c k _ | .obs c k | .tok c k _ => some (c, k)
  | _ => none

/-- A slot's stream, as a releasing one: what its instructions come after, and what it has observed (R175). -/
def Knower.isStr (c k : Nat) (x : Knower) : Bool := x == .str c k false || x == .str c k true || x == .obs c k

/-- A command of a slot, with what it has done and found. -/
def Knower.isCmd (c k j : Nat) (x : Knower) : Bool :=
  match x with
  | .cmd c' k' j' _ | .own c' k' j' _ => c' == c && k' == k && j' == j
  | _ => false

/-- A slot's instructions, loads and stores. -/
def bothStr (c k : Nat) : List Knower := [.str c k false, .str c k true]

/-- A command, reads and writes. -/
def bothCmd (c k j : Nat) : List Knower := [.cmd c k j false, .cmd c k j true]

/-- Whether a deed is passed on by one of some knowers.  A write of MODE.EXACT goes with releases of the stream that wrote it only
(R313). -/
def Deed.passes (d : Deed) (p : Knower → Bool) : Bool :=
  d.known.any (fun x => p x &&
    (match d.what with
     | .bytes _ _ _ => true
     | .exact w _ => x.slot?.all (fun o => w == some o)))

/-- More come after a deed. -/
def Deed.reach (d : Deed) (ks : List Knower) : Deed := { d with known := d.known ++ ks.filter (fun x => !d.known.contains x) }

/-- Of a context's deeds that satisfy a test, those that some knowers pass on are passed to others (R220, R222). -/
def State.learnIf (s : State) (i : Nat) (q : Deed → Bool) (p : Knower → Bool) (ks : List Knower) : State :=
  { s with deeds := s.deeds.map (fun d => if d.ctx == i && q d && d.passes p then d.reach ks else d) }

/-- A context's deeds that some knowers pass on are passed to others. -/
def State.learn (s : State) (i : Nat) (p : Knower → Bool) (ks : List Knower) : State := s.learnIf i (fun _ => true) p ks

/-- Whether a command's reads, or its writes, come after a deed: it has acquired it, or it comes in program order behind a compatible
command that did it or found it (R222, R227). -/
def Deed.before (d : Deed) (c k : Nat) (m : Cmd) (wr : Bool) : Bool :=
  d.known.any (fun x =>
    match x with
    | .cmd c' k' j w => c' == c && k' == k && j == m.j && w == wr
    | .own c' k' j al => c' == c && k' == k && decide (j ≤ m.j) && (al == 0 || m.al == 0 || al == m.al)
    | _ => false)

/-! ## Streams, commands and tiles -/

/-- A slot's stream acquires what some knowers pass on. -/
def State.acquires (s : State) (c k : Nat) (p : Knower → Bool) : State := s.learn (s.ctxOf c) p (bothStr c k)

/-- A slot's stream releases what its instructions come after, and what it has observed (R175). -/
def State.releases (s : State) (c k : Nat) (ks : List Knower) : State := s.learn (s.ctxOf c) (Knower.isStr c k) ks

/-- What fences of some kinds behind the command numbered `j` hold: the commands behind them, and those still to be dispatched. -/
def Stream.heldBehind (t : Stream) (c k j : Nat) (kinds : Nat → Bool) (wr : Bool) : List Knower :=
  let marks := (t.queues.flatMap (·.2)).filterMap (fun x =>
    match x.mark with
    | some (kind, _) => if j < x.j && kinds kind then some x.j else none
    | none => none)
  (if marks.isEmpty then [] else [Knower.fen c k wr]) ++
    (t.incomplete.filter (fun y => marks.any (fun x => decide (x < y.j)))).map (fun y => .cmd c k y.j wr)

/-- Whether a slot's stream, its loads or its stores, comes after a deed: it has done it or has acquired it. -/
def Deed.after (d : Deed) (c k : Nat) : Bool := d.known.any (fun x => x == .str c k false || x == .str c k true)

/-- Some knowers are no more. -/
def State.forget (s : State) (p : Knower → Bool) : State :=
  { s with deeds := s.deeds.map (fun d => { d with known := d.known.filter (fun x => !p x) }) }

/-- A tile passes on nothing of what was written into it before (R148). -/
def State.forgetTile (s : State) (c n : Nat) : State := s.forget (fun x => x == .fill c n || x == .tile c n)

/-- A command that has left comes after nothing more. -/
def State.forgetCmd (s : State) (c k j : Nat) : State := s.forget (fun x => x == .cmd c k j false || x == .cmd c k j true)

/-- The stream of a slot is another one. -/
def State.forgetSlot (s : State) (c k : Nat) : State :=
  { s with deeds := s.deeds.map (fun d =>
      if d.ctx == s.ctxOf c then
        { d with
          known := d.known.filter (fun x => x.slot? != some (c, k))
          what := match d.what with
            | .exact w b => .exact (if w == some (c, k) then none else w) b
            | w => w }
      else d) }

/-! ## Releases and acquires through memory (R220, R221, R313; log entry 37) -/

/-- Whether a scope of a slot contains another slot (R218). -/
def inScope (scope c k c' k' : Nat) : Bool :=
  match scope with
  | 0 => c == c' && k == k'
  | 1 => c == c'
  | 2 => clusterOf c == clusterOf c'
  | 3 => dieOf c == dieOf c'
  | _ => true

/-- Whether an acquire of a scope by a slot synchronises with a release whose write the slot has read. -/
def Release.meets (r : Release) (scope c k : Nat) : Bool := decide (r.need ≤ scope) && inScope scope c k r.core r.slot

/-- Whether a release has anything to pass on. -/
def State.live (s : State) (r : Release) : Bool := s.deeds.any (fun d => d.known.contains (.rel r.no))

/-- The releases that stand before a write of a slot's command numbered `j`. -/
def State.relsOf (s : State) (c k j : Nat) : List Release :=
  if s.deeds.isEmpty then [] else (s.stream c k).rels.filter (fun r => decide (r.j ≤ j) && s.live r)

/-- A slot's stream synchronises with a release, by an acquire that stands before its commands numbered beyond `j`: what it does afterwards,
and what those commands do, comes after what the release passes on.  `fence.acq` holds later reads only (R220, R227). -/
def State.meetRelease (s : State) (c k j : Nat) (full : Bool) (r : Release) : State :=
  let later := ((s.stream c k).incomplete.filter (fun m => decide (j < m.j))).flatMap (fun m =>
    Knower.cmd c k m.j false :: (if full then [.cmd c k m.j true] else []))
  s.learn (s.ctxOf c) (· == .rel r.no) (Knower.str c k false :: (if full then [.str c k true] else []) ++ later)

/-- A read in the command numbered `j` of a slot, or in its sequencer ahead of the command of that number, returns what writes after some
releases have left: each acquire that stands behind it synchronises with them, and one that comes later will (R220). -/
def State.gain (s : State) (c k j : Nat) (l : List Release) : State :=
  let i := s.ctxOf c
  let t := s.stream c k
  let l := l.filter (fun r => r.ctx == i && inScope r.scope r.core r.slot c k && s.live r)
  if l.isEmpty then s
  else
    let s := s.modStream c k (fun t => { t with gained := (t.gained ++ l).eraseDups })
    l.foldl (fun s r => t.acqs.foldl (fun s a =>
      if j < a.2 && r.meets (a.1 % 8) c k then s.meetRelease c k a.2 (decide (8 ≤ a.1)) r else s) s) s

/-- An acquire of a scope takes effect before the command numbered `j` (R220).  It is kept while a command ahead of it has not completed. -/
def State.acquireMem (s : State) (c k j scope : Nat) (full : Bool) : State :=
  let l := (s.stream c k).gained.filter (·.meets scope c k)
  (l.foldl (fun s r => s.meetRelease c k j full r) s).modStream c k (fun t =>
    { t with
      gained := t.gained.filter (fun r => !(full && r.meets scope c k) && s.live r)
      acqs := t.acqs.filter (fun a => t.incomplete.any (fun m => decide (m.j < a.2))) ++ [(scope + if full then 8 else 0, j)] })

/-- A release of a scope takes effect before the command numbered `j`: it passes on what the stream comes after and what its completed
commands have done, and will pass on what the commands before it that have not completed do, for which what comes after it waits (R214,
R220, R227).  A release of no wider scope ahead of it goes where no command between them is to write any more. -/
def State.releaseMem (s : State) (c k j scope : Nat) : State :=
  let t := s.stream c k
  if s.deeds.isEmpty && t.incomplete.isEmpty then s
  else
    let no := s.accesses + 1
    let s := { s with accesses := no }
    let s := s.learn (s.ctxOf c) (fun x => x.isStr c k || x == .done c k true) [.rel no]
    s.modStream c k (fun t =>
      { t with rels := t.rels.filter (fun r =>
          (s.live r || t.incomplete.any (fun m => decide (m.j < r.j))) &&
            (decide (scope < r.scope) || t.incomplete.any (fun m => decide (r.j ≤ m.j)))) ++
          [{ core := c, slot := k, ctx := s.ctxOf c, scope := scope, j := j, no := no }] })

/-- A fence of a kind (0 acq, 1 rel, 2 full) before the command numbered `j`: as an acquire and as a release (R220), and for the stream's
commands behind it, which come after what its completed commands have done as far as the kind holds them (R214, R227). -/
def State.fenced (s : State) (kind c k j scope : Nat) : State :=
  let i := s.ctxOf c
  let s := if kind = 1 then s else s.acquireMem c k j scope (kind == 2)
  let s := match kind with
    | 0 => s.learn i (· == .done c k false) [.fen c k false]
    | 1 => s.learn i (· == .done c k true) [.fen c k true]
    | _ => s.learn i (· == .done c k true) [.fen c k false, .fen c k true]
  if kind = 0 then s else s.releaseMem c k j scope

/-! ## Bytes of scratchpad (R143, R222) -/

/-- Whether a deed of a context lies on some of `n` bytes of a core's scratchpad. -/
def Deed.meets (d : Deed) (i h a n : Nat) : Bool :=
  d.ctx == i &&
    match d.what with
    | .bytes c b old => c == h && decide (b < a + n) && decide (a < b + old.length)
    | .exact _ _ => false

/-- What a byte held before a deed. -/
def Deed.oldAt (d : Deed) (a : Nat) : Byte :=
  match d.what with
  | .bytes _ b old => old.getD (a - b) 0
  | .exact _ _ => 0

/-- A deed byte by byte. -/
def Deed.singles (d : Deed) : List Deed :=
  match d.what with
  | .bytes c a old => old.zipIdx.map (fun e => { d with what := .bytes c (a + e.2) [e.1] })
  | .exact _ _ => [d]

/-- Of what has been done to a byte, the end behind all that an access must come after. -/
def openAt (know : Deed → Bool) (l : List Deed) (i h a : Nat) : List Deed :=
  ((l.filter (·.meets i h a 1)).reverse.takeWhile (fun d => !know d)).reverse

/-- What an access finds in a byte: what it holds, or what it held before something that need not come before the access, by a free
choice; with the deed of that end that it finds the result of, if any, and the releases before the write whose value it finds (R220). -/
def findByte (know : Deed → Bool) (l : List Deed) (i h a p : Nat) (now : Byte) : Byte × Option Nat × List Release :=
  let all := l.filter (·.meets i h a 1)
  let o := openAt know l i h a
  let n := o.length - p % (o.length + 1)
  ((match o[n]? with
    | some d => d.oldAt a
    | none => now), if n = 0 then none else (o[n - 1]?).map (·.no),
    ((all.take (all.length - o.length + n)).getLast?.map (·.rels)).getD [])

/-- The deed on a byte that an access has found the result of comes before more. -/
def markAt (l : List Deed) (i h a : Nat) (no : Option Nat) (ks : List Knower) : List Deed :=
  match no with
  | none => l
  | some n => l.flatMap (fun d =>
    if d.no == n && d.meets i h a 1 then d.singles.map (fun x => if x.meets i h a 1 then x.reach ks else x) else [d])

/-- Whether an access may find something other than what the bytes hold, or stands behind a release. -/
def State.raced (s : State) (know : Deed → Bool) (i h a n : Nat) : Bool :=
  s.deeds.any (fun d => (!know d || !d.rels.isEmpty) && d.meets i h a n)

/-- What a load of a slot's sequencer finds in scratchpad, byte by byte, where something need not come before it. -/
def State.spadLoad (s : State) (c k a n draw : Nat) : List (Nat × Byte × Option Nat × List Release) :=
  let know := fun (d : Deed) => d.known.contains (.str c k false)
  let i := s.ctxOf c
  if s.raced know i c a n then
    (s.spadBytes c a n).zipIdx.map (fun b => (a + b.2, findByte know s.deeds i c (a + b.2) (Config.pick draw b.2) b.1))
  else []

/-- What a load of the sequencer finds in scratchpad. -/
def State.spadSeen (s : State) (c k a n : Nat) : List Byte :=
  match s.spadLoad c k a n s.draws with
  | [] => s.spadBytes c a n
  | l => l.map (·.2.1)

/-- An access of a slot has found what some deeds have done, in the command numbered `j` or ahead of it: that comes before more, and the
stream gains the releases before it (R220, R222). -/
def State.found (s : State) (c k j h : Nat) (l : List (Nat × Byte × Option Nat × List Release)) (ks : List Knower) : State :=
  State.gain { s with deeds := l.foldl (fun ds e => markAt ds (s.ctxOf c) h e.1 e.2.2.1 ks) s.deeds } c k j
    (l.flatMap (·.2.2.2)).eraseDups

/-- A load of the sequencer has taken place. -/
def State.spadLooked (s : State) (c k a n : Nat) : State :=
  (s.found c k (s.stream c k).jcnt.toNat c (s.spadLoad c k a n s.draws) (bothStr c k)).draw

/-- A byte is written at a place chosen freely among those behind all that the write must come after. -/
def placeByte (know : Deed → Bool) (e : Deed) (i h a : Nat) (b : Byte) (p : Nat) (m : Memory × List Deed) : Memory × List Deed :=
  let o := openAt know m.2 i h a
  match o[o.length - p % (o.length + 1)]? with
  | some f =>
    (m.1, m.2.flatMap (fun d =>
      if d.no == f.no && d.meets i h a 1 then
        { e with what := .bytes h a [f.oldAt a] } ::
          d.singles.map (fun x => if x.meets i h a 1 then { x with what := .bytes h a [b] } else x)
      else [d]))
  | none => (m.1.write a b, m.2 ++ [{ e with what := .bytes h a [m.1.read a] }])

/-- Bytes of a core's scratchpad are written, each before or after what need not come before the write; it is remembered, since a nest
that the host launches comes after nothing (R221). -/
def State.spadWrite (s : State) (i h : Nat) (know : Deed → Bool) (e : Deed) (ws : List (Nat × List Byte)) : State :=
  let e := { e with no := s.accesses + 1, ctx := i }
  let sp := (s.core h).spad
  if s.deeds.any (fun d => !know d && ws.any (fun w => d.meets i h w.1 w.2.length)) then
    let p := (ws.flatMap (fun w => w.2.zipIdx.map (fun b => (w.1 + b.2, b.1)))).foldl (fun m x =>
      placeByte know e i h x.1 x.2 (Config.pick s.draws x.1) m) (sp, s.deeds)
    ({ (s.modCore h (fun x => { x with spad := p.1 })) with deeds := p.2, accesses := s.accesses + 1 } : State).draw
  else
    { s.modCore h (fun x => { x with spad := ws.foldl (fun m w => m.store w.1 w.2) x.spad }) with
      accesses := s.accesses + 1
      deeds := s.deeds ++ (ws.filter (fun w => !w.2.isEmpty)).map (fun w => { e with what := .bytes h w.1 (sp.bytes w.1 w.2.length) }) }

/-- A store of the sequencer for a slot. -/
def State.spadPut (s : State) (c k a : Nat) (bs : List Byte) : State :=
  s.spadWrite (s.ctxOf c) c (fun d => d.known.contains (.str c k true)) { known := bothStr c k } [(a, bs)]

/-! ## Differences of memories -/

/-- One step of `diffMem` along the new memory. -/
def diffStep (a : Nat) (x : Byte) (rest : Memory → List (Nat × Byte)) : Memory → List (Nat × Byte)
  | [] => (a, x) :: rest []
  | (b, y) :: r =>
    if b < a then (b, Memory.unlisted) :: diffStep a x rest r
    else if b == a then (if x == y then rest r else (a, x) :: rest r)
    else (a, x) :: rest ((b, y) :: r)

/-- The addresses at which two memories differ, with what the first holds there. -/
def diffMem : Memory → Memory → List (Nat × Byte)
  | [], new => new.map (fun e => (e.1, Memory.unlisted))
  | (a, x) :: r, new => diffStep a x (diffMem r) new

/-- What an access of a command finds, byte by byte, where something need not come before it. -/
def State.spadFound (s : State) (c k h : Nat) (m : Cmd) (rd : List (Nat × Nat)) : List (Nat × Byte × Option Nat × List Release) :=
  let i := s.ctxOf c
  let know := fun (d : Deed) => d.before c k m false
  rd.flatMap (fun r =>
    if s.raced know i h r.1 r.2 then
      ((s.core h).spad.bytes r.1 r.2).zipIdx.map (fun b =>
        (r.1 + b.2, findByte know s.deeds i h (r.1 + b.2) (Config.pick s.draws (r.1 + b.2)) b.1))
    else [])

/-- A unit of a command, or the effect of a slab command, takes place on a core's scratchpad, where it reads some ranges and writes others
once it has been made: of what need not come before it, it finds the bytes before or after, and what it writes stands before or after
(R143, R163, R222, R223). -/
def State.race (s : State) (c k h : Nat) (f : Flight) (rd wr : List (Nat × Nat)) (did : State → Bool) (g : State → State) : State :=
  let i := s.ctxOf c
  let me : Knower := .own c k f.cmd.j f.cmd.al
  let old := (s.core h).spad
  let found := s.spadFound c k h f.cmd rd
  let view := found.foldl (fun m e => m.write e.1 e.2.1) old
  let t := g (if found.isEmpty then s else (s.modCore h (fun x => { x with spad := view })).draw)
  let new := (t.core h).spad
  let made := did t
  let inside := fun (a : Nat) => made && wr.any (fun r => decide (r.1 ≤ a) && decide (a < r.1 + r.2))
  let ws := (if made then wr.map (fun r => (r.1, new.bytes r.1 r.2)) else []) ++
    ((diffMem view new).filter (fun e => !inside e.1)).map (fun e => (e.1, [new.read e.1]))
  let t := if found.isEmpty && new == old && ws.isEmpty then t else t.modCore h (fun x => { x with spad := old })
  let t := if made && !found.isEmpty then t.found c k f.cmd.j h found [me] else t
  if ws.isEmpty then t
  else
    t.spadWrite i h (fun d => d.before c k f.cmd true)
      { who := some (c, k, f.cmd.j), known := [me], rels := s.relsOf c k f.cmd.j } ws

/-- The bytes of a core's scratchpad that commands in flight have written, each as it is or as it was before the newest writings of them,
by a free choice (R163, R350). -/
def State.unwriteSpad (s : State) (flying : Option (Nat × Nat × Nat) → Bool) (c : Nat) : State :=
  let i := s.ctxOf c
  let l := s.deeds.reverse.filter (fun d => d.meets i c 0 (2 ^ 32))
  let at_ := (l.filter (fun d => flying d.who)).flatMap (fun d =>
    match d.what with
    | .bytes _ a old => (List.range old.length).map (a + ·)
    | .exact _ _ => [])
  let back := fun (m : Memory) (a : Nat) =>
    match ((l.filter (·.meets i c a 1)).takeWhile (fun d => flying d.who && Config.pick (s.draws + d.no) a % 2 == 1)).getLast? with
    | some d => m.write a (d.oldAt a)
    | none => m
  (s.modCore c (fun x => { x with spad := at_.foldl back x.spad })).draw

end Sys2Proof.Machine
end

