-- ==== Sys2Proof/Machine/Race.lean ====
section
/-! DEFINITION. Accesses of memory that no rule orders (R163, R219, R226): what has been done to bytes while it matters to commands not
complete, and what an access that races with it finds or leaves (log entry 10); and releases and acquires through memory (R220). -/

namespace Sys2Proof.Machine

/-! ## The record of a command in flight -/

/-- The flight of a command. -/
def Stream.flight? (t : Stream) (j : Nat) : Option Flight := t.flights.find? (fun f => f.cmd.j == j)

/-- Changes the flight of a command. -/
def Stream.modFlight (t : Stream) (j : Nat) (g : Flight → Flight) : Stream :=
  { t with flights := t.flights.map (fun f => if f.cmd.j == j then g f else f) }

/-- Removes the flight of a command. -/
def Stream.dropFlight (t : Stream) (j : Nat) : Stream := { t with flights := t.flights.filter (fun f => f.cmd.j != j) }

/-- Whether a command is in flight. -/
def State.flying (s : State) (who : Option (Nat × Nat × Nat)) : Bool :=
  match who with
  | some (c, k, j) => (s.stream c k).flights.any (fun f => f.cmd.j == j)
  | none => false

/-! ## Who makes an access -/

/-- Who makes an access of memory, and when the command issued. -/
structure Mover where
  core : Nat := 0
  slot : Nat := 0
  j : Nat := 0
  order : Nat := 0

/-- The mover of a command on a core. -/
def Cmd.mover (m : Cmd) (c : Nat) : Mover := { core := c, slot := m.slot, j := m.j, order := m.order }

/-- The commands in flight. -/
def State.flyers (s : State) : List Mover :=
  s.cores.flatMap (fun x => x.2.streams.flatMap (fun t => t.2.flights.map (fun f =>
    { core := x.1, slot := t.1, j := f.cmd.j, order := f.order })))

/-- Whether something was done before a mover's command issued: it comes before all accesses of that command (R219). -/
def Race.past (r : Race) (m : Mover) : Bool := decide (r.at_ ≤ m.order)

/-- Whether a mover's access of the same bytes may come before something done: another did it, since the command issued.  What the same die has sent counts
from when it was sent, since the die's later accesses find it (R219). -/
def Race.after (r : Race) (m : Mover) : Bool :=
  r.who != some (m.core, m.slot, m.j) &&
    decide (m.order < (if r.who.any (fun w => dieOf w.1 == dieOf m.core) then r.stamp else r.at_))

/-! ## What is remembered, and for how long -/

/-- How many of the earliest things done to memory came before every command in flight issued: an access is made at one moment, so what
stands before a thing that did has done so too (R219). -/
def settledLen (flyers : List Mover) (flying : Option (Nat × Nat × Nat) → Bool) (l : List Race) : Nat :=
  l.zipIdx.foldl (fun n e => if !flying e.1.who && flyers.all e.1.past then e.2 + 1 else n) 0

/-- Forgets what can no longer race.  What commands in flight have written is kept, with the last thing done that they all come after behind
it (R163). -/
def State.pruneRaces (s : State) : State :=
  if s.races.isEmpty then s
  else
    let n := settledLen s.flyers s.flying s.races
    let first := s.races.take n
    { s with races :=
        (if first.any (fun r => s.flying r.who) then
           (first.zipIdx.filter (fun e => s.flying e.1.who || e.2 + 1 == n)).map (·.1)
         else []) ++ s.races.drop n }

/-- The releases before what memory holds in a range (R220). -/
def marksIn (l : List (Nat × Nat × List Release)) (pa n : Nat) : List Release :=
  (l.filter (fun e => decide (e.1 < pa + n) && decide (pa < e.2.1))).flatMap (·.2.2)

/-- Remembers the bytes that a command or another agent replaces, at the end of the order of the accesses: addresses and what they
held. -/
def State.noteRaces (s : State) (who : Option (Nat × Nat × Nat)) (stamp : Nat) (l : List (Nat × Byte)) : State :=
  if s.flyers.isEmpty then s
  else
    { s with
      accesses := s.accesses + 1
      races := s.races ++ l.map (fun e =>
        { addr := e.1, old := e.2, who := who, stamp := stamp, at_ := s.stamp, no := s.accesses + 1, rels := marksIn s.marks e.1 1 }) }

/-! ## Bytes that are old or new -/

/-- Byte by byte, the old memory or the new one. -/
def mixMem (old new : Memory) (n : Nat) : Memory × Nat :=
  let pick := fun (m : Memory × Nat) (a : Nat) (b : Byte) => (if Config.freeBit m.2 then m.1.write a b else m.1, m.2 + 1)
  let p := new.foldl (fun m e => if old.read e.1 != e.2 then pick m e.1 e.2 else m) (old, n)
  old.foldl (fun m e => if new.read e.1 == Memory.unlisted then pick m e.1 Memory.unlisted else m) p

/-- Bytes from an address, each stored or not. -/
def Memory.mixStore (m : Memory) (a : Nat) (bs : List Byte) (n : Nat) : Memory :=
  bs.zipIdx.foldl (fun m e => if Config.pick n e.2 % 2 == 1 then m.write (a + e.2) e.1 else m) m

/-! ## Global memory (R219, R222, R226)

An access takes place at one moment for each 64-byte line: a cut of the order of what has been done.  For a byte that a command of the
same stream has overwritten the moment is its own (R226). -/

/-- 64-byte lines that `n` bytes from an address touch. -/
def linesOf (pa n : Nat) : Nat := if n = 0 then 0 else (pa + n - 1) / 64 - pa / 64 + 1

/-- A range cut at the lines: offsets and lengths. -/
def linePieces (pa n : Nat) : List (Nat × Nat) :=
  (List.range (linesOf pa n)).map (fun i =>
    let lo := max pa (64 * (pa / 64 + i))
    (lo - pa, min (pa + n) (64 * (pa / 64 + i) + 64) - lo))

/-- Whether something was done to bytes of memory. -/
def Race.meets (r : Race) (a n : Nat) : Bool := decide (r.addr < a + n) && decide (a < r.addr + r.len)

/-- Whether a byte of memory was written over. -/
def Race.wrote (r : Race) (a : Nat) : Bool := !r.look && r.addr == a

/-- Whether a command of the mover's stream wrote a byte over, unordered with it (R226). -/
def Race.same (r : Race) (m : Mover) : Bool := r.who.any (fun w => w.1 == m.core && w.2.1 == m.slot) && r.after m

/-- The first cut that a mover's access of some bytes may take: behind all that was done before its command issued, and all done to them
that does not come after it. -/
def firstCut (m : Mover) (a n : Nat) : List Race → Nat → Nat → Nat
  | [], _, c => c
  | r :: rs, i, c => firstCut m a n rs (i + 1) (if r.past m || (r.meets a n && !r.after m) then i + 1 else c)

/-- The cut at or behind a place that splits no access. -/
def wholeCut (l : List Race) (i : Nat) : Nat :=
  match l[i - 1]? with
  | some p => if i = 0 then 0 else i + ((l.drop i).takeWhile (fun r => r.no == p.no)).length
  | none => i

/-- A free cut from one on. -/
def freeCut (l : List Race) (lo p : Nat) : Nat := wholeCut l (lo + p % (l.length + 1 - lo))

/-- What a byte of memory held at a cut, behind which a list comes. -/
def byteAt (l : List Race) (a : Nat) (now : Byte) : Byte :=
  match l.find? (·.wrote a) with
  | some r => r.old
  | none => now

/-- Whether bytes can have been written before a list of accesses: every look at one of them came after it had been written over. -/
def okCut (a n : Nat) : List Race → List Nat → Bool
  | [], _ => true
  | r :: rs, gone =>
    if r.look then
      (!r.meets a n || (List.range n).all (fun i => !r.meets (a + i) 1 || gone.contains (a + i))) && okCut a n rs gone
    else okCut a n rs (if r.meets a n then r.addr :: gone else gone)

/-- The releases before the write whose value a byte held at a cut, behind which a list comes (R220). -/
def relsAt (l : List Race) (a : Nat) (marks : List (Nat × Nat × List Release)) : List Release :=
  match l.find? (·.wrote a) with
  | some r => r.rels
  | none => marksIn marks a 1

/-- The first writing of a byte in a list is now of another value, behind other releases. -/
def setOld (a : Nat) (b : Byte) (rels : List Release) : List Race → List Race
  | [] => []
  | r :: rs => if r.wrote a then { r with old := b, rels := rels } :: rs else r :: setOld a b rels rs

/-- A byte is written at a cut behind the releases of `e`, where memory now holds `now`. -/
def putAt (marks : List (Nat × Nat × List Release)) (l : List Race) (cut : Nat) (e : Race) (b now : Byte) : List Race :=
  let r := l.drop cut
  l.take cut ++ { e with old := byteAt r e.addr now, rels := relsAt r e.addr marks } :: setOld e.addr b e.rels r

/-- Bytes from an address are written together at a cut. -/
def putAll (marks : List (Nat × Nat × List Release)) (l : List Race) (cut : Nat) (e : Race) : List (Nat × Byte × Byte) → List Race
  | [] => l
  | (a, b, now) :: r => putAll marks (putAt marks l cut { e with addr := a } b now) (cut + 1) e r

/-- A look at a range, at a cut. -/
def lookAt (l : List Race) (cut : Nat) (e : Race) (a n : Nat) (rmw : Bool) : List Race :=
  l.take cut ++ { e with addr := a, len := n, look := true, rmw := rmw } :: l.drop cut

/-- The entry of something done now by a mover, but for its place. -/
def State.doing (s : State) (m : Mover) (stamp : Nat) : Race :=
  { who := some (m.core, m.slot, m.j), stamp := stamp, at_ := s.stamp, no := s.accesses + 1 }

/-- Whether a cut parts an access of some bytes. -/
def partsAt (l : List Race) (a n cut : Nat) : Bool :=
  (l.take cut).any (fun r => r.meets a n && (l.drop cut).any (fun q => q.no == r.no && q.meets a n))

/-- The cut of a reduction or atomic on `n` bytes: in full before or after every other access of them (R226). -/
def rmwCut (l : List Race) (m : Mover) (a n draw : Nat) : Nat :=
  let lo := firstCut m a n l 0 0
  let cuts := ((List.range (l.length + 1 - lo)).map (lo + ·)).filter (fun c => !partsAt l a n c && okCut a n (l.drop c) [])
  cuts.getD (Config.pick draw a % max cuts.length 1) l.length

/-- The cut of a plain write of `n` bytes in one line. -/
def writeCut (l : List Race) (m : Mover) (a n draw : Nat) : Nat :=
  let c := freeCut l (firstCut m a n l 0 0) (Config.pick draw a)
  if okCut a n (l.drop c) [] then c else l.length

/-- The cut of one byte `x` of a plain write of `n` bytes, which commands of its own stream have written: before or after each of them,
and before or after an RMW element in full. -/
def byteCut (l : List Race) (m : Mover) (a n x draw : Nat) : Nat :=
  let lo := firstCut m x 1 l 0 0
  let from_ := fun (lo : Nat) =>
    let c := freeCut l lo (Config.pick draw (2 ^ 50 + x))
    if okCut x 1 (l.drop c) [] then c else l.length
  match ((l.zipIdx.drop lo).filter (fun e => e.1.look && e.1.rmw && e.1.meets x 1)).getLast? with
  | none => from_ lo
  | some (r, i) =>
    let b := max a r.addr
    let q := min (a + n) (r.addr + r.len) - b
    let first := firstCut m b q l 0 0
    if Config.pick draw (2 ^ 51 + r.no) % 2 == 1 && okCut b q (l.drop first) [] then first else from_ (wholeCut l (i + 1))

/-- Whether a byte has been written by commands of the mover's stream that race with it. -/
def sameStream (l : List Race) (m : Mover) (x : Nat) : Bool :=
  (l.drop (firstCut m x 1 l 0 0)).any (fun r => r.wrote x && r.same m)

/-- A plain write of bytes in one line takes its place in the order; `cells` are address, byte and what memory holds. -/
def placeLine (marks : List (Nat × Nat × List Release)) (l : List Race) (m : Mover) (e : Race) (draw a : Nat) (cells : List (Nat × Byte × Byte)) : List Race :=
  let n := cells.length
  let whole := putAll marks l (writeCut l m a n draw) e (cells.filter (fun x => !sameStream l m x.1))
  (cells.filter (fun x => sameStream l m x.1)).foldl
    (fun l x => putAt marks l (byteCut l m a n x.1 draw) { e with addr := x.1 } x.2.1 x.2.2) whole

/-- Whether a byte written has been written over by what comes after. -/
def lostIn (l : List Race) (no a : Nat) : Bool := ((l.dropWhile (fun r => !(r.no == no && r.wrote a))).drop 1).any (·.wrote a)

/-- What a mover's read of `n` bytes in one line gains. -/
def lineGains (l : List Race) (m : Mover) (marks : List (Nat × Nat × List Release)) (draw a n : Nat) : List Release :=
  let cut := freeCut l (firstCut m a n l 0 0) (Config.pick draw a)
  ((List.range n).filter (fun i => !sameStream l m (a + i))).flatMap (fun i => relsAt (l.drop cut) (a + i) marks)

/-- What a mover's read finds of bytes in one line, and the order with its look. -/
def seeLine (l : List Race) (m : Mover) (e : Race) (draw a : Nat) (bs : List Byte) : List Byte × List Race :=
  let cut := freeCut l (firstCut m a bs.length l 0 0) (Config.pick draw a)
  let got := bs.zipIdx.map (fun b =>
    let x := a + b.2
    if sameStream l m x then byteAt (l.drop (freeCut l (firstCut m x 1 l 0 0) (Config.pick draw (2 ^ 50 + x)))) x b.1
    else byteAt (l.drop cut) x b.1)
  (got, lookAt l cut e a bs.length false)

/-- What a command's read of memory finds where the memory now holds some bytes, and the releases that it gains. -/
def State.memSeen (s : State) (m : Mover) (pa : Nat) (bs : List Byte) : List Byte × State :=
  if !s.races.any (·.meets pa bs.length) then (bs, s.gain m.core m.slot m.j (marksIn s.marks pa bs.length))
  else
    let e := s.doing m s.stamp
    let r := (linePieces pa bs.length).foldl (fun (acc : List Byte × List Race × List Release) p =>
      let g := seeLine acc.2.1 m e s.draws (pa + p.1) ((bs.drop p.1).take p.2)
      (acc.1 ++ g.1, g.2, acc.2.2 ++ lineGains acc.2.1 m s.marks s.draws (pa + p.1) p.2)) ([], s.races, [])
    (r.1, ({ s with races := r.2.1, accesses := s.accesses + 1, draws := s.draws + 1 } : State).gain m.core m.slot m.j r.2.2)

/-- Another agent's read, or the device's for itself, has found what memory holds. -/
def State.looked (s : State) (pa n : Nat) : State :=
  if !s.races.any (·.meets pa n) then s
  else
    { s with
      accesses := s.accesses + 1
      races := lookAt s.races s.races.length { stamp := s.stamp, at_ := s.stamp, no := s.accesses + 1 } pa n false }

end Sys2Proof.Machine
end

