-- ==== Sys2Proof/Machine/Ready.lean ====
section
/-! DEFINITION. Which queue entry an engine may issue: format words, the places of one cycle's operations, the effective clock, markers,
tokens, tiles, channels and the lease (R66, R148, R176, R178, R182, R214, R224, R230, R234 to R237, R332, R340). -/

namespace Sys2Proof.Machine

/-! ## Fields of engine instructions (R50, R52, R53) -/

/-- The fields of a VEC instruction. -/
def vfOf (i : Instr) : Option VF :=
  match i with
  | .vadd f | .vsub f | .vmul f | .vfma f | .vfms f | .vmin f | .vmax f | .vcmp f | .vsel f | .vcvt f | .vand f
  | .vor f | .vxor f | .vnot f | .vshl f | .vshr f | .vsra f | .vmov f | .vbc f | .vidx f | .vred f | .vscan f
  | .vperm f | .vbit f | .vbpat f | .vsf f | .vtopk f | .vrnd f | .vqnt f | .vdq f | .vrcv f | .vsnd f | .vrot f
  | .pand f | .por f | .pxor f | .pnot f | .pcnt f | .pset f => some f
  | _ => none

/-- The fields of an instruction in the E layout. -/
def efOf (i : Instr) : Option EF :=
  match i with
  | .cpin f | .cpinCh f | .cpcv f | .ldch f | .ldbc f | .pfch f | .lease f | .unls f | .wld f | .mma f | .mmas f
  | .accz f | .drain f | .probe f | .clsf f | .corr f | .tfit f | .tload f | .tsave f | .tset f | .escn f | .rlpop f
  | .refold f | .cpout f | .stch f | .stchApp f | .stg f | .stat f | .gath f | .scat f | .ixlist f | .ixpage f
  | .ixsum f | .cpost f | .cjoin f | .cstat f => some f
  | _ => none

/-- The token bits of an engine instruction (R50). -/
def tokOf (i : Instr) : Tok :=
  match vfOf i, efOf i with
  | some f, _ => f.tok
  | _, some f => f.tok
  | _, _ => {}

/-- The fields of a command, or none set. -/
def Cmd.ef (m : Cmd) : EF := (efOf m.i).getD {}

/-! ## Format words (R234 to R236) -/

/-- Operand formats of the slab, and the pairing class of each (R236). -/
def pairClass (c : Nat) : Option Nat :=
  match c with
  | 1 | 2 => some 0
  | 3 | 4 | 5 => some 1
  | 10 => some 2
  | 6 => some 3
  | 12 => some 4
  | _ => none

/-- Fields of a format word. -/
def fwA (w : W32) : Nat := fld w.toNat 4 0
def fwB (w : W32) : Nat := fld w.toNat 9 5
def fwOut (w : W32) : Nat := fld w.toNat 14 10
def fwRound (w : W32) : Nat := fld w.toNat 17 15
def fwAol (w : W32) : Bool := w.getLsbD 18
def fwBol (w : W32) : Bool := w.getLsbD 19
def fwSat (w : W32) : Bool := w.getLsbD 20
def fwExact (w : W32) : Bool := w.getLsbD 21
def fwScale (w : W32) : Nat := fld w.toNat 23 22
def fwBlock (w : W32) : Nat := fld w.toNat 27 24

/-- Whether a format has an outlier code (R39). -/
def hasOutlier (c : Nat) : Bool := ((Fmt.ofCode c).getD .fp32).outlier.isSome

/-- Whether a B operand is ill-formed: its format, and the block field that goes with it. -/
def fwBadB (w : W32) : Bool :=
  match pairClass (fwB w) with
  | none => true
  | some k => fwBlock w != (if k = 3 then 1 else 0)

/-- Whether an A operand and its pairing with B are ill-formed. -/
def fwBadA (w : W32) : Bool := pairClass (fwA w) == none || pairClass (fwA w) != pairClass (fwB w)

/-- Whether a word is ill-formed for the command that pops it (R236, R271). -/
def fwBad (i : Instr) (w : W32) : Bool :=
  let bolBad := fwBol w && !hasOutlier (fwB w)
  let aolBad := fwAol w && !hasOutlier (fwA w)
  fld w.toNat 31 28 != 5 ||
    (match i with
     | .wld _ => fwBadB w || bolBad
     | .mma _ => fwBadA w || fwBadB w || aolBad || bolBad || decide (5 ≤ fwRound w)
     | .mmas _ => fwBadA w || fwBadB w || aolBad || fwBol w || decide (5 ≤ fwRound w)
     | .probe _ =>
       fwBadA w || fwBadB w || aolBad || decide (5 ≤ fwRound w) || decide (2 < fwA w) || decide (2 < fwB w)
     | .drain _ =>
       fwOut w == 6 || decide (12 ≤ fwOut w) || decide (6 ≤ fwRound w) || (fwOut w == 7 && fwScale w != 0)
     | _ => false)

/-- The popped word of a command. -/
def Cmd.fw (m : Cmd) : W32 := m.fmt.getD 0

/-- Whether a command pops a format word (R235). -/
def popsWord (i : Instr) : Bool :=
  match i with
  | .wld _ | .mma _ | .mmas _ | .probe _ | .clsf _ | .drain _ => true
  | _ => false

/-- Whether a `drain` reads its tile E (R243). -/
def readsE (f : EF) (w : W32) : Bool := fwScale w != 0 || f.sub.getLsbD 0

/-! ## The order of one cycle's operations (R172, R178, R188, R336, R345, R356) -/

/-- The objects whose operations of one cycle have an order: a ring, a stream's token counters, a context's request on a die, an entry of
its must-save table. -/
def ringObj (home r : Nat) : Nat := 2 ^ 20 + 16 * home + r
def tokObj (c k : Nat) : Nat := 2 ^ 21 + 8 * c + k
def requestObj (ctx d : Nat) : Nat := 2 ^ 22 + 8 * ctx + d
def mustObj (ctx i : Nat) : Nat := 2 ^ 23 + 16 * ctx + i

/-- A barrier of a cluster. -/
def barObj (cl b : Nat) : Nat := 2 ^ 24 + 16 * cl + b

/-- The places of arrivals at a barrier: streams by core and slot, then engine commands by core and engine (R188). -/
def barvKey (c k : Nat) : Nat := 8 * c + k
def arriveKey (c eng : Nat) : Nat := 4096 + 8 * c + eng

/-- The places on a context's request on a die: a read of the granted level sees the start of the cycle, before every request of the cycle
(R336, R345). -/
def levelKey : Nat := 0
def requestKey (c k : Nat) : Nat := 1 + 8 * c + k

/-- The place of a ring operation: by kind, core and slot.  Waits stand at the end of the cycle. -/
def ringKey (kind c k : Nat) : Nat := 4096 * kind + 8 * c + k

/-- The place of an engine in the chain. -/
def chainPlace (eng : Nat) : Nat := if eng = 4 then 0 else eng + 1

/-- The places of token updates: engine consumptions, `wtok`, signals, `tsig`, a write of TOKCNT. -/
def consumeKey (eng : Nat) : Nat := chainPlace eng
def wtokKey : Nat := 8
def signalKey (eng : Nat) : Nat := 16 + chainPlace eng
def tsigKey : Nat := 32
def tokWriteKey : Nat := 33

/-- Whether nothing with a later place has been done to an object in the present cycle. -/
def State.inOrder (s : State) (p : Nat × Nat) : Bool := s.cycle.all (fun e => e.1 != p.1 || decide (e.2 ≤ p.2))

/-! ## The effective clock (R332, R335, R340, R347) -/

/-- Number of one bits among the low `n`. -/
def countOnes (x : Nat) : Nat → Nat
  | 0 => 0
  | n + 1 => (if x.testBit n then 1 else 0) + countOnes x n

/-- Set slots among `n` slots from slot `k` on. -/
def pulsesFrom (p : BitVec 16) (k : Nat) : Nat → Nat
  | 0 => 0
  | n + 1 => (if p.getLsbD (k % 16) then 1 else 0) + pulsesFrom p (k + 1) n

/-- Pulses in `n` reference nanoseconds from slot `k` of a pattern. -/
def pulses (p : BitVec 16) (k n : Nat) : Nat := n / 16 * countOnes p.toNat 16 + pulsesFrom p k (n % 16)

/-- The cluster with a stretch that is over ended: the pattern resumes, and the window of halving begins with the cycle after the six
(R340). -/
def Cluster.ended (x : Cluster) (now : Nat) : Cluster :=
  if x.stretch && decide (x.since + 12 ≤ now) then
    { x with effBase := x.effBase + 6, since := x.since + 12, stretch := false, halvingAt := some (x.effBase + 6) }
  else x

/-- The cluster with a stretch that is over ended and a pattern change that is due taken (R335, R340). -/
def Cluster.norm (x : Cluster) (now : Nat) : Cluster :=
  let x := x.ended now
  match x.pending with
  | some (t, p) =>
    if t ≤ now then
      { x with
        effBase := x.effBase + (if x.stretch then 6 + pulses x.pattern x.phase (t - (x.since + 12))
                                else pulses x.pattern x.phase (t - x.since))
        since := t, phase := 0, pattern := p, pending := none, stretch := false
        halvingAt := if x.stretch then some (x.effBase + 6) else x.halvingAt }
    else x
  | none => x

/-- Effective cycles of a cluster begun before a reference time (R347): in a stretch each of six cycles lasts two
nanoseconds (R340). -/
def Cluster.eff (x : Cluster) (now : Nat) : Nat :=
  let x := x.norm now
  let d := now - x.since
  x.effBase + (if x.stretch then (d + 1) / 2 else pulses x.pattern x.phase d)

/-- Whether an effective cycle begins at a reference time. -/
def Cluster.begins (x : Cluster) (now : Nat) : Bool :=
  let x := x.norm now
  let d := now - x.since
  if x.stretch then decide (x.since ≤ now) && d % 2 == 0 else x.pattern.getLsbD ((x.phase + d) % 16)

/-- Whether halving forbids issue in the effective cycle that begins at a time: it lies at an odd distance in the window of
64 (R340). -/
def Cluster.halved (x : Cluster) (now : Nat) : Bool :=
  let x := x.norm now
  let e := x.eff now
  match x.halvingAt with
  | some h => decide (h ≤ e) && decide (e < h + 64) && (e - h) % 2 == 1
  | none => false

/-- Whether the sequencers and engines of a cluster may issue at a time (R332, R340). -/
def Cluster.mayIssue (x : Cluster) (now : Nat) : Bool := x.begins now && !x.halved now

/-- Whether a VEC command of an exposed region is still in its cycle of issue: nothing of it lands before the next one (R58). -/
def State.vecWaits (s : State) (c : Nat) (f : Flight) : Bool :=
  f.lands.any (fun l => decide ((s.cluster (clusterOf c)).eff s.now ≤ l.1))

/-- Whether a slot's stream has such a command: a trap of the stream, or a save, waits for it to land (R71, R317). -/
def State.vecFresh (s : State) (c k : Nat) : Bool := (s.stream c k).flights.any (s.vecWaits c)

/-- Whether a core may issue now. -/
def State.mayIssue (s : State) (c : Nat) : Bool := (s.cluster (clusterOf c)).mayIssue s.now

/-! ## What a command touches -/

/-- Whether a command reads memory, global or scratchpad: a scalar `stg` stores a register, and a `drain` may do without its tile E
(R210, R214, R243). -/
def readsMem (m : Cmd) : Bool :=
  match m.i with
  | .cpin _ | .cpcv _ | .ldch _ | .ldbc _ | .pfch _ | .wld _ | .mma _ | .mmas _ | .probe _ | .corr _ | .tload _
  | .refold _ | .cpout _ | .stat _ | .gath _ | .scat _ | .ixlist _ | .ixpage _ | .ixsum _ | .cpost _ => true
  | .stg f => f.sub.getLsbD 2
  | .drain f => readsE f m.fw
  | _ => false

/-- Whether a command writes memory (R214). -/
def writesMem (i : Instr) : Bool :=
  match i with
  | .cpin _ | .cpcv _ | .cpinCh _ | .drain _ | .tsave _ | .refold _ | .cpout _ | .stch _ | .stchApp _ | .stg _ | .stat _
  | .scat _ | .ixlist _ | .ixsum _ | .cjoin _ => true
  | .gath f | .ixpage f => !f.sub.getLsbD 0
  | _ => false

/-- Whether an entry may pass a marker of a kind that stands ahead of it in its queue (R214). -/
def passes (kind : Nat) (m : Cmd) : Bool :=
  match kind with
  | 0 => !readsMem m
  | 1 => !writesMem m.i
  | _ => !readsMem m && !writesMem m.i

/-- The channel that a command of LDE, STE, MXE or IDX moves entries through, and whether it pushes. -/
def chanOf (i : Instr) : Option (Nat × Bool) :=
  match i with
  | .cpinCh f => some (f.y.toNat, false)
  | .ldch f | .ldbc f => some (f.x.toNat, true)
  | .stch f | .stchApp f => some (f.x.toNat, false)
  | .tfit f | .escn f | .rlpop f => some (f.x.toNat, true)
  | .refold f => some (f.imm.toNat % 64, false)
  | .gath f | .ixpage f => if f.sub.getLsbD 0 then some (f.x.toNat, true) else none
  | _ => none

/-- Slab commands: every MXE command but `lease` and `unls` (R233). -/
def isSlab (i : Instr) : Bool :=
  match i with
  | .wld _ | .mma _ | .mmas _ | .accz _ | .drain _ | .probe _ | .clsf _ | .corr _ | .tfit _ | .tload _ | .tsave _ | .tset _
  | .escn _ | .rlpop _ | .refold _ => true
  | _ => false

/-- Whether two ranges share a byte. -/
def Span.meets (a b : Span) : Bool := decide (a.lo < b.hi) && decide (b.lo < a.hi)

/-- Whether an earlier command holds a later one back: they are compatible and their spans overlap (R224). -/
def Cmd.holds (a b : Cmd) : Bool :=
  (a.al == 0 || b.al == 0 || a.al == b.al) &&
    (a.gspan.any (fun x => b.gspan.any x.meets) || a.sspan.any (fun x => b.sspan.any x.meets))

/-! ## Channels (R133, R182) -/

/-- The channel an instruction pops (R131, R130). -/
def vecPop (i : Instr) : Option Nat :=
  match i with
  | .vrcv f => some (f.imm.toNat % 64)
  | .vdq f => if f.imm.getLsbD 0 then some (f.imm.toNat / 16 % 64) else none
  | _ => none

/-- The channel an instruction pushes (R129, R132). -/
def vecPush (i : Instr) : Option Nat :=
  match i with
  | .vsnd f => some (f.imm.toNat % 64)
  | .vqnt f => some (f.imm.toNat / 16 % 64)
  | _ => none

/-- Entries that a channel holds. -/
def chanDepth : Nat := 8

/-- Entries that VEC commands of a core have issued for a channel and not pushed yet (R58, R133). -/
def Core.toPush (x : Core) (ch : Nat) : List (Nat × Nat × ChEntry) := x.pushing.filter (fun p => p.2.1 == ch)

/-- The entries for a channel issued up to an order enter it (R70, R133, R182). -/
def Core.landPush (x : Core) (ch order : Nat) : Core :=
  { x with
    chans := x.chans.set ch (x.chan ch ++ ((x.toPush ch).filter (fun p => decide (p.1 ≤ order))).map (·.2.2))
    pushing := x.pushing.filter (fun p => !(p.2.1 == ch && decide (p.1 ≤ order))) }

/-- The entries that commands in flight have still to push enter their channels, behind those issued before them. -/
def Core.landPushes (x : Core) (fs : List Flight) : Core :=
  fs.foldl (fun x f =>
    match x.pushing.find? (fun p => f.eng == 2 && p.1 == f.order) with
    | some p => x.landPush p.2.1 f.order
    | none => x) x

/-- Whether a channel has room, beside what is to be pushed into it. -/
def State.chanRoom (s : State) (c ch : Nat) : Bool :=
  decide ((s.chan c ch).length + ((s.core c).toPush ch).length < chanDepth)

/-- Whether the channels of an instruction let it issue (R133). -/
def State.vecReady (s : State) (c : Nat) (i : Instr) : Bool :=
  (match vecPop i with
   | some ch => !(s.chan c ch).isEmpty
   | none => true) &&
    (match vecPush i with
     | some ch => s.chanRoom c ch
     | none => true)

/-! ## Group handles (R363, R365) -/

/-- The handle of a context on a die, where the host has set it. -/
def State.group? (s : State) (ctx die g : Nat) : Option Group :=
  s.groups.find? (fun x => x.ctx == ctx && x.die == die && x.g == g)

/-- Rounds posted and not joined. -/
def Group.open_ (x : Group) : List Round := x.rounds.filter (fun r => !r.joined)

/-- The handle field. -/
def groupOf (f : EF) : Nat := f.x.toNat % 16

/-- The handle of a command in flight on a core. -/
def State.groupAt (s : State) (c : Nat) (m : Cmd) : Option Group := s.group? (s.ctxOf c) (dieOf c) (groupOf m.ef)

/-- Whether an LNK command at its queue head may issue (R369, R372).  A replayed `cpost` or `cjoin` needs no handle; a replayed `cstat` whose
handle the host has not set again after the module reset waits for it (DESIGN CHOICE, log entry 35). -/
def State.lnkReady (s : State) (c : Nat) (m : Cmd) : Bool :=
  let x := s.groupAt c m
  match m.i with
  | .cpost _ => m.replay || x.any (fun x => decide (x.open_.length < 8))
  | .cstat f => x.isSome && s.chanRoom c f.y.toNat
  | _ => m.replay || x.isSome

/-! ## Which entry of a queue may issue (R66, R148, R176, R178, R214, R224, R230, R237) -/

/-- Whether a command is `lease`. -/
def Cmd.isLease (m : Cmd) : Bool :=
  match m.i with
  | .lease _ => m.mark.isNone
  | _ => false

/-- The first entry of a queue that no marker ahead of it holds (R214). -/
def headPast : List Cmd → List Nat → Option Cmd
  | [], _ => none
  | m :: ms, kinds =>
    match m.mark with
    | some (k, _) => headPast ms (k :: kinds)
    | none => if kinds.all (fun k => passes k m) then some m else none

/-- The engine's next entry in the queue of a stream. -/
def Stream.head (t : Stream) (eng : Nat) : Option Cmd := headPast (t.queue eng) []

/-- The bytes of TOKCNT that a command's waits consume (R176). -/
def waitBytes (eng : Nat) (k : Tok) : List Nat :=
  let up := match eng with
    | 0 => 3
    | 1 => 5
    | 2 => 7
    | _ => 1
  let dn := match eng with
    | 0 => 0
    | 1 => 2
    | 2 => 4
    | _ => 6
  (if k.wu then [up] else []) ++ (if k.wd then [dn] else [])

/-- The counters that a queue entry waits on; one requeued for its data effects waits on none (R328). -/
def Cmd.waits (m : Cmd) (eng : Nat) : List Nat := if m.dataOnly then [] else waitBytes eng (tokOf m.i)

/-- Whether every counter that a command waits on holds at least 1. -/
def Stream.tokensFor (t : Stream) (eng : Nat) (m : Cmd) : Bool := (m.waits eng).all (fun b => decide (1 ≤ t.tokAt b))

/-- Whether the consumption of a queue entry, if it makes one, has its place still to come in this cycle (R178). -/
def State.tokTurn (s : State) (c k eng : Nat) (m : Cmd) : Bool :=
  (m.waits eng).isEmpty || s.inOrder (tokObj c k, consumeKey eng)

/-- Whether an entry's format word is one that MXE retires it for (R237). -/
def Cmd.badWord (m : Cmd) : Bool := popsWord m.i && fwBad m.i m.fw

/-- Whether a command reads the tile that it writes: a `drain` whose tile E is its destination (R243). -/
def Cmd.readsOwn (m : Cmd) : Bool :=
  match m.i with
  | .drain f => readsE f m.fw && f.x == f.y
  | _ => false

/-- Whether the tiles that a command reads are ready (R148).  A `drain` with an ill-formed word reads none. -/
def Core.tilesReady (x : Core) (m : Cmd) : Bool :=
  m.dataOnly ||
    (match m.i with
     | .drain _ => m.badWord
     | _ => false) ||
    m.tiles.all (fun n => ((m.wr.map (·.1)) == some n && !m.readsOwn) || (x.tile n).st == .ready)

/-- Whether the channel of a command has an entry, or room, for its first entry (R182). -/
def State.chanReady (s : State) (c : Nat) (m : Cmd) : Bool :=
  match chanOf m.i with
  | some (ch, true) => s.chanRoom c ch
  | some (ch, false) => !(s.chan c ch).isEmpty
  | none => true

/-- Whether MXE serves the stream's entry: nothing passes a `lease` that has not been granted, and a slab command needs the
lease, whose 8,192 cycles have not passed (R230, R231, R233).  One requeued for its data effects makes them whatever the lease state is by
then (R328). -/
def Stream.leaseReady (t : Stream) (x : Cluster) (now : Nat) (m : Cmd) : Bool :=
  !t.flights.any (fun f => f.cmd.isLease && !f.done) &&
    (!isSlab m.i || m.dataOnly || (t.lease == .held && decide (x.eff now < x.grantAt + 8192)))

/-- Whether the next entry of a stream's queue may issue (R66).  A VEC entry of an exposed region issues in a later cycle than the one before it
(R70). -/
def State.canIssue (s : State) (c k eng : Nat) (m : Cmd) : Bool :=
  let t := s.stream c k
  !t.bitHalted eng && t.tokensFor eng m && s.tokTurn c k eng m && (s.core c).tilesReady m &&
    (match eng with
     | 2 => s.vecReady c m.i && !s.vecFresh c k
     | 1 => t.leaseReady (s.cluster (clusterOf c)) s.now m && s.chanReady c m
     | 5 => s.lnkReady c m
     | _ => s.chanReady c m) &&
    !t.incomplete.any (fun a => decide (a.j < m.j) && a.holds m)

/-- Whether the next entry is a slab command of a stream that has no lease: it is retired without issuing (R230, R237). -/
def State.leaseless (s : State) (c k eng : Nat) (m : Cmd) : Bool :=
  let t := s.stream c k
  eng == 1 && !t.bitHalted 1 && isSlab m.i && !m.dataOnly && t.lease == .none && !t.flights.any (fun f => f.cmd.isLease && !f.done)

/-- Inserts a candidate after its equals. -/
def insertBy {α : Type} (before : α → α → Bool) (c : α) : List α → List α
  | [] => [c]
  | d :: r => if before c d then c :: d :: r else d :: insertBy before c r

/-- Stable sort: equals keep their order. -/
def sortBy {α : Type} (before : α → α → Bool) (l : List α) : List α := l.foldl (fun r c => insertBy before c r) []

/-- Slots of a core in the order of service of an engine: least recently served first (R66).  Of slots never served the lower goes first,
and a stream newly placed in a slot has the slot's last service (DESIGN CHOICE, log entry 49). -/
def Core.serviceOrder (x : Core) (eng : Nat) : List Nat :=
  sortBy (fun a b => decide (x.served.getD (8 * eng + a) 0 < x.served.getD (8 * eng + b) 0)) (List.range 8)

/-- The slot that an engine serves, and its entry. -/
def State.pickHead (s : State) (c eng : Nat) : Option (Nat × Cmd) :=
  ((s.core c).serviceOrder eng).findSome? (fun k =>
    match (s.stream c k).head eng with
    | some m => if s.canIssue c k eng m || s.leaseless c k eng m then some (k, m) else none
    | none => none)

/-- How many engines would consume from a counter of a stream in this cycle: their consumptions come before a `wtok` (R178). -/
def State.wanted (s : State) (c k i : Nat) : Nat :=
  if !s.runs c || !s.mayIssue c then 0
  else
    ((List.range 6).filter (fun e =>
      (s.stream c k).queue e != [] &&
        match s.pickHead c e with
        | some (n, m) => n == k && !s.leaseless c k e m && (m.waits e).contains i
        | none => false)).length

end Sys2Proof.Machine
end

