-- ==== Sys2Proof/WellFormed.lean ====
section
/-! DEFINITION. Which instructions keep the encoding limits that raise cause 0x01 at dispatch: R47 to R49 for the control
subset, R51 to R55, R59 and each instruction's own field rules for the engines. Limits that depend on a register, a tile,
a format word or the wiring are checked where the instruction executes. -/

namespace Sys2Proof

/-- The modifier word's own rules (R55). -/
def Mod.ok (m : Mod) : Bool :=
  m.zero == 0 && decide (m.round.toNat ≤ 5) && (m.clamp || (m.clo == 0 && m.chi == 0))

/-- A modifier where one is allowed (R55). -/
def modOk (md : Option Mod) : Bool :=
  match md with
  | none => true
  | some m => m.ok

/-- Format codes of `vcvt`, `cpcv` and `cpout.cv`: 0 to 6 and 8 to 12 (R152, R156). -/
def copyFmt (c : Nat) : Bool := decide (c ≤ 6) || (decide (8 ≤ c) && decide (c ≤ 12))

/-- Format codes of `vcvt`: 0 to 5 and 8 to 12 (R120). -/
def cvtFmt (c : Nat) : Bool := decide (c ≤ 5) || (decide (8 ≤ c) && decide (c ≤ 12))

/-- Format codes of `fcvt`: 0 to 5, 8 to 11 and 13 (R49, R76). -/
def fcvtFmt (c : Nat) : Bool := decide (c ≤ 5) || (decide (8 ≤ c) && decide (c ≤ 11)) || c == 13

/-- The arithmetic types of VEC: fp32, bf16, fp16, int32, int16, int8 (R113). -/
def arithTy (c : Nat) : Bool := decide (c ≤ 2) || (decide (8 ≤ c) && decide (c ≤ 10))

/-- The integer types among them. -/
def intTy (c : Nat) : Bool := decide (8 ≤ c) && decide (c ≤ 10)

/-- The narrow formats of `vqnt` and `vdq`: mk8, e4m3, e5m2, mxfp4, int8 (R116). -/
def narrowTy (c : Nat) : Bool := (decide (3 ≤ c) && decide (c ≤ 6)) || c == 10

/-- Elements of a format code per vector register (R112). -/
def elemsOf (c : Nat) : Nat :=
  match c with
  | 0 => 64
  | 1 => 128
  | 2 => 128
  | 3 => 256
  | 4 => 256
  | 5 => 256
  | 6 => 512
  | 8 => 64
  | 9 => 128
  | 10 => 256
  | 11 => 256
  | 12 => 512
  | _ => 64

/-- Element width in bits of an arithmetic type. -/
def widthOf (c : Nat) : Nat :=
  match c with
  | 1 => 16
  | 2 => 16
  | 9 => 16
  | 10 => 8
  | _ => 32

/-- A predicate destination: bits 5:4 zero and not p0 (R116). -/
def predDst (x : BitVec 6) : Bool := decide (x.toNat < 16) && x != 0

/-- A predicate source: bits 5:4 zero (R116). -/
def predSrc (x : BitVec 6) : Bool := decide (x.toNat < 16)

/-- Where the type, sub and immediate fields must be zero. -/
def VF.plain (f : VF) : Bool := f.ty == 0 && f.sub == 0 && f.imm == 0

/-- VEC instructions: the table of R116. -/
def VF.ok (i : Instr) (f : VF) : Bool :=
  let ty := f.ty.toNat
  let sub := f.sub.toNat
  let imm := f.imm.toNat
  let nomod := f.md.isNone
  match i with
  | .vadd _ | .vsub _ | .vmul _ | .vmin _ | .vmax _ => f.vc == 0 && arithTy ty && sub == 0 && imm == 0 && modOk f.md
  | .vfma _ | .vfms _ => arithTy ty && sub == 0 && imm == 0 && modOk f.md
  | .vcmp _ =>
    predDst f.vd && f.vc == 0 && (ty == 0 || ty == 8) && imm == 0 && nomod &&
      (decide (sub ≤ 5) || (decide (sub ≤ 9) && ty == 8) || (sub == 10 && ty == 0))
  | .vsel _ => f.vc == 0 && f.plain && nomod
  | .vcvt _ =>
    f.vb == 0 && f.vc == 0 && cvtFmt ty && cvtFmt sub && decide (imm < 8) &&
      decide (imm < max (elemsOf ty / elemsOf sub) (elemsOf sub / elemsOf ty)) && modOk f.md
  | .vand _ | .vor _ | .vxor _ => f.vc == 0 && f.plain && nomod
  | .vnot _ | .vmov _ => f.vb == 0 && f.vc == 0 && f.plain && nomod
  | .vshl _ | .vshr _ | .vsra _ =>
    f.vc == 0 && intTy ty && nomod &&
      ((sub == 0 && imm == 0) || (sub == 1 && f.vb == 0 && decide (imm < widthOf ty)))
  | .vbc _ =>
    f.vb == 0 && f.vc == 0 && nomod &&
      ((sub == 0 && ty == 0 && decide (imm < 64)) || (sub == 1 && f.va == 0 && arithTy ty))
  | .vidx _ => f.va == 0 && f.vb == 0 && f.vc == 0 && intTy ty && sub == 0 && nomod
  | .vred _ =>
    f.vb == 0 && f.vc == 0 && arithTy ty && imm == 0 && decide (sub ≤ 5) && (decide (sub ≤ 2) || intTy ty) &&
      (if sub == 0 then modOk f.md else nomod)
  | .vscan _ => f.vb == 0 && f.vc == 0 && arithTy ty && imm == 0 && decide (sub ≤ 3) && modOk f.md
  | .vperm _ => f.plain && nomod
  | .vbit _ => f.vc == 0 && ty == 0 && sub == 0 && decide (imm < 8) && nomod
  | .vbpat _ => f.vd == 0 && f.vb == 0 && f.vc == 0 && ty == 0 && sub == 0 && decide (imm < 8) && nomod
  | .vsf _ => f.vb == 0 && f.vc == 0 && decide (ty ≤ 2) && decide (sub < 8) && imm == 0 && modOk f.md
  | .vtopk _ =>
    f.vc == 0 && (ty == 0 || ty == 8) && decide (sub ≤ 1) && decide (1 ≤ imm) && decide (imm ≤ 64) && f.vd != f.vb && nomod
  | .vrnd _ => f.vc == 0 && (ty == 0 || ty == 8) && sub == 0 && imm == 0 && nomod
  | .vqnt _ =>
    narrowTy ty && (ty == 6 || f.vb == 0) && decide (sub < (if ty == 6 then 8 else 4)) && decide (imm % 8 ≤ 5) &&
      (match f.md with
       | none => true
       | some m => m.ok && !m.sat && !m.clamp && !m.neg && !m.abs && m.scale == 0)
  | .vdq _ =>
    narrowTy ty && (ty == 6 || f.vb == 0) && decide (sub < (if ty == 6 then 8 else 4)) && decide (imm % 16 ≤ 1) &&
      (imm % 2 == 1 || (imm == 0 && f.vc == 0)) && nomod
  | .vrcv _ =>
    f.va == 0 && f.vb == 0 && ty == 0 && decide (imm < 64) && nomod &&
      ((sub == 0 && f.vc == 0) || (sub == 1 && predDst f.vc))
  | .vsnd _ => f.vd == 0 && f.vb == 0 && f.vc == 0 && ty == 0 && sub == 0 && decide (imm < 64) && nomod
  | .vrot _ => predSrc f.va && f.vd == 0 && f.pg == 0 && f.vb == 0 && f.vc == 0 && f.plain && nomod
  | .pand _ | .por _ | .pxor _ => predDst f.vd && predSrc f.va && predSrc f.vb && f.vc == 0 && f.plain && nomod
  | .pnot _ => predDst f.vd && predSrc f.va && f.vb == 0 && f.vc == 0 && f.plain && nomod
  | .pcnt _ => predSrc f.va && f.vb == 0 && f.vc == 0 && f.plain && nomod
  | .pset _ =>
    predDst f.vd && f.vb == 0 && f.vc == 0 && ty == 0 && nomod &&
      ((sub == 0 && f.va == 0 && decide (imm ≤ 64)) || ((sub == 1 || sub == 2) && imm == 0))
  | _ => false

/-- Fields that address scratchpad, absent. -/
def EF.noAd (f : EF) : Bool := f.ad == 0 && !f.p

/-- A barrier operand (R291, R368): y[5] zero, and y[3:0] zero without y[4]. -/
def barOk (y : BitVec 6) : Bool := decide (y.toNat < 32) && (y.getLsbD 4 || y == 0)

/-- The sub field within a mask of used bits. -/
def subIn (f : EF) (m : Nat) : Bool := f.sub.toNat &&& (31 - m) == 0

/-- The type and operation of `stat` (R207, R211). -/
def statOp (op ty : Nat) : Bool :=
  match op with
  | 0 | 1 | 2 | 6 => true
  | 3 | 4 | 5 | 7 => decide (ty ≤ 1)
  | _ => false

/-- The E layout: the field rules of each instruction (R53, R54, R152 to R159, R210, R211, R233, R240 to R284, R291 to R303,
R368).  A `pfch` may carry an alias class, as every command of LDE may (R54, R56), though R155 lets its fields but sa and sb be zero
(DESIGN CHOICE, log entry 40). -/
def EF.ok (i : Instr) (f : EF) : Bool :=
  let imm := f.imm.toNat
  let sub := f.sub.toNat
  let nomod := f.md.isNone
  let tIde := !f.tok.wd && !f.tok.sd                      -- IDX has no down neighbour
  let tSte := !f.tok.wu && !f.tok.su                      -- STE has no up neighbour
  let tLnk := f.tok == {}
  let base := !f.zero
  match i with
  | .cpin _ => base && !f.once && nomod && f.y == 0 && f.noAd && imm == 0 && subIn f 3
  | .cpinCh _ => base && !f.once && nomod && f.sb == 0 && f.sc == 0 && f.noAd && subIn f 5 &&
      f.sub.getLsbD 2
  | .cpcv _ =>
    base && !f.once && modOk f.md && f.y == 0 && f.noAd && subIn f 3 && copyFmt imm &&
      !(f.sub.getLsbD 1 && (imm == 6 || imm == 12))
  | .ldch _ => base && !f.once && nomod && f.y == 0 && subIn f 1 && (if sub == 0 then f.sa == 0 else f.noAd)
  | .ldbc _ =>
    base && !f.once && nomod && f.y == 0 && subIn f 1 && f.sb == 0 && f.sc == 0 && (if sub == 0 then f.sa == 0 else f.noAd)
  | .pfch _ => base && !f.once && nomod && f.x == 0 && f.y == 0 && f.sc == 0 && f.noAd && sub == 0 && imm == 0
  | .lease _ | .unls _ =>
    base && !f.once && nomod && f.x == 0 && f.y == 0 && f.al == 0 && f.sa == 0 && f.sb == 0 && f.sc == 0 && f.noAd &&
      sub == 0 && imm == 0
  | .wld _ =>
    base && !f.once && nomod && decide (f.y.toNat ≤ 1) && f.sb == 0 && f.sc == 0 && subIn f 1 && decide (imm < 64) &&
      (sub == 1 || f.noAd)
  | .mma _ | .mmas _ => base && !f.once && nomod && decide (f.y.toNat ≤ 1) && f.noAd && sub == 0 && decide (imm < 64)
  | .accz _ =>
    base && !f.once && nomod && f.al == 0 && f.x == 0 && f.y == 0 && f.sc == 0 && f.noAd && sub == 0 && imm == 0
  | .drain _ => base && !f.once && nomod && f.noAd && imm == 0 && subIn f 7
  | .probe _ => base && !f.once && nomod && decide (f.y.toNat ≤ 1) && f.noAd && subIn f 1 && decide (imm < 64)
  | .clsf _ => base && !f.once && nomod && f.x == 0 && f.y == 0 && f.noAd && sub == 0 && decide (imm < 8)
  | .corr _ => base && !f.once && nomod && f.noAd && subIn f 3 && decide (imm < 8) && (!f.sub.getLsbD 1 || f.y == 0)
  | .tfit _ =>
    base && !f.once && nomod && f.al == 0 && f.y == 0 && f.sb == 0 && f.sc == 0 && f.noAd && sub == 0 && decide (imm < 8)
  | .tload _ => base && !f.once && nomod && f.y == 0 && f.sb == 0 && f.sc == 0 && f.noAd && sub == 0 && imm == 0
  | .tsave _ => base && !f.once && nomod && f.y == 0 && f.sb == 0 && f.sc == 0 && f.noAd && subIn f 1 && imm == 0
  | .tset _ => base && !f.once && nomod && f.al == 0 && f.x == 0 && f.y == 0 && f.noAd && sub == 0 && decide (imm < 10)
  | .escn _ => base && !f.once && nomod && f.al == 0 && f.y == 0 && f.sc == 0 && f.noAd && sub == 0 && imm == 0
  | .rlpop _ =>
    base && !f.once && nomod && f.al == 0 && f.y == 0 && f.sb == 0 && f.sc == 0 && f.noAd && sub == 0 && imm == 0
  | .refold _ => base && !f.once && nomod && f.noAd && subIn f 3 && decide (imm < 64)
  | .cpout _ =>
    let cv := f.sub.getLsbD 1
    let acc := f.sub.getLsbD 2
    base && tSte && f.y == 0 && f.noAd && subIn f 7 && (acc || !f.once) && (if cv then modOk f.md else nomod) &&
      (if cv then copyFmt imm else imm == 0) && !(cv && acc && !(imm == 0 || imm == 1 || imm == 8)) &&
      !(cv && f.sub.getLsbD 0 && (imm == 6 || imm == 12))
  | .stch _ =>
    base && tSte && !f.once && nomod && f.sc == 0 &&
      (match sub % 4 with
       | 0 => subIn f 4 && f.sb == 0 && f.noAd
       | 1 => subIn f 1 && f.y == 0 && f.sa == 0
       | 2 => subIn f 2 && f.y == 0 && f.noAd
       | _ => false)
  | .stchApp _ => base && tSte && !f.once && nomod && sub == 3 && f.sa == 0 && f.sb == 0 && f.sc == 0 && f.noAd
  | .stg _ =>
    base && tSte && !f.once && nomod && f.x == 0 && f.y == 0 && imm == 0 &&
      ((decide (sub < 4) && f.sc == 0 && f.noAd) || (sub == 4 && f.sb == 0))
  | .stat _ =>
    let op := sub % 16
    let ty := imm / 8 % 4
    let vec := f.imm.getLsbD 5
    base && tSte && nomod && f.x == 0 && f.y == 0 && decide (imm < 64) && statOp op ty && decide (imm % 8 ≤ 5) &&
      (if vec then f.sb == 0 && op != 7
       else (op == 7 || f.sc == 0) && (f.sub.getLsbD 4 || f.noAd))
  | .gath _ | .ixpage _ =>
    base && tIde && !f.once && nomod && barOk f.y && imm == 0 && subIn f 1 && (if sub == 0 then f.x == 0 else f.noAd)
  | .scat _ => base && tIde && !f.once && nomod && barOk f.y && imm == 0 && sub == 0 && f.x == 0
  | .ixlist _ =>
    base && tIde && !f.once && nomod && barOk f.y && decide (f.x.toNat < 16) && f.sb == 0 && f.noAd && sub == 0 && imm == 0
  | .ixsum _ =>
    base && tIde && !f.once && nomod && barOk f.y && f.x == 0 && sub == 0 && (imm == 0 || imm == 1 || imm == 8)
  | .cpost _ =>
    base && tLnk && !f.once && nomod && barOk f.y && decide (f.x.toNat < 16) && f.sb == 0 && f.noAd && imm == 0 &&
      subIn f 7 && sub % 4 != 3 && !(sub % 4 == 2 && f.sub.getLsbD 2)
  | .cjoin _ =>
    base && tLnk && !f.once && nomod && barOk f.y && decide (f.x.toNat < 16) && f.noAd && imm == 0 && sub == 0
  | .cstat _ =>
    base && tLnk && !f.once && nomod && f.al == 0 && decide (f.x.toNat < 16) && f.sa == 0 && f.sb == 0 && f.sc == 0 &&
      f.noAd && imm == 0 && sub == 0
  | _ => false

/-- The direction of a token counter that exists (R51): engine 4 signals only up, engine 3 only down. -/
def tokDir (eng dir : Nat) : Bool :=
  match eng with
  | 0 | 1 | 2 => true
  | 3 => dir == 0
  | 4 => dir == 1
  | _ => false

/-- The system register ids of R312. -/
def sysReadable (id : Nat) : Bool :=
  decide (id ≤ 0x00A) || (decide (0x010 ≤ id) && decide (id ≤ 0x019)) || (decide (0x020 ≤ id) && decide (id ≤ 0x022)) ||
    (decide (0x028 ≤ id) && decide (id ≤ 0x029)) || (decide (0x030 ≤ id) && decide (id ≤ 0x031)) ||
    (decide (0x100 ≤ id) && decide (id ≤ 0x113)) || (decide (0x120 ≤ id) && decide (id ≤ 0x14F)) ||
    (decide (0x150 ≤ id) && decide (id ≤ 0x151))

/-- The ids whose write has a row of its own (R78, R136, R166, R181, R268, R313 to R315, R342). -/
def sysOwnRow (id : Nat) : Bool :=
  id == 3 || id == 4 || id == 0x17 || id == 0x20 || (decide (0x100 ≤ id) && decide (id ≤ 0x10F)) || id == 0x110 ||
    id == 0x112 || (decide (0x120 ≤ id) && decide (id ≤ 0x12F)) || (decide (0x140 ≤ id) && decide (id ≤ 0x14F))

/-- The other ids that `syswr` may write: TSCR_0, TSCR_1 and RDXSTAT (R209, R312). -/
def sysWritable (id : Nat) : Bool := id == 0x018 || id == 0x019 || id == 0x113

/-- Whether an instruction keeps the encoding limits (R47 to R59, R116, R291, R368).  A device step has no encoding, and is
well formed as such. -/
def Instr.wellFormed (i : Instr) : Bool :=
  match i with
  | .fadd _ _ _ t rnd | .fsub _ _ _ t rnd | .fmul _ _ _ t rnd | .ffma _ _ _ t rnd =>
    decide (t.toNat ≤ 2) && decide (rnd.toNat ≤ 5)
  | .fmin _ _ _ t | .fmax _ _ _ t => decide (t.toNat ≤ 2)
  | .fcmp _ _ _ t c => decide (t.toNat ≤ 2) && decide (c.toNat ≤ 3)
  | .fcvt _ _ src t rnd => fcvtFmt src.toNat && fcvtFmt t.toNat && decide (rnd.toNat ≤ 5)
  | .acfg k _ _ _ => decide (k.toNat ≤ 15)
  | .aset k _ => decide (k.toNat ≤ 15)
  | .aget _ k => decide (k.toNat ≤ 15)
  | .aadd k _ => decide (k.toNat ≤ 15)
  | .apost k => decide (k.toNat ≤ 15)
  | .lds _ p _ sz off => decide (sz.toNat ≤ 6) && (p == 0 || off == 0)
  | .sts _ p _ sz off => decide (sz.toNat ≤ 3) && (p == 0 || off == 0)
  | .br c _ _ => decide (c.toNat ≤ 5)
  | .loop _ _ endw | .loopn _ _ endw | .loopp _ _ endw => endw != 0
  | .wtok eng dir cnt | .tsig eng dir cnt => tokDir eng.toNat dir.toNat && decide (1 ≤ cnt.toNat) && decide (cnt.toNat ≤ 255)
  | .wfil ring n | .wfre ring n => decide (ring.toNat ≤ 15) && n != 0
  | .wbar b _ => decide (b.toNat ≤ 15)
  | .rclaim _ ring n | .rpub _ ring n | .rtake _ ring n | .rfree _ ring n | .rback _ ring n | .rsteal _ ring n =>
    decide (ring.toNat ≤ 15) && n != 0
  | .rstat _ ring => decide (ring.toNat ≤ 15)
  | .barinit b c => decide (b.toNat ≤ 15) && c != 0
  | .barv b => decide (b.toNat ≤ 15)
  | .chrd _ c => decide (56 ≤ c.toNat) && decide (c.toNat ≤ 63)
  | .sysrd _ imm => sysReadable imm.toNat
  | .syswr _ imm => sysWritable imm.toNat
  | .fenceAcq scope | .fenceRel scope | .fenceFull scope => decide (scope.toNat ≤ 5)
  | .cpin f | .cpinCh f | .cpcv f | .ldch f | .ldbc f | .pfch f | .lease f | .unls f | .wld f | .mma f | .mmas f | .accz f
  | .drain f | .probe f | .clsf f | .corr f | .tfit f | .tload f | .tsave f | .tset f | .escn f | .rlpop f | .refold f
  | .cpout f | .stch f | .stchApp f | .stg f | .stat f | .gath f | .scat f | .ixlist f | .ixpage f | .ixsum f | .cpost f
  | .cjoin f | .cstat f => f.ok i
  | .vadd f | .vsub f | .vmul f | .vfma f | .vfms f | .vmin f | .vmax f | .vcmp f | .vsel f | .vcvt f | .vand f | .vor f
  | .vxor f | .vnot f | .vshl f | .vshr f | .vsra f | .vmov f | .vbc f | .vidx f | .vred f | .vscan f | .vperm f | .vbit f
  | .vbpat f | .vsf f | .vtopk f | .vrnd f | .vqnt f | .vdq f | .vrcv f | .vsnd f | .vrot f | .pand f | .por f | .pxor f
  | .pnot f | .pcnt f | .pset f => f.ok i
  | _ => true

end Sys2Proof
end

