-- ==== Sys2Proof/Machine/Ops.lean ====
section
/-! DEFINITION. The shared operations of the machine: landing VEC results, traps and their return, the program counter and
hardware loops, blocks and waits, the journal, translation and fetch. -/

namespace Sys2Proof.Machine

/-- The next state, as an outcome. -/
abbrev Out := Host.Outcome State Fault Refusal

/-! ## VEC results that have not landed (R58, R70, R71) -/

/-- Packs numbers of `w` bits, the first in the low bits. -/
def packBits (w : Nat) : List Nat → Nat
  | [] => 0
  | x :: xs => x % 2 ^ w + packBits w xs * 2 ^ w

/-- A vector of `w`-bit elements. -/
def vecOf (w : Nat) (l : List Nat) : Vec := BitVec.ofNat 2048 (packBits w l)

/-- A vector whose `n` elements are given by number. -/
def vecFn (w n : Nat) (f : Nat → Nat) : Vec := vecOf w ((List.range n).map f)

/-- The bits of the lanes of a mask. -/
def laneBits (m : BitVec 64) : Vec := vecFn 32 64 (fun l => if m.getLsbD l then 2 ^ 32 - 1 else 0)

/-- The entries of a routing pattern whose lanes are in a mask, as bits of a pattern. -/
def patBits (m : BitVec 64) : Vec := vecFn 7 32 (fun b => if m.getLsbD b then 127 else 0)

/-- The bits of a destination that a free lane mask picks. -/
def pickBits (d : VDst) (m : BitVec 64) : Vec :=
  match d with
  | .v _ => laneBits m
  | .p _ => m.setWidth 2048
  | .pat _ => patBits m
  | .vstat => 0

/-- Replaces the bits of a mask. -/
def blend (old mask val : Vec) : Vec := (old &&& ~~~mask) ||| (val &&& mask)

/-- Lands one result. -/
def Stream.land (t : Stream) (w : PWrite) : Stream :=
  match w.dst with
  | .v k => { t with v := t.v.set k (blend (t.vecAt k) w.mask w.val) }
  | .p k =>
    if k = 0 then t
    else
      let m := w.mask.setWidth 64
      { t with p := t.p.set k ((t.predAt k &&& ~~~m) ||| (w.val.setWidth 64 &&& m)) }
  | .pat k =>
    let m := w.mask.setWidth 224
    { t with pats := t.pats.set k ((t.pats.getD k 0 &&& ~~~m) ||| (w.val.setWidth 224 &&& m)) }
  | .vstat => { t with dqmiss := t.dqmiss || w.mask.getLsbD 1, olclamp := t.olclamp || w.mask.getLsbD 0 }

/-- Lands the result that is next.  Where another of the same register has still to land, it has landed before this one in lanes
that are free, and leaves them to it (R70, log entry 7). -/
def Stream.landOne (t : Stream) (w : PWrite) : Stream :=
  { t.land w with
    pend := (t.pend.erase w).map (fun q =>
      if q.dst = w.dst then { q with mask := q.mask &&& ~~~(w.mask &&& pickBits q.dst (Config.landedBefore w.seed q.seed)) } else q) }

/-- Lands at most `n` of the results that a test picks, in issue order. -/
def Stream.landWhere (f : PWrite → Bool) : Nat → Stream → Stream
  | 0, t => t
  | n + 1, t =>
    match t.pend.find? f with
    | some w => Stream.landWhere f n (t.landOne w)
    | none => t

/-- Lands the issued results that a test picks. -/
def Stream.landThose (t : Stream) (f : PWrite → Bool) : Stream := t.landWhere f t.pend.length

/-- Lands every issued result (R71). -/
def Stream.landAll (t : Stream) : Stream := t.landThose (fun _ => true)

/-- Lands the results of one command. -/
def Stream.landCmd (t : Stream) (j : Nat) : Stream := t.landThose (fun w => w.j == j)

/-! ## Traps (R314 to R319) -/

/-- A trap of an instruction: its cause, engine status word, faulting address and code. -/
structure Trap where
  cause : Nat
  stat : Nat := 0
  va : Nat := 0
  code : Nat := 0
  deriving DecidableEq, Repr

/-- Everything FAULT_REC takes from a trap. -/
structure TrapRec where
  cause : Nat := 0
  eng : Nat := 8
  pc : W64 := 0
  jnum : Nat := 0
  stat : W64 := 0
  va : W64 := 0
  cursor : Nat := 0
  resume : W64 := 0
  code : Nat := 0
  halts : Bool := false

/-- The fault record that a trap of a slot writes (R314). -/
def TrapRec.record (r : TrapRec) (ident : Nat) (exp : Bool) : FaultRec :=
  { cause := BitVec.ofNat 64 (r.code * 2 ^ 16 + (if exp then 2 ^ 15 else 0) + r.eng * 2 ^ 8 + r.cause),
    ident := BitVec.ofNat 64 ident, pc := r.pc, jnum := BitVec.ofNat 64 r.jnum, stat := r.stat, va := r.va,
    cursor := BitVec.ofNat 64 r.cursor, resume := r.resume }

/-- Entries of a function's ring: none while the host has not enabled its queues (R374; log entry 15). -/
def State.ringEntries (s : State) (func queue : Nat) : Nat :=
  match (s.queues.getD func [])[queue]? with
  | some n => 2 ^ n
  | none => 0

/-- Whether a function's event queue has no free entry (R374). -/
def State.eventsFull (s : State) (func : Nat) : Bool := decide (s.ringEntries func 11 ≤ (s.events.getD func []).length)

/-- Posts an event to the event queue of a partition's function; while the queue is full it waits, behind those that wait already
(R374). -/
def State.post (s : State) (part : Nat) (e : HostEvent) : State :=
  if s.eventsFull part then { s with lateEvents := s.lateEvents.set part (s.lateEvents.getD part [] ++ [e]) }
  else { s with events := s.events.set part (s.events.getD part [] ++ [e]) }

/-- A waiting or halting stream leaves its wait for the handler; a running one stays running (R62, R316). -/
def SState.toHandler : SState → SState
  | .waiting _ => .ready
  | .halting => .ready
  | x => x

/-- A trap that is being taken waits for what VEC has issued in this very cycle (R71, R317, R325). -/
def State.holdTrap (s : State) (c k : Nat) : State := s.modStream c k (fun t => { t with heldAt := s.now + 1 })

/-- Taking a trap (R317): the handler is entered with FAULT_REC written, INTRAP set and the region mode `sb`, or the context
becomes faulted.  What VEC has issued in an exposed region lands first: what has issued in this very cycle cannot yet, and the trap waits
(R58, R71). -/
def State.takeTrap (s : State) (c k : Nat) (r : TrapRec) : State :=
  if s.vecFresh c k then s.holdTrap c k else
  let s := s.modCore c (fun x => x.landPushes (x.stream k).flights)
  let t := (s.stream c k).landAll
  let i := s.ctxOf c
  let x := s.ctx i
  let fr := r.record (identOf c k) t.exp
  if t.intrap then
    ((s.setStream c k t).modCtx i (fun x => { x with faulted := true })).post x.cfg.part (.faulted i t.fr (some fr))
  else if x.trapVec = 0 then
    ((s.setStream c k { t with fr := fr }).modCtx i (fun x => { x with faulted := true })).post x.cfg.part (.faulted i fr none)
  else
    s.setStream c k
      { t with
        fr := fr
        halted := if r.halts then t.halted ||| (1 <<< r.eng) else t.halted
        intrap := true
        exp := false
        pc := x.trapVec
        st := t.st.toHandler
        progress := s.now }

/-- A precise trap of the selected stream at its own instruction (R60, R316). -/
def State.trap (s : State) (t : Trap) : State :=
  s.takeTrap s.sel s.slot
    { cause := t.cause, pc := s.cur.pc, jnum := s.cur.jcnt.toNat, stat := BitVec.ofNat 64 t.stat, va := BitVec.ofNat 64 t.va,
      resume := s.cur.pc, code := t.code }

/-- A precise trap, as an outcome. -/
def trapOut (s : State) (t : Trap) : Out := .next (s.trap t)

/-- The illegal-instruction trap (R47, R60). -/
def illegal : Trap := { cause := 0x01 }

/-- A fault of an engine: the stream's queue for it is halted and the fault awaits being taken (R316, R317). -/
def Stream.engFault (t : Stream) (f : PFault) : Stream :=
  { t with faults := t.faults ++ [f], halted := if f.halts then t.halted ||| (1 <<< f.eng) else t.halted }

/-- The pending fault that is taken next: the one of the lowest engine (R317). -/
def lowestFault : List PFault → Option PFault
  | [] => none
  | f :: fs =>
    match lowestFault fs with
    | none => some f
    | some g => if g.eng < f.eng then some g else some f

/-- Bits 13:8 of TRAPST (R314). -/
def Stream.pendingMask (t : Stream) : BitVec 6 := t.faults.foldl (fun m f => m ||| (1 <<< f.eng)) 0

/-- Takes the pending fault of the lowest engine, once what VEC has issued can land (R71). -/
def State.takePending (s : State) (c k : Nat) : State :=
  let t := s.stream c k
  match lowestFault t.faults with
  | none => s
  | some f =>
    if s.vecFresh c k then s.holdTrap c k else
    (s.setStream c k { t with faults := t.faults.erase f }).takeTrap c k
      { cause := f.cause, eng := f.eng, pc := f.pc, jnum := f.j, stat := f.stat, va := f.va, cursor := f.cursor,
        resume := t.pc, halts := f.halts }

/-! ## The program counter and hardware loops (R43, R84) -/

/-- The newest active counter whose body ends at an address. -/
def newestLoop (l : Map LoopCtr) (x : W64) : Option (Nat × LoopCtr) :=
  match l with
  | [] => none
  | (n, c) :: r =>
    match newestLoop r x with
    | none => if c.active && c.last == x then some (n, c) else none
    | some (m, d) => if c.active && c.last == x && decide (d.order < c.order) then some (n, c) else some (m, d)

/-- The back-edge test for an instruction at `x` whose sequential successor is `nxt`; at most four counters (R84). -/
def Stream.backEdge (t : Stream) (x nxt : W64) : Nat → Stream
  | 0 => { t with pc := nxt }
  | n + 1 =>
    match newestLoop t.lc x with
    | none => { t with pc := nxt }
    | some (m, c) =>
      if c.count.toNat > 1 then { t.setL m { c with count := c.count - 1 } with pc := c.start }
      else Stream.backEdge (t.setL m { c with active := false }) x nxt n

/-- Control passes sequentially from the instruction of `n` words at the program counter. -/
def Stream.seqNext (t : Stream) (n : Nat) : Stream := t.backEdge t.pc (t.pc + BitVec.ofNat 64 (4 * n)) 4

/-- An instruction of the selected stream issues: progress for the watchdog, and an estimator event (R318, R337). -/
def State.issued (s : State) : State := (s.modCur (fun t => { t with progress := s.now })).countCore s.sel 0 1

/-- The selected stream has executed an instruction of `n` words that passes control on sequentially. -/
def State.retire (s : State) (n : Nat) : State := (s.issued).modCur (·.seqNext n)

/-! ## Blocks and waits (R62 to R64, R87) -/

/-- An operation takes its place in the present cycle. -/
def State.noteOrder (s : State) (p : Nat × Nat) : State := { s with cycle := s.cycle ++ [p] }

/-- The place of a wait that ends. -/
def State.waitPlace (s : State) (c k : Nat) (w : Wait) : List (Nat × Nat) :=
  match w with
  | .tok _ _ => [(tokObj c k, wtokKey)]
  | .fil r _ => [(ringObj (s.homeOf c r) r, ringKey 6 0 0)]
  | .fre r _ => [(ringObj (s.homeOf c r) r, ringKey 6 0 0)]
  | _ => []

/-- Pinned entries of a die's translation cache, which has 65,536 entries (R197, R201). -/
def pinnedIn (tlb : Map TlbE) : Nat := (tlb.filter (fun e => decide (0 < e.2.count))).length

/-- Whether the condition of a wait holds.  A walk and a reply end by events of their own. -/
def State.condHolds (s : State) (c k : Nat) (w : Wait) : Bool :=
  let t := s.stream c k
  match w with
  | .tok i n => decide (n + s.wanted c k i ≤ t.tokAt i) && s.inOrder (tokObj c k, wtokKey)
  | .fil r n =>
    let g := s.ring c r
    decide (n ≤ (g.pp - g.tp).toNat)
  | .fre r n =>
    let g := s.ring c r
    decide (n + (g.fp - g.rp).toNat ≤ g.slots)
  | .bar b ph => (s.bar (clusterOf c) b).phase == (ph == 1)
  | .lse => t.lease == .held
  | .stall (.queue e) => decide ((t.queue e).length < 16) && decide (t.journal.length < 32)
  | .stall .fenceQueues =>
    ([0, 1, 3, 4, 5].all fun e => decide ((t.queue e).length < 16)) && decide (t.journal.length + 5 ≤ 32)
  | .stall .journal => decide (t.journal.length < 32)
  | .stall .cache => decide (pinnedIn (s.die (dieOf c)).tlb < 65536)
  | .stall (.pin e) =>
    match (s.die (dieOf c)).tlb.find e with
    | some x => decide (x.count < 65535)
    | none => true
  | .chan ch => !(s.chan c ch).isEmpty
  | .pool ds d =>
    ds.all fun e =>
      decide ((((s.die e).nests.filter (·.depth == d)).length) < (if d = 0 then 512 else if d = 1 then 256 else 128))
  | .walk _ => false
  | .post _ => !s.eventsFull (s.ctx (s.ctxOf c)).cfg.part
  | .reply => false
  | .drain _ => t.drained

/-- What a stream whose wait condition holds consumes, and where it goes on: a wait instruction is passed, a stalled one is
executed afresh (R67, R87, R89). -/
def Stream.wake (t : Stream) (w : Wait) : Stream :=
  match w with
  | .tok i n => (t.setTok i (t.tokAt i - n)).seqNext 1
  | .fil _ _ => t.seqNext 1
  | .fre _ _ => t.seqNext 1
  | .bar _ _ => t.seqNext 1
  | .lse => t.seqNext 1
  | .drain e => { t.seqNext 1 with exp := e }
  | _ => t

/-- A drained stream has observed that its commands have completed (R68, R175): it will release what they have done. -/
def State.observeDrain (s : State) (c k : Nat) : State := s.learn (s.ctxOf c) (· == .done c k true) [.obs c k]

/-- A slot's stream acquires what a wait that ends is an acquire of: a token counter's signals (R223), or a barrier's arrivals (R190); a drain
only observes.  Any other wait orders nothing (R175, R185). -/
def State.acquireWait (s : State) (c k : Nat) (w : Wait) : State :=
  match w with
  | .tok i _ => s.acquires c k (· == .tok c k i)
  | .bar b _ => s.acquires c k (· == .bar (clusterOf c) b)
  | .drain _ => s.observeDrain c k
  | _ => s

/-- A slot's stream goes on from a wait whose condition holds, in a state. -/
def State.woken (s : State) (c k : Nat) (w : Wait) (x : SState) : State :=
  (s.setStream c k { (s.stream c k).wake w with st := x }).acquireWait c k w

/-- The end of a wait takes its place in the cycle. -/
def State.notePlace (s : State) (p : List (Nat × Nat)) : State := p.foldl State.noteOrder s

/-- Whether a stream has a fault of an engine to take: it takes it at once when it waits or halts, and does not go on from its wait before
that (R316). -/
def Stream.mustTrap (t : Stream) : Bool := !t.intrap && !t.faults.isEmpty

/-- Whether a slot can be selected: ready, or waiting on a condition that holds (R64). -/
def State.selectable (s : State) (c k : Nat) : Bool :=
  match (s.stream c k).st with
  | .ready => true
  | .waiting w => s.condHolds c k w && !(s.stream c k).mustTrap
  | _ => false

/-- A slot begins to run. -/
def State.run (s : State) (c k : Nat) : State :=
  let t := s.stream c k
  let s' := match t.st with
    | .waiting w => (s.woken c k w .running).notePlace (s.waitPlace c k w)
    | _ => s.modStream c k (fun t => { t with st := .running })
  s'.modCore c (fun x => { x with last := k })

/-- The first selectable slot among `n` from slot `k` on, wrapping round. -/
def State.firstReady (s : State) (c k : Nat) : Nat → Option Nat
  | 0 => none
  | n + 1 => if s.selectable c (k % 8) then some (k % 8) else State.firstReady s c (k + 1) n

/-- The sequencer of a core selects the next stream, starting after the slot whose block has ended (R64). -/
def State.select (s : State) (c : Nat) : State :=
  match s.firstReady c ((s.core c).last + 1) 8 with
  | some k => s.run c k
  | none => s

/-- The block of the selected stream ends in a state, and the next stream is selected. -/
def State.endBlock (s : State) (x : SState) : State := (s.modCur (fun t => { t with st := x })).select s.sel

/-- A taken transfer of the selected stream: no back-edge test, and the block ends (R63, R84). -/
def State.jump (s : State) (pc : W64) : State := ((s.issued).modCur (fun t => { t with pc := pc })).endBlock .ready

/-- The block of the selected stream ends on a wait. -/
def State.wait (s : State) (w : Wait) : State := s.endBlock (.waiting w)

/-! ## The journal (R326, R327) -/

/-- Frees the records at the head that are done; a mark at the head is done, and JMARK_V takes its value. -/
def settleJournal (l : List JRec) (mark : W64) : List JRec × W64 :=
  match l with
  | [] => ([], mark)
  | r :: rs =>
    if r.kind == 2 then settleJournal rs r.value
    else if r.done then settleJournal rs mark
    else (r :: rs, mark)

def Stream.settle (t : Stream) : Stream :=
  let (l, m) := settleJournal t.journal t.jmarkV
  { t with journal := l, jmarkV := m }

/-- Changes the record of a command. -/
def Stream.modJrec (t : Stream) (j : Nat) (f : JRec → JRec) : Stream :=
  { t with journal := t.journal.map (fun r => if r.j == j then f r else r) }

/-- A command or marker of the slot is done. -/
def Stream.jdone (t : Stream) (j : Nat) : Stream := (t.modJrec j (fun r => { r with done := true })).settle

/-! ## Translation (R193 to R198) -/

/-- A page-table entry. -/
structure Pte where
  raw : Nat

def Pte.v (e : Pte) : Bool := bt e.raw 0
def Pte.l (e : Pte) : Bool := bt e.raw 1
def Pte.r (e : Pte) : Bool := bt e.raw 2
def Pte.w (e : Pte) : Bool := bt e.raw 3
def Pte.x (e : Pte) : Bool := bt e.raw 4
def Pte.cmp (e : Pte) : Bool := bt e.raw 5
def Pte.nc (e : Pte) : Bool := bt e.raw 7
def Pte.addr (e : Pte) : Nat := fld e.raw 45 14 * 2 ^ 14

/-- Page size of a leaf at a level, as a power of two (R193). -/
def levelSize (lv : Nat) : Nat := 16 + 11 * lv

/-- Whether a physical range lies in HBM4E or in the host aperture (R195). -/
def physOk (pa n : Nat) : Bool :=
  decide (pa + n ≤ 2 ^ 42) || (decide (2 ^ 45 ≤ pa) && decide (pa + n ≤ 2 ^ 46))

/-- Whether a valid entry breaks a zero rule or an alignment rule (R194, R195). -/
def Pte.malformed (e : Pte) (lv : Nat) : Bool :=
  fld e.raw 55 46 != 0 || fld e.raw 13 8 != 0 || bt e.raw 6 || (!e.l && fld e.raw 7 2 != 0) || (e.l && lv == 3) ||
    (!e.l && lv == 0) || (e.l && (e.addr % 2 ^ levelSize lv != 0 || !physOk e.addr (2 ^ levelSize lv)))

/-- A leaf found by a walk. -/
structure Leaf where
  level : Nat
  pte : Pte

/-- A failed walk: reason and level (R198), or an entry in a poisoned line (R380). -/
structure WalkErr where
  reason : Nat
  level : Nat
  bad : Bool := false
  deriving DecidableEq, Repr

/-- The trap of a failed walk for an address (R198, R380). -/
def WalkErr.trap (e : WalkErr) (va : Nat) : Trap :=
  if e.bad then { cause := 0x12, va := va } else { cause := 0x04, stat := e.reason * 256 + e.level, va := va }

/-- The cache entry that a leaf gives. -/
def Leaf.entry (l : Leaf) (ctx va id : Nat) : TlbE :=
  let sz := levelSize l.level
  { ctx := ctx
    pin := { id := id, vbase := va / 2 ^ sz * 2 ^ sz, size := sz, pbase := l.pte.addr,
             cmp := l.pte.cmp && decide (l.pte.addr < 2 ^ 42) }
    r := l.pte.r, w := l.pte.w, x := l.pte.x, nc := l.pte.nc }

/-- The cached translation of an address, if one is valid (R199, R201). -/
def lookup (tlb : Map TlbE) (ctx va : Nat) : Option TlbE :=
  match tlb with
  | [] => none
  | (_, e) :: r =>
    if e.ctx == ctx && !e.retiring && e.pin.vbase == va / 2 ^ e.pin.size * 2 ^ e.pin.size then some e else lookup r ctx va

/-- Physical address of a virtual one within a page. -/
def Pin.pa (p : Pin) (va : Nat) : Nat := p.pbase + va % 2 ^ p.size

/-- Whether a page holds a virtual address. -/
def Pin.has (p : Pin) (va : Nat) : Bool := p.vbase == va / 2 ^ p.size * 2 ^ p.size

/-- A range of global memory that a command touches, and how (R196). -/
structure Acc where
  lo : Nat
  hi : Nat
  r : Bool := false
  w : Bool := false
  /-- an atomic (R205) -/
  atom : Bool := false
  deriving DecidableEq, Repr

/-- What translation at enqueue comes to. -/
inductive Xlat where
  | ok (pins : List Pin)
  | fault (t : Trap)
  | miss (va : Nat)
  | full (entry : Nat)

/-- Why a page is refused to an access (R196, R198, R205). -/
def TlbE.denies (e : TlbE) (a : Acc) (va : Nat) : Option Trap :=
  if a.r && !e.r then some { cause := 0x05, stat := 1 * 256, va := va }
  else if a.w && !e.w then some { cause := 0x05, stat := 2 * 256, va := va }
  else if a.atom && decide (2 ^ 45 ≤ e.pin.pbase) then some { cause := 0x05, stat := 4 * 256, va := va }
  else none

/-- Translates the pages of one range from `va` up; `n` counts the pages still allowed (R196, R197).  A page whose in-flight count is full
holds the dispatch before a later page is looked at: a fault there is taken only once the count has fallen (DESIGN CHOICE, log
entry 49). -/
def xlatRange (tlb : Map TlbE) (ctx : Nat) (a : Acc) (va : Nat) (pins : List Pin) : Nat → Xlat
  | 0 => if va < a.hi then .fault { cause := 0x04, stat := 3 * 256, va := va } else .ok pins
  | n + 1 =>
    if va ≥ a.hi then .ok pins
    else if va ≥ 2 ^ 60 then .fault { cause := 0x04, stat := 4 * 256, va := va }
    else
      match pins.find? (fun p => p.has va) with
      | some p =>
        match tlb.find p.id with
        | some e =>
          match e.denies a va with
          | some t => .fault t
          | none => xlatRange tlb ctx a (p.vbase + 2 ^ p.size) pins n
        | none => .miss va
      | none =>
        match lookup tlb ctx va with
        | none => .miss va
        | some e =>
          match e.denies a va with
          | some t => .fault t
          | none =>
            if e.count ≥ 65535 then .full e.pin.id
            else if pins.length ≥ 1024 then .fault { cause := 0x04, stat := 3 * 256, va := va }
            else xlatRange tlb ctx a (e.pin.vbase + 2 ^ e.pin.size) (pins ++ [e.pin]) n

/-- Translates the ranges of a command in order. -/
def xlatAll (tlb : Map TlbE) (ctx : Nat) (pins : List Pin) : List Acc → Xlat
  | [] => .ok pins
  | a :: as =>
    match xlatRange tlb ctx a a.lo pins 2048 with
    | .ok p => xlatAll tlb ctx p as
    | x => x

/-- Whether a die's cache can hold more pinned pages (R201, R216). -/
def cacheHolds (tlb : Map TlbE) (pins : List Pin) : Bool :=
  pins.isEmpty || decide (pinnedIn tlb + (pins.filter (fun p => (tlb.find p.id).all (fun e => e.count == 0))).length ≤ 65536)

/-- The first page whose in-flight count stands at 65,535 (R197). -/
def fullPin (tlb : Map TlbE) (pins : List Pin) : Option Pin :=
  pins.find? (fun p => (tlb.find p.id).any (fun e => decide (65535 ≤ e.count)))

/-- Changes the in-flight counts of pages (R197). -/
def addPins (tlb : Map TlbE) (pins : List Pin) (up : Bool) : Map TlbE :=
  pins.foldl (fun m p =>
    match m.find p.id with
    | some e => m.set p.id { e with count := if up then e.count + 1 else e.count - 1 }
    | none => m) tlb

def State.pinPages (s : State) (d : Nat) (pins : List Pin) (up : Bool) : State :=
  if pins.isEmpty then s else s.modDie d (fun x => { x with tlb := addPins x.tlb pins up })

/-! ## Decoding (R43, R60) -/

/-- Decodes fetched words; what is no instruction becomes the trap of R60. -/
def decodeFetched (ws : List Nat) : Instr :=
  match decodeWords (ws.getD 0 0) (ws.getD 1 0) (ws.getD 2 0) (ws.getD 3 0) with
  | .ok i => i
  | .error r => .illegalInstruction r

/-! ## Tiles (R144 to R148) -/

def Tile.base (t : Tile) : Nat := fld t.d0.toNat 19 0
def Tile.pitch (t : Tile) : Nat := fld t.d0.toNat 43 24
def Tile.rows (t : Tile) : Nat := fld t.d1.toNat 15 0
def Tile.cols (t : Tile) : Nat := fld t.d1.toNat 31 16
def Tile.fmt (t : Tile) : Nat := fld t.d1.toNat 36 32

/-- The filling tile becomes ready once its finishing write and all its writes have completed (R146). -/
def Tile.settle (t : Tile) : Tile :=
  if t.st == .filling && t.finDone && t.writes == 0 then { t with st := .ready, fin := false, finDone := false } else t

/-- A command that names the tile is dispatched; `wr` is given for a write, with whether it is finishing (R147). -/
def Tile.dispatch (t : Tile) (wr : Option Bool) : Tile :=
  match wr with
  | none => { t with out := t.out + 1 }
  | some f => { t with out := t.out + 1, writes := t.writes + 1, fin := t.fin || f }

/-- A command that names the tile completes (R146, R147). -/
def Tile.complete (t : Tile) (wr : Option Bool) : Tile :=
  match wr with
  | none => { t with out := t.out - 1 }
  | some f => ({ t with out := t.out - 1, writes := t.writes - 1, finDone := t.finDone || f } : Tile).settle

/-- A command that names the tile is retired or discarded without completing (R147). -/
def Tile.abandon (t : Tile) (wr : Option Bool) : Tile :=
  match wr with
  | none => { t with out := t.out - 1 }
  | some true => { t with out := t.out - 1, writes := t.writes - 1, fin := false }
  | some false => ({ t with out := t.out - 1, writes := t.writes - 1 } : Tile).settle

/-- Applies a tile transition for every tile a command names. -/
def State.tilesOf (s : State) (c : Nat) (m : Cmd) (f : Tile → Option Bool → Tile) : State :=
  m.tiles.foldl (fun s n =>
    s.modTile c n (fun t => f t (match m.wr with
      | some (k, fin) => if k == n then some fin else none
      | none => none))) s

/-! ## Dispatch (R67) -/

/-- What a dispatch has found out before translation: the entry, the ranges to translate, the address register to
post-update and whether a format word is popped. -/
structure Prep where
  cmd : Cmd
  accs : List Acc := []
  post : Option Nat := none
  pop : Bool := false

/-- The commands that carry an implicit once-only guard (R287). -/
def implicitOnce (i : Instr) : Bool :=
  match i with
  | .clsf _ => true
  | .corr f => !f.sub.getLsbD 1
  | .tfit _ => true
  | .refold _ => true
  | .rlpop _ => true
  | .tload _ => true
  | .tset _ => true
  | _ => false

/-- Whether the journal guards a command against being replayed (R326). -/
def onceOf (i : Instr) : Bool :=
  match i with
  | .stat f => f.once
  | .cpout f => f.once
  | i => implicitOnce i

/-- Takes the next command number and writes the journal record (R326). -/
def Stream.journalPush (t : Stream) (r : JRec) : Stream :=
  { t with jcnt := t.jcnt + 1, journal := t.journal ++ [{ r with j := t.jcnt.toNat }] }

end Sys2Proof.Machine
end

