-- ==== Sys2Proof/Machine/Operands.lean ====
section
/-! DEFINITION. Operand forms: immediates, address registers with their windows (R78 to R80), the scratchpad range of an
access (R139, R142), scalar floating-point operands (R75, R76) and the counter-based generator (R127). -/

namespace Sys2Proof.Machine

/-! ## Immediates and results of control instructions -/

/-- A signed immediate as a 64-bit value (R46). -/
def sx {n : Nat} (x : BitVec n) : W64 := x.signExtend 64

/-- An instruction that breaks an encoding limit traps; any other goes on (R60). -/
def checked (i : Instr) (s : State) (r : Out) : Out := if i.wellFormed then r else trapOut s illegal

/-- The selected stream writes a scalar register and passes on sequentially. -/
def State.writeS (s : State) (d : BitVec 5) (x : W64) (n : Nat) : Out := .next ((s.modCur (·.setS d.toNat x)).retire n)

/-- A scalar register of the selected stream. -/
def State.sreg (s : State) (r : BitVec 5) : W64 := s.cur.getS r.toNat

/-- Number of zero bits below the lowest one bit, at most `n` from bit `k` up. -/
def zerosFrom (x k : Nat) : Nat → Nat
  | 0 => 0
  | n + 1 => if x.testBit k then 0 else 1 + zerosFrom x (k + 1) n

/-- Leading zero bits of a 64-bit value. -/
def clz64 (x : W64) : Nat := if x = 0 then 64 else 63 - Nat.log2 x.toNat

/-! ## Address registers (R78 to R80) -/

/-- Bit `i` of the result is bit `n - 1 - i` of the argument. -/
def revBits (x : Nat) : Nat → Nat
  | 0 => 0
  | n + 1 => (if x.testBit 0 then 2 ^ n else 0) + revBits (x / 2) n

/-- The post-update (R79).  Division and mod are floored. -/
def AddrReg.postUpdate (a : AddrReg) : AddrReg :=
  let len := a.length.toNat
  let v : Int := (a.value.toNat : Int) - (a.base.toNat : Int)
  match a.mode.toNat with
  | 0 => { a with value := a.value + sx a.step }
  | 1 => { a with value := a.base + BitVec.ofInt 64 ((v + a.step.toInt).emod len) }
  | 2 =>
    let n := Nat.log2 len
    let o := (v.emod len).toNat
    let st := (a.step.toInt.emod len).toNat
    { a with value := a.base + BitVec.ofNat 64 (revBits ((revBits o n + revBits st n) % max len 1) n) }
  | _ =>
    let q := v + a.step.toInt
    { a with
      wrap := a.wrap + BitVec.ofInt 32 (if len = 0 then 0 else q.fdiv len)
      value := a.base + BitVec.ofInt 64 (q.emod len) }

/-- Whether `n` bytes at an address lie in the slot's window (R80). -/
def AddrReg.inWindow (a : AddrReg) (addr n : Nat) : Bool :=
  a.length == 0 || n == 0 || (decide (a.base.toNat ≤ addr) && decide (addr + n ≤ a.base.toNat + a.length.toNat))

/-- The trap of an address formed outside its slot's window (R80). -/
def slotTrap (addr : Nat) : Trap := { cause := 0x0F, va := addr }

/-! ## Scratchpad ranges (R139, R142) -/

/-- Bytes of a core's scratchpad. -/
def spadSize : Nat := 0xC0000

/-- The lowest byte of `[lo, hi)` that is closed to programs: at or above 0xC0000, or in the journal (R139, R142). -/
def closedByte (jnl lo hi : Nat) : Option Nat :=
  if hi ≤ lo then none
  else
    let j := max lo jnl
    if j < min hi (jnl + 0x4000) then some j
    else if spadSize < hi then some (max lo spadSize)
    else none

/-- The lowest closed byte of several ranges. -/
def closedAmong (jnl : Nat) (rs : List (Nat × Nat)) : Option Nat :=
  rs.foldl (fun m r =>
    match m, closedByte jnl r.1 r.2 with
    | none, x => x
    | some a, none => some a
    | some a, some b => some (min a b)) none

/-- The trap of scratchpad bytes that are closed (R139). -/
def spadTrap (jnl : Nat) (rs : List (Nat × Nat)) : Option Trap :=
  match closedAmong jnl rs with
  | some a => some { cause := 0x0F, va := a }
  | none => none

/-- The journal base of the selected stream's context. -/
def State.jnl (s : State) : Nat := s.curCtx.jnlBase

/-! ## The counter-based generator (R127) -/

/-- One step of the mixer. -/
def mixstep (p : W64 × W64) : W64 × W64 :=
  let x := (p.1 ^^^ (p.1 >>> 29)) * 0xB4C1E2937D0F6A59
  let x := x ^^^ p.2
  (x, ((p.2 <<< 17) ||| (p.2 >>> 47)) + x)

/-- The generator: key, stream id and element index give a 32-bit word. -/
def gen (key : W64) (sid : W32) (idx : W64) : W32 :=
  let y : W64 := (sid.setWidth 64 <<< 32) ^^^ (key &&& 0xFFFFFFFF) ^^^ 0x6C8E9CF570932BD5
  let p := mixstep (mixstep (mixstep (mixstep (idx ^^^ key, y))))
  (p.1 ^^^ (p.1 >>> 32)).setWidth 32

/-- The draw for an element of a command or instruction of a slot: the key is CTX_ID and the stream id the slot's identity
(R77, R115). -/
def drawWord (ctx ident : Nat) (idx : W64) : Nat := (gen (BitVec.ofNat 64 ctx) (BitVec.ofNat 32 ident) idx).toNat

/-! ## Scalar floating-point operands (R75, R76) -/

/-- The type of a scalar FP instruction: FP32, BF16 or FP16. -/
def fpTy (t : BitVec 5) : Fmt :=
  match t.toNat with
  | 1 => .bf16
  | 2 => .fp16
  | _ => .fp32

/-- Rounding code of a checked instruction. -/
def rndOf (r : BitVec 3) : Rnd := (Rnd.ofCode r.toNat).getD .rne

/-- The value of a scalar operand: its low bits (R75). -/
def fpArg (f : Fmt) (x : W64) : Val := f.decode (x.toNat % 2 ^ f.width)

/-- The word drawn for control-subset rounding, and the counter's advance under `rsto` (R77). -/
def State.ctlDraw (s : State) (m : Rnd) : Nat × State :=
  if m == .rsto then
    (drawWord (s.ctxOf s.sel) (identOf s.sel s.slot) s.cur.rctr, s.modCur (fun t => { t with rctr := t.rctr + 1 }))
  else (0, s)

/-- A scalar FP result: rounded once, written to the low bits with the rest cleared (R75). -/
def State.writeFp (s : State) (d : BitVec 5) (f : Fmt) (v : Val) (m : Rnd) : Out :=
  let (u, s) := s.ctlDraw m
  s.writeS d (BitVec.ofNat 64 (roundTo f v m u false)) 1

/-! ## Conversion between element formats (R29, R35, R37) -/

/-- Conversion of a code of one format to another: between integers the low bits are kept, or clamped with the saturate
modifier; every other conversion rounds the value (R35, R37). -/
def convert (src dst : Fmt) (code : Nat) (m : Rnd) (u : Nat) (sat : Bool) : Nat :=
  if src.isInt && dst.isInt && !sat then
    wrapInt dst.width (if src.isSigned then signedOf src.width code else ((code % 2 ^ src.width : Nat) : Int))
  else roundTo dst (src.decode code) m u sat

end Sys2Proof.Machine
end

