-- ==== Sys2Proof/Machine/Addr.lean ====
section
/-! DEFINITION. The address-slot instructions (R78, R79) and scalar scratchpad access (R81). -/

namespace Sys2Proof.Machine

/-- An address register of the selected stream. -/
def State.areg (s : State) (k : Nat) : AddrReg := s.cur.getA k

/-- The selected stream changes an address register and passes on sequentially. -/
def State.writeA (s : State) (k : Nat) (x : AddrReg) : Out := .next ((s.modCur (·.setA k x)).retire 1)

/-- The limits that `acfg` sets on its registers (R78). -/
def acfgOk (len step : W64) (m : BitVec 2) : Bool :=
  len.extractLsb' 32 32 == 0 && step == sx (step.setWidth 32) && !((m == 1 || m == 3) && len == 0) &&
    (m != 2 || (decide (2 ≤ len.toNat) && decide (len.toNat ≤ 2 ^ 31) && isPow2 len.toNat))

/-- Configures a slot: length, step and mode; the value returns to the base (R78). -/
def execAcfg (k a b : BitVec 5) (m : BitVec 2) (s : State) : Out :=
  checked (.acfg k a b m) s <|
    if acfgOk (s.sreg a) (s.sreg b) m then
      s.writeA k.toNat
        { s.areg k.toNat with
          length := (s.sreg a).setWidth 32, step := (s.sreg b).setWidth 32, mode := m, value := (s.areg k.toNat).base
          wrap := 0 }
    else trapOut s illegal

/-- Sets value and base; the wrap counter is cleared (R78). -/
def execAset (k a : BitVec 5) (s : State) : Out :=
  checked (.aset k a) s (s.writeA k.toNat { s.areg k.toNat with value := s.sreg a, base := s.sreg a, wrap := 0 })

/-- Reads the value (R78). -/
def execAget (d k : BitVec 5) (s : State) : Out := checked (.aget d k) s (s.writeS d (s.areg k.toNat).value 1)

/-- Adds a signed immediate to the value (R78). -/
def execAadd (k : BitVec 5) (imm : BitVec 14) (s : State) : Out :=
  checked (.aadd k imm) s (s.writeA k.toNat { s.areg k.toNat with value := (s.areg k.toNat).value + sx imm })

/-- Applies the post-update once (R78, R79). -/
def execApost (k : BitVec 5) (s : State) : Out :=
  checked (.apost k) s (s.writeA k.toNat (s.areg k.toNat).postUpdate)

/-- The address that an `[aN]` operand forms: value plus offset, or the value that a post-update follows (R81). -/
def formAddr (a : AddrReg) (p : BitVec 1) (off : BitVec 11) : Nat := if p = 1 then a.value.toNat else (a.value + sx off).toNat

/-- What forbids an aligned scalar access of `n` bytes: the window, the alignment, or a closed byte (R80, R81, R142). -/
def scalarTrap (a : AddrReg) (jnl addr n : Nat) : Option Trap :=
  if !a.inWindow addr n then some (slotTrap addr)
  else if addr % n ≠ 0 then some { cause := 0x0F, va := addr }
  else spadTrap jnl [(addr, addr + n)]

/-- Bytes of a size code (R49). -/
def sizeBytes (sz : BitVec 3) : Nat :=
  match sz.toNat with
  | 0 => 1 | 1 => 2 | 2 => 4 | 3 => 8 | 4 => 1 | 5 => 2 | _ => 4

/-- The register value that a load of a size code gives: zero-extended, or sign-extended for codes 4 to 6 (R81). -/
def loadExtend (sz : BitVec 3) (x : Nat) : W64 :=
  if sz.toNat ≤ 3 then BitVec.ofNat 64 x else BitVec.ofInt 64 (signedOf (8 * sizeBytes sz) x)

/-- The address register after an access. -/
def AddrReg.after (a : AddrReg) (p : BitVec 1) : AddrReg := if p = 1 then a.postUpdate else a

/-- Loads a scalar from scratchpad (R81). -/
def execLds (d : BitVec 5) (p : BitVec 1) (k : BitVec 4) (sz : BitVec 3) (off : BitVec 11) (s : State) : Out :=
  checked (.lds d p k sz off) s <|
    let a := s.areg k.toNat
    let n := sizeBytes sz
    match scalarTrap a s.jnl (formAddr a p off) n with
    | some t => trapOut s t
    | none =>
      ((((s.spadLooked s.sel s.slot (formAddr a p off) n).countCore s.sel 6 1).countCorrected (dieOf s.sel) 0).modCur (·.setA k.toNat (a.after p))).writeS d
        (loadExtend sz (leNat (s.spadSeen s.sel s.slot (formAddr a p off) n))) 1

/-- Stores the low bytes of a scalar in scratchpad (R81). -/
def execSts (d : BitVec 5) (p : BitVec 1) (k : BitVec 4) (sz : BitVec 3) (off : BitVec 11) (s : State) : Out :=
  checked (.sts d p k sz off) s <|
    let a := s.areg k.toNat
    let n := sizeBytes sz
    match scalarTrap a s.jnl (formAddr a p off) n with
    | some t => trapOut s t
    | none =>
      .next (((((s.spadPut s.sel s.slot (formAddr a p off) (leBytes n (s.sreg d).toNat)).countCore s.sel 6 1).countCorrected (dieOf s.sel) 0).modCur
        (·.setA k.toNat (a.after p))).retire 1)

end Sys2Proof.Machine
end

