-- ==== Sys2Proof/Machine/Alu.lean ====
section
/-! DEFINITION. The integer instructions (R73, R74). -/

namespace Sys2Proof.Machine

/-- Writes a 64-bit result of two scalar registers. -/
def State.alu (s : State) (d a b : BitVec 5) (f : W64 → W64 → W64) : Out := s.writeS d (f (s.sreg a) (s.sreg b)) 1

/-- A truth value as a scalar. -/
def ofBool (b : Bool) : W64 := if b then 1 else 0

/-- The shift count of R73. -/
def shiftCount (b : W64) : Nat := b.toNat % 64

/-- a plus b modulo 2^64. -/
def execAdd (d a b : BitVec 5) (s : State) : Out := s.alu d a b (fun x y => x + y)

/-- a minus b modulo 2^64. -/
def execSub (d a b : BitVec 5) (s : State) : Out := s.alu d a b (fun x y => x - y)

/-- The low 64 bits of the product. -/
def execMul (d a b : BitVec 5) (s : State) : Out := s.alu d a b (fun x y => x * y)

/-- Bits 127:64 of the signed product. -/
def execMulh (d a b : BitVec 5) (s : State) : Out := s.alu d a b (fun x y => ((x.signExtend 128 * y.signExtend 128) >>> 64).setWidth 64)

/-- The signed quotient rounded toward zero; all ones for a divisor of 0 (R74). -/
def execDiv (d a b : BitVec 5) (s : State) : Out := s.alu d a b (fun x y => if y = 0 then BitVec.allOnes 64 else x.sdiv y)

/-- The signed remainder with the sign of a; a itself for a divisor of 0 (R74). -/
def execRem (d a b : BitVec 5) (s : State) : Out := s.alu d a b (fun x y => if y = 0 then x else x.srem y)

/-- Bitwise and. -/
def execAnd (d a b : BitVec 5) (s : State) : Out := s.alu d a b (fun x y => x &&& y)

/-- Bitwise or. -/
def execOr (d a b : BitVec 5) (s : State) : Out := s.alu d a b (fun x y => x ||| y)

/-- Bitwise exclusive or. -/
def execXor (d a b : BitVec 5) (s : State) : Out := s.alu d a b (fun x y => x ^^^ y)

/-- Shift left by b[5:0]. -/
def execShl (d a b : BitVec 5) (s : State) : Out := s.alu d a b (fun x y => x <<< shiftCount y)

/-- Logical shift right by b[5:0]. -/
def execShr (d a b : BitVec 5) (s : State) : Out := s.alu d a b (fun x y => x >>> shiftCount y)

/-- Arithmetic shift right by b[5:0]. -/
def execSra (d a b : BitVec 5) (s : State) : Out := s.alu d a b (fun x y => x.sshiftRight (shiftCount y))

/-- 1 if a is below b as signed values. -/
def execSlt (d a b : BitVec 5) (s : State) : Out := s.alu d a b (fun x y => ofBool (x.slt y))

/-- 1 if a is below b as unsigned values. -/
def execSltu (d a b : BitVec 5) (s : State) : Out := s.alu d a b (fun x y => ofBool (x.ult y))

/-- The signed minimum. -/
def execMin (d a b : BitVec 5) (s : State) : Out := s.alu d a b (fun x y => if x.slt y then x else y)

/-- The signed maximum. -/
def execMax (d a b : BitVec 5) (s : State) : Out := s.alu d a b (fun x y => if x.slt y then y else x)

/-- The unsigned minimum. -/
def execMinu (d a b : BitVec 5) (s : State) : Out := s.alu d a b (fun x y => if x.ult y then x else y)

/-- The unsigned maximum. -/
def execMaxu (d a b : BitVec 5) (s : State) : Out := s.alu d a b (fun x y => if x.ult y then y else x)

/-- Leading zero bits; 64 for 0. -/
def execClz (d a : BitVec 5) (s : State) : Out := s.writeS d (BitVec.ofNat 64 (clz64 (s.sreg a))) 1

/-- Trailing zero bits; 64 for 0. -/
def execCtz (d a : BitVec 5) (s : State) : Out := s.writeS d (BitVec.ofNat 64 (zerosFrom (s.sreg a).toNat 0 64)) 1

/-- Number of one bits. -/
def execPopc (d a : BitVec 5) (s : State) : Out := s.writeS d (BitVec.ofNat 64 (countOnes (s.sreg a).toNat 64)) 1

/-- A copy. -/
def execMov (d a : BitVec 5) (s : State) : Out := s.writeS d (s.sreg a) 1

/-- a if the old sD is not zero, else b. -/
def execSel (d a b : BitVec 5) (s : State) : Out := s.alu d a b (fun x y => if s.sreg d = 0 then y else x)

/-- a plus the immediate, sign-extended. -/
def execAddi (d a : BitVec 5) (imm : BitVec 14) (s : State) : Out := s.writeS d (s.sreg a + sx imm) 1

/-- a and the immediate, sign-extended. -/
def execAndi (d a : BitVec 5) (imm : BitVec 14) (s : State) : Out := s.writeS d (s.sreg a &&& sx imm) 1

/-- a or the immediate, sign-extended. -/
def execOri (d a : BitVec 5) (imm : BitVec 14) (s : State) : Out := s.writeS d (s.sreg a ||| sx imm) 1

/-- a exclusive or the immediate, sign-extended. -/
def execXori (d a : BitVec 5) (imm : BitVec 14) (s : State) : Out := s.writeS d (s.sreg a ^^^ sx imm) 1

/-- 1 if a is below the immediate as signed values, sign-extended. -/
def execSlti (d a : BitVec 5) (imm : BitVec 14) (s : State) : Out := s.writeS d (ofBool ((s.sreg a).slt (sx imm))) 1

/-- Shift left by the count. -/
def execShli (d a : BitVec 5) (c : BitVec 6) (s : State) : Out := s.writeS d (s.sreg a <<< c.toNat) 1

/-- Logical shift right by the count. -/
def execShri (d a : BitVec 5) (c : BitVec 6) (s : State) : Out := s.writeS d (s.sreg a >>> c.toNat) 1

/-- Arithmetic shift right by the count. -/
def execSrai (d a : BitVec 5) (c : BitVec 6) (s : State) : Out := s.writeS d ((s.sreg a).sshiftRight c.toNat) 1

/-- The extension word, sign-extended. -/
def execLi (d : BitVec 5) (ext : W32) (s : State) : Out := s.writeS d (sx ext) 2

/-- Bits 63:32 become the extension word; bits 31:0 are kept. -/
def execLih (d : BitVec 5) (ext : W32) (s : State) : Out := s.writeS d (ext ++ (s.sreg d).setWidth 32) 2

end Sys2Proof.Machine
end

