-- ==== Sys2Proof/Machine/Clock.lean ====
section
/-! DEFINITION. Patterns, effective cycles and issue halving (R332, R340, R347), votes, targets and granted levels (R334, R343),
and the keep-store allowance (R355). -/

namespace Sys2Proof.Machine

/-! ## The effective clock -/

/-- The canonical pattern of `m` pulses: bit s where floor((s+1)m/16) exceeds floor(s·m/16) (R332). -/
def canonical (m : Nat) : BitVec 16 :=
  BitVec.ofNat 16 ((List.range 16).foldl (fun x s => if s * m / 16 < (s + 1) * m / 16 then x + 2 ^ s else x) 0)

/-- Slots of a pattern from slot `k` on that pass until `n` of them have been pulses. -/
def pulseTime (p : BitVec 16) (k n : Nat) : Nat :=
  let m := max (countOnes p.toNat 16) 1
  if n = 0 then 0
  else 16 * ((n - 1) / m) + ((List.range 17).find? (fun r => decide ((n - 1) % m < pulsesFrom p k r))).getD 16

/-- The time by which a cluster whose pattern stays has begun so many effective cycles. -/
def Cluster.flatTime (x : Cluster) (target : Nat) : Nat :=
  let n := target - x.effBase
  if x.stretch then
    if n = 0 then x.since else if n ≤ 6 then x.since + (2 * n - 1) else x.since + 12 + pulseTime x.pattern x.phase (n - 6)
  else x.since + pulseTime x.pattern x.phase n

/-- The first time by which a cluster has begun so many effective cycles, as things stand at a time (R347). -/
def Cluster.timeOf (x : Cluster) (now target : Nat) : Nat :=
  let y := x.norm now
  let t := y.flatTime target
  match y.pending with
  | some (p, _) => if p < t then (y.norm p).flatTime target else t
  | none => t

/-- The point of a cluster's pattern. -/
def Cluster.patPoint (x : Cluster) (now : Nat) : Nat := countOnes (x.norm now).pattern.toNat 16 - 1

/-- The current point of a die: the highest whose voltage the rail has reached, and no higher than the patterns in force
(R335). -/
def State.pointOf (s : State) (d : Nat) : Nat :=
  (List.range 12).foldl (fun m k => min m ((s.cluster (12 * d + k)).patPoint s.now)) (((s.die d).mv - 550) / 25)

/-! ## Votes and levels (R334, R343) -/

/-- A partition's ceiling on a die. -/
def State.ceilOf (s : State) (part d : Nat) : Nat := (s.parts.getD part {}).ceil.getD d 0

/-- A context's counted vote on a die. -/
def State.countedVote (s : State) (i d : Nat) : Nat :=
  let x := s.ctx i
  let c := s.ceilOf x.cfg.part d
  min (x.vote.getD d c) c

/-- Whether a context is resident on a die. -/
def State.residentOn (s : State) (i d : Nat) : Bool :=
  (s.ctx i).st != .saved && ((s.ctx i).cfg.cores.any fun k => dieOf k.core == d && (s.core k.core).resident == some i)

/-- The contexts of the module. -/
def State.ctxIds (s : State) : List Nat := s.ctxs.map (·.1)

/-- The target point of a die: the highest counted vote of a resident context, or 0 (R334). -/
def State.targetOf (s : State) (d : Nat) : Nat :=
  (s.ctxIds.filter (fun i => s.residentOn i d)).foldl (fun m i => max m (s.countedVote i d)) 0

/-- The granted level of a context on a die (R343). -/
def State.levelOf (s : State) (i d : Nat) : Nat :=
  max ((s.ctx i).req.getD d 0) ((s.die d).level.getD (s.ctx i).cfg.part 0)

/-- The droop threshold in force on a cluster: the lowest among the contexts with streams there, or 40 mV (R342). -/
def State.thrOf (s : State) (cl : Nat) : Nat :=
  let on := s.ctxIds.filter fun i =>
    (List.range 4).any fun k =>
      (s.core (4 * cl + k)).resident == some i && ((s.core (4 * cl + k)).streams.any fun e => e.2.st != .free)
  match on.map (fun i => (s.ctx i).thr) with
  | [] => 40
  | t :: ts => ts.foldl min t

end Sys2Proof.Machine

namespace Sys2Proof

open Sys2Proof.Machine

/-! ## The keep-store allowance (R355) -/

/-- The dies on which a context configuration has cores, ascending. -/
def CtxCfg.dies (x : CtxCfg) : List Nat := (List.range 8).filter fun d => x.cores.any fun k => dieOf k.core == d

/-- The keeper die of a region. -/
def CtxCfg.keeper (x : CtxCfg) (id : Nat) : Nat := x.dies.getD (id % max x.dies.length 1) 0

/-- Whether a 4 KiB page of a core's scratchpad is live and outside the journal. -/
def CoreCfg.livePage (k : CoreCfg) (jnl p : Nat) : Bool :=
  (k.live.isEmpty || (k.live.any fun r => decide (r.1 ≤ 4096 * p) && decide (4096 * p < r.1 + r.2))) &&
    !(decide (jnl ≤ 4096 * p) && decide (4096 * p < jnl + 0x4000))

/-- A core's charge in 64 KiB units. -/
def CoreCfg.charge (k : CoreCfg) (jnl : Nat) : Nat := (((List.range 192).filter (k.livePage jnl)).length + 15) / 16

/-- A context's charge on a die in 64 KiB units. -/
def CtxCfg.charge (x : CtxCfg) (d : Nat) : Nat :=
  ((x.musts.filter (fun m => x.keeper m.id == d)).foldl (fun n m => n + (m.size + 65535) / 65536) 0) +
    ((x.cores.filter (fun k => dieOf k.core == d)).foldl (fun n k => n + k.charge (x.jnl.getD 0xBC000)) 0)

end Sys2Proof

namespace Sys2Proof.Machine

/-- The units charged on a die by every context. -/
def State.charged (s : State) (d : Nat) : Nat := s.ctxs.foldl (fun n e => n + e.2.cfg.charge d) 0

end Sys2Proof.Machine
end

