-- ==== Sys2Proof/Machine/Flags.lean ====
section
/-! DEFINITION. Words that registers show about the state: tile status (R149), ring counts (R169), VSTAT (R136), TRAPST (R314),
MODE (R313) and barrier status (R189). -/

namespace Sys2Proof.Machine

/-- Code of a tile state. -/
def TState.code : TState → Nat
  | .empty => 0
  | .filling => 1
  | .ready => 2
  | .draining => 3

/-- The word of `tstat` (R149). -/
def Tile.statWord (t : Tile) : W64 :=
  BitVec.ofNat 64 (t.cursor % 2 ^ 20 * 2 ^ 20 + t.out % 1024 * 2 ^ 10 + t.fmt * 8 + (if t.fin then 4 else 0) + t.st.code)

/-- Published, untaken slots of a ring (R169). -/
def Ring.filled (g : Ring) : Nat := (g.pp - g.tp).toNat

/-- Free, unclaimed slots (R169). -/
def Ring.free (g : Ring) : Nat := g.slots - (g.fp - g.rp).toNat

/-- Claimed, unpublished slots (R169). -/
def Ring.claimed (g : Ring) : Nat := (g.fp - g.pp).toNat

/-- Taken, unfreed slots (R169). -/
def Ring.taken (g : Ring) : Nat := (g.tp - g.rp).toNat

/-- Bits of TRAPST (R314). -/
def Stream.trapst (t : Stream) : W64 :=
  BitVec.ofNat 64 ((if t.intrap then 2 ^ 15 else 0) + t.pendingMask.toNat * 2 ^ 8 + t.halted.toNat)

end Sys2Proof.Machine
end

