-- ==== Sys2Proof/Machine/Tile.lean ====
section
/-! DEFINITION. The tile-table instructions (R144 to R149). -/

namespace Sys2Proof.Machine

/-- Bytes of a packed row of a tile (R24). -/
def Tile.rowBytes (t : Tile) : Nat :=
  match Fmt.ofCode t.fmt with
  | some f => (t.cols * f.width + 7) / 8
  | none => 0

/-- Scale bytes of a row of an MXFP4 tile (R31). -/
def Tile.scaleRow (t : Tile) : Nat := if t.fmt = 6 then (t.cols + 31) / 32 else 0

/-- The byte after a tile's last, its scale array included (R31, R145). -/
def Tile.limit (t : Tile) : Nat := t.base + t.rows * t.pitch + t.rows * t.scaleRow

/-- Length of a tile's packed row stream (R157). -/
def Tile.streamLen (t : Tile) : Nat := t.rows * t.rowBytes

/-- The rules of a descriptor that raise cause 0x10 (R144, R145). -/
def descOk (d0 d1 : W64) : Bool :=
  let t : Tile := { d0 := d0, d1 := d1 }
  fld d0.toNat 23 20 == 0 && fld d0.toNat 63 44 == 0 && fld d1.toNat 63 37 == 0 && t.base % 16 == 0 && t.pitch % 16 == 0 &&
    t.rows != 0 && t.cols != 0 && decide (t.fmt ≤ 12) && decide (t.rowBytes ≤ t.pitch)

/-- The trap of a descriptor: a broken rule, or bytes that are closed (R142, R145). -/
def descTrap (jnl : Nat) (d0 d1 : W64) : Option Trap :=
  if !descOk d0 d1 then some { cause := 0x10 }
  else
    let t : Tile := { d0 := d0, d1 := d1 }
    spadTrap jnl [(t.base, t.limit)]

/-- Sets the descriptor of an empty tile (R145). -/
def execTdef (a b : BitVec 5) (t : BitVec 6) (s : State) : Out :=
  let x := s.tile s.sel t.toNat
  if x.st != .empty || x.out != 0 then trapOut s { cause := 0x10 }
  else
    match descTrap s.jnl (s.sreg a) (s.sreg b) with
    | some e => trapOut s e
    | none => .next ((s.modTile s.sel t.toNat (fun x => { x with d0 := s.sreg a, d1 := s.sreg b, cursor := 0 })).retire 1)

/-- An empty tile with a shape starts to fill (R146). -/
def execTfill (t : BitVec 6) (s : State) : Out :=
  let x := s.tile s.sel t.toNat
  if x.st != .empty || x.rows == 0 then trapOut s { cause := 0x10 }
  else .next ((s.modTile s.sel t.toNat (fun x => { x with st := .filling, cursor := 0 })).retire 1)

/-- A tile that no command names becomes empty and keeps its descriptor (R146, R149). -/
def execTfree (t : BitVec 6) (s : State) : Out :=
  let x := s.tile s.sel t.toNat
  if x.out != 0 then trapOut s { cause := 0x10 }
  else
    .next (((s.modTile s.sel t.toNat
      (fun x => { x with st := .empty, fin := false, finDone := false, writes := 0 })).forgetTile s.sel t.toNat).retire 1)

/-- Reads the status of a tile (R149): a stream that finds it ready has observed the writes into it (R175). -/
def execTstat (d : BitVec 5) (t : BitVec 6) (s : State) : Out :=
  let x := s.tile s.sel t.toNat
  (if x.st == .ready then s.learn (s.ctxOf s.sel) (· == .tile s.sel t.toNat) [.obs s.sel s.slot] else s).writeS d x.statWord 1

end Sys2Proof.Machine
end

