-- ==== Sys2Proof/Machine/Retire.lean ====
section
/-! DEFINITION. What a command gives back when it retires, is discarded or completes: its pins, its tile counts and its journal
record (R147, R197, R326). -/

namespace Sys2Proof.Machine

/-- What has been done to a tile's bytes, of what some knowers pass on, goes with the tile (R148). -/
def State.learnTile (s : State) (c n : Nat) (p : Knower → Bool) (x : Knower) : State :=
  let t := s.tile c n
  s.learnIf (s.ctxOf c) (·.meets (s.ctxOf c) c t.base (t.limit - t.base)) p [x]

/-- A tile that a command has written is ready: what its writers have passed on goes with it (R146, R148, R220). -/
def State.tileReady (s : State) (c : Nat) (m : Cmd) : State :=
  match m.wr with
  | some (n, _) => if (s.tile c n).st == .ready then s.learn (s.ctxOf c) (· == .fill c n) [.tile c n] else s
  | none => s

/-- A command leaves without completing: retired, discarded by `halt`, or lost (R147, R159, R162, R197, R237, R319).  Its journal record is
done: replay requeues it for its data effects where it would one that completed (R328; DESIGN CHOICE, log entry 35). -/
def State.dropCmd (s : State) (c k : Nat) (m : Cmd) : State :=
  let s := s.pinPages (dieOf c) m.pins false
  let s := match m.wr with
    | some (n, false) => s.learnTile c n (Knower.isCmd c k m.j) (.fill c n)
    | _ => s
  ((if m.dataOnly then s else (s.tilesOf c m Tile.abandon).tileReady c m).modStream c k (·.jdone m.j)).forgetCmd c k m.j

/-- Drops commands in order. -/
def State.dropCmds (s : State) (c k : Nat) (l : List Cmd) : State := l.foldl (fun s m => s.dropCmd c k m) s

/-- Queue entries of the halted engines of a stream. -/
def Stream.haltedEntries (t : Stream) : List Cmd :=
  t.queues.flatMap (fun q => if t.bitHalted q.1 then q.2 else [])

/-- Commands of the halted engines that stopped at their cursors. -/
def Stream.haltedFlights (t : Stream) : List Flight := t.flights.filter (fun f => t.bitHalted f.eng && f.failed)

/-- A `halt` in a handler discards every entry of the halted queues with the halted commands (R319).  A slot that an `ixlist` among them has
claimed stays claimed (R302; DESIGN CHOICE, log entry 49). -/
def State.discardHalted (s : State) (c k : Nat) : State :=
  let t := s.stream c k
  if !t.intrap then s
  else
    let s' := s.dropCmds c k (t.haltedEntries ++ t.haltedFlights.map (·.cmd))
    s'.modStream c k (fun t =>
      { t with
        queues := t.queues.map (fun q => if t.bitHalted q.1 then (q.1, []) else q)
        flights := t.flights.filter (fun f => !(t.bitHalted f.eng && f.failed))
        halted := 0
        faults := [] })

end Sys2Proof.Machine
end

