-- ==== Sys2Proof/Machine/Port.lean ====
section
/-! DEFINITION. The memory ports: home order, writes under way to a remote home, reductions, held lines, poisoned lines and the
energy of accesses (R195, R205 to R209, R219, R338, R380).  Log entries 5, 9 and 12 bound it. -/

namespace Sys2Proof.Machine

/-! ## Energy accounts (R338) -/

/-- Adds a charge in 1/64 pJ to an account: 64,000 of them make a nanojoule, and the remainder is kept. -/
def Account.add (a : Account) (u : Nat) : Account := { nj := (a.nj + (a.rem + u) / 64000) % 2 ^ 64, rem := (a.rem + u) % 64000 }

/-- Charges an account for work on a die (R338, R343). -/
def State.charge (s : State) (d acct u : Nat) : State :=
  let s := { s with accounts := s.accounts.set acct ((s.accounts.getD acct {}).add u) }
  s.modDie d (fun x =>
    { x with
      dieEnergy := x.dieEnergy + u
      energy := if acct = 0 then x.energy else x.energy.set (acct - 1) (x.energy.getD (acct - 1) 0 + u) })

/-! ## Homes (R195) -/

/-- Whether a physical address lies in the host aperture. -/
def isAperture (pa : Nat) : Bool := decide (2 ^ 45 ≤ pa)

/-- The home die of a physical address. -/
def homeDie (pa : Nat) : Nat := if isAperture pa then 0 else pa / 2 ^ 39 % 8

/-! ## Reductions (R207, R208) -/

/-- Element bytes of a `stat` type: int32, int64, fp32, bf16. -/
def redBytes (ty : Nat) : Nat :=
  match ty with
  | 1 => 8
  | 3 => 2
  | _ => 4

/-- The new value of a location under a reduction or atomic other than cas (R207). -/
def redApply (op ty old x : Nat) : Nat :=
  let w := 8 * redBytes ty
  let fp (f : Fmt) : Nat :=
    match op with
    | 0 => roundTo f ((f.decode old).add (f.decode x) .rne) .rne 0 false
    | 1 => roundTo f ((f.decode old).min (f.decode x)) .rne 0 false
    | 2 => roundTo f ((f.decode old).max (f.decode x)) .rne 0 false
    | _ => x
  match ty with
  | 2 => fp .fp32
  | 3 => fp .bf16
  | _ =>
    match op with
    | 0 => (old + x) % 2 ^ w
    | 1 => if signedOf w x < signedOf w old then x else old
    | 2 => if signedOf w old < signedOf w x then x else old
    | 3 => old &&& x
    | 4 => old ||| x
    | 5 => old ^^^ x
    | _ => x

/-- Order of the held reductions of a line: requester identity, command number, element index (R208). -/
def Red.before (a b : Red) : Bool :=
  decide (a.ident < b.ident) || (a.ident == b.ident && (decide (a.j < b.j) || (a.j == b.j && decide (a.idx ≤ b.idx))))

/-- Inserts a reduction in key order. -/
def insertRed (r : Red) : List Red → List Red
  | [] => [r]
  | x :: xs => if r.before x then r :: x :: xs else x :: insertRed r xs

/-- Held reductions in key order. -/
def sortReds (l : List Red) : List Red := l.foldr insertRed []

/-! ## Save areas (R309, R322, log entry 17) -/

/-- A byte of memory, open where a save has laid it down. -/
def laidByte (l : List (Nat × Nat × Nat)) (a : Nat) (b : Byte) : Byte :=
  match l.find? (fun e => decide (e.1 ≤ a) && decide (a < e.2.1)) with
  | some e => BitVec.ofNat 8 (Config.pick e.2.2 a)
  | none => b

/-- What memory holds from an address on. -/
def State.memBytes (s : State) (pa n : Nat) : List Byte :=
  if s.laid.isEmpty then s.mem.bytes pa n else (s.mem.bytes pa n).zipIdx.map (fun e => laidByte s.laid (pa + e.2) e.1)

/-- Ranges without what lies in another. -/
def cutLaid {α : Type} (l : List (Nat × Nat × α)) (lo hi : Nat) : List (Nat × Nat × α) :=
  l.flatMap (fun e =>
    if e.1 < hi && lo < e.2.1 then
      (if e.1 < lo then [(e.1, lo, e.2.2)] else []) ++ (if hi < e.2.1 then [(hi, e.2.1, e.2.2)] else [])
    else [e])

/-- The physical range of a context's save area in a page. -/
def Ctx.saveRange (x : Ctx) (p : Pin) : Nat × Nat :=
  let lo := max p.vbase x.cfg.saveBase
  let hi := min (p.vbase + 2 ^ p.size) (x.cfg.saveBase + x.cfg.saveLen)
  (p.pbase + (lo - p.vbase), p.pbase + (hi - p.vbase))

/-- The physical ranges of a context's save area. -/
def Ctx.saveRanges (x : Ctx) : List (Nat × Nat) := x.savePins.map (fun p => x.saveRange p.2)

/-- A write of a range spoils the states that are saved there (R309). -/
def State.noteSpoiled (s : State) (pa n : Nat) : State :=
  if s.ctxs.any (fun e => e.2.st == .saved) then
    { s with ctxs := s.ctxs.map (fun e =>
        if e.2.st == .saved && e.2.saveRanges.any (fun r => decide (r.1 < pa + n) && decide (pa < r.2)) then
          (e.1, { e.2 with spoiled := true })
        else e) }
  else s

/-! ## Code words overwritten after their first fetch (R45, log entry 8) -/

/-- Old code words already noted are not noted again. -/
def addStale (l : List (Nat × Nat × W32)) (e : Nat × Nat × W32) : List (Nat × Nat × W32) := if l.contains e then l else l ++ [e]

/-- Remembers the old code words that a write of `n` bytes replaces in pages from which contexts have fetched. -/
def State.noteStale (s : State) (pa n : Nat) : State :=
  if s.fetched.isEmpty then s
  else
    { s with
      stale := (s.fetched.flatMap (fun p =>
        let lo := max (pa / 4) (p.2.pbase / 4)
        (List.range (min ((pa + n + 3) / 4) ((p.2.pbase + 2 ^ p.2.size) / 4) - lo)).map (fun i =>
          let w := 4 * (lo + i)
          (p.1, p.2.vbase + (w - p.2.pbase), BitVec.ofNat 32 (leNat (s.memBytes w 4)))))).foldl addStale s.stale }

/-! ## Page-table words overwritten by the device (R199) -/

/-- The 8-byte words that a range touches. -/
def wordsAt (pa n : Nat) : List Nat := (List.range ((pa + n + 7) / 8 - pa / 8)).map (fun i => pa / 8 + i)

/-- Remembers the words that a device's write replaces, each once between two invalidations. -/
def State.noteEntries (s : State) (pa n : Nat) : State :=
  if s.ctxs.isEmpty then s
  else
    let e := s.covers.length
    { s with
      oldEntries := s.oldEntries ++ ((wordsAt pa n).filter (fun w =>
        !s.oldEntries.any (fun x => x.epoch == e && x.word == w))).map (fun w =>
          { epoch := e, word := w, old := leNat (s.memBytes (8 * w) 8) }) }

/-- A host's write is seen at once: what its words held before is no longer kept. -/
def State.forgetEntries (s : State) (pa n : Nat) : State :=
  { s with oldEntries := s.oldEntries.filter (fun e => !(decide (pa / 8 ≤ e.word) && decide (8 * e.word < pa + n))) }

/-- The translations of an address range of a context follow the tables as they are now (R199). -/
def State.cover (s : State) (ctx lo len : Nat) : State := { s with covers := s.covers ++ [(ctx, lo, len)] }

/-! ## Compressed pages (R202, R203, log entry 18) -/

/-- The HBM4E stack of a physical address: 128 GiB each, a stack's addresses lying together (DESIGN CHOICE, log entry 18). -/
def stackOf (pa : Nat) : Nat := pa / 2 ^ 37

/-- Sectors that a stack's spill area holds. -/
def spillMax : Nat := 0x20000

/-- Whether a stack's spill area is full. -/
def State.spillFull (s : State) (pa : Nat) : Bool := decide (spillMax ≤ s.spill.getD (stackOf pa) 0)

/-- Whether a port refuses writes to a compressed page: the stack's spill area is full. -/
def State.refuses (s : State) (p : Pin) : Bool := p.cmp && s.spillFull p.pbase

/-- Sectors that `n` bytes from an address touch. -/
def sectorsOf (pa n : Nat) : Nat := if n = 0 then 0 else (pa + n - 1) / 512 - pa / 512 + 1

/-- Compressed sectors that a reduction, and that something under way, may still spill. -/
def Red.sectors (r : Red) : Nat := if r.cmp then sectorsOf r.pa (redBytes r.ty) else 0

def Transit.sectors (t : Transit) : Nat :=
  (if t.cmp then sectorsOf t.pa t.bytes.length else 0) + t.reds.foldl (fun n r => n + r.sectors) 0

/-- Room that a stack's spill area keeps for what has been sent on its way there and for held reductions, which have been accepted
(R203, log entry 18). -/
def State.reserved (s : State) (st : Nat) : Nat :=
  s.transit.foldl (fun n t => if stackOf t.pa = st then n + t.sectors else n) 0 +
    s.dies.foldl (fun n d => d.2.held.foldl (fun n h => h.reds.foldl (fun n r => if stackOf r.pa = st then n + r.sectors else n) n) n) 0

/-- Recompression of `n` sectors of a stack whose spill area may take up to `most`: one that no longer fits the pool goes to the spill
area, and the host is told when three quarters are taken, through function 0 (DESIGN CHOICE, log entry 18). -/
def State.recompress (s : State) (st most : Nat) : Nat → State
  | 0 => s
  | n + 1 =>
    let s' :=
      if Config.poolFits s.draws then s.draw
      else
        let u := s.spill.getD st 0
        let s := { s.draw with spill := s.spill.set st (if u < most then u + 1 else spillMax + 1) }
        if u + 1 = spillMax / 4 * 3 + 1 then s.post 0 (.spill st) else s
    State.recompress s' st most n

/-- Whether an access has met a full spill area, or overrun it: a port does not accept it, and it waits (R203). -/
def State.overfull (s : State) : Bool := s.spill.any (fun e => decide (spillMax < e.2))

/-- An access meets a full spill area. -/
def State.overrun (s : State) (st : Nat) : State := { s with spill := s.spill.set st (spillMax + 1) }

/-- A step that goes ahead unless an access of it meets a full spill area: then it waits (R203, log entry 18). -/
def State.orWait (s s' : State) : State := if s'.overfull then s.draw else s'

/-- What a write, an atomic or a reduction of `n` bytes does to the compressed sectors that it touches.  One `held` was accepted before,
with its room kept. -/
def State.spills (s : State) (held cmp : Bool) (pa n : Nat) : State :=
  let st := stackOf pa
  if !cmp || n == 0 then s
  else if held then
    let s' := s.recompress st spillMax (sectorsOf pa n)
    { s' with spill := s'.spill.set st (min (s'.spill.getD st 0) spillMax) }
  else if s.spillFull pa || decide (spillMax ≤ s.spill.getD st 0 + s.reserved st) then s.overrun st
  else s.recompress st (spillMax - s.reserved st) (sectorsOf pa n)

/-! ## Accesses at the home -/

/-- A write that covers a poisoned line heals it (R380). -/
def healed (poison : List Nat) (pa n : Nat) : List Nat :=
  poison.filter (fun l => !(decide (pa ≤ 64 * l) && decide (64 * l + 64 ≤ pa + n)))

/-- Whether a range meets a poisoned line. -/
def State.poisoned (s : State) (pa n : Nat) : Bool :=
  s.poison.any fun l => decide (64 * l < pa + n) && decide (pa < 64 * l + 64)

/-- Bytes stored at a physical address, in place, by the device or the host. -/
def State.storeMem (s : State) (pa : Nat) (bs : List Byte) (host : Bool) : State :=
  let s := if host then s.forgetEntries pa bs.length else s.noteEntries pa bs.length
  let s := (s.noteStale pa bs.length).noteSpoiled pa bs.length
  { s with
    mem := s.mem.store pa bs, laid := cutLaid s.laid pa (pa + bs.length), marks := cutLaid s.marks pa (pa + bs.length)
    poison := if s.poison.isEmpty then [] else healed s.poison pa bs.length }

/-- Who made an access under way. -/
def Transit.mover (t : Transit) : Mover := { core := t.core, slot := t.slot, j := t.j, order := t.order }

/-- What is sent, byte by byte: address, byte, and what memory holds. -/
def cellsOf (pa : Nat) (bs now : List Byte) : List (Nat × Byte × Byte) := (bs.zip now).zipIdx.map (fun e => (pa + e.2, e.1.1, e.1.2))

/-- A write is stored, with the releases before it. -/
def State.storeSent (s : State) (t : Transit) : State :=
  let s := s.storeMem t.pa t.bytes false
  if t.rels.isEmpty then s else { s with marks := s.marks ++ [(t.pa, t.pa + t.bytes.length, t.rels)] }

/-- A write is stored, but for the bytes that what stands later in the order has written over: they hold that still, with the releases
before it. -/
def State.storePlaced (s : State) (t : Transit) (l : List Race) (now : List Byte) : State :=
  let no := s.accesses + 1
  let cells := cellsOf t.pa t.bytes now
  let s' := ({ s with races := l, accesses := no, draws := s.draws + 1 } : State).storeMem t.pa
    (cells.map (fun x => if lostIn l no x.1 then x.2.2 else x.2.1)) false
  { s' with marks := s'.marks ++ (cells.map (fun x =>
      (x.1, x.1 + 1, if lostIn l no x.1 then marksIn s.marks x.1 1 else t.rels))).filter (fun e => !e.2.2.isEmpty) }

/-- A write that a die has sent is stored: each line of it before or after what races with it (R219, R226), and the value that a
reduction or an atomic gave at the end of the order. -/
def State.landHome (s : State) (t : Transit) : State :=
  let now := s.memBytes t.pa t.bytes.length
  let e := { s.doing t.mover t.stamp with rmw := t.rmw, rels := t.rels }
  let cells := cellsOf t.pa t.bytes now
  if s.flyers.isEmpty then s.storeSent t
  else if t.rmw then
    let l := lookAt s.races s.races.length e t.pa t.bytes.length true
    s.storePlaced t (putAll s.marks l l.length e cells) now
  else if !s.races.any (·.meets t.pa t.bytes.length) then
    (s.noteRaces e.who t.stamp (cells.map (fun x => (x.1, x.2.2)))).storeSent t
  else
    s.storePlaced t ((linePieces t.pa t.bytes.length).foldl (fun l p =>
      placeLine s.marks l t.mover e s.draws (t.pa + p.1) ((cells.drop p.1).take p.2)) s.races) now

/-- A reduction or an atomic takes its place, in full before or after what races with it (R226): the bytes that it finds, and the state
with those that it gives. -/
def State.rmwHome (s : State) (t : Transit) (n : Nat) (f : List Byte → List Byte) : List Byte × State :=
  let now := s.memBytes t.pa n
  if !s.races.any (·.meets t.pa n) then (now, s.landHome { t with bytes := f now, rmw := true })
  else
    let e := { s.doing t.mover t.stamp with rmw := true, rels := t.rels }
    let cut := rmwCut s.races t.mover t.pa n s.draws
    let old := now.zipIdx.map (fun b => byteAt (s.races.drop cut) (t.pa + b.2) b.1)
    let t := { t with bytes := f old }
    (old, s.storePlaced t (putAll s.marks (lookAt s.races cut e t.pa n true) (cut + 1) e (cellsOf t.pa t.bytes now)) now)

/-- The root port accepts a write to the host aperture: the host sees it (R219). -/
def State.acceptRoot (s : State) (t : Transit) : State := s.landHome t

/-- The root port accepts every write that waits for it, in order. -/
def State.drainRoot (s : State) : State := s.root.foldl State.acceptRoot { s with root := [] }

/-- A write takes its place in the home order: memory has it, or in the host aperture it waits for the root port (R205, R219). -/
def State.putHome (s : State) (held : Bool) (t : Transit) : State :=
  if isAperture t.pa then { s with root := s.root ++ [t] }
  else (s.landHome t).spills held t.cmp t.pa t.bytes.length

/-- A reduction as something sent. -/
def Red.sent (r : Red) (stamp : Nat) : Transit :=
  { src := dieOf (identCore r.ident), home := homeDie r.pa, core := identCore r.ident, slot := identSlot r.ident, j := r.j
    pa := r.pa, cmp := r.cmp, rmw := true, stamp := stamp, order := r.order, rels := r.rels }

/-- One reduction or atomic takes its place in the home order, with the function of the bytes that it finds; the host aperture is read
past every write that waits for the root port. -/
def State.putRed (s : State) (held : Bool) (r : Red) (f : List Byte → List Byte) : List Byte × State :=
  let n := redBytes r.ty
  if isAperture r.pa then
    let s := s.drainRoot
    let old := s.memBytes r.pa n
    (old, s.putHome held { r.sent s.stamp with bytes := f old })
  else
    let q := s.rmwHome (r.sent s.stamp) n f
    (q.1, q.2.spills held r.cmp r.pa n)

/-- One reduction applied at its home (R206, R207). -/
def State.applyRed (s : State) (held : Bool) (r : Red) : State :=
  (s.putRed held r (fun bs => leBytes (redBytes r.ty) (redApply r.op r.ty (leNat bs) r.x))).2

/-- A held line closes: its reductions are applied in key order (R208). -/
def State.closeLine (s : State) (d line : Nat) : State :=
  match (s.die d).held.find? (fun h => h.line == line) with
  | none => s
  | some h =>
    (sortReds h.reds).foldl (State.applyRed · true ·) (s.modDie d (fun x => { x with held := x.held.filter (fun g => g.line != line) }))

/-- Closes the held lines that an access of `n` bytes touches (R208). -/
def State.closeTouched (s : State) (pa n : Nat) : State :=
  let d := homeDie pa
  if (s.die d).held.isEmpty then s
  else (((s.die d).held.filter (fun h => decide (64 * h.line < pa + n) && decide (pa < 64 * h.line + 64))).map (·.line)).foldl
    (fun s l => s.closeLine d l) s

/-- A write that the device makes of its own, at a save or a recovery: it closes the held lines that it touches, and what it stores finds
room in the compressed pool or the spill area (R203, R208). -/
def State.deviceStore (s : State) (cmp : Bool) (pa n : Nat) (f : State → State) : State :=
  let s := s.closeTouched pa n
  (f (if isAperture pa then s.drainRoot else s)).spills false cmp pa n

/-- A reduction takes its place at its home port: held in exact mode, else applied after its line closes (R206, R208).  One that
would be held needs room in the spill area as an applied one does, unless it has that already. -/
def State.reduceAtHome (s : State) (held : Bool) (r : Red) : State :=
  let d := homeDie r.pa
  let line := r.pa / 64
  if r.exact then
    let st := stackOf r.pa
    if !held && r.cmp && decide (spillMax < s.spill.getD st 0 + s.reserved st + r.sectors) then s.overrun st
    else
      s.modDie d (fun x =>
        if x.held.any (fun h => h.line == line) then
          { x with held := x.held.map (fun h => if h.line == line then { h with reds := h.reds ++ [r] } else h) }
        else { x with held := x.held ++ [{ line := line, reds := [r] }] })
  else (s.closeTouched r.pa (redBytes r.ty)).applyRed held r

/-- A reduction meets a poisoned line: its command stops at the unit that it belongs to, if it is still in flight (R162, R213, R380). -/
def State.redFault (s : State) (t : Transit) (r : Red) : State :=
  match (s.stream t.core t.slot).flight? t.j with
  | none => s
  | some f =>
    if f.failed then s
    else
      s.modStream t.core t.slot (fun u =>
        (u.modFlight t.j (fun g => { g with failed := true, cursor := r.unit, piece := 0, done := false })).engFault
          { eng := f.eng, cause := 0x12, pc := f.cmd.pc, j := t.j, va := BitVec.ofNat 64 r.va, cursor := r.unit })

/-- Whether something under way belongs to a command of a slot. -/
def Transit.isOf (t : Transit) (c k j : Nat) : Bool := t.core == c && t.slot == k && t.j == j

/-- The poisoned lines as something under way will find them: what its die has sent there ahead of it may heal some (R380). -/
def State.poisonFor (s : State) (x : Transit) : List Nat :=
  ((s.transit.takeWhile (· != x)).filter (fun t => t.src == x.src && t.home == x.home && t.reds.isEmpty)).foldl (fun l t =>
    healed l t.pa t.bytes.length) s.poison

/-- A reduction of a unit that lies in a poisoned line, at its own place in its home's order: `l` are those that take their places now, and the
others are still under way to other homes (R205, R380). -/
def State.poisonedRed (s : State) (l : List Red) (mates : List Transit) : Option Red :=
  match l.find? (fun r => s.poisoned r.pa (redBytes r.ty)) with
  | some r => some r
  | none => mates.findSome? (fun x =>
      x.reds.find? (fun r => ({ s with poison := s.poisonFor x } : State).poisoned r.pa (redBytes r.ty)))

/-- A write, or the reductions of a unit, takes its place at a home (R205, R219).  Where one of the reductions, or one of the same unit
that is still under way to another home, lies in a poisoned line, none of them is applied (R160, R213, R380; log entry 47). -/
def State.writeAtHome (s : State) (held : Bool) (t : Transit) : State :=
  match t.reds with
  | [] => (s.closeTouched t.pa t.bytes.length).putHome held t
  | l =>
    let mate := fun (x : Transit) => x.isOf t.core t.slot t.j && !x.reds.isEmpty
    match s.poisonedRed l (s.transit.filter mate) with
    | some r => State.redFault { s with transit := s.transit.filter (fun x => !mate x) } t r
    | none => l.foldl (State.reduceAtHome · held ·) s

/-- A home applies every write that a die has sent it, in order: it serves a later access of that die only then (R219).  Their room
in the spill area has been kept (R203). -/
def State.drainTo (s : State) (src home : Nat) : State :=
  let mine := fun (t : Transit) => t.src == src && t.home == home
  if s.transit.any mine then
    (s.transit.filter mine).foldl (State.writeAtHome · true ·) { s with transit := s.transit.filter (fun t => !mine t) }
  else s

/-- Requests of 64 bytes that leave a core's cluster are counted (R337). -/
def State.leaving (s : State) (c pa n : Nat) : State := s.count (clusterOf c) (s.acct c) 45 (linesOf pa n)

/-- The charge for the lines of an access, and the errors that are corrected in them (R338, R379). -/
def State.chargeAccess (s : State) (acct pa n : Nat) : State :=
  (s.charge (homeDie pa) acct (4 * linesOf pa n * Config.accessEnergy (homeDie pa))).countCorrected (homeDie pa) pa

/-- What an access of a die other than an exact-mode reduction brings about before it takes its place in the home order: the writes
that its clock covers are applied, an aperture's writes are pushed ahead of it, and the held lines that it touches close (R205,
R208, R219). -/
def State.portTouch (s : State) (src pa n : Nat) : State :=
  let s := s.drainTo src (homeDie pa)
  let s := s.closeTouched pa n
  if isAperture pa then s.drainRoot else s

/-- A die's read of `n` bytes: what its home holds, and whether a line is poisoned (R205, R208, R219, R380). -/
def State.portRead (s : State) (src acct pa n : Nat) : List Byte × Bool × State :=
  let s := (s.portTouch src pa n).chargeAccess acct pa n
  (s.memBytes pa n, s.poisoned pa n, s)

/-- A write or the reductions of a unit of a die: applied at a home of its own, or stamped and sent to a remote one, where room in its
spill area is kept for it; without room it waits before it is accepted (R203, R219). -/
def State.send (s : State) (t : Transit) : State :=
  let st := stackOf t.pa
  if t.home == t.src then s.writeAtHome false t
  else if t.sectors != 0 && decide (spillMax < s.spill.getD st 0 + s.reserved st + t.sectors) then s.overrun st
  else { s with transit := s.transit ++ [t] }

/-- A die's write, by a mover. -/
def State.portWrite (s : State) (m : Mover) (acct pa : Nat) (cmp : Bool) (bs : List Byte) : State :=
  ((s.chargeAccess acct pa bs.length).leaving m.core pa bs.length).send
    { src := dieOf m.core, home := homeDie pa, core := m.core, slot := m.slot, j := m.j, pa := pa, cmp := cmp, bytes := bs
      stamp := s.stamp, order := m.order, rels := s.relsOf m.core m.slot m.j }

/-- The homes that a die's accesses go to, its own last. -/
def homesFrom (src : Nat) : List Nat := (List.range 8).map (fun i => (src + 1 + i) % 8)

/-- The reductions of one unit of a command of a core go to their homes (R205, R206, R208). -/
def State.portReduce (s : State) (c k acct : Nat) (l : List Red) : State :=
  (homesFrom (dieOf c)).foldl (fun s h =>
    match l.filter (fun r => homeDie r.pa == h) with
    | [] => s
    | r :: q => s.send { r.sent s.stamp with src := dieOf c, core := c, slot := k, rmw := false, reds := r :: q })
    (l.foldl (fun s r => (s.chargeAccess acct r.pa (redBytes r.ty)).leaving c r.pa (redBytes r.ty)) s)

/-- A die's atomic: it closes a held line, takes the old value and applies the new one (R207, R212).  The compare value is
given for cas. -/
def State.portAtomic (s : State) (c acct : Nat) (r : Red) (cmp : Option Nat) : Nat × Bool × State :=
  let n := redBytes r.ty
  let (_, bad, s) := (s.leaving c r.pa n).portRead (dieOf c) acct r.pa n
  if bad then (0, true, s)
  else
    let m := (r.sent s.stamp).mover
    let cut := if isAperture r.pa then s.races.length else rmwCut s.races m r.pa n s.draws
    let s := s.gain m.core m.slot m.j ((List.range n).flatMap (fun i => relsAt (s.races.drop cut) (r.pa + i) s.marks))
    let q := s.putRed false r (fun bs => leBytes n (match cmp with
      | some v => if leNat bs == v then r.x else leNat bs
      | none => redApply r.op r.ty (leNat bs) r.x))
    (leNat q.1, false, q.2)

/-- Every write that a die has sent to a remote home is applied: what a release at package scope waits for (R101, R219). -/
def State.drainDie (s : State) (src : Nat) : State := (List.range 8).foldl (fun s h => s.drainTo src h) s

/-- And every write to the host aperture is accepted by the root port: what a release at system scope waits for (R219). -/
def State.settleDie (s : State) (src : Nat) : State := (s.drainDie src).drainRoot

/-- Closes every held line that holds a reduction of a context, on every die (R208). -/
def State.closeCtx (s : State) (i : Nat) : State :=
  (List.range 8).foldl (fun s d =>
    (((s.die d).held.filter (fun h => h.reds.any (fun r => r.ctx == i))).map (·.line)).foldl (fun s l => s.closeLine d l) s) s

/-- A die's port runs out of held entries: it closes its oldest line and counts the pressure close in each context whose
reductions the line held (R208, R209). -/
def State.pressureClose (s : State) (d : Nat) : State :=
  match (s.die d).held with
  | [] => s
  | h :: _ =>
    let s' := s.closeLine d h.line
    (s.ctxIds.filter (fun i => h.reds.any (fun r => r.ctx == i))).foldl
      (fun s i => s.modCtx i (fun x => { x with pclose := min (x.pclose + 1) 0xFFFFFFFF })) s'

end Sys2Proof.Machine
end

