-- ==== Sys2Proof/Machine/Fetch.lean ====
section
/-! DEFINITION. Translation by a die's cache or by a walk of the tables, and fetching an instruction (R43 to R45, R193 to R201, R380). -/

namespace Sys2Proof.Machine

/-! ## The walk (R193, R199) -/

/-- How many invalidations came up to and with the last one that covers an address of a context (R199). -/
def State.epochOf (s : State) (ctx va : Nat) : Nat :=
  (s.covers.zipIdx.filter (fun e =>
    e.1.1 == ctx && decide (e.1.2.1 / 2 ^ 16 ≤ va / 2 ^ 16) && decide (va / 2 ^ 16 * 2 ^ 16 < e.1.2.1 + e.1.2.2))).foldl
      (fun _ e => e.2 + 1) 0

/-- The table word that a walk sees for an address: what a device program has written over counts only once the host has
invalidated the address (R199). -/
def State.entryWord (s : State) (ctx va w : Nat) : Nat :=
  match s.oldEntries.find? (fun e => e.word == w && decide (s.epochOf ctx va ≤ e.epoch)) with
  | some e => e.old
  | none => leNat (s.memBytes (8 * w) 8)

/-- One level of a walk, an access at the entry's home: an invalid entry, a malformed one, a leaf, or the next table.  A next table in
reserved physical space is read as plain memory (DESIGN CHOICE, log entry 13). -/
def State.walkStep (s : State) (d ctx va table lv : Nat) (next : State → Nat → Except (WalkErr × State) (Leaf × State)) :
    Except (WalkErr × State) (Leaf × State) :=
  let w := table / 8 + va / 2 ^ levelSize lv % 2048
  let s := (s.portTouch d (8 * w) 8).chargeAccess (acctOf (s.ctx ctx).cfg.part) (8 * w) 8
  let e : Pte := { raw := s.entryWord ctx va w }
  if s.poisoned (8 * w) 8 then .error ({ reason := 0, level := lv, bad := true }, s)
  else if !e.v then .error ({ reason := 1, level := lv }, s)
  else if e.malformed lv then .error ({ reason := 2, level := lv }, s)
  else if e.l then .ok ({ level := lv, pte := e }, s)
  else next s e.addr

/-- The walk of the tables of a context from a level down (R193). -/
def State.walkFrom (s : State) (d ctx va table : Nat) : Nat → Except (WalkErr × State) (Leaf × State)
  | 0 => s.walkStep d ctx va table 0 (fun s _ => .error ({ reason := 2, level := 0 }, s))
  | lv + 1 => s.walkStep d ctx va table (lv + 1) (fun s t => State.walkFrom s d ctx va t lv)

/-- The walk of a context's tables for a virtual address. -/
def State.walk (s : State) (d ctx va : Nat) : Except (WalkErr × State) (Leaf × State) :=
  if va ≥ 2 ^ 60 then .error ({ reason := 4, level := 0 }, s) else s.walkFrom d ctx va (s.ctx ctx).cfg.root 3

/-- Translates by the die's cache, or walks and fills it. -/
def State.fill (s : State) (d ctx va : Nat) : Except (WalkErr × State) (TlbE × State) :=
  match lookup (s.die d).tlb ctx va with
  | some e => .ok (e, s)
  | none =>
    match s.walk d ctx va with
    | .error e => .error e
    | .ok (l, s) =>
      let e := l.entry ctx va s.nextPin
      .ok (e, { s.modDie d (fun x => { x with tlb := x.tlb.set s.nextPin e }) with nextPin := s.nextPin + 1 })

/-! ## Fetch (R43 to R45) -/

/-- A fetched word: what memory holds, or the word it replaced where a code word was overwritten after the context's first
fetch from its page (R45, log entry 8). -/
def State.codeWord (s : State) (ctx va pa : Nat) : Nat :=
  let w := leNat (s.memBytes pa 4)
  match s.stale.filter (fun e => e.1 == ctx && e.2.1 == va) with
  | [] => w
  | l =>
    match l[Config.freeNat s.draws % (l.length + 1)]? with
    | some e => e.2.2.toNat
    | none => w

/-- Remembers a page that the context has fetched from. -/
def State.noteFetch (s : State) (ctx : Nat) (p : Pin) : State :=
  if s.fetched.contains (ctx, { p with id := 0 }) then s else { s with fetched := s.fetched ++ [(ctx, { p with id := 0 })] }

/-- The charge of a fetched word, with the errors corrected in it: an access and a request that leaves the cluster, or none where an
instruction cache holds it (R337, R338, R379; log entry 12). -/
def State.chargeFetch (s : State) (c pa : Nat) : State :=
  let n := Config.freeNat s.draws % 2
  ((s.charge (homeDie pa) (s.acct c) (4 * n * Config.accessEnergy (homeDie pa))).addCount (clusterOf c) (s.acct c) 45 n).modDie (homeDie pa)
    (fun x => { x with corrected := x.corrected + n * Config.pick s.draws pa })

/-- Fetches one word with X for a core, or gives the trap of R44 or of a poisoned line. -/
def State.fetchWord (s : State) (c va : Nat) : Except (Trap × State) (Nat × State) :=
  let i := s.ctxOf c
  match s.fill (dieOf c) i va with
  | .error (e, s) => .error (e.trap va, s)
  | .ok (e, s) =>
    if !e.x then .error ({ cause := 0x05, stat := 3 * 256, va := va }, s)
    else
      let pa := e.pin.pa va
      let s := (s.portTouch (dieOf c) pa 4).chargeFetch c pa
      if s.poisoned pa 4 then .error ({ cause := 0x12, va := va }, s)
      else .ok (s.codeWord i va pa, ({ s with draws := s.draws + 1 }).noteFetch i e.pin)

/-- Fetches `n` words from an address on. -/
def State.fetchWords (s : State) (c va : Nat) : Nat → Except (Trap × State) (List Nat × State)
  | 0 => .ok ([], s)
  | n + 1 =>
    match s.fetchWord c va with
    | .error t => .error t
    | .ok (w, s) =>
      match State.fetchWords s c (va + 4) n with
      | .error t => .error t
      | .ok (ws, s) => .ok (w :: ws, s)

/-- Fetches the instruction at an address: its first word gives its length (R43, R44). -/
def State.fetch (s : State) (c va : Nat) : Except (Trap × State) (List Nat × State) :=
  match s.fetchWord c va with
  | .error t => .error t
  | .ok (w, s) =>
    match State.fetchWords s c (va + 4) (lengthOf w - 1) with
    | .error t => .error t
    | .ok (ws, s) => .ok (w :: ws, s)

end Sys2Proof.Machine
end

