-- ==== Sys2Proof/Machine/Branch.lean ====
section
/-! DEFINITION. Branches, calls and hardware loops (R48, R82 to R86). -/

namespace Sys2Proof.Machine

/-- The condition of `br` on a register (R48). -/
def brCond (c : BitVec 4) (x : W64) : Bool :=
  match c.toNat with
  | 0 => x == 0
  | 1 => x != 0
  | 2 => x.slt 0
  | 3 => !x.slt 0
  | 4 => (0 : W64).slt x
  | _ => !(0 : W64).slt x

/-- The address `off` words from the instruction. -/
def State.target {n : Nat} (s : State) (off : BitVec n) : W64 := s.cur.pc + 4 * sx off

/-- A conditional branch: taken it ends the block, not taken it passes on (R63, R82). -/
def execBr (c : BitVec 4) (a : BitVec 5) (off : BitVec 15) (s : State) : Out :=
  checked (.br c a off) s <|
    if brCond c (s.sreg a) then .next (s.jump (s.target off)) else .next (s.retire 1)

/-- A branch that is always taken. -/
def execBrAlways (off : BitVec 15) (s : State) : Out := .next (s.jump (s.target off))

/-- A near jump. -/
def execJmp (off : BitVec 15) (s : State) : Out := .next (s.jump (s.target off))

/-- A far jump. -/
def execJmpFar (ext : W32) (s : State) : Out := .next (s.jump (s.target ext))

/-- A near call: s1 receives the address after it. -/
def execCall (off : BitVec 15) (s : State) : Out := .next ((s.modCur (fun t => t.setS 1 (t.pc + 4))).jump (s.target off))

/-- A far call: s1 receives the address after its extension word. -/
def execCallFar (ext : W32) (s : State) : Out := .next ((s.modCur (fun t => t.setS 1 (t.pc + 8))).jump (s.target ext))

/-- Whether a register value can be an instruction address: bits 1:0 and 63:60 are 0 (R47). -/
def codeAddr (x : W64) : Bool := x.extractLsb' 0 2 == 0 && x.extractLsb' 60 4 == 0

/-- A jump to a register (R47, R82). -/
def execJmpr (a : BitVec 5) (s : State) : Out := if codeAddr (s.sreg a) then .next (s.jump (s.sreg a)) else trapOut s illegal

/-- A return to s1 (R47, R82). -/
def execRet (s : State) : Out := if codeAddr (s.cur.getS 1) then .next (s.jump (s.cur.getS 1)) else trapOut s illegal

/-- The address after the instruction that starts at `e`, by the length in its first word, fetched with X (R83). -/
def State.afterInstr (s : State) (e : W64) : Except (Trap × State) (W64 × State) :=
  match s.fetchWord s.sel e.toNat with
  | .error e => .error e
  | .ok (w, s) => .ok (e + BitVec.ofNat 64 (4 * lengthOf w), s)

/-- The order of a loop that starts now: newer than every active counter (R83). -/
def Stream.nextOrder (t : Stream) : Nat := t.lc.foldl (fun m c => if c.2.active then max m (c.2.order + 1) else m) 0

/-- Starts a loop of `count` trips, after an effect of the instruction's own.  With no trip its body is skipped, which is a taken
transfer, and the word at the end of the body is fetched for its length (R83; DEDUCED, log entry 46: no other count needs it). -/
def State.startLoop (s : State) (lc : BitVec 2) (count : BitVec 32) (endw : BitVec 16) (pre : Stream → Stream) : Out :=
  let e := s.cur.pc + 4 * endw.setWidth 64
  if count = 0 then
    match s.afterInstr e with
    | .error (t, s') => trapOut s' t
    | .ok (after, s') => .next ((s'.modCur pre).jump after)
  else
    .next (((s.modCur pre).modCur (fun t =>
      t.setL lc.toNat { count := count, start := t.pc + 4, last := e, active := true, order := t.nextOrder })).retire 1)

/-- A loop whose trip count is a register (R83). -/
def execLoop (lc : BitVec 2) (src : BitVec 5) (endw : BitVec 16) (s : State) : Out :=
  checked (.loop lc src endw) s <|
    if (s.sreg src).extractLsb' 32 32 == 0 then s.startLoop lc ((s.sreg src).setWidth 32) endw id else trapOut s illegal

/-- A loop whose trip count is in the instruction (R83). -/
def execLoopn (lc : BitVec 2) (n : BitVec 5) (endw : BitVec 16) (s : State) : Out :=
  checked (.loopn lc n endw) s (s.startLoop lc (n.setWidth 32) endw id)

/-- A loop whose trip count is the length of a row, from two row pointers in scratchpad (R85). -/
def execLoopp (lc : BitVec 2) (k : BitVec 4) (endw : BitVec 16) (s : State) : Out :=
  checked (.loopp lc k endw) s <|
    let a := s.areg k.toNat
    let v := a.value.toNat
    let v4 := (a.value + 4).toNat
    match scalarTrap a s.jnl v 4 with
    | some t => trapOut s t
    | none =>
      match scalarTrap a s.jnl v4 4 with
      | some t => trapOut s t
      | none =>
        let s1 := s.spadLooked s.sel s.slot v 4
        let lo := leNat (s.spadSeen s.sel s.slot v 4)
        let hi := leNat (s1.spadSeen s.sel s.slot v4 4)
        (((s1.spadLooked s.sel s.slot v4 4).countCore s.sel 6 2).countCorrected (dieOf s.sel) 0).startLoop lc (BitVec.ofNat 32 (hi - lo)) endw
          (fun t => (t.setS 28 (BitVec.ofNat 64 lo)).setA k.toNat a.postUpdate)

/-- Leaves a loop: the counter becomes inactive and control passes to the address after the body (R86). -/
def execLbrk (lc : BitVec 2) (s : State) : Out :=
  let c := s.cur.getL lc.toNat
  if !c.active then trapOut s illegal
  else
    match s.afterInstr c.last with
    | .error (t, s') => trapOut s' t
    | .ok (after, s') => .next ((s'.modCur (fun t => t.setL lc.toNat { c with active := false })).jump after)

end Sys2Proof.Machine
end

