-- ==== Sys2Proof/Machine/Enqueue.lean ====
section
/-! DEFINITION. Dispatching an engine instruction into its queue (R60, R67, R196, R197, R224, R235, R326). -/

namespace Sys2Proof.Machine

/-- The EXACT bit that a dispatch of the selected stream sees: its own last write, or of the writes that no synchronisation orders
before or after it any value, old or new (R313, log entry 37). -/
def State.exactBit (s : State) : Bool :=
  let olds := s.deeds.filterMap (fun d =>
    match d.what with
    | .exact _ b => if d.ctx == s.ctxOf s.sel && !d.after s.sel s.slot then some b else none
    | _ => none)
  match olds[olds.length - Config.freeNat s.draws % (olds.length + 1)]? with
  | some b => b
  | none => s.curCtx.exact

/-- The queue entry of an instruction in the E layout, with the values captured at dispatch (R67, R326). -/
def State.cmdOf (s : State) (i : Instr) (f : EF) : Cmd :=
  let w := encode i
  let low (r : BitVec 5) : W64 := s.sreg r
  { j := s.cur.jcnt.toNat, i := i, head := BitVec.ofNat 32 (w.getD 0 0), body := BitVec.ofNat 32 (w.getD 1 0)
    modw := BitVec.ofNat 32 (w.getD 2 0), pc := s.cur.pc, a := low f.sa, b := low f.sb, c := low f.sc
    addr := (s.areg f.ad.toNat).value
    clo := match f.md with | some m => low m.clo | none => 0
    chi := match f.md with | some m => low m.chi | none => 0
    exact := s.exactBit, al := f.al.toNat }

/-- The spans of the ranges that a command touches (R224). -/
def spansOf (l : List Acc) : List Span := l.map (fun a => { lo := a.lo, hi := a.hi })

/-- Orders ranges by their first address. -/
def insertAcc (a : Acc) : List Acc → List Acc
  | [] => [a]
  | x :: xs => if a.lo ≤ x.lo then a :: x :: xs else x :: insertAcc a xs

/-- Ranges in ascending order, without the empty ones: the lowest address that fails is found first (R196). -/
def sortAccs (l : List Acc) : List Acc := (l.filter (fun a => decide (a.lo < a.hi))).foldr insertAcc []

/-- The format word that a command pops, where it pops one (R235). -/
def Prep.word (p : Prep) (t : Stream) : Option W32 := if p.pop then t.fmtq.head? else none

/-- The entry is appended: the journal record, the queue, the format word and the post-update (R67). -/
def Stream.enqueue (t : Stream) (eng : Nat) (p : Prep) (pins : List Pin) : Stream :=
  let m := { p.cmd with pins := pins, fmt := p.word t }
  let t := (t.journalPush { kind := 0, cmd := m, once := onceOf m.i }).setQueue eng (t.queue eng ++ [m])
  let t := if p.pop then { t with fmtq := t.fmtq.tail } else t
  match p.post with
  | some k => t.setA k (t.getA k).postUpdate
  | none => t

/-- A command numbered `j` of a slot comes after what its stream's instructions come after, and what the fences ahead of it hold it behind
(R214, R223, R227). -/
def State.dispatched (s : State) (c k j : Nat) : State :=
  [false, true].foldl (fun s w =>
    s.learn (s.ctxOf c) (fun x => x == .str c k w || x == .fen c k w) [.cmd c k j w]) s

/-- The selected stream appends a translated entry (R67, step 5). -/
def State.append (s : State) (eng : Nat) (p : Prep) (pins : List Pin) : State :=
  ((((s.pinPages (dieOf s.sel) pins true).tilesOf s.sel p.cmd Tile.dispatch).modCur (·.enqueue eng p pins)).dispatched s.sel s.slot p.cmd.j).draw

/-- Dispatch of an instruction of `n` words to an engine: the encoding checks and the wiring, a stall on a full queue or
journal, the registers' limits, translation, and the entry (R60, R67). -/
def State.dispatch (s : State) (i : Instr) (n eng : Nat) (wired : Bool) (prep : Except Trap Prep) : Out :=
  if !i.wellFormed || !wired then trapOut s illegal
  else if 16 ≤ (s.cur.queue eng).length then .next (s.wait (.stall (.queue eng)))
  else if 32 ≤ s.cur.journal.length then .next (s.wait (.stall .journal))
  else
    match prep with
    | .error t => trapOut s t
    | .ok p =>
      if p.pop && s.cur.fmtq.isEmpty then trapOut s { cause := 0x08 }
      else
        match xlatAll (s.die (dieOf s.sel)).tlb (s.ctxOf s.sel) [] (sortAccs p.accs) with
        | .fault t => trapOut s t
        | .miss va => .next (s.wait (.walk va))
        | .full e => .next (s.wait (.stall (.pin e)))
        | .ok pins =>
          if cacheHolds (s.die (dieOf s.sel)).tlb pins then .next ((s.append eng p pins).retire n)
          else .next (s.wait (.stall .cache))

/-- Words of an engine instruction: a modifier word makes it three (R43). -/
def wordsOf (md : Option Mod) : Nat := if md.isSome then 3 else 2

/-- Dispatch of an instruction in the E layout. -/
def State.dispatchE (s : State) (i : Instr) (f : EF) (eng : Nat) (wired : Bool) (prep : Cmd → Except Trap Prep) : Out :=
  s.dispatch i (wordsOf f.md) eng wired (prep (s.cmdOf i f))

/-- The address register that a command post-updates. -/
def postRegOf (f : EF) : Option Nat := if f.p then some f.ad.toNat else none

/-- What forbids scratchpad ranges reached through an address register: its window first, then the closed bytes (R67, R80,
R139, R142). -/
def State.slotRanges (s : State) (k : Nat) (rs : List (Nat × Nat)) : Option Trap :=
  let a := s.areg k
  if rs.any (fun r => !a.inWindow r.1 (r.2 - r.1)) then some (slotTrap a.value.toNat) else spadTrap s.jnl rs

/-- The same for ranges reached through an address register and further ranges: the lowest of all closed bytes is reported (R139). -/
def State.slotRangesAnd (s : State) (k : Nat) (rs more : List (Nat × Nat)) : Option Trap :=
  let a := s.areg k
  if rs.any (fun r => !a.inWindow r.1 (r.2 - r.1)) then some (slotTrap a.value.toNat) else spadTrap s.jnl (more ++ rs)

/-- The walk of a waiting dispatch is done: the translation is cached and the instruction is executed afresh, or its fault is
taken (R67, R193, R196). -/
def execTranslationWalkDone (core slot : Nat) (s : State) : Out :=
  let t := s.stream core slot
  match t.st with
  | .waiting (.walk va) =>
    if !s.runs core then .next s
    else
      match s.fill (dieOf core) (s.ctxOf core) va with
      | .ok (_, s') => .next (s'.modStream core slot (fun t => { t with st := .ready }))
      | .error (e, s') =>
        if s.vecFresh core slot then .next (s.holdTrap core slot) else
        let r := e.trap va
        .next (s'.takeTrap core slot
          { cause := r.cause, pc := t.pc, jnum := t.jcnt.toNat, stat := BitVec.ofNat 64 r.stat, va := BitVec.ofNat 64 va
            resume := t.pc })
  | _ => .next s

end Sys2Proof.Machine
end

