-- ==== Sys2Proof/Machine/Flight.lean ====
section
/-! DEFINITION. Commands in flight: their record, their accesses to global memory by pinned pages, and how a unit fails (R160 to R162,
R195 to R205, R380). -/

namespace Sys2Proof.Machine

/-! ## Fields of engine instructions (R52, R53) -/

/-! ## Units -/

/-- One more unit is complete. -/
def Flight.advance (f : Flight) : Flight :=
  { f with cursor := f.cursor + 1, piece := 0, claim := none, row := [], rowBad := none, done := decide (f.units ≤ f.cursor + 1) }

/-- The next unit of a command of a slot is complete, unless a home has found an error in it. -/
def State.advance (s : State) (c k j : Nat) : State :=
  s.modStream c k (·.modFlight j (fun f => if f.failed then f else f.advance))

/-- A fault of a command in flight: it stops at its cursor, and its queue is halted until the handler returns (R162, R296). -/
def State.unitFault (s : State) (c k : Nat) (f : Flight) (cause stat va : Nat) : State :=
  s.modStream c k (fun t =>
    (t.modFlight f.cmd.j (fun g => { g with failed := true })).engFault
      { eng := f.eng, cause := cause, pc := f.cmd.pc, j := f.cmd.j, stat := BitVec.ofNat 64 stat, va := BitVec.ofNat 64 va,
        cursor := f.cursor })

/-- A command is retired without completing, and its stream traps (R159, R237, R369). -/
def State.retireFault (s : State) (c k eng : Nat) (m : Cmd) (cause stat cursor : Nat) : State :=
  (s.dropCmd c k m).modStream c k (fun t =>
    (t.dropFlight m.j).engFault { eng := eng, cause := cause, pc := m.pc, j := m.j, stat := BitVec.ofNat 64 stat, cursor := cursor })

/-- Whether the commands of a core go on: its context is there and no supply loss is under way (R317, R350). -/
def State.alive (s : State) (c : Nat) : Bool :=
  match (s.core c).resident with
  | some i => (s.ctx i).st == .resident && s.boot == .up
  | none => false

/-! ## Accesses by pinned pages -/

/-- The pinned page of an address. -/
def pinFor (pins : List Pin) (va : Nat) : Option Pin := pins.find? (fun p => p.has va)

/-- The first byte of a range that lies in a poisoned line (R380). -/
def State.firstBad (s : State) (pa n : Nat) : Option Nat :=
  s.poison.foldl (fun m l =>
    if 64 * l < pa + n && pa < 64 * l + 64 then
      let a := max pa (64 * l)
      some (match m with
        | some b => min a b
        | none => a)
    else m) none

/-- What an access finds: bytes, and the virtual address of the first poisoned byte. -/
structure Got where
  bytes : List Byte := []
  bad : Option Nat := none

/-- A core reads `n` bytes from a virtual address, page by page. -/
def State.gRead (s : State) (c : Nat) (m : Cmd) (va n : Nat) : Nat → Got × State
  | 0 => ({}, s)
  | fuel + 1 =>
    if n = 0 then ({}, s)
    else
      match pinFor m.pins va with
      | none => ({ bytes := List.replicate n 0 }, s)
      | some p =>
        let k := min n (p.vbase + 2 ^ p.size - va)
        let pa := p.pa va
        let (bs, bad, s) := (s.leaving c pa k).portRead (dieOf c) (s.acct c) pa k
        let here := if bad then (s.firstBad pa k).map (fun b => va + (b - pa)) else none
        let (bs, s) := s.memSeen (m.mover c) pa bs
        let (r, s) := State.gRead s c m (va + k) (n - k) fuel
        ({ bytes := bs ++ r.bytes, bad := match here with
            | some b => some b
            | none => r.bad }, s)

/-- Pages that one access of a command can meet. -/
def pageFuel : Nat := 1026

/-- A read by the pages of a command. -/
def State.cmdRead (s : State) (c : Nat) (m : Cmd) (va n : Nat) : Got × State := s.gRead c m va n pageFuel

/-- A core writes bytes at a virtual address, page by page. -/
def State.gWrite (s : State) (c k : Nat) (m : Cmd) (va : Nat) (bs : List Byte) : Nat → State
  | 0 => s
  | fuel + 1 =>
    if bs.isEmpty then s
    else
      match pinFor m.pins va with
      | none => s
      | some p =>
        let n := min bs.length (p.vbase + 2 ^ p.size - va)
        State.gWrite (s.portWrite { m.mover c with slot := k } (s.acct c) (p.pa va) p.cmp (bs.take n)) c k m (va + n)
          (bs.drop n) fuel

/-- A write by the pages of a command. -/
def State.cmdWrite (s : State) (c k : Nat) (m : Cmd) (va : Nat) (bs : List Byte) : State :=
  s.gWrite c k m va bs pageFuel

/-- Whether a command must wait before acceptance: it writes pages that a port refuses (R203). -/
def State.mustWait (s : State) (m : Cmd) (va n : Nat) : Bool :=
  m.pins.any (fun p => s.refuses p && decide (p.vbase < va + n) && decide (va < p.vbase + 2 ^ p.size))

/-- A reduction of a command of a slot on the element at a virtual address, with its index and its unit (R205, R207). -/
def State.redOf (s : State) (c k : Nat) (m : Cmd) (va op ty x idx unit : Nat) : Red :=
  let p := pinFor m.pins va
  { pa := match p with
      | some p => p.pa va
      | none => va
    cmp := match p with
      | some p => p.cmp
      | none => false
    op := op, ty := ty, x := x, ctx := s.ctxOf c, ident := identOf c k, j := m.j, idx := idx, exact := m.exact
    va := va, unit := unit, order := m.order, rels := s.relsOf c k m.j }

/-! ## Words and bytes of scratchpad -/

/-- A 32-bit word of a core's scratchpad. -/
def State.spadWord (s : State) (c a : Nat) : Nat := leNat (s.spadBytes c a 4)

/-- The code of an element of a tile, by row and column. -/
def tileCode (sp : Memory) (t : Tile) (w i j : Nat) : Nat :=
  leNat (sp.bytes (t.base + i * t.pitch + j * w / 8) ((w + 7) / 8)) / 2 ^ (j * w % 8) % 2 ^ w

/-- The scale code of an element of an MXFP4 tile (R31). -/
def tileScale (sp : Memory) (t : Tile) (i j : Nat) : Nat :=
  (sp.read (t.base + t.rows * t.pitch + i * t.scaleRow + j / 32)).toNat

/-- The value of an MXFP4 code under its scale (R30). -/
def mxVal (code scale : Nat) : Val := if scale = 0xFF then .nan else (Fmt.mxfp4.decode code).scale ((scale : Int) - 127)

/-- The value of an element of a tile, outliers off. -/
def tileVal (sp : Memory) (t : Tile) (f : Fmt) (i j : Nat) : Val :=
  let c := tileCode sp t f.width i j
  if f == .mxfp4 then mxVal c (tileScale sp t i j) else f.decode c

/-- Format of a tile. -/
def Tile.fmtOf (t : Tile) : Fmt := (Fmt.ofCode t.fmt).getD .fp32

/-- The scratchpad address of a byte of a tile's packed row stream (R157). -/
def Tile.streamAddr (t : Tile) (o : Nat) : Nat := t.base + o / max t.rowBytes 1 * t.pitch + o % max t.rowBytes 1

/-- Stores bytes in the packed row stream of a tile. -/
def storeStream (sp : Memory) (t : Tile) (o : Nat) : List Byte → Memory
  | [] => sp
  | b :: bs => storeStream (sp.write (t.streamAddr o) b) t (o + 1) bs

/-- Reads bytes of the packed row stream of a tile. -/
def readStream (sp : Memory) (t : Tile) (o : Nat) : Nat → List Byte
  | 0 => []
  | n + 1 => sp.read (t.streamAddr o) :: readStream sp t (o + 1) n

/-- Changes a core's scratchpad. -/
def State.modSpad (s : State) (c : Nat) (f : Memory → Memory) : State := s.modCore c (fun x => { x with spad := f x.spad })

/-- The bytes of a tile with its scales, as a range. -/
def Tile.range (t : Tile) : Nat × Nat := (t.base, t.limit)

/-- A tile's bytes as a span. -/
def Tile.span (t : Tile) : Span := { lo := t.base, hi := t.limit }

/-! ## Channels (R182, R183) -/

/-- Pushes an entry. -/
def State.pushChan (s : State) (c ch : Nat) (e : ChEntry) : State :=
  (s.setChan c ch (s.chan c ch ++ [e])).countCore c 7 1

/-- Removes the entry at the head. -/
def State.popChan (s : State) (c ch : Nat) : State := (s.setChan c ch (s.chan c ch).tail).countCore c 7 1

/-- Whether the selected context's wiring lets an engine push a channel. -/
def State.wiredPush (s : State) (eng ch : Nat) : Bool := s.curCtx.producer ch == eng

/-- Whether the selected context's wiring lets an engine pop a channel. -/
def State.wiredPop (s : State) (eng ch : Nat) : Bool := s.curCtx.mayPop eng ch

end Sys2Proof.Machine
end

