-- ==== Sys2Proof/Machine/VecOps.lean ====
section
/-! DEFINITION. What each VEC instruction computes from its sources when it issues (R112 to R135). -/

namespace Sys2Proof.Machine

/-! ## Lanes and elements (R24, R112) -/

/-- Element `e` of width `w`. -/
def elemAt (v : Vec) (w e : Nat) : Nat := v.toNat / 2 ^ (w * e) % 2 ^ w

/-- Lane `l`. -/
def laneAt (v : Vec) (l : Nat) : Nat := elemAt v 32 l

/-- Every bit. -/
def allBits : Vec := BitVec.allOnes 2048

/-- Bits of the elements `lo` to `lo + n - 1` of width `w`. -/
def elemBits (w lo n : Nat) : Vec := BitVec.ofNat 2048 ((2 ^ (w * n) - 1) * 2 ^ (w * lo))

/-! ## Sources and results -/

/-- What an instruction sees when it issues: its context and slot, its command number, the registers, predicates and patterns under
their names, the clamp values and the entry it pops. -/
structure VEnv where
  ctx : Nat
  ident : Nat
  j : Nat
  v : Nat → Vec
  p : Nat → BitVec 64
  pat : Nat → BitVec 224
  lo : W64 := 0
  hi : W64 := 0
  popped : ChEntry := {}

/-- One result: where it goes by name, the bits it writes, and the value. -/
structure VWrite where
  dst : VDst
  mask : Vec
  val : Vec

/-- What an instruction comes to: its results, the entry it pushes, and what it does to VSTAT; or a fault with its status. -/
structure VRes where
  writes : List VWrite := []
  push : Option ChEntry := none
  olclamp : Bool := false
  dqmiss : Bool := false
  fault : Option Nat := none

/-- A result in a vector register, in the lanes that are on. -/
def VRes.lanes (d : BitVec 6) (on : BitVec 64) (x : Vec) : VRes := { writes := [⟨.v d.toNat, laneBits on, x⟩] }

/-- A result in every lane of a vector register. -/
def VRes.whole (d : BitVec 6) (x : Vec) : VRes := { writes := [⟨.v d.toNat, allBits, x⟩] }

/-- A result in a predicate: a guarded bit, and 0 where the guard is off. -/
def VRes.pred (d : BitVec 6) (on : BitVec 64) (f : Nat → Bool) : VRes :=
  { writes := [⟨.p d.toNat, allBits, vecFn 1 64 (fun l => if on.getLsbD l && f l then 1 else 0)⟩] }

/-! ## post (R55, R114, R115) -/

/-- The stream id and key of the instruction give the word drawn for destination element `e`. -/
def VEnv.draw (x : VEnv) (e : Nat) : Nat := drawWord x.ctx x.ident (BitVec.ofNat 64 (x.j * 512 + e))

/-- The modifiers in force: those of the word, or none. -/
def modsOf (md : Option Mod) : Mod := md.getD {}

/-- The round override (R55). -/
def rndBy (m : Mod) : Rnd := rndOf m.round

/-- Absolute value, negation, scale and clamp (R114).  An exact zero sum has the sign that its rounding mode gives it before `abs`
and `neg` act, the zero of an integer source counts as +0 there, so that `neg` makes it -0; a clamp register that holds a NaN bounds nothing,
and between zeros the clamp orders -0 below +0 as R75 does (all DESIGN CHOICE, log entry 45). -/
def postValue (m : Mod) (lo hi v : Val) : Val :=
  let v := if m.abs then v.abs else v
  let v := if m.neg then v.neg else v
  let v := v.scale m.scale.toInt
  if m.clamp && !v.isNan then (v.max lo).min hi else v

/-- The rounding of post: a floating-point format rounds once; an integer wraps, or is limited where the value is no integer's or
with the saturate modifier (R35, R114). -/
def postRound (f : Fmt) (srcInt : Bool) (m : Mod) (u : Nat) (v : Val) : Nat :=
  if f.isInt && srcInt && !m.sat then
    match v with
    | .num d => wrapInt f.width (d.roundInt (intMode f d (rndBy m)) u)
    | _ => 0
  else roundTo f v (rndBy m) u m.sat

/-- post(x) for a destination element (R114). -/
def VEnv.post (x : VEnv) (f : Fmt) (srcInt : Bool) (m : Mod) (e : Nat) (v : Val) : Nat :=
  postRound f srcInt m (if (rndBy m) == .rsto then x.draw e else 0)
    (postValue m (f.decode x.lo.toNat) (f.decode x.hi.toNat) v)

/-- The format of a checked type field. -/
def tyOf (c : BitVec 5) : Fmt := (Fmt.ofCode c.toNat).getD .fp32

/-- Elements of a format in a register. -/
def Fmt.count (f : Fmt) : Nat := 2048 / f.width

/-! ## Arithmetic (R117, R118) -/

/-- An element-wise operation with post. -/
def VEnv.map (x : VEnv) (f : VF) (op : (Nat → BitVec 6 → Val) → Nat → Val) : VRes :=
  let ty := tyOf f.ty
  let src := fun (e : Nat) (r : BitVec 6) => ty.decode (elemAt (x.v r.toNat) ty.width e)
  VRes.lanes f.vd (x.p f.pg.toNat)
    (vecFn ty.width ty.count (fun e => x.post ty ty.isInt (modsOf f.md) e (op src e)))

def vaddRes (f : VF) (x : VEnv) : VRes := x.map f (fun s e => (s e f.va).add (s e f.vb) (rndBy (modsOf f.md)))
def vsubRes (f : VF) (x : VEnv) : VRes := x.map f (fun s e => (s e f.va).sub (s e f.vb) (rndBy (modsOf f.md)))
def vmulRes (f : VF) (x : VEnv) : VRes := x.map f (fun s e => (s e f.va).mul (s e f.vb))
def vfmaRes (f : VF) (x : VEnv) : VRes :=
  x.map f (fun s e => ((s e f.va).mul (s e f.vb)).add (s e f.vc) (rndBy (modsOf f.md)))
def vfmsRes (f : VF) (x : VEnv) : VRes :=
  x.map f (fun s e => ((s e f.va).mul (s e f.vb)).sub (s e f.vc) (rndBy (modsOf f.md)))
def vminRes (f : VF) (x : VEnv) : VRes := x.map f (fun s e => (s e f.va).min (s e f.vb))
def vmaxRes (f : VF) (x : VEnv) : VRes := x.map f (fun s e => (s e f.va).max (s e f.vb))

/-- A condition of `vcmp` on two lanes (R118). -/
def cmpCond (c : Nat) (fp : Bool) (a b : Nat) : Bool :=
  let x := if fp then Fmt.fp32.decode a else Fmt.int32.decode a
  let y := if fp then Fmt.fp32.decode b else Fmt.int32.decode b
  match c with
  | 0 => x.cmp y == some .eq
  | 1 => x.cmp y != some .eq
  | 2 => x.lt y
  | 3 => x.le y
  | 4 => y.lt x
  | 5 => y.le x
  | 6 => decide (a < b)
  | 7 => decide (a ≤ b)
  | 8 => decide (b < a)
  | 9 => decide (b ≤ a)
  | _ => x.cmp y == none

def vcmpRes (f : VF) (x : VEnv) : VRes :=
  VRes.pred f.vd (x.p f.pg.toNat)
    (fun l => cmpCond f.sub.toNat (f.ty == 0) (laneAt (x.v f.va.toNat) l) (laneAt (x.v f.vb.toNat) l))

/-! ## Selection, logic, shifts and moves (R119) -/

def vselRes (f : VF) (x : VEnv) : VRes :=
  VRes.whole f.vd (blend (x.v f.vb.toNat) (laneBits (x.p f.pg.toNat)) (x.v f.va.toNat))

def vandRes (f : VF) (x : VEnv) : VRes := VRes.lanes f.vd (x.p f.pg.toNat) (x.v f.va.toNat &&& x.v f.vb.toNat)
def vorRes (f : VF) (x : VEnv) : VRes := VRes.lanes f.vd (x.p f.pg.toNat) (x.v f.va.toNat ||| x.v f.vb.toNat)
def vxorRes (f : VF) (x : VEnv) : VRes := VRes.lanes f.vd (x.p f.pg.toNat) (x.v f.va.toNat ^^^ x.v f.vb.toNat)
def vnotRes (f : VF) (x : VEnv) : VRes := VRes.lanes f.vd (x.p f.pg.toNat) (~~~(x.v f.va.toNat))
def vmovRes (f : VF) (x : VEnv) : VRes := VRes.lanes f.vd (x.p f.pg.toNat) (x.v f.va.toNat)

/-- An element-wise shift by the low bits of vb's element, or by the immediate. -/
def VEnv.shift (x : VEnv) (f : VF) (op : Nat → Nat → Nat → Nat) : VRes :=
  let w := (tyOf f.ty).width
  VRes.lanes f.vd (x.p f.pg.toNat)
    (vecFn w (2048 / w) (fun e =>
      op w (elemAt (x.v f.va.toNat) w e) (if f.sub == 1 then f.imm.toNat else elemAt (x.v f.vb.toNat) w e % w)))

def vshlRes (f : VF) (x : VEnv) : VRes := x.shift f (fun w a n => a * 2 ^ n % 2 ^ w)
def vshrRes (f : VF) (x : VEnv) : VRes := x.shift f (fun _ a n => a / 2 ^ n)
def vsraRes (f : VF) (x : VEnv) : VRes := x.shift f (fun w a n => wrapInt w ((signedOf w a).fdiv ((2 ^ n : Nat) : Int)))

def vbcRes (f : VF) (x : VEnv) : VRes :=
  if f.sub == 0 then
    VRes.lanes f.vd (x.p f.pg.toNat) (vecFn 32 64 (fun _ => laneAt (x.v f.va.toNat) f.imm.toNat))
  else
    let ty := tyOf f.ty
    let c := if ty.isInt then wrapInt ty.width f.imm.toInt else roundTo ty (.ofInt f.imm.toInt) .rne 0 false
    VRes.lanes f.vd (x.p f.pg.toNat) (vecFn ty.width ty.count (fun _ => c))

def vidxRes (f : VF) (x : VEnv) : VRes :=
  let w := (tyOf f.ty).width
  VRes.lanes f.vd (x.p f.pg.toNat) (vecFn w (2048 / w) (fun e => wrapInt w ((e : Int) * f.imm.toInt)))

/-! ## Conversion (R120) -/

def vcvtRes (f : VF) (x : VEnv) : VRes :=
  let s := tyOf f.ty
  let d := tyOf f.sub
  let conv := fun (e i : Nat) =>
    x.post d s.isInt (modsOf f.md) e (s.decode (elemAt (x.v f.va.toNat) s.width i))
  let on := laneBits (x.p f.pg.toNat)
  if d.count ≤ s.count then
    { writes := [⟨.v f.vd.toNat, on, vecFn d.width d.count (fun e => conv e (f.imm.toNat * d.count + e))⟩] }
  else
    let lo := f.imm.toNat * s.count
    { writes := [⟨.v f.vd.toNat, on &&& elemBits d.width lo s.count,
        vecFn d.width d.count (fun e => if lo ≤ e && e < lo + s.count then conv e (e - lo) else 0)⟩] }

/-! ## Reductions and scans (R121, R122) -/

/-- The elements of va whose lanes are on, with their numbers. -/
def VEnv.onElems (x : VEnv) (f : VF) : List (Nat × Nat) :=
  let w := (tyOf f.ty).width
  ((List.range (2048 / w)).filter (fun e => (x.p f.pg.toNat).getLsbD (e * w / 32))).map
    (fun e => (e, elemAt (x.v f.va.toNat) w e))

/-- Exact sum of values, +0 for none; zeros are added two by two, so that zeros of one sign keep it (R34; DESIGN CHOICE, log entry 45). -/
def sumVals (m : Rnd) : List Val → Val
  | [] => .zero false
  | v :: vs => vs.foldl (fun a b => a.add b m) v

/-- Fold of codes by a binary operation on values. -/
def foldVals (op : Val → Val → Val) (none : Val) : List Val → Val
  | [] => none
  | v :: vs => vs.foldl op v

/-- The reduction (R121).  With no element on, `add` gives +0 itself, whatever the modifier word asks. -/
def vredRes (f : VF) (x : VEnv) : VRes :=
  let ty := tyOf f.ty
  let l := (x.onElems f).map (·.2)
  let vs := l.map ty.decode
  let edge := fun (top : Bool) =>
    if ty.isInt then .ofInt (if top then ty.intRange.2 else ty.intRange.1) else Val.inf (!top)
  let r := match f.sub.toNat with
    | 0 => if l.isEmpty then 0 else x.post ty ty.isInt (modsOf f.md) 0 (sumVals (rndBy (modsOf f.md)) vs)
    | 1 => roundTo ty (foldVals Val.min (edge true) vs) .rne 0 false
    | 2 => roundTo ty (foldVals Val.max (edge false) vs) .rne 0 false
    | 3 => l.foldl (fun a b => a &&& b) (2 ^ ty.width - 1)
    | 4 => l.foldl (fun a b => a ||| b) 0
    | _ => l.foldl (fun a b => a ^^^ b) 0
  VRes.whole f.vd (vecFn ty.width ty.count (fun _ => r))

/-- The prefixes of a list of numbered values: the fold of those before an element, or up to it. -/
def prefixes (op : Val → Val → Val) (incl : Bool) : Option Val → List (Nat × Val) → List (Nat × Val)
  | _, [] => []
  | acc, (e, v) :: r =>
    let nxt := match acc with
      | some a => op a v
      | none => v
    (e, if incl then nxt else acc.getD (.zero false)) :: prefixes op incl (some nxt) r

def vscanRes (f : VF) (x : VEnv) : VRes :=
  let ty := tyOf f.ty
  let m := modsOf f.md
  let l := (x.onElems f).map (fun e => (e.1, ty.decode e.2))
  let op : Val → Val → Val := match f.sub.toNat with
    | 2 => Val.max
    | 3 => Val.min
    | _ => fun a b => a.add b (rndBy m)
  let ps : Map Val := prefixes op (f.sub != 1) none l
  VRes.lanes f.vd (x.p f.pg.toNat)
    (vecFn ty.width ty.count (fun e =>
      match ps.find e with
      | some v => x.post ty ty.isInt m e v
      | none => 0))

/-! ## Permutes and the bit network (R123, R124) -/

def vpermRes (f : VF) (x : VEnv) : VRes :=
  VRes.lanes f.vd (x.p f.pg.toNat)
    (vecFn 32 64 (fun l =>
      let k := laneAt (x.v f.vc.toNat) l % 128
      if k < 64 then laneAt (x.v f.va.toNat) k else laneAt (x.v f.vb.toNat) (k - 64)))

def vbitRes (f : VF) (x : VEnv) : VRes :=
  let pt := x.pat f.imm.toNat
  VRes.lanes f.vd (x.p f.pg.toNat)
    (vecFn 32 64 (fun l =>
      let pair := laneAt (x.v f.va.toNat) l + laneAt (x.v f.vb.toNat) l * 2 ^ 32
      packBits 1 ((List.range 32).map (fun b =>
        let g := pt.toNat / 2 ^ (7 * b) % 128
        if g ≥ 64 then g % 2 else pair / 2 ^ g % 2))))

def vbpatRes (f : VF) (x : VEnv) : VRes :=
  { writes := [⟨.pat f.imm.toNat, patBits (x.p f.pg.toNat), vecFn 7 32 (fun b => laneAt (x.v f.va.toNat) b % 128)⟩] }

/-! ## Special functions (R125) -/

def vsfRes (f : VF) (x : VEnv) : VRes :=
  let ty := tyOf f.ty
  VRes.lanes f.vd (x.p f.pg.toNat)
    (vecFn ty.width ty.count (fun e =>
      if (x.p f.pg.toNat).getLsbD (e * ty.width / 32) then
        x.post ty false (modsOf f.md) e
          (fnEval (Fn.ofVsf f.sub.toNat) (Config.vsfZeroSign f.sub.toNat)
            (ty.decode (elemAt (x.v f.va.toNat) ty.width e)))
      else 0))

/-! ## Top-k (R126) -/

/-- The place of a code in the order of values, -0 below +0; none for NaN. -/
def rankKey (fp : Bool) (c : Nat) : Option Int :=
  if fp then
    if c % 2 ^ 31 > 0x7F800000 then none
    else if c ≥ 2 ^ 31 then some (-((c % 2 ^ 31 : Nat) : Int) - 1) else some (c : Int)
  else some (signedOf 32 c)

/-- Whether a code ranks strictly before another; a NaN ranks after every number. -/
def ranksBefore (fp max : Bool) (a b : Nat) : Bool :=
  match rankKey fp a, rankKey fp b with
  | some x, some y => if max then decide (y < x) else decide (x < y)
  | some _, none => true
  | none, _ => false

/-- The ranking (R126).  A NaN among the best is written as the canonical NaN (R26). -/
def vtopkRes (f : VF) (x : VEnv) : VRes :=
  let fp := f.ty == 0
  let on := (List.range 64).filter (fun l => (x.p f.pg.toNat).getLsbD l)
  let best := sortBy (fun a b => ranksBefore fp (f.sub == 0) a.2 b.2) (on.map (fun l => (l, laneAt (x.v f.va.toNat) l)))
  let k := f.imm.toNat
  let bits := laneBits (BitVec.ofNat 64 (2 ^ k - 1))
  let val := fun j => match best[j]? with
    | some c => if fp && (Fmt.fp32.decode c.2).isNan then 0x7FC00000 else c.2
    | none => if fp then 0x7FC00000 else 0x80000000
  let lane := fun j => match best[j]? with
    | some c => c.1
    | none => 0xFFFFFFFF
  { writes := [⟨.v f.vd.toNat, bits, vecFn 32 k val⟩, ⟨.v f.vb.toNat, bits, vecFn 32 k lane⟩] }

/-! ## Random numbers (R127) -/

def vrndRes (f : VF) (x : VEnv) : VRes :=
  let b := x.v f.vb.toNat
  let key : W64 := BitVec.ofNat 64 (laneAt b 1 * 2 ^ 32 + laneAt b 0)
  VRes.lanes f.vd (x.p f.pg.toNat)
    (vecFn 32 64 (fun l =>
      let u := (gen key (BitVec.ofNat 32 (laneAt b 2)) (BitVec.ofNat 64 (laneAt b 3 * 2 ^ 32 + laneAt (x.v f.va.toNat) l))).toNat
      if f.ty == 8 then u else roundTo .fp32 (.ofNatExp (u / 256) (-24)) .rne 0 false))

/-! ## Quantisation with outlier election (R128, R129) -/

/-- The magnitude order of FP32 codes: NaN above infinities above finite values. -/
def magKey (c : Nat) : Nat := min (c % 2 ^ 31) 0x7F800001

/-- Whether an element is a candidate before any scale is known (R128, step 1). -/
def isCandidate (dst : Fmt) (m : Rnd) (thr c : Nat) : Bool :=
  let v := Fmt.fp32.decode c
  !v.isFinite || (Fmt.fp32.decode thr).lt v.abs || (dst != .mxfp4 && overflowsFmt dst v m)

/-- The scale code of an MXFP4 block, from the elements it counts (R32). -/
def mxScale (vs : List Val) : Nat :=
  if vs.any (fun v => !v.isFinite) then 0xFF
  else
    match foldVals Val.max (.zero false) (vs.map Val.abs) with
    | .num d => if d.isZero then 0x7F else (clampInt 0 254 (d.log2Floor - 2 + 127)).toNat
    | _ => 0x7F

/-- A value over an MXFP4 scale. -/
def overScale (x : Nat) (v : Val) : Val := v.scale (127 - (x : Int))

/-- What the election of a block comes to: the elected elements, those left over, and the scale. -/
structure Election where
  elected : List Nat
  left : List Nat
  scale : Nat

/-- Steps 1 to 3 for the elements of one block, given with their codes. -/
def elect (dst : Fmt) (m : Rnd) (thr cap : Nat) (els : List (Nat × Nat)) : Election :=
  let order := fun (l : List (Nat × Nat)) => (sortBy (fun a b => decide (magKey b.2 < magKey a.2)) l).map (·.1)
  let c1 := order (els.filter (fun e => isCandidate dst m thr e.2))
  let e1 := c1.take cap
  let l1 := c1.drop cap
  if dst != .mxfp4 then { elected := e1, left := l1, scale := 0x7F }
  else
    let x := mxScale ((els.filter (fun e => !e1.contains e.1)).map (fun e => Fmt.fp32.decode e.2))
    let c2 := order (els.filter (fun e =>
      !c1.contains e.1 && x != 0xFF && overflowsFmt .mxfp4 (overScale x (Fmt.fp32.decode e.2)) m))
    { elected := e1 ++ c2.take (cap - e1.length), left := l1 ++ c2.drop (cap - e1.length), scale := x }

/-- The code of an element that is not elected (R128, step 5). -/
def narrowCode (dst : Fmt) (m : Rnd) (u scale : Nat) (v : Val) : Nat :=
  match dst with
  | .mxfp4 => if scale = 0xFF then 0 else roundTo .mxfp4 (overScale scale v) m u true
  | .int8 =>
    match v with
    | .nan => 0
    | .inf n => wrapInt 8 (if n then -127 else 127)
    | .num d => wrapInt 8 (clampInt (-127) 127 (d.roundInt (intMode .int8 d m) u))
  | f => roundTo f v m u true

/-- Cap by its code (R128). -/
def capOf (c : Nat) : Nat :=
  match c with
  | 0 => 0
  | 1 => 1
  | 2 => 2
  | 3 => 4
  | 4 => 8
  | _ => 16

/-- The outlier entry of R129. -/
def outlierEntry (row kbase : Nat) (l : List (Nat × Nat)) : ChEntry :=
  { data := vecOf 32 (l.flatMap (fun e =>
      [if magKey e.2 > 0x7F800000 then 0x7FC00000 else e.2, row * 2 ^ 16 + (kbase + e.1) % 2 ^ 16]))
    mask := BitVec.ofNat 64 (2 ^ (2 * l.length) - 1) }

def vqntRes (f : VF) (x : VEnv) : VRes :=
  let dst := tyOf f.ty
  let m := (rndBy (modsOf f.md))
  let on := x.p f.pg.toNat
  let part := f.sub.toNat
  let vc := x.v f.vc.toNat
  let code := fun i => laneAt (x.v f.va.toNat) i
  let cap := capOf (f.imm.toNat % 8)
  let block := fun b =>
    elect dst m (laneAt vc b) cap (((List.range 32).map (fun i => 32 * b + i)).filterMap
      (fun i => if on.getLsbD i then some (i, code i) else none))
  let b0 := block 0
  let b1 := block 1
  let clampPol := f.imm.getLsbD 3
  let ovf := if !b0.left.isEmpty then some (b0.elected.length + b0.left.length)
    else if !b1.left.isEmpty then some (2 ^ 8 + b1.elected.length + b1.left.length) else none
  if ovf.isSome && !clampPol then { fault := ovf }
  else
    let hit := b0.elected ++ b1.elected
    let out := fun i =>
      if !on.getLsbD i then 0
      else if hit.contains i then dst.outlier.getD 0
      else narrowCode dst m (if m == .rsto then x.draw (part * 64 + i) else 0) (if i < 32 then b0.scale else b1.scale)
        (Fmt.fp32.decode (code i))
    let asc := fun (l : List Nat) => (sortBy (fun a b => decide (a < b)) l).map (fun i => (i, code i))
    let w := dst.width
    let codes : VWrite := ⟨.v f.vd.toNat, elemBits w (part * 64) 64, BitVec.ofNat 2048
      (packBits w ((List.range 64).map out) * 2 ^ (w * part * 64))⟩
    let scales : List VWrite :=
      if dst == .mxfp4 then
        [⟨.v f.vb.toNat, elemBits 8 (2 * part) 2, BitVec.ofNat 2048 ((b0.scale + 2 ^ 8 * b1.scale) * 2 ^ (16 * part))⟩]
      else []
    { writes := codes :: scales
      push := some (outlierEntry (laneAt vc 2 % 2 ^ 16) (laneAt vc 3 % 2 ^ 16) (asc b0.elected ++ asc b1.elected))
      olclamp := ovf.isSome }

/-! ## Dequantisation (R130) -/

/-- The value of the present entry with the highest number whose k matches. -/
def entryFor (c : ChEntry) (k : Nat) : Option Nat :=
  (List.range 32).foldl (fun r j =>
    if c.mask.getLsbD (2 * j) && c.mask.getLsbD (2 * j + 1) && laneAt c.data (2 * j + 1) % 2 ^ 16 == k then
      some (laneAt c.data (2 * j))
    else r) none

def vdqRes (f : VF) (x : VEnv) : VRes :=
  let src := tyOf f.ty
  let on := x.p f.pg.toNat
  let part := f.sub.toNat
  let ol := f.imm.getLsbD 0
  let kbase := laneAt (x.v f.vc.toNat) 3
  let code := fun i => elemAt (x.v f.va.toNat) src.width (part * 64 + i)
  let isOut := fun i => ol && src.outlier == some (code i)
  let scale := fun i => elemAt (x.v f.vb.toNat) 8 (2 * part + i / 32)
  let value : Nat → Val := fun i =>
    if isOut i then
      match entryFor x.popped ((kbase + i) % 2 ^ 16) with
      | some c => Fmt.fp32.decode c
      | none => .zero false
    else if src == .mxfp4 then
      if scale i = 0xFF then .nan else (src.decode (code i)).scale ((scale i : Int) - 127)
    else src.decode (code i)
  let miss := (List.range 64).any (fun i =>
    on.getLsbD i && isOut i && (entryFor x.popped ((kbase + i) % 2 ^ 16)).isNone)
  { writes := [⟨.v f.vd.toNat, laneBits on, vecFn 32 64 (fun i => roundTo .fp32 (value i) .rne 0 false)⟩], dqmiss := miss }

/-! ## Channels and predicates (R131, R132, R135) -/

def vrcvRes (f : VF) (x : VEnv) : VRes :=
  let c := x.popped
  let r := VRes.lanes f.vd (x.p f.pg.toNat) (blend 0 (laneBits c.mask) c.data)
  if f.sub == 1 then { r with writes := r.writes ++ [⟨.p f.vc.toNat, allBits, c.mask.setWidth 2048⟩] } else r

def vsndRes (f : VF) (x : VEnv) : VRes :=
  let on := x.p f.pg.toNat
  { push := some { data := blend 0 (laneBits on) (x.v f.va.toNat), mask := on } }

def pandRes (f : VF) (x : VEnv) : VRes :=
  VRes.pred f.vd (x.p f.pg.toNat) (fun l => (x.p f.va.toNat).getLsbD l && (x.p f.vb.toNat).getLsbD l)
def porRes (f : VF) (x : VEnv) : VRes :=
  VRes.pred f.vd (x.p f.pg.toNat) (fun l => (x.p f.va.toNat).getLsbD l || (x.p f.vb.toNat).getLsbD l)
def pxorRes (f : VF) (x : VEnv) : VRes :=
  VRes.pred f.vd (x.p f.pg.toNat) (fun l => (x.p f.va.toNat).getLsbD l != (x.p f.vb.toNat).getLsbD l)
def pnotRes (f : VF) (x : VEnv) : VRes := VRes.pred f.vd (x.p f.pg.toNat) (fun l => !(x.p f.va.toNat).getLsbD l)

def pcntRes (f : VF) (x : VEnv) : VRes :=
  VRes.whole f.vd (vecFn 32 64 (fun _ => countOnes (x.p f.va.toNat &&& x.p f.pg.toNat).toNat 64))

def psetRes (f : VF) (x : VEnv) : VRes :=
  VRes.pred f.vd (x.p f.pg.toNat) (fun l =>
    match f.sub.toNat with
    | 0 => decide (l < f.imm.toNat)
    | 1 => laneAt (x.v f.va.toNat) l != 0
    | _ => (laneAt (x.v f.va.toNat) (l / 32)).testBit (l % 32))

/-! ## The table of results -/

/-- Latency bounds (R57). -/
def vecBound (i : Instr) : Nat :=
  match i with
  | .vmul _ | .vfma _ | .vfms _ | .vperm _ | .vrnd _ => 4
  | .vcvt _ | .vbit _ | .vbpat _ => 3
  | .vred _ | .vqnt _ | .vdq _ => 6
  | .vscan _ | .vsf _ => 8
  | .vtopk _ => 12
  | _ => 2

/-- What a VEC instruction computes; `vrot` acts on the naming itself. -/
def vecRes (i : Instr) (x : VEnv) : VRes :=
  match i with
  | .vadd f => vaddRes f x
  | .vsub f => vsubRes f x
  | .vmul f => vmulRes f x
  | .vfma f => vfmaRes f x
  | .vfms f => vfmsRes f x
  | .vmin f => vminRes f x
  | .vmax f => vmaxRes f x
  | .vcmp f => vcmpRes f x
  | .vsel f => vselRes f x
  | .vcvt f => vcvtRes f x
  | .vand f => vandRes f x
  | .vor f => vorRes f x
  | .vxor f => vxorRes f x
  | .vnot f => vnotRes f x
  | .vshl f => vshlRes f x
  | .vshr f => vshrRes f x
  | .vsra f => vsraRes f x
  | .vmov f => vmovRes f x
  | .vbc f => vbcRes f x
  | .vidx f => vidxRes f x
  | .vred f => vredRes f x
  | .vscan f => vscanRes f x
  | .vperm f => vpermRes f x
  | .vbit f => vbitRes f x
  | .vbpat f => vbpatRes f x
  | .vsf f => vsfRes f x
  | .vtopk f => vtopkRes f x
  | .vrnd f => vrndRes f x
  | .vqnt f => vqntRes f x
  | .vdq f => vdqRes f x
  | .vrcv f => vrcvRes f x
  | .vsnd f => vsndRes f x
  | .pand f => pandRes f x
  | .por f => porRes f x
  | .pxor f => pxorRes f x
  | .pnot f => pnotRes f x
  | .pcnt f => pcntRes f x
  | .pset f => psetRes f x
  | _ => {}

end Sys2Proof.Machine
end

