-- ==== Sys2Proof/Machine/Vec.lean ====
section
/-! DEFINITION. Dispatch of the VEC instructions (R109, R116, R134), and what the issue of one does to its stream (R58, R69 to R71,
R111, R128, R133). -/

namespace Sys2Proof.Machine

/-! ## Dispatch -/

/-- The vector register names of an instruction (R109). -/
def vecNames (i : Instr) : List (BitVec 6) :=
  match i with
  | .vadd f | .vsub f | .vmul f | .vmin f | .vmax f | .vsel f | .vand f | .vor f | .vxor f | .vshl f | .vshr f | .vsra f
  | .vbit f | .vtopk f | .vrnd f => [f.vd, f.va, f.vb]
  | .vfma f | .vfms f | .vperm f | .vqnt f | .vdq f => [f.vd, f.va, f.vb, f.vc]
  | .vcmp f => [f.va, f.vb]
  | .vcvt f | .vnot f | .vmov f | .vbc f | .vred f | .vscan f | .vsf f => [f.vd, f.va]
  | .vidx f | .vrcv f | .pcnt f => [f.vd]
  | .vbpat f | .vsnd f | .pset f => [f.va]
  | _ => []

/-- Whether the names lie in the stream's allotment and the channels are wired to VEC (R109, R134). -/
def State.vecWired (s : State) (i : Instr) : Bool :=
  ((vecNames i).all fun r => decide (r.toNat < s.cur.alloc)) &&
    (match vecPop i with
     | some ch => s.wiredPop 2 ch
     | none => true) &&
    (match vecPush i with
     | some ch => s.wiredPush 2 ch
     | none => true)

/-- The queue entry of a VEC instruction (R67, R326). -/
def State.cmdOfV (s : State) (i : Instr) (md : Option Mod) : Cmd :=
  let w := encode i
  let low (g : Mod → BitVec 5) : W64 := match md with
    | some m => s.sreg (g m)
    | none => 0
  { j := s.cur.jcnt.toNat, i := i, head := BitVec.ofNat 32 (w.getD 0 0), body := BitVec.ofNat 32 (w.getD 1 0)
    modw := BitVec.ofNat 32 (w.getD 2 0), pc := s.cur.pc, clo := low Mod.clo, chi := low Mod.chi, exact := s.exactBit }

/-- Dispatch of a VEC instruction. -/
def State.dispatchV (s : State) (i : Instr) (md : Option Mod) : Out :=
  s.dispatch i (wordsOf md) 2 (s.vecWired i) (.ok { cmd := s.cmdOfV i md })

/-- `vadd`: elementwise sum (R117). -/
def execVadd (f : VF) (s : State) : Out := s.dispatchV (.vadd f) f.md

/-- `vsub`: elementwise difference (R117). -/
def execVsub (f : VF) (s : State) : Out := s.dispatchV (.vsub f) f.md

/-- `vmul`: elementwise product (R117). -/
def execVmul (f : VF) (s : State) : Out := s.dispatchV (.vmul f) f.md

/-- `vfma`: product plus the third source (R117). -/
def execVfma (f : VF) (s : State) : Out := s.dispatchV (.vfma f) f.md

/-- `vfms`: product minus the third source (R117). -/
def execVfms (f : VF) (s : State) : Out := s.dispatchV (.vfms f) f.md

/-- `vmin`: the lesser element (R117). -/
def execVmin (f : VF) (s : State) : Out := s.dispatchV (.vmin f) f.md

/-- `vmax`: the greater element (R117). -/
def execVmax (f : VF) (s : State) : Out := s.dispatchV (.vmax f) f.md

/-- `vcmp`: comparison into a predicate (R118). -/
def execVcmp (f : VF) (s : State) : Out := s.dispatchV (.vcmp f) f.md

/-- `vsel`: selection by a predicate (R119). -/
def execVsel (f : VF) (s : State) : Out := s.dispatchV (.vsel f) f.md

/-- `vcvt`: conversion (R120). -/
def execVcvt (f : VF) (s : State) : Out := s.dispatchV (.vcvt f) f.md

/-- `vand`: bitwise and (R119). -/
def execVand (f : VF) (s : State) : Out := s.dispatchV (.vand f) f.md

/-- `vor`: bitwise or (R119). -/
def execVor (f : VF) (s : State) : Out := s.dispatchV (.vor f) f.md

/-- `vxor`: bitwise exclusive or (R119). -/
def execVxor (f : VF) (s : State) : Out := s.dispatchV (.vxor f) f.md

/-- `vnot`: complement (R119). -/
def execVnot (f : VF) (s : State) : Out := s.dispatchV (.vnot f) f.md

/-- `vshl`: left shift (R119). -/
def execVshl (f : VF) (s : State) : Out := s.dispatchV (.vshl f) f.md

/-- `vshr`: logical right shift (R119). -/
def execVshr (f : VF) (s : State) : Out := s.dispatchV (.vshr f) f.md

/-- `vsra`: arithmetic right shift (R119). -/
def execVsra (f : VF) (s : State) : Out := s.dispatchV (.vsra f) f.md

/-- `vmov`: move (R119). -/
def execVmov (f : VF) (s : State) : Out := s.dispatchV (.vmov f) f.md

/-- `vbc`: broadcast (R119). -/
def execVbc (f : VF) (s : State) : Out := s.dispatchV (.vbc f) f.md

/-- `vidx`: element numbers times a step (R119). -/
def execVidx (f : VF) (s : State) : Out := s.dispatchV (.vidx f) f.md

/-- `vred`: reduction (R121). -/
def execVred (f : VF) (s : State) : Out := s.dispatchV (.vred f) f.md

/-- `vscan`: prefixes (R122). -/
def execVscan (f : VF) (s : State) : Out := s.dispatchV (.vscan f) f.md

/-- `vperm`: permute (R123). -/
def execVperm (f : VF) (s : State) : Out := s.dispatchV (.vperm f) f.md

/-- `vbit`: the bit network (R124). -/
def execVbit (f : VF) (s : State) : Out := s.dispatchV (.vbit f) f.md

/-- `vbpat`: load a routing pattern (R124). -/
def execVbpat (f : VF) (s : State) : Out := s.dispatchV (.vbpat f) f.md

/-- `vsf`: special function (R125). -/
def execVsf (f : VF) (s : State) : Out := s.dispatchV (.vsf f) f.md

/-- `vtopk`: top-k (R126). -/
def execVtopk (f : VF) (s : State) : Out := s.dispatchV (.vtopk f) f.md

/-- `vrnd`: random words (R127). -/
def execVrnd (f : VF) (s : State) : Out := s.dispatchV (.vrnd f) f.md

/-- `vqnt`: quantisation (R128, R129). -/
def execVqnt (f : VF) (s : State) : Out := s.dispatchV (.vqnt f) f.md

/-- `vdq`: dequantisation (R130). -/
def execVdq (f : VF) (s : State) : Out := s.dispatchV (.vdq f) f.md

/-- `vrcv`: receive from a channel (R131). -/
def execVrcv (f : VF) (s : State) : Out := s.dispatchV (.vrcv f) f.md

/-- `vsnd`: send into a channel (R132). -/
def execVsnd (f : VF) (s : State) : Out := s.dispatchV (.vsnd f) f.md

/-- `vrot`: rotate the names (R111). -/
def execVrot (f : VF) (s : State) : Out := s.dispatchV (.vrot f) f.md

/-- `pand`: predicate and (R135). -/
def execPand (f : VF) (s : State) : Out := s.dispatchV (.pand f) f.md

/-- `por`: predicate or (R135). -/
def execPor (f : VF) (s : State) : Out := s.dispatchV (.por f) f.md

/-- `pxor`: predicate exclusive or (R135). -/
def execPxor (f : VF) (s : State) : Out := s.dispatchV (.pxor f) f.md

/-- `pnot`: predicate complement (R135). -/
def execPnot (f : VF) (s : State) : Out := s.dispatchV (.pnot f) f.md

/-- `pcnt`: population count of a predicate (R135). -/
def execPcnt (f : VF) (s : State) : Out := s.dispatchV (.pcnt f) f.md

/-- `pset`: set a predicate (R135). -/
def execPset (f : VF) (s : State) : Out := s.dispatchV (.pset f) f.md

/-! ## Issue -/

/-- One VEC instruction more of the stream issues, in effective cycle `e`; the results whose bound has passed by the count of
instructions or of cycles land (R58, R70). -/
def Stream.agePend (t : Stream) (e : Nat) : Stream :=
  ({ t with pend := t.pend.map (fun w => { w with age := w.age + 1 }) } : Stream).landThose
    (fun w => decide (w.bound ≤ w.age) || decide (w.due ≤ e))

/-- What a read finds: in each lane of a result that has not landed, the value before it or its own (R70, log entry 7). -/
def pendRead (d : VDst) (draw : Nat) (x : Vec) : List PWrite → Vec
  | [] => x
  | w :: ws =>
    pendRead d (draw + 1)
      (if w.dst = d then blend x (w.mask &&& pickBits d (Config.freeMask draw)) w.val else x) ws

/-- What an instruction of a slot sees. -/
def Stream.venv (t : Stream) (draw ctx ident : Nat) (m : Cmd) (popped : ChEntry) : VEnv :=
  { ctx := ctx, ident := ident, j := m.j, lo := m.clo, hi := m.chi, popped := popped
    v := fun n => let k := t.physV n
      pendRead (.v k) draw (t.vecAt k) t.pend
    p := fun n => let k := t.physP n
      (pendRead (.p k) draw ((t.predAt k).setWidth 2048) t.pend).setWidth 64
    pat := fun n => (pendRead (.pat n) draw ((t.pats.getD n 0).setWidth 2048) t.pend).setWidth 224 }

/-- The physical place of a named result. -/
def Stream.physDst (t : Stream) (d : VDst) : VDst :=
  match d with
  | .v n => .v (t.physV n)
  | .p n => .p (t.physP n)
  | x => x

/-- A result of an instruction: it lands at once in a scoreboard region (R69), and by its bound in an exposed one (R70). -/
def Stream.vecWrite (t : Stream) (r : PWrite) (w : VWrite) : Stream :=
  let r := { r with dst := t.physDst w.dst, mask := w.mask, val := w.val }
  if t.exp then { t with pend := t.pend ++ [{ r with seed := r.seed + t.pend.length }] } else t.land r

/-- `vrot`: the names turn, and the source becomes the new p8 (R111). -/
def Stream.rotate (t : Stream) (r : PWrite) (src : BitVec 64) : Stream :=
  let n := t.nrot
  let t := { t with rrb := if n = 0 then t.rrb else (t.rrb + n - 1) % n, prb := (t.prb + 7) % 8 }
  t.vecWrite r ⟨.p 8, allBits, src.setWidth 2048⟩

/-- The VSTAT flags that an instruction sets when it lands (R136). -/
def Stream.vecFlags (t : Stream) (p : PWrite) (r : VRes) : Stream :=
  if r.olclamp || r.dqmiss then
    let x : Vec := BitVec.ofNat 2048 ((if r.olclamp then 1 else 0) + (if r.dqmiss then 2 else 0))
    { t with pend := t.pend ++ [{ p with dst := .vstat, mask := x, val := x }] }
  else t

/-- The results of an instruction; where it writes one register twice, either write stands last. -/
def Stream.vecWrites (t : Stream) (p : PWrite) (r : VRes) : Stream :=
  let ws := if 1 < r.writes.length && Config.freeBit p.seed then r.writes.reverse else r.writes
  (ws.foldl (fun t w => t.vecWrite p w) t).vecFlags p r

/-- Draws that an issue takes. -/
def vecDraws : Nat := 512

/-- The groups of eight lanes that are on. -/
def lanesOn (m : BitVec 64) : Nat := (countOnes m.toNat 64 + 7) / 8

/-- The governing predicate of an instruction. -/
def vecGuard (i : Instr) : Nat :=
  match vfOf i with
  | some f => f.pg.toNat
  | none => 0

/-- An entry that VEC pushes joins those issued for its channel, and in a scoreboard region enters it at once with those before it; in an
exposed one it enters from 1 to L cycles after issue (R58, R133). -/
def Core.pushVec (x : Core) (ch order : Nat) (e : ChEntry) (exp : Bool) : Core :=
  let y := { x with pushing := x.pushing ++ [(order, ch, e)] }
  if exp then y else y.landPush ch order

/-- An instruction issues in VEC: its sources are read, its entry popped, its results written, or its fault raised. -/
def State.issueVec (s : State) (c k : Nat) (m : Cmd) (order : Nat) : State :=
  let e := (s.cluster (clusterOf c)).eff s.now
  let t := (s.stream c k).agePend e
  let popped := match vecPop m.i with
    | some ch => (s.chan c ch).headD {}
    | none => {}
  let x := t.venv s.draws (s.ctxOf c) (identOf c k) m popped
  let r := vecRes m.i x
  let s := (s.setStream c k t).countCore c 1 (lanesOn (x.p (vecGuard m.i)))
  let s := match m.i with
    | .vsf _ | .vtopk _ => s.countCore c 2 1
    | _ => s
  let s := { s with draws := s.draws + vecDraws }
  match r.fault with
  | some st => s.retireFault c k 2 m 0x0A st 0
  | none =>
    let s := match vecPop m.i with
      | some ch => s.popChan c ch
      | none => s
    let s := match vecPush m.i, r.push with
      | some ch, some e => (s.modCore c (fun y => y.pushVec ch order e t.exp)).countCore c 7 1
      | _, _ => s
    let b := vecBound m.i
    let p : PWrite := { j := m.j, bound := b, due := e + b, seed := s.draws - vecDraws }
    s.modStream c k (fun t =>
      let t := match m.i with
        | .vrot f => t.rotate p (x.p f.va.toNat)
        | _ => t.vecWrites p r
      { t with flights := t.flights ++
          [{ eng := 2, cmd := m, order := order, done := true
             lands := if t.exp then some (e, e + b) else none
             popped := if (vecPop m.i).isSome then [popped] else []
             pushed := r.push.toList }] })

end Sys2Proof.Machine
end

