-- ==== Sys2Proof/Machine/Copy.lean ====
section
/-! DEFINITION. The copies of LDE and STE: their dispatch checks, and the effect of one unit of each (R150 to R163, R210 to R213,
R351). -/

namespace Sys2Proof.Machine

/-! ## Checks of a dispatch -/

/-- A trap when a rule is broken. -/
def bad (b : Bool) (t : Trap) : Option Trap := if b then some t else none

/-- The first trap that applies. -/
def firstTrap : List (Option Trap) → Option Trap
  | [] => none
  | some t :: _ => some t
  | none :: r => firstTrap r

/-- What a dispatch comes to: the first trap that applies, or the entry. -/
def prepWith (l : List (Option Trap)) (p : Prep) : Except Trap Prep :=
  match firstTrap l with
  | some t => .error t
  | none => .ok p

/-- The trap of a write into a tile that is not filling, or whose finishing write is out (R146). -/
def tileWriteTrap (t : Tile) : Option Trap := bad (t.st != .filling || t.fin) { cause := 0x10 }

/-- The trap of a tile's bytes (R139, R142). -/
def State.tileTrap (s : State) (t : Tile) : Option Trap := if t.rows = 0 then none else spadTrap s.jnl [t.range]

/-- A tile of the selected core. -/
def State.myTile (s : State) (x : BitVec 6) : Tile := s.tile s.sel x.toNat

/-! ## Windows of a tile (R150, R151) -/

/-- A resolved extent word. -/
structure Win where
  row0 : Nat
  nr : Nat
  vr : Nat
  vc : Nat

/-- The window that an extent word chooses. -/
def winOf (t : Tile) (c : W64) : Win :=
  let n := c.toNat
  let row0 := fld n 63 48
  let nr := if fld n 47 32 = 0 then t.rows - row0 else fld n 47 32
  { row0 := row0, nr := nr, vr := if fld n 31 16 = 0 then nr else fld n 31 16
    vc := if fld n 15 0 = 0 then t.cols else fld n 15 0 }

/-- The bytes that the alignment of global operands counts in (R151). -/
def alignOf (f : Fmt) : Nat := if f.width = 16 then 2 else if f.width = 32 then 4 else 1

/-- The rules of a window with a global format, which `cv` says the command names itself (R150, R151). -/
def winBad (t : Tile) (g : Fmt) (tr cv : Bool) (w : Win) (a b : W64) : Bool :=
  decide (t.rows < w.row0 + w.nr) || decide (w.nr < w.vr) || decide (t.cols < w.vc) ||
    ((g.width == 4 || t.fmtOf.width == 4) && (w.vc % 2 == 1 || t.cols % 2 == 1)) ||
    a.toNat % alignOf g != 0 || b.toNat % alignOf g != 0 || (tr && cv && g.width == 4)

/-- The rules of `.t` on the tile (R151). -/
def transBad (t : Tile) (tr : Bool) (w : Win) : Bool :=
  tr && (t.rows % 32 != 0 || t.cols % 32 != 0 || t.fmtOf.width == 4 || t.fmtOf == .af40 || w.row0 % 32 != 0 || w.nr % 32 != 0)

/-- The global range of the present elements (R151). -/
def winRange (w : Win) (g : Fmt) (tr : Bool) (a b : Nat) : Nat × Nat :=
  if w.vr = 0 || w.vc = 0 then (0, 0)
  else if tr then (a, a + (w.vc - 1) * b + w.vr * g.width / 8)
  else (a, a + (w.vr - 1) * b + (w.vc * g.width + 7) / 8)

/-- The global range of the scale array (R151, R152). -/
def scaleRange (w : Win) (t : Tile) (g : Fmt) (a b : Nat) : Nat × Nat :=
  if g == .mxfp4 then (a + w.nr * b, a + w.nr * b + w.nr * ((t.cols + 31) / 32)) else (0, 0)

/-- Units of a copy. -/
def winUnits (w : Win) (tr : Bool) : Nat := if tr then w.nr / 32 else w.nr

/-- The ranges that a copy translates. -/
def winAccs (t : Tile) (w : Win) (g : Fmt) (tr : Bool) (m : Cmd) (rd wr : Bool) : List Acc :=
  let r := winRange w g tr m.a.toNat m.b.toNat
  let q := scaleRange w t g m.a.toNat m.b.toNat
  sortAccs [{ lo := r.1, hi := r.2, r := rd, w := wr }, { lo := q.1, hi := q.2, r := rd, w := wr }]

/-! ## `cpin`, `cpcv`, `cpin.ch` -/

/-- The global format of a copy. -/
def copyFmtOf (i : Instr) (t : Tile) : Fmt :=
  match i with
  | .cpcv f => (Fmt.ofCode f.imm.toNat).getD .fp32
  | .cpout f => if f.sub.getLsbD 1 then (Fmt.ofCode f.imm.toNat).getD .fp32 else t.fmtOf
  | _ => t.fmtOf

/-- Whether a copy transposes. -/
def copyTrans (i : Instr) : Bool :=
  match i with
  | .cpin f | .cpcv f => f.sub.getLsbD 1
  | .cpout f => f.sub.getLsbD 0
  | _ => false

/-- The scratchpad span of a copy: its tile, or nothing where its window has no rows, since it then touches no byte: a seal completes ahead of
an append (R224, R264; DEDUCED, log entry 49). -/
def copySpan (t : Tile) (w : Win) : List Span := if w.nr = 0 then [] else [t.span]

/-- The dispatch of `cpin` and `cpcv` (R150 to R152): cause 0x01 before cause 0x10 where both apply (DESIGN CHOICE, log entry 29). -/
def State.prepIn (s : State) (i : Instr) (f : EF) (m : Cmd) : Except Trap Prep :=
  let t := s.myTile f.x
  let g := copyFmtOf i t
  let tr := f.sub.getLsbD 1
  let cv := match i with
    | .cpcv _ => true
    | _ => false
  let w := winOf t m.c
  let accs := winAccs t w g tr m true false
  let n := f.x.toNat
  prepWith
    [bad (winBad t g tr cv w m.a m.b) illegal, bad (transBad t tr w) { cause := 0x10 },
     bad (g != t.fmtOf && t.fmt == 7) { cause := 0x10 }, tileWriteTrap t, s.tileTrap t]
    { cmd := { m with tiles := [n], wr := some (n, !f.sub.getLsbD 0), gspan := spansOf accs, sspan := copySpan t w }, accs := accs }

/-- `cpin` (R152). -/
def execCpin (f : EF) (s : State) : Out := s.dispatchE (.cpin f) f 0 true (s.prepIn (.cpin f) f)

/-- `cpcv` (R152). -/
def execCpcv (f : EF) (s : State) : Out := s.dispatchE (.cpcv f) f 0 true (s.prepIn (.cpcv f) f)

/-- The checks and the entry of the dispatch of `cpinCh`. -/
def State.prepCpinCh (s : State) (f : EF) (m : Cmd) : Except Trap Prep :=
  let t := s.myTile f.x
  let n := f.x.toNat
  prepWith
    [bad (m.a.toNat % 4 != 0) illegal, tileWriteTrap t,
     bad (decide (t.streamLen < m.a.toNat + 256 * (f.imm.toNat + 1)))
       { cause := 0x0F, va := t.streamAddr (max m.a.toNat t.streamLen) }]
    { cmd := { m with tiles := [n], wr := some (n, !f.sub.getLsbD 0), sspan := [t.span] } }

/-- `cpin.ch` (R153). -/
def execCpinCh (f : EF) (s : State) : Out := s.dispatchE (.cpinCh f) f 0 (s.wiredPop 0 f.y.toNat) (s.prepCpinCh f)

/-! ## `ldch`, `ldbc`, `pfch` -/

/-- Stride of an entry: 0 means 256. -/
def strideOf (b : W64) : Nat := if b = 0 then 256 else b.toNat

/-- Lanes of an entry of `ldch`: 0 means 64. -/
def lanesOf (c : W64) : Nat := if c = 0 then 64 else c.toNat

/-- Ranges of `n` entries of `len` bytes each, from an address on.  The sums do not wrap: a stride is a number from 0 to 2^64 - 1, and
an entry past the address space traps (DESIGN CHOICE, log entry 29). -/
def entryRanges (base stride len n : Nat) : List (Nat × Nat) :=
  (List.range n).map (fun e => (base + e * stride, base + e * stride + len))

/-- The span of such ranges. -/
def entrySpan (base stride len n : Nat) : Span := { lo := base, hi := base + (n - 1) * stride + len }

/-- A command that reads or writes entries, in scratchpad by an address register or in global memory (R154, R157). -/
def State.prepEntries (s : State) (f : EF) (m : Cmd) (glob wr : Bool) (stride len : Nat) (more : Bool) : Except Trap Prep :=
  let n := f.imm.toNat + 1
  if glob then
    let l := entryRanges m.a.toNat stride len n
    prepWith [bad (m.a.toNat % 4 != 0 || stride % 4 != 0 || more) illegal]
      { cmd := { m with gspan := [entrySpan m.a.toNat stride len n] }
        accs := l.map (fun r => { lo := r.1, hi := r.2, r := !wr, w := wr }) }
  else
    prepWith
      [bad (m.addr.toNat % 4 != 0 || stride % 4 != 0 || more) illegal,
       s.slotRanges f.ad.toNat (entryRanges m.addr.toNat stride len n)]
      { cmd := { m with sspan := [entrySpan m.addr.toNat stride len n] }, post := postRegOf f }

/-- The checks and the entry of the dispatch of `ldch`. -/
def State.prepLdch (s : State) (f : EF) (m : Cmd) : Except Trap Prep :=
  s.prepEntries f m (f.sub.getLsbD 0) false (strideOf m.b) (4 * lanesOf m.c) (decide (64 < lanesOf m.c))

/-- `ldch` (R154). -/
def execLdch (f : EF) (s : State) : Out := s.dispatchE (.ldch f) f 0 (s.wiredPush 0 f.x.toNat) (s.prepLdch f)

/-- The checks and the entry of the dispatch of `ldbc`. -/
def State.prepLdbc (s : State) (f : EF) (m : Cmd) : Except Trap Prep :=
  s.prepEntries f m (f.sub.getLsbD 0) false 4 4 false

/-- `ldbc` (R154). -/
def execLdbc (f : EF) (s : State) : Out := s.dispatchE (.ldbc f) f 0 (s.wiredPush 0 f.x.toNat) (s.prepLdbc f)

/-- The checks and the entry of the dispatch of `pfch`. -/
def State.prepPfch (s : State) (f : EF) (m : Cmd) : Except Trap Prep :=
  prepWith [bad (m.b == 0 || decide (2 ^ 24 < m.b.toNat)) illegal] { cmd := m }

/-- `pfch`: a request with no architectural effect (R155). -/
def execPfch (f : EF) (s : State) : Out := s.dispatchE (.pfch f) f 0 true (s.prepPfch f)

/-! ## `cpout`, `stch` -/

/-- The checks and the entry of the dispatch of `cpout`. -/
def State.prepCpout (s : State) (f : EF) (m : Cmd) : Except Trap Prep :=
  let t := s.myTile f.x
  let g := copyFmtOf (.cpout f) t
  let tr := f.sub.getLsbD 0
  let acc := f.sub.getLsbD 2
  let w := winOf t m.c
  let accs := winAccs t w g tr m acc true
  prepWith
    [bad (winBad t g tr (f.sub.getLsbD 1) w m.a m.b || (acc && !(g == .fp32 || g == .bf16 || g == .int32))) illegal,
     bad (transBad t tr w) { cause := 0x10 }, s.tileTrap t]
    { cmd := { m with tiles := [f.x.toNat], gspan := spansOf accs, sspan := copySpan t w }, accs := accs }

/-- `cpout` (R156). -/
def execCpout (f : EF) (s : State) : Out := s.dispatchE (.cpout f) f 3 true (s.prepCpout f)

/-- The checks and the entry of the dispatch of `stch`. -/
def State.prepStch (s : State) (f : EF) (m : Cmd) : Except Trap Prep :=
  match f.sub.toNat % 4 with
  | 0 =>
    let t := s.myTile f.y
    let n := f.y.toNat
    prepWith
      [bad (m.a.toNat % 4 != 0) illegal, tileWriteTrap t,
       bad (decide (t.streamLen < m.a.toNat + 256 * (f.imm.toNat + 1)))
         { cause := 0x0F, va := t.streamAddr (max m.a.toNat t.streamLen) }]
      { cmd := { m with tiles := [n], wr := some (n, !f.sub.getLsbD 2), sspan := [t.span] } }
  | 1 => s.prepEntries f m false true (strideOf m.b) 256 false
  | _ => s.prepEntries f m true true (strideOf m.b) 256 false

/-- `stch` into a tile, scratchpad or global memory (R157). -/
def execStch (f : EF) (s : State) : Out := s.dispatchE (.stch f) f 3 (s.wiredPop 3 f.x.toNat) (s.prepStch f)

/-- The checks and the entry of the dispatch of `stchApp`. -/
def State.prepStchApp (s : State) (f : EF) (m : Cmd) : Except Trap Prep :=
  let t := s.myTile f.y
  let n := f.y.toNat
  prepWith [tileWriteTrap t, s.tileTrap t]
    { cmd := { m with tiles := [n], wr := some (n, false), sspan := [t.span], aux := t.cursor } }

/-- `stch.app`: a partial write that appends to a list tile (R159). -/
def execStchApp (f : EF) (s : State) : Out := s.dispatchE (.stchApp f) f 3 (s.wiredPop 3 f.x.toNat) (s.prepStchApp f)

/-! ## `stg`, `stat` -/

/-- The checks and the entry of the dispatch of `stg`. -/
def State.prepStg (s : State) (f : EF) (m : Cmd) : Except Trap Prep :=
  if f.sub.getLsbD 2 then
    let n := m.c.toNat
    let acc : Acc := { lo := m.a.toNat, hi := m.a.toNat + n, w := true }
    prepWith
      [bad (m.a.toNat % 4 != 0 || m.addr.toNat % 4 != 0 || n % 4 != 0 || decide (n < 4) || decide (786432 < n)) illegal,
       s.slotRanges f.ad.toNat [(m.addr.toNat, m.addr.toNat + n)]]
      { cmd := { m with gspan := spansOf [acc], sspan := [{ lo := m.addr.toNat, hi := m.addr.toNat + n }] }
        accs := [acc], post := postRegOf f }
  else
    let n := 2 ^ (f.sub.toNat % 4)
    let acc : Acc := { lo := m.a.toNat, hi := m.a.toNat + n, w := true }
    prepWith [bad (m.a.toNat % n != 0) illegal] { cmd := { m with gspan := spansOf [acc] }, accs := [acc] }

/-- `stg` (R210). -/
def execStg (f : EF) (s : State) : Out := s.dispatchE (.stg f) f 3 true (s.prepStg f)

/-- Operation, type, vector form and return of a `stat` (R211). -/
def statOpOf (f : EF) : Nat := f.sub.toNat % 16
def statTy (f : EF) : Nat := f.imm.toNat / 8 % 4
def statVec (f : EF) : Bool := f.imm.getLsbD 5
def statRet (f : EF) : Bool := f.sub.getLsbD 4

/-- Whether a `stat` is an atomic: it returns, swaps or compares (R205). -/
def statAtomic (f : EF) : Bool := statRet f || statOpOf f == 6 || statOpOf f == 7

/-- Elements of a `stat`. -/
def statCount (f : EF) (m : Cmd) : Nat := if statVec f then m.c.toNat else 1

/-- The checks and the entry of the dispatch of `stat`. -/
def State.prepStat (s : State) (f : EF) (m : Cmd) : Except Trap Prep :=
  let sz := redBytes (statTy f)
  let n := statCount f m
  let acc : Acc := { lo := m.a.toNat, hi := m.a.toNat + n * sz, r := true, w := true, atom := statAtomic f }
  let loc := statVec f || statRet f
  prepWith
    [bad (m.a.toNat % sz != 0 || (loc && m.addr.toNat % sz != 0) || n == 0 || decide (4096 < n)) illegal,
     if loc then s.slotRanges f.ad.toNat [(m.addr.toNat, m.addr.toNat + n * sz)] else none]
    { cmd := { m with gspan := spansOf [acc]
                      sspan := if loc then [{ lo := m.addr.toNat, hi := m.addr.toNat + n * sz }] else [] }
      accs := [acc], post := postRegOf f }

/-- `stat` (R211). -/
def execStat (f : EF) (s : State) : Out := s.dispatchE (.stat f) f 3 true (s.prepStat f)

/-! ## Units in common -/

/-- Whether a scratchpad or memory error, or a poisoned line, stops a unit. -/
def State.unitError (s : State) (c k : Nat) (f : Flight) (va : Nat) : State := s.unitFault c k f 0x12 0 va

/-- Reads several ranges: one number each, and the first failing address. -/
def State.readSegs (s : State) (c : Nat) (m : Cmd) : List (Nat × Nat) → List Nat × Option Nat × State
  | [] => ([], none, s)
  | (a, n) :: r =>
    let (g, s) := s.cmdRead c m a n
    let (ns, b, s) := State.readSegs s c m r
    (leNat g.bytes :: ns, match g.bad with
      | some x => some x
      | none => b, s)

/-- The codes and block scales of a row converted to a format from the values of its present elements (R32, R114, R152). -/
def quantRow (dst : Fmt) (md : Mod) (lo hi : W64) (srcInt : Bool) (cols : Nat) (val : Nat → Option Val) (draw : Nat → Nat) :
    List Nat × List Nat :=
  let edge := fun (x : W64) => if dst == .mxfp4 then Fmt.fp32.decode x.toNat else dst.decode x.toNat
  let v := fun j => (val j).map (postValue md (edge lo) (edge hi))
  let u := fun j => if rndBy md == .rsto then draw j else 0
  if dst == .mxfp4 then
    let sc := (List.range ((cols + 31) / 32)).map (fun b =>
      mxScale ((List.range (min 32 (cols - 32 * b))).filterMap (fun j => v (32 * b + j))))
    ((List.range cols).map (fun j => match v j with
      | some x => narrowCode .mxfp4 (rndBy md) (u j) (sc.getD (j / 32) 0x7F) x
      | none => 0), sc)
  else
    ((List.range cols).map (fun j => match v j with
      | some x => postRound dst srcInt md (u j) x
      | none => 0), [])

/-- The element index of a copy's stochastic draws (R152). -/
def copyDraw (ctx ident j cols r col : Nat) : Nat := drawWord ctx ident (BitVec.ofNat 64 (j * 2 ^ 32 + r * cols + col))

/-- The ranges that a unit of a copy touches: a row, or 32 rows of every column. -/
def unitSegs (w : Win) (g : Fmt) (tr : Bool) (a b u : Nat) : List (Nat × Nat) :=
  if tr then
    let r0 := 32 * u
    let n := min 32 (w.vr - r0)
    if w.vr ≤ r0 then [] else (List.range w.vc).map (fun j => (a + j * b + r0 * g.width / 8, n * g.width / 8))
  else if u < w.vr then [(a + u * b, (w.vc * g.width + 7) / 8)] else []

/-- The code of source element (r, j) among the numbers read for a unit. -/
def segCode (g : Fmt) (tr : Bool) (segs : List Nat) (u r j : Nat) : Nat :=
  if tr then segs.getD j 0 / 2 ^ (g.width * (r - 32 * u)) % 2 ^ g.width else segs.getD 0 0 / 2 ^ (g.width * j) % 2 ^ g.width

/-- Source rows of a unit. -/
def unitRows (tr : Bool) (u : Nat) : List Nat := if tr then (List.range 32).map (32 * u + ·) else [u]

/-- Block scales of a source row in global memory. -/
def scaleSeg (w : Win) (t : Tile) (g : Fmt) (a b r : Nat) : List (Nat × Nat) :=
  if g == .mxfp4 && decide (r < w.vr) then [(a + w.nr * b + r * ((t.cols + 31) / 32), (t.cols + 31) / 32)] else []

/-- Writes a row of codes and its scales into a tile. -/
def storeRow (sp : Memory) (t : Tile) (i : Nat) (codes scales : List Nat) : Memory :=
  let sp := sp.store (t.base + i * t.pitch) (leBytes t.rowBytes (packBits t.fmtOf.width codes))
  if t.fmt = 6 then sp.store (t.base + t.rows * t.pitch + i * t.scaleRow) (scales.map (BitVec.ofNat 8)) else sp

/-- A unit of `cpin` or `cpcv` (R152). -/
def State.unitIn (s : State) (c k : Nat) (f : Flight) : State :=
  let m := f.cmd
  let t := s.tile c m.ef.x.toNat
  let g := copyFmtOf m.i t
  let tr := copyTrans m.i
  let w := winOf t m.c
  let u := f.cursor
  let a := m.a.toNat
  let b := m.b.toNat
  let (segs, e1, s) := s.readSegs c m (unitSegs w g tr a b u)
  let (scs, e2, s) := s.readSegs c m (scaleSeg w t g a b u)
  match e1, e2 with
  | some x, _ => s.unitError c k f x
  | none, some x => s.unitError c k f x
  | none, none =>
    let here := fun r j => decide (r < w.vr) && decide (j < w.vc)
    let sc := fun j => scs.getD 0 0 / 2 ^ (8 * (j / 32)) % 2 ^ 8
    let conv := match m.i with
      | .cpcv _ => true
      | _ => false
    let row := fun r =>
      if conv then
        quantRow t.fmtOf (modsOf m.ef.md) m.clo m.chi g.isInt t.cols
          (fun j =>
            if here r j then
              some (if g == .mxfp4 then mxVal (segCode g tr segs u r j) (sc j) else g.decode (segCode g tr segs u r j))
            else none)
          (copyDraw (s.ctxOf c) (identOf c k) m.j t.cols r)
      else
        ((List.range t.cols).map (fun j => if here r j then segCode g tr segs u r j else 0),
         (List.range t.scaleRow).map (fun q => if here r (32 * q) then sc (32 * q) else 0x7F))
    let s := s.modSpad c (fun sp => (unitRows tr u).foldl (fun sp r => storeRow sp t (w.row0 + r) (row r).1 (row r).2) sp)
    let s := s.countCore c 3 ((((unitRows tr u).length * t.rowBytes) + 63) / 64)
    s.advance c k m.j

/-- The bytes of the lanes of an entry whose mask bits are set, with their offsets. -/
def entryBytes (e : ChEntry) : List (Nat × List Byte) :=
  ((List.range 64).filter (fun l => e.mask.getLsbD l)).map (fun l => (4 * l, leBytes 4 (laneAt e.data l)))

/-- Those bytes in runs of neighbouring lanes. -/
def entryRuns (l : List (Nat × List Byte)) : List (Nat × List Byte) :=
  l.foldr (fun e r =>
    match r with
    | (o, bs) :: q => if o = e.1 + e.2.length then (e.1, e.2 ++ bs) :: q else e :: r
    | [] => [e]) []

/-- A command pops the entry at the head of its channel; the flight keeps what it has popped (R163, R262). -/
def State.popFor (s : State) (c k j ch : Nat) (e : ChEntry) : State :=
  (s.popChan c ch).modStream c k (·.modFlight j (fun g => { g with popped := g.popped ++ [e] }))

/-- A unit of `cpin.ch` or of `stch` into a tile (R153, R157); the 256 bytes of an entry count for its engine (R337). -/
def State.unitTileEntry (s : State) (c k : Nat) (f : Flight) (tile ch off : Nat) : State :=
  match s.chan c ch with
  | [] => s
  | e :: _ =>
    let t := s.tile c tile
    (((s.popFor c k f.cmd.j ch e).modSpad c (fun sp =>
      (entryBytes e).foldl (fun sp b => storeStream sp t (off + 256 * f.cursor + b.1) b.2) sp)).countCore c
        (if f.eng = 0 then 3 else 4) 4).advance c k f.cmd.j

/-- A command pushes an entry; the flight keeps what it has pushed (R163). -/
def State.pushFor (s : State) (c k j ch : Nat) (e : ChEntry) : State :=
  (s.pushChan c ch e).modStream c k (·.modFlight j (fun g => { g with pushed := g.pushed ++ [e] }))

/-- A unit of `ldch` or `ldbc`: one entry, once the channel has room (R154). -/
def State.unitLdch (s : State) (c k : Nat) (f : Flight) (bc : Bool) : State :=
  let m := f.cmd
  let ch := m.ef.x.toNat
  if !s.chanRoom c ch then s
  else
    let lanes := if bc then 1 else lanesOf m.c
    let off := f.cursor * (if bc then 4 else strideOf m.b)
    let push := fun (s : State) (bs : List Byte) =>
      let n := leNat bs
      let e : ChEntry :=
        if bc then { data := vecFn 32 64 (fun _ => n), mask := BitVec.allOnes 64 }
        else { data := BitVec.ofNat 2048 n, mask := BitVec.ofNat 64 (2 ^ lanes - 1) }
      ((s.pushFor c k m.j ch e).countCore c 3 ((4 * lanes + 63) / 64)).advance c k m.j
    if m.ef.sub.getLsbD 0 then
      let (g, s) := s.cmdRead c m (m.a.toNat + off) (4 * lanes)
      match g.bad with
      | some x => s.unitError c k f x
      | none => push s g.bytes
    else push s (s.spadBytes c (m.addr.toNat + off) (4 * lanes))

/-- Type of a reduction add by format (R207). -/
def accTy (g : Fmt) : Nat :=
  match g with
  | .fp32 => 2
  | .bf16 => 3
  | _ => 0

/-- The elements of a unit of `cpout`, as (row, column). -/
def presentOf (w : Win) (tr : Bool) (u : Nat) : List (Nat × Nat) :=
  (unitRows tr u).flatMap (fun r => if r < w.vr then (List.range w.vc).map (fun j => (r, j)) else [])

/-- Address of the global element paired with (r, j) (R151). -/
def pairAddr (g : Fmt) (tr : Bool) (a b r j : Nat) : Nat :=
  if tr then a + j * b + r * g.width / 8 else a + r * b + j * g.width / 8

/-- The first of some elements that lies in a poisoned line. -/
def State.badRed (s : State) (l : List Red) : Option Red := l.find? (fun r => s.poisoned r.pa (redBytes r.ty))

/-- One element enters memory at its home at the commit, which leaves nothing under way; with where its old value goes. -/
def State.commitOne (s : State) (c : Nat) (e : Red × Option Nat) (cmp : Option Nat) : State × List (Nat × List Byte) :=
  match e.2 with
  | none => (((s.chargeAccess (s.acct c) e.1.pa (redBytes e.1.ty)).leaving c e.1.pa (redBytes e.1.ty)).reduceAtHome false e.1, [])
  | some ret =>
    let (old, _, s) := s.portAtomic c (s.acct c) e.1 cmp
    (s, if ret = 0 then [] else [(ret - 1, leBytes (redBytes e.1.ty) old)])

/-- The commit of a once-only command: every element enters memory at its home in ascending order, behind all that the homes have applied
before, and the journal record is done in the same step; other accesses see all of it or none.  What it has still to store in scratchpad
comes after (R212, R351).  An element in a poisoned line stops the command there, before
anything of it has entered memory (R213, R380; DEDUCED, log entry 47). -/
def State.commit (s : State) (c k : Nat) (f : Flight) (cmp : Option Nat) : State :=
  let s := f.commits.foldl (fun s e => s.drainTo (dieOf c) (homeDie e.1.pa)) s
  match s.badRed (f.commits.map (·.1)) with
  | some r =>
    let s := s.modStream c k (·.modFlight f.cmd.j (fun g =>
      { g with commits := g.commits.filter (fun e => decide (e.1.unit < r.unit)), cursor := r.unit, done := false }))
    s.unitFault c k { f with cursor := r.unit } 0x12 0 r.va
  | none =>
    let no := s.accesses
    let (s, rets) := f.commits.foldl (fun (p : State × List (Nat × List Byte)) e =>
      let q := p.1.commitOne c ({ e.1 with order := p.1.stamp }, e.2) cmp
      (q.1, p.2 ++ q.2)) (s, [])
    let s := { s with races := s.races.map (fun (r : Race) => if no < r.no then { r with no := s.accesses } else r) }
    s.modStream c k (fun t =>
      (t.modFlight f.cmd.j (fun g => { g with commits := [], committed := true, rets := rets, done := rets.isEmpty })).jdone f.cmd.j)

/-- The old values of a committed command are stored (R212, R351). -/
def State.unitRets (s : State) (c k : Nat) (f : Flight) : State :=
  (f.rets.foldl (fun s e => s.spadStore c e.1 e.2) s).modStream c k (·.modFlight f.cmd.j (fun g => { g with rets := [], done := true }))

/-- The end of a unit of a command that may be once-only: its last unit commits. -/
def State.advanceOnce (s : State) (c k j : Nat) (cmp : Option Nat) : State :=
  let s := s.advance c k j
  match (s.stream c k).flight? j with
  | some f => if f.done && onceOf f.cmd.i && !f.committed then s.commit c k f cmp else s
  | none => s

/-- Adds commit entries to a once-only command in flight. -/
def State.holdCommits (s : State) (c k j : Nat) (l : List (Red × Option Nat)) : State :=
  s.modStream c k (·.modFlight j (fun g => { g with commits := g.commits ++ l }))

/-- A unit of `cpout` (R156). -/
def State.unitOut (s : State) (c k : Nat) (f : Flight) : State :=
  let m := f.cmd
  let t := s.tile c m.ef.x.toNat
  let g := copyFmtOf m.i t
  let tr := copyTrans m.i
  let cv := m.ef.sub.getLsbD 1
  let w := winOf t m.c
  let u := f.cursor
  let a := m.a.toNat
  let b := m.b.toNat
  let sp := (s.core c).spad
  let r := winRange w g tr a b
  let q := scaleRange w t g a b
  if s.mustWait m r.1 (r.2 - r.1) || s.mustWait m q.1 (q.2 - q.1) then s
  else
    let row := fun (r : Nat) =>
      if cv then
        quantRow g (modsOf m.ef.md) m.clo m.chi t.fmtOf.isInt t.cols
          (fun j => if j < w.vc && r < w.vr then some (tileVal sp t t.fmtOf (w.row0 + r) j) else none)
          (copyDraw (s.ctxOf c) (identOf c k) m.j t.cols r)
      else
        ((List.range t.cols).map (fun j => tileCode sp t t.fmtOf.width (w.row0 + r) j),
         (List.range t.scaleRow).map (fun q => tileScale sp t (w.row0 + r) (32 * q)))
    let s := s.countCore c 4 ((((unitRows tr u).length * t.rowBytes) + 63) / 64)
    if m.ef.sub.getLsbD 2 then
      let reds := (presentOf w tr u).map (fun e =>
        s.redOf c k m (pairAddr g tr a b e.1 e.2) 0 (accTy g) ((row e.1).1.getD e.2 0) (e.1 * w.vc + e.2) u)
      if m.ef.once then (s.holdCommits c k m.j (reds.map (fun r => (r, none)))).advanceOnce c k m.j none
      else (s.portReduce c k (s.acct c) reds).advance c k m.j
    else
      let data := (unitSegs w g tr a b u).zipIdx.map (fun e =>
        (e.1.1, leBytes e.1.2 (packBits g.width
          (if tr then (List.range (min 32 (w.vr - 32 * u))).map (fun i => (row (32 * u + i)).1.getD e.2 0)
           else (row u).1.take w.vc))))
      let scales := if g == .mxfp4 && (!cv || decide (u < w.vr)) then
          [(a + w.nr * b + u * ((t.cols + 31) / 32),
            ((row u).2.take (if cv then (w.vc + 31) / 32 else (t.cols + 31) / 32)).map (BitVec.ofNat 8))]
        else []
      ((data ++ scales).foldl (fun s e => s.cmdWrite c k m e.1 e.2) s).advance c k m.j

/-- A unit of `stch` to scratchpad or to global memory (R157). -/
def State.unitStch (s : State) (c k : Nat) (f : Flight) : State :=
  let m := f.cmd
  let ch := m.ef.x.toNat
  match s.chan c ch with
  | [] => s
  | e :: _ =>
    let off := f.cursor * strideOf m.b
    if m.ef.sub.toNat % 4 = 1 then
      (((entryBytes e).foldl (fun s b => s.spadStore c (m.addr.toNat + off + b.1) b.2) (s.popFor c k m.j ch e)).countCore c 4 4).advance
        c k m.j
    else if s.mustWait m (m.a.toNat + off) 256 then s
    else
      (((entryRuns (entryBytes e)).foldl (fun s b => s.cmdWrite c k m (m.a.toNat + off + b.1) b.2)
        (s.popFor c k m.j ch e)).countCore c 4 4).advance c k m.j

/-- Where a unit of `stch.app` appends: at the tile's cursor, which the first unit of a replayed command sets back to what its dispatch found
(R253, R262). -/
def appCursor (m : Cmd) (u : Nat) (t : Tile) : Nat := if m.replay && u == 0 then m.aux else t.cursor

/-- A unit of `stch.app`: the lanes of an entry are appended; one that does not fit retires the command (R159, R253, R262). -/
def State.unitApp (s : State) (c k : Nat) (f : Flight) : State :=
  let m := f.cmd
  let ch := m.ef.x.toNat
  let n := m.ef.y.toNat
  match s.chan c ch with
  | [] => s
  | e :: _ =>
    let t := s.tile c n
    let ws := (entryBytes e).map (·.2)
    let o := appCursor m f.cursor t
    let fit := ws.take ((t.streamLen - o) / 4)
    let s := ((s.popFor c k m.j ch e).modSpad c (fun sp => storeStream sp t o fit.flatten)).countCore c 4
      ((4 * fit.length + 63) / 64)
    let s := s.modTile c n (fun t => { t with cursor := o + 4 * fit.length })
    if fit.length < ws.length then s.retireFault c k 3 m 0x0A 0 f.cursor else s.advance c k m.j

/-- A unit of `stg` (R210). -/
def State.unitStg (s : State) (c k : Nat) (f : Flight) : State :=
  let m := f.cmd
  if m.ef.sub.getLsbD 2 then
    let off := 64 * f.cursor
    let n := min 64 (m.c.toNat - off)
    if s.mustWait m (m.a.toNat + off) n then s
    else ((s.cmdWrite c k m (m.a.toNat + off) (s.spadBytes c (m.addr.toNat + off) n)).countCore c 4 1).advance c k m.j
  else
    let n := 2 ^ (m.ef.sub.toNat % 4)
    if s.mustWait m m.a.toNat n then s
    else ((s.cmdWrite c k m m.a.toNat (leBytes n m.b.toNat)).countCore c 4 1).advance c k m.j

/-- A unit of `stat`: one element (R212, R213, R351). -/
def State.unitStat (s : State) (c k : Nat) (f : Flight) : State :=
  let m := f.cmd
  let e := m.ef
  let ty := statTy e
  let sz := redBytes ty
  let va := m.a.toNat + f.cursor * sz
  let loc := m.addr.toNat + f.cursor * sz
  if s.mustWait m va sz then s
  else
    let x := if statVec e then leNat (s.spadBytes c loc sz) else m.b.toNat % 2 ^ (8 * sz)
    let red := s.redOf c k m va (statOpOf e) ty x f.cursor f.cursor
    let cmp := if statOpOf e = 7 then some (m.c.toNat % 2 ^ (8 * sz)) else none
    let s := s.countCore c 4 1
    if e.once then
      (s.holdCommits c k m.j [(red, if statAtomic e then some (if statRet e then loc + 1 else 0) else none)]).advanceOnce
        c k m.j cmp
    else if statAtomic e then
      let (old, isBad, s) := s.portAtomic c (s.acct c) red cmp
      if isBad then s.unitError c k f va
      else (if statRet e then s.spadStore c loc (leBytes sz old) else s).advance c k m.j
    else (s.portReduce c k (s.acct c) [red]).advance c k m.j

/-- Units of an LDE or STE command (R160). -/
def State.copyUnits (s : State) (c : Nat) (m : Cmd) : Nat :=
  match m.i with
  | .cpin f | .cpcv f | .cpout f => winUnits (winOf (s.tile c f.x.toNat) m.c) (copyTrans m.i)
  | .cpinCh f | .ldch f | .ldbc f | .stch f | .stchApp f => f.imm.toNat + 1
  | .stg f => if f.sub.getLsbD 2 then (m.c.toNat + 63) / 64 else 1
  | .stat f => statCount f m
  | _ => 0

/-- The rows of a tile, with their scales, as ranges of scratchpad. -/
def Tile.rowSpans (t : Tile) (rows : List Nat) : List (Nat × Nat) :=
  rows.flatMap (fun r => (t.base + r * t.pitch, t.rowBytes) ::
    (if t.fmt = 6 then [(t.base + t.rows * t.pitch + r * t.scaleRow, t.scaleRow)] else []))

/-- The lanes that an entry at the head of a channel stores, as ranges behind an address. -/
def State.headSpans (s : State) (c ch a : Nat) : List (Nat × Nat) :=
  (entryBytes ((s.chan c ch).headD {})).map (fun e => (a + e.1, e.2.length))

/-- Those lanes in the packed row stream of a tile. -/
def State.headStream (s : State) (c ch : Nat) (t : Tile) (o : Nat) : List (Nat × Nat) :=
  (s.headSpans c ch o).map (fun e => (t.streamAddr e.1, e.2))

/-- The ranges of scratchpad, and of global memory, that a unit of an LDE or STE command accesses. -/
def State.copySpans (s : State) (c : Nat) (m : Cmd) (u : Nat) : List (Nat × Nat) × List (Nat × Nat) :=
  let a := m.a.toNat
  let ad := m.addr.toNat
  match m.i with
  | .cpin f | .cpcv f | .cpout f =>
    let t := s.tile c f.x.toNat
    let g := copyFmtOf m.i t
    let tr := copyTrans m.i
    let w := winOf t m.c
    (t.rowSpans ((unitRows tr u).map (w.row0 + ·)), unitSegs w g tr a m.b.toNat u ++ scaleSeg w t g a m.b.toNat u)
  | .cpinCh f => (s.headStream c f.y.toNat (s.tile c f.x.toNat) (a + 256 * u), [])
  | .ldch f =>
    let o := u * strideOf m.b
    if f.sub.getLsbD 0 then ([], [(a + o, 4 * lanesOf m.c)]) else ([(ad + o, 4 * lanesOf m.c)], [])
  | .ldbc f => if f.sub.getLsbD 0 then ([], [(a + u * 4, 4)]) else ([(ad + u * 4, 4)], [])
  | .stch f =>
    match f.sub.toNat % 4 with
    | 0 => (s.headStream c f.x.toNat (s.tile c f.y.toNat) (a + 256 * u), [])
    | 1 => (s.headSpans c f.x.toNat (ad + u * strideOf m.b), [])
    | _ => ([], s.headSpans c f.x.toNat (a + u * strideOf m.b))
  | .stchApp f =>
    let t := s.tile c f.y.toNat
    let o := appCursor m u t
    ((List.range (min (s.headSpans c f.x.toNat 0).length ((t.streamLen - o) / 4))).map (fun i => (t.streamAddr (o + 4 * i), 4)), [])
  | .stg f =>
    if f.sub.getLsbD 2 then
      let n := min 64 (m.c.toNat - 64 * u)
      ([(ad + 64 * u, n)], [(a + 64 * u, n)])
    else ([], [(a, 2 ^ (f.sub.toNat % 4))])
  | .stat f =>
    let sz := redBytes (statTy f)
    (if statVec f || statRet f then [(ad + u * sz, sz)] else [], [(a + u * sz, sz)])
  | _ => ([], [])

/-- The bytes of ranges. -/
def spanLen (l : List (Nat × Nat)) : Nat := l.foldl (fun n e => n + e.2) 0

/-- The address of a byte of ranges, by its number. -/
def spanByte : List (Nat × Nat) → Nat → Nat
  | [], _ => 0
  | (a, n) :: r, i => if i < n then a + i else spanByte r (i - n)

/-- Bank words that ranges of scratchpad touch (R139, R337). -/
def bankWords (l : List (Nat × Nat)) : Nat := l.foldl (fun w e => w + if e.2 = 0 then 0 else (e.1 + e.2 - 1) / 16 - e.1 / 16 + 1) 0

/-- The next unit of an LDE or STE command (R160), or what follows its commit. -/
def State.copyUnit (s : State) (c k : Nat) (f : Flight) : State :=
  if !f.rets.isEmpty then s.unitRets c k f
  else
  match f.cmd.i with
  | .cpin _ | .cpcv _ => s.unitIn c k f
  | .cpinCh e => s.unitTileEntry c k f e.x.toNat e.y.toNat f.cmd.a.toNat
  | .ldch _ => s.unitLdch c k f false
  | .ldbc _ => s.unitLdch c k f true
  | .cpout _ => s.unitOut c k f
  | .stch e => if e.sub.toNat % 4 = 0 then s.unitTileEntry c k f e.y.toNat e.x.toNat f.cmd.a.toNat else s.unitStch c k f
  | .stchApp _ => s.unitApp c k f
  | .stg _ => s.unitStg c k f
  | .stat _ => s.unitStat c k f
  | _ => s

end Sys2Proof.Machine
end

