-- ==== Sys2Proof/Machine/Slab.lean ====
section
/-! DEFINITION. The slab: format words, leases, planes, products, the epilogue and the side path (R228 to R263). -/

namespace Sys2Proof.Machine

/-! ## Format words (R234 to R236) -/

/-- The word that a dispatch of the selected stream would pop, where it is well-formed: dispatch checks apply then only. -/
def State.goodWord (s : State) (i : Instr) : Option W32 :=
  match s.cur.fmtq with
  | w :: _ => if fwBad i w then none else some w
  | [] => none

/-- Rows of a plane by format: 256, 512 or 1,024 (R228). -/
def capacityOf (f : Fmt) : Nat := 4096 / f.width

/-- The format of a code. -/
def fmtAt (c : Nat) : Fmt := (Fmt.ofCode c).getD .fp32

/-! ## Dispatch -/

/-- The tile numbers of a command, once each. -/
def tileSet (l : List Nat) : List Nat := l.eraseDups

/-- The dispatch of a slab command: its checks, tiles, the tile it writes and whether that write finishes, and other spans. -/
def slabPrep (s : State) (m : Cmd) (pop : Bool) (checks : List (Option Trap)) (tiles : List Nat)
    (wr : Option (Nat × Bool)) (more : List Span) (post : Option Nat) : Except Trap Prep :=
  prepWith checks
    { cmd := { m with tiles := tileSet tiles, wr := wr
                      sspan := (tileSet tiles).map (fun n => (s.tile s.sel n).span) ++ more }
      post := post, pop := pop }

/-- The checks and the entry of the dispatch of `lease`. -/
def State.prepLease (s : State) (f : EF) (m : Cmd) : Except Trap Prep :=
  .ok { cmd := m }

/-- `lease` (R230, R233). -/
def execLease (f : EF) (s : State) : Out := s.dispatchE (.lease f) f 1 true (s.prepLease f)

/-- The checks and the entry of the dispatch of `unls`. -/
def State.prepUnls (s : State) (f : EF) (m : Cmd) : Except Trap Prep :=
  .ok { cmd := m }

/-- `unls` (R230, R233). -/
def execUnls (f : EF) (s : State) : Out := s.dispatchE (.unls f) f 1 true (s.prepUnls f)

/-- The metadata that a `wld.sp` reads, as an address and a length (R240). -/
def sparseMeta (t : Tile) (m : Cmd) : Nat × Nat := (m.addr.toNat, 64 * t.cols)

/-- The checks and the entry of the dispatch of `wld`.  A sparse one is held to the doubled capacity alone (R228, R240; DESIGN CHOICE, log
entry 49); metadata that break R139 or R80 raise cause 0x01, and those that meet the journal cause 0x0F, after every other check (R142; the
order is DESIGN CHOICE, log entry 29). -/
def State.prepWld (s : State) (f : EF) (m : Cmd) : Except Trap Prep :=
  let i : Instr := .wld f
  let sp := f.sub.getLsbD 0
  let t := s.myTile f.x
  let k := m.a.toNat
  match s.goodWord i with
  | none => slabPrep s m true [] [f.x.toNat] none [] (if sp then postRegOf f else none)
  | some w =>
    let cap := capacityOf (fmtAt (fwB w))
    let meta_ := ((sparseMeta t m).1, (sparseMeta t m).1 + (sparseMeta t m).2)
    slabPrep s m true
      [bad (!fwBol w && f.imm != 0) illegal,
       bad (t.fmt != fwB w) { cause := 0x10 },
       bad (decide (256 < t.rows) || t.cols % 32 != 0 || k % (if sp then 64 else 32) != 0 ||
         (if sp then decide (2 * cap < k + 2 * t.cols) else decide (cap < k + t.cols))) illegal,
       bad (sp && (m.addr.toNat % 16 != 0 || !(s.areg f.ad.toNat).inWindow meta_.1 (meta_.2 - meta_.1) || decide (spadSize < meta_.2)))
         illegal,
       if sp then spadTrap s.jnl [meta_] else none]
      (f.x.toNat :: (if fwBol w then [f.imm.toNat] else [])) none
      (if sp then [{ lo := meta_.1, hi := meta_.2 }] else []) (if sp then postRegOf f else none)

/-- `wld` (R240). -/
def execWld (f : EF) (s : State) : Out := s.dispatchE (.wld f) f 1 true (s.prepWld f)

/-- The checks that `mma`, `mmas` and `probe` share; the plane holds `cap` rows (R241, R244, R271). -/
def State.prepStream (s : State) (i : Instr) (f : EF) (wide : Nat) (m : Cmd) : Except Trap Prep :=
  let t := s.myTile f.x
  match s.goodWord i with
  | none => slabPrep s m true [] [f.x.toNat] none [] none
  | some w =>
    let ext := if m.b = 0 then t.cols else m.b.toNat
    let cap := wide * capacityOf (fmtAt (fwB w))
    slabPrep s m true
      [bad (!fwAol w && f.imm != 0) illegal,
       bad (t.fmt != fwA w) { cause := 0x10 },
       bad (m.a.toNat % 32 != 0 || ext % 32 != 0 || ext == 0 || decide (t.cols < ext) || decide (cap < m.a.toNat + ext) ||
         decide (256 < m.c.toNat + t.rows)) illegal]
      (f.x.toNat :: (if fwAol w then [f.imm.toNat] else [])) none [] none

/-- `mma` (R241). -/
def execMma (f : EF) (s : State) : Out := s.dispatchE (.mma f) f 1 true (s.prepStream (.mma f) f 1)

/-- `mmas` (R244). -/
def execMmas (f : EF) (s : State) : Out := s.dispatchE (.mmas f) f 1 true (s.prepStream (.mmas f) f 2)

/-- `probe` (R271). -/
def execProbe (f : EF) (s : State) : Out := s.dispatchE (.probe f) f 1 true (s.prepStream (.probe f) f 1)

/-- Rows that a row operand and a count of 0 to the end name (R242, R243). -/
def rowCount (a b : W64) : Nat := if b = 0 then 256 - a.toNat else b.toNat

/-- The checks and the entry of the dispatch of `accz`. -/
def State.prepAccz (s : State) (f : EF) (m : Cmd) : Except Trap Prep :=
  prepWith [bad (decide (255 < m.a.toNat) || decide (256 < m.a.toNat + rowCount m.a m.b)) illegal] { cmd := m }

/-- `accz` (R242). -/
def execAccz (f : EF) (s : State) : Out := s.dispatchE (.accz f) f 1 true (s.prepAccz f)

/-- The rule of tile E (R243, R284). -/
def tileEBad (t : Tile) : Bool := t.fmt != 0 || decide (t.rows < 3) || t.cols != 256

/-- The checks and the entry of the dispatch of `drain`. -/
def State.prepDrain (s : State) (f : EF) (m : Cmd) : Except Trap Prep :=
  let i : Instr := .drain f
  let t := s.myTile f.x
  let e := s.myTile f.y
  let n := f.x.toNat
  match s.goodWord i with
  | none =>
    slabPrep s m true [] (n :: (if f.y = 0 then [] else [f.y.toNat]))
      (if (tileWriteTrap t).isNone then some (n, !f.sub.getLsbD 2) else none) [] none
  | some w =>
    slabPrep s m true
      [bad (!readsE f w && f.y != 0) illegal,
       bad (t.fmt != fwOut w) { cause := 0x10 }, tileWriteTrap t,
       bad (readsE f w && tileEBad e) { cause := 0x10 },
       bad (decide (256 < m.a.toNat + rowCount m.a m.b) || decide (t.rows < m.c.toNat + rowCount m.a m.b) ||
         decide (256 < t.cols)) illegal]
      (n :: (if readsE f w then [f.y.toNat] else [])) (some (n, !f.sub.getLsbD 2)) [] none

/-- `drain` (R243). -/
def execDrain (f : EF) (s : State) : Out := s.dispatchE (.drain f) f 1 true (s.prepDrain f)

/-! ## Planes and accumulator rows -/

/-- The code of a plane element. -/
def Plane.code (p : Plane) (k n : Nat) : Nat :=
  let w := (fmtAt p.fmt).width
  p.rows.getD k 0 / 2 ^ (w * n) % 2 ^ w

/-- The value of a plane element with its block scale, outliers off. -/
def Plane.value (p : Plane) (k n : Nat) : Val :=
  if p.fmt = 6 then mxVal (p.code k n) (p.scales.getD (k / 32) 0 / 2 ^ (8 * n) % 2 ^ 8) else (fmtAt p.fmt).decode (p.code k n)

/-- Whether a code is the outlier code of a format. -/
def isOutlier (f c : Nat) : Bool := (fmtAt f).outlier == some c

/-- An accumulator element. -/
def accVal (r : BitVec 10240) (n : Nat) : Val := Fmt.af40.decode (r.toNat / 2 ^ (40 * n) % 2 ^ 40)

/-- A row of 256 AF40 codes. -/
def accOf (f : Nat → Nat) : BitVec 10240 := BitVec.ofNat 10240 (packBits 40 ((List.range 256).map f))

/-- The AF40 code of a value under a mode. -/
def af40 (m : Rnd) (v : Val) : Nat := roundTo .af40 v m 0 false

/-- The AF40 value of a value under a mode. -/
def toAf40 (m : Rnd) (v : Val) : Val := Fmt.af40.decode (af40 m v)

/-- Changes an accumulator row. -/
def Core.setAcc (x : Core) (r : Nat) (v : BitVec 10240) : Core := { x with acc := x.acc.set r v }

/-! ## Products (R42, R241, R244, R257, R258) -/

/-- The contribution of one step: one product, two with a rounding of their own, or four (R42). -/
def stepAdd (m : Rnd) (per : Nat) (s : Val) (ps : List Val) : Val :=
  let q := sumVals m ps
  toAf40 m (s.add (if per = 2 then toAf40 m q else q) m)

/-- Cuts a list into pieces of `n`. -/
def piecesOf {α : Type} (n : Nat) (l : List α) : Nat → List (List α)
  | 0 => []
  | k + 1 => l.take n :: piecesOf n (l.drop n) k

/-- One chunk of one element: its main steps and then its side-path products (R241, R258). -/
def chunkAdd (m : Rnd) (per : Nat) (s : Val) (main side : List Val) : Val :=
  side.foldl (fun s q => toAf40 m (s.add q m)) ((piecesOf per main (main.length / per)).foldl (stepAdd m per) s)

/-- Products per step for an operand format (R42). -/
def perStep (c : Nat) : Nat :=
  match pairClass c with
  | some 0 => 1
  | some 1 => 2
  | some 2 => 2
  | _ => 4

/-- What a streaming command multiplies: per row the A values, and per column the B values, by K position, with the outlier codes
and the entries of both lists; the K positions of the products of each chunk, as (A column, stored row). -/
structure Mm where
  mode : Rnd
  per : Nat
  kext : Nat
  koff : Nat
  /-- A value and outlier mark by (t, j) -/
  a : Nat → Nat → Val
  aOut : Nat → Nat → Bool
  /-- B value and outlier mark of a stored row and column -/
  b : Nat → Nat → Val
  bOut : Nat → Nat → Bool
  /-- dense B value at a K position for A entries -/
  dense : Nat → Nat → Val
  /-- (A column, stored row) of the products of chunk c in column n -/
  pairs : Nat → Nat → List (Nat × Nat)
  /-- A list of a row: (column, value), and plane list of a column: (plane row, value) -/
  aList : Nat → List (Nat × Val)
  bList : Nat → List (Nat × Val)

/-- Side-path products of chunk `c` of element (t, n), by K position, A entries first (R257, R258). -/
def Mm.side (x : Mm) (t n c : Nat) : List Val :=
  let lo := x.koff + 32 * c
  let inC := fun (k : Nat) => decide (lo ≤ k) && decide (k < lo + 32)
  let as := ((x.aList t).filter (fun e => decide (e.1 < x.kext) && inC (x.koff + e.1))).map
    (fun e => (x.koff + e.1, e.2.mul (x.dense (x.koff + e.1) n)))
  let bs := ((x.bList n).filter (fun e => inC e.1 && decide (e.1 < x.koff + x.kext) && !x.aOut t (e.1 - x.koff))).map
    (fun e => (e.1, (x.a t (e.1 - x.koff)).mul e.2))
  (sortBy (fun p q => decide (p.1 < q.1)) (as ++ bs)).map (·.2)

/-- The sum of element (t, n) after every chunk (R241). -/
def Mm.elem (x : Mm) (t n : Nat) (s : Val) : Val :=
  (List.range (x.kext / 32)).foldl (fun s c =>
    chunkAdd x.mode x.per s
      ((x.pairs n c).map (fun p =>
        if x.aOut t p.1 || x.bOut p.2 n then .zero false else (x.a t p.1).mul (x.b p.2 n)))
      (x.side t n c)) s

/-- Entries of a list tile: (row, k, FP32 code) (R249, R250). -/
def listOf (sp : Memory) (t : Tile) : List (Nat × Nat × Nat) :=
  let n := if t.cursor = 0 then t.rows * t.cols / 2 else t.cursor / 8
  (List.range n).map (fun i =>
    let e := leNat (readStream sp t (8 * i) 8)
    (fld e 63 48, fld e 47 32, fld e 31 0))

/-- Length of a list. -/
def Tile.listLen (t : Tile) : Nat := if t.cursor = 0 then t.rows * t.cols / 2 else t.cursor / 8

/-- Whether a tile breaks the rules of a list tile (R250). -/
def Tile.listBad (t : Tile) : Bool := t.fmt != 8 || t.cols % 2 != 0 || t.cursor % 8 != 0

/-- Whether an entry is inert (R251). -/
def inert (v : Nat) : Bool := v % 2 ^ 31 == 0

/-- The position of stored value `j` of a group under a metadata code (R245). -/
def sparsePos (code j : Nat) : Nat :=
  let p : Nat × Nat := match code with
    | 1 => (0, 2)
    | 2 => (0, 3)
    | 3 => (1, 2)
    | 4 => (1, 3)
    | 5 => (2, 3)
    | 6 => (0, 0)
    | 7 => (1, 1)
    | 8 => (2, 2)
    | 9 => (3, 3)
    | _ => (0, 1)
  if j = 0 then p.1 else p.2

/-- The metadata code of a column and group. -/
def Plane.meta (p : Plane) (g n : Nat) : Nat := p.codes.getD g 0 / 16 ^ n % 16

/-- The dense K position of a stored row of a sparse plane. -/
def Plane.denseOf (p : Plane) (r n : Nat) : Nat := 4 * (r / 2) + sparsePos (p.meta (r / 2) n) (r % 2)

/-- The listed values at a place of a plane. -/
def Plane.listed (p : Plane) (k n : Nat) : List Val :=
  (p.list.filter (fun e => e.row == k && e.col == n)).map (fun e => Fmt.fp32.decode e.val.toNat)

/-- What a streaming command of a core multiplies.  Listed values of a plane that cancel leave +0, and so do the two stored values of a sparse
plane that lie at one dense position (DESIGN CHOICE, log entry 45). -/
def mmOf (sp : Memory) (t : Tile) (p : Plane) (m : Cmd) (list : Tile) (sparse : Bool) : Mm :=
  let w := m.fw
  let ext := if m.b = 0 then t.cols else m.b.toNat
  let koff := m.a.toNat
  let bol := fwBol w && !sparse
  let l := if fwAol w then listOf sp list else []
  { mode := (Rnd.ofCode (fwRound w)).getD .rne, per := perStep (fwA w), kext := ext, koff := koff
    a := fun i j => tileVal sp t t.fmtOf i j
    aOut := fun i j => fwAol w && isOutlier t.fmt (tileCode sp t t.fmtOf.width i j)
    b := fun k n => p.value k n
    bOut := fun k n => bol && isOutlier p.fmt (p.code k n)
    dense := fun k n =>
      if sparse then
        sumVals .rne (([2 * (k / 4), 2 * (k / 4) + 1].filter (fun r => p.denseOf r n == k)).map (fun r => p.value r n))
      else if bol && isOutlier p.fmt (p.code k n) then sumVals .rne (p.listed k n) else p.value k n
    pairs := fun n c =>
      if sparse then
        (List.range 16).map (fun i => let r := koff / 2 + 16 * c + i
          (p.denseOf r n - koff, r))
      else (List.range 32).map (fun i => (32 * c + i, koff + 32 * c + i))
    aList := fun i => (l.filter (fun e => e.1 == i && !inert e.2.2)).map (fun e => (e.2.1, Fmt.fp32.decode e.2.2))
    bList := fun n =>
      if bol then (p.list.filter (fun e => e.col == n && decide (koff ≤ e.row) && !inert e.val.toNat)).map
        (fun e => (e.row, Fmt.fp32.decode e.val.toNat)) else [] }

/-! ## The side of the lease (R229 to R232) -/

/-- The core's share of the slab as a holder's context finds it: what bears another tag is empty (R229, R266). -/
def Core.retag (x : Core) (i : Nat) : Core :=
  let x := if x.accTag == some i then x
    else { x with acc := [], accBad := false, accTag := some i, stats := [], esc := [] }
  { x with planes := x.planes.map (fun p => (p.1, if p.2.tag == some i then p.2 else {})) }

/-- The table range of a core as a holder's context finds it (R266). -/
def State.retagTable (s : State) (c i : Nat) : State :=
  if (s.core c).tabTag == some i then s
  else
    let k := (s.ctx i).coreCfg c
    (s.modCluster (clusterOf c) (fun x =>
      { x with table := x.table.filter (fun e => !(decide (k.tbase ≤ e.1) && decide (e.1 < k.tbase + k.tcount))) })).modCore c
      (fun x => { x with tabTag := some i })

/-- The lease of a stream ends: it asks again if a renewal is set (R230). -/
def Stream.leaseOver (t : Stream) (now : Nat) : Stream :=
  if t.renew then { t with lease := .requested, reqAt := now, renew := false } else { t with lease := .lapsed }

/-- The slab of a cluster has no holder. -/
def State.freeSlab (s : State) (cl : Nat) : State := s.modCluster cl (fun x => { x with holder := none })

/-- The lease of a cluster ends by its quota at a time (R231). -/
def State.leaseQuota (s : State) (cl at_ : Nat) : State :=
  match (s.cluster cl).holder with
  | some (c, k) => (s.modStream c k (·.leaseOver at_)).freeSlab cl
  | none => s

/-- A slab command of a stream issues under its lease: the 64th ends the lease (R231). -/
def State.leaseCount (s : State) (c k : Nat) : State :=
  let n := (s.cluster (clusterOf c)).issued + 1
  let s := s.modCluster (clusterOf c) (fun x => { x with issued := n })
  if 64 ≤ n then (s.modStream c k (·.leaseOver s.now)).freeSlab (clusterOf c) else s

/-- An event of the slab, charged to the lease holder's partition (R337). -/
def State.slabEvent (s : State) (c ev n : Nat) : State := s.count (clusterOf c) (s.acct c) ev n

/-! ## Bank groups (R239) -/

/-- The bank groups of a tile, as bits. -/
def groupsOf (t : Tile) : Nat :=
  ((List.range 4).filter (fun g => decide (t.base < 0x30000 * (g + 1)) && decide (0x30000 * g < t.limit))).foldl
    (fun m g => m + 2 ^ g) 0

/-- The lowest group that two tiles share. -/
def sharedGroup (a b : Nat) : Option Nat := (List.range 4).find? (fun g => a.testBit g && b.testBit g)

/-- The open `wld` window of a plane. -/
def MxeWin.opened (x : MxeWin) (p : Nat) : Option Nat := if p = 0 then x.open0 else x.open1

/-- A command names a plane: its window closes. -/
def MxeWin.close (x : MxeWin) (p : Nat) : MxeWin := if p = 0 then { x with open0 := none } else { x with open1 := none }

/-- A `wld` onto a plane opens its window. -/
def MxeWin.open (x : MxeWin) (p g : Nat) : MxeWin := if p = 0 then { x with open0 := some g } else { x with open1 := some g }

/-- The bank group by which a command breaks the rule. -/
def State.bankBreak (s : State) (c k : Nat) (m : Cmd) : Option Nat :=
  let x := (s.stream c k).win
  let g := groupsOf (s.tile c m.ef.x.toNat)
  match m.i with
  | .wld f =>
    match x.stream with
    | some (p, gs, _, _) => if p = f.y.toNat then none else sharedGroup g gs
    | none => none
  | .mma f | .mmas f | .probe f =>
    match x.opened (1 - f.y.toNat) with
    | some gs => sharedGroup g gs
    | none => none
  | .drain _ =>
    match x.stream with
    | some (_, gs, r, n) =>
      if m.a.toNat + rowCount m.a m.b ≤ r || r + n ≤ m.a.toNat then sharedGroup g gs else none
    | none => none
  | _ => none

/-- The window after a command has issued. -/
def State.bankNext (s : State) (c : Nat) (m : Cmd) (x : MxeWin) : MxeWin :=
  let t := s.tile c m.ef.x.toNat
  match m.i with
  | .wld f => (x.close f.y.toNat).open f.y.toNat (groupsOf t)
  | .mma f | .mmas f | .probe f =>
    { x.close f.y.toNat with stream := some (f.y.toNat, groupsOf t, m.c.toNat, t.rows) }
  | .corr f => x.close (if f.sub.getLsbD 0 then 1 else 0)
  | .refold f => (x.close (if f.sub.getLsbD 0 then 1 else 0)).close (if f.sub.getLsbD 1 then 1 else 0)
  | _ => x

/-! ## Conditions at issue (R237, check 3) -/

/-- The tile named by the list field. -/
def State.listTile (s : State) (c : Nat) (m : Cmd) : Tile := s.tile c m.ef.imm.toNat

/-- Whether a streaming command or `wld` breaks its plane conditions. -/
def State.planeBad (s : State) (c : Nat) (m : Cmd) : Bool :=
  let p := (s.core c).plane m.ef.y.toNat
  let w := m.fw
  match m.i with
  | .wld _ => fwBol w && (s.listTile c m).listBad
  | .mma _ | .probe _ => !p.loaded || p.fmt != fwB w || p.sparse || (fwAol w && (s.listTile c m).listBad)
  | .mmas _ => !p.loaded || p.fmt != fwB w || !p.sparse || (fwAol w && (s.listTile c m).listBad)
  | _ => false

/-- A list overflow: the status word (R255, R256), the count modulo 2^16 (DESIGN CHOICE, log entry 49). -/
def overStatus (m : Cmd) (count list : Nat) : Nat := count % 2 ^ 16 * 2 ^ 16 + list * 2 ^ 8 + fld m.head.toNat 22 16

/-! ## Effects -/

/-- Rows of a number that packs 256 elements. -/
def packRow (w : Nat) (f : Nat → Nat) : Nat := packBits w ((List.range 256).map f)

/-- The plane list after a `wld` of rows `r` on (R254). -/
def planeList (old : List PEntry) (r rows cols : Nat) (new : List (Nat × Nat × Nat)) : List PEntry :=
  let keep := old.filter (fun e => !(decide (r ≤ e.row) && decide (e.row < r + cols)))
  let add := (new.filter (fun e => decide (e.1 < rows) && decide (e.2.1 < cols) && !inert e.2.2)).map
    (fun e => ({ row := r + e.2.1, col := e.1, val := BitVec.ofNat 32 e.2.2 } : PEntry))
  sortBy (fun a b => decide (a.row < b.row) || (a.row == b.row && decide (a.col < b.col))) (keep ++ add)

/-- What a `wld` makes of a plane (R240, R254). -/
def loadPlane (sp : Memory) (t : Tile) (p : Plane) (m : Cmd) (list : Tile) (ctx : Nat) : Plane :=
  let w := m.fw
  let sparse := m.ef.sub.getLsbD 0
  let f := fmtAt (fwB w)
  let p := if !p.loaded || p.fmt != fwB w || p.sparse != sparse then ({} : Plane) else p
  let r := if sparse then m.a.toNat / 2 else m.a.toNat
  let rows := (List.range t.cols).foldl (fun (x : Map Nat) k =>
    x.set (r + k) (packRow f.width (fun n => if n < t.rows then tileCode sp t f.width n k else 0))) p.rows
  let scales :=
    if f == .mxfp4 then
      (List.range (t.cols / 32)).foldl (fun (x : Map Nat) b =>
        x.set (r / 32 + b) (packRow 8 (fun n => if n < t.rows then tileScale sp t n (32 * b) else 0x7F))) p.scales
    else p.scales
  let g := t.cols / 2
  let codes :=
    if sparse then
      (List.range g).foldl (fun (x : Map Nat) q =>
        x.set (r / 2 + q) (packRow 4 (fun n =>
          let i := n * g + q
          (sp.read (m.addr.toNat + i / 2)).toNat / 16 ^ (i % 2) % 16))) p.codes
    else p.codes
  { p with
    loaded := true, fmt := fwB w, sparse := sparse, tag := some ctx, rows := rows, scales := scales, codes := codes
    list := planeList p.list r t.rows t.cols (if fwBol w then listOf sp list else []) }

/-- A core's plane of a command. -/
def State.setPlane (s : State) (c n : Nat) (p : Plane) : State := s.modCore c (fun x => { x with planes := x.planes.set n p })

/-- The effect of `mma` or `mmas` on the accumulator rows (R241, R244). -/
def State.mmaEffect (s : State) (c : Nat) (m : Cmd) (sparse : Bool) : State :=
  let x := s.core c
  let t := x.tile m.ef.x.toNat
  let mm := mmOf x.spad t (x.plane m.ef.y.toNat) m (s.listTile c m) sparse
  s.modCore c (fun x =>
    (List.range t.rows).foldl (fun x i =>
      x.setAcc (m.c.toNat + i) (accOf (fun n => af40 mm.mode (mm.elem i n (accVal (x.accRow (m.c.toNat + i)) n))))) x)

/-- The array event of an operand format. -/
def arrayEvent (c : Nat) : Nat :=
  match (fmtAt c).width with
  | 16 => 32
  | 8 => 33
  | _ => 34

/-- The epilogue of one element (R243): the scales and the bias, each with a rounding of its own, and the output conversion. -/
def epilogue (f : EF) (w : W32) (v : Val) (rowS colS bias : Val) (u : Nat → Nat) : Nat :=
  let m := (Rnd.ofCode (fwRound w)).getD .rne
  let step := fun (n : Nat) (v : Val) => Fmt.af40.decode (roundTo .af40 v m (u n) false)
  let v := if fwScale w = 1 || fwScale w = 3 then step 0 (v.mul rowS) else v
  let v := if fwScale w = 2 || fwScale w = 3 then step 1 (v.mul colS) else v
  let v := if f.sub.getLsbD 0 then step 2 (v.add bias m) else v
  roundTo (fmtAt (fwOut w)) v m (u 3) (fwSat w)

/-- The effect of `drain` (R243, R238). -/
def State.drainEffect (s : State) (c k : Nat) (m : Cmd) : State :=
  let x := s.core c
  let f := m.ef
  let w := m.fw
  let t := x.tile f.x.toNat
  let e := x.tile f.y.toNat
  let ctx := s.ctxOf c
  let ident := identOf c k
  let st := fun (sp : Memory) (r n : Nat) => Fmt.fp32.decode (tileCode sp e 32 r n)
  let draw := fun (row n step : Nat) =>
    if fwRound w = 5 then drawWord ctx ident (BitVec.ofNat 64 (m.j * 2 ^ 18 + step * 2 ^ 16 + row * 2 ^ 8 + n)) else 0
  let code := fun (sp : Memory) (row n : Nat) =>
    if x.accBad then roundTo (fmtAt (fwOut w)) .nan .rne 0 (fwSat w)
    else epilogue f w (accVal (x.accRow row) n) (st sp 0 row) (st sp 1 n) (st sp 2 n) (draw row n)
  let size := t.fmtOf.width / 8
  let rows := (List.range (rowCount m.a m.b)).map (m.a.toNat + ·)
  let s := s.modSpad c (fun sp =>
    rows.foldl (fun sp row =>
      (List.range t.cols).foldl (fun sp n =>
        sp.store (t.base + (m.c.toNat + (row - m.a.toNat)) * t.pitch + size * n) (leBytes size (code sp row n))) sp) sp)
  if f.sub.getLsbD 1 then
    s.modCore c (fun x => rows.foldl (fun x row =>
      x.setAcc row (accOf (fun n => if n < t.cols then 0 else (x.accRow row).toNat / 2 ^ (40 * n) % 2 ^ 40))) x)
  else s

/-- The effect of `accz` (R242, R238). -/
def State.acczEffect (s : State) (c : Nat) (m : Cmd) : State :=
  let n := rowCount m.a m.b
  s.modCore c (fun x =>
    let x := (List.range n).foldl (fun x i => x.setAcc (m.a.toNat + i) 0) x
    if n = 256 then { x with accBad := false } else x)

end Sys2Proof.Machine
end

