-- ==== Sys2Proof/Machine/Fold.lean ====
section
/-! DEFINITION. Tangent folding: the table, the probe, classification, correction, refitting and refolding (R266 to R288). -/

namespace Sys2Proof.Machine

/-! ## The tangent table (R266 to R268) -/

/-- Whether `n` entries from `e` on lie in a core's range of the table (R266). -/
def State.inTrange (s : State) (c e n : Nat) : Bool :=
  let k := (s.ctx (s.ctxOf c)).coreCfg c
  decide (k.tbase ≤ e) && decide (e + n ≤ k.tbase + k.tcount)

/-- An entry of the table of a core's slab. -/
def State.entry (s : State) (c e : Nat) : BitVec 256 := (s.cluster (clusterOf c)).table.getD e 0

/-- Changes an entry. -/
def State.modEntry (s : State) (c e : Nat) (f : BitVec 256 → BitVec 256) : State :=
  s.modCluster (clusterOf c) (fun x => { x with table := x.table.set e (f (x.table.getD e 0)) })

/-- The 32-bit word at a byte offset of an entry (R267). -/
def entWord (x : BitVec 256) (o : Nat) : Nat := x.toNat / 2 ^ (8 * o) % 2 ^ 32

/-- Replaces the bits of a word that a mask names. -/
def entPut (o mask v : Nat) (x : BitVec 256) : BitVec 256 :=
  let m : BitVec 256 := BitVec.ofNat 256 (mask * 2 ^ (8 * o))
  (x &&& ~~~m) ||| (BitVec.ofNat 256 (v * 2 ^ (8 * o)) &&& m)

/-- An FP32 field of an entry as a value. -/
def entVal (x : BitVec 256) (o : Nat) : Val := Fmt.fp32.decode (entWord x o)

/-- δ and n are read with bit 31 cleared (R267). -/
def entMag (x : BitVec 256) (o : Nat) : Val := Fmt.fp32.decode (entWord x o % 2 ^ 31)

/-- The flags Q and P. -/
def entQ (x : BitVec 256) : Bool := (entWord x 0x10).testBit 31
def entP (x : BitVec 256) : Bool := (entWord x 0x14).testBit 31

/-- The counts. -/
def entEcount (x : BitVec 256) : Nat := entWord x 0x1C % 2 ^ 16
def entNcount (x : BitVec 256) : Nat := entWord x 0x1C / 2 ^ 16

/-- Whether an entry lies in the range of a fold set, within the core's range of the table (R266, R268). -/
def State.inSet (s : State) (c fs e : Nat) : Bool :=
  let a := ((s.core c).fsa.getD fs 0).toNat
  decide (fld a 11 0 ≤ e) && decide (e ≤ fld a 11 0 + fld a 23 12) && s.inTrange c e 1

/-- Class, refresh limit and tolerance of a fold set. -/
def State.setClass (s : State) (c fs : Nat) : Nat := fld ((s.core c).fsa.getD fs 0).toNat 26 24
def State.setLimit (s : State) (c fs : Nat) : Nat := fld ((s.core c).fsa.getD fs 0).toNat 63 48
def State.setTau (s : State) (c fs : Nat) : Nat := ((s.core c).fsb.getD fs 0).toNat % 2 ^ 32

/-- The fold set that a command names. -/
def Cmd.fs (m : Cmd) : Nat := m.ef.imm.toNat % 8

/-- Whether `probe` and `clsf` run in exact mode (R285). -/
def Cmd.exactMode (m : Cmd) : Bool := m.exact || fwExact m.fw

/-! ## Dispatch -/

/-- The checks and the entry of the dispatch of `clsf`. -/
def State.prepClsf (s : State) (f : EF) (m : Cmd) : Except Trap Prep :=
  let i : Instr := .clsf f
  slabPrep s m true [bad (decide (256 < m.a.toNat) || decide (256 < m.a.toNat + rowCount m.a m.b)) illegal] [] none [] none

/-- Rows of `clsf` (R273): 0 means all from the first on. -/
def execClsf (f : EF) (s : State) : Out := s.dispatchE (.clsf f) f 1 true (s.prepClsf f)

/-- The K window of `corr` and `refold` (R276, R284). -/
def corrExt (t : Tile) (m : Cmd) : Nat := if m.c = 0 then t.cols else m.c.toNat
def refoldExt (m : Cmd) : Nat := if m.c = 0 then 256 - m.b.toNat else m.c.toNat

/-- The checks and the entry of the dispatch of `corr`. -/
def State.prepCorr (s : State) (f : EF) (m : Cmd) : Except Trap Prep :=
  let t := s.myTile f.x
  let ext := corrExt t m
  slabPrep s m false
    [bad (m.b.toNat % 32 != 0 || ext % 32 != 0 || decide (256 < m.b.toNat + ext) || decide (t.cols < ext)) illegal]
    (f.x.toNat :: (if f.sub.getLsbD 1 then [] else [f.y.toNat])) none [] none

/-- `corr` (R276). -/
def execCorr (f : EF) (s : State) : Out := s.dispatchE (.corr f) f 1 true (s.prepCorr f)

/-- The checks and the entry of the dispatch of `tfit`. -/
def State.prepTfit (s : State) (f : EF) (m : Cmd) : Except Trap Prep :=
  slabPrep s m false [] [] none [] none

/-- `tfit` (R282). -/
def execTfit (f : EF) (s : State) : Out := s.dispatchE (.tfit f) f 1 (s.wiredPush 1 f.x.toNat) (s.prepTfit f)

/-- The tile rule of `tload` and `tsave` (R270). -/
def tableTileBad (t : Tile) : Bool := t.fmt != 8 || t.cols != 8

/-- The checks and the entry of the dispatch of `tload`: the tile's rule, cause 0x10, before TRANGE, cause 0x01, where both are broken
(R270; DESIGN CHOICE, log entry 29). -/
def State.prepTload (s : State) (f : EF) (m : Cmd) : Except Trap Prep :=
  let t := s.myTile f.x
  slabPrep s m false
    [bad (tableTileBad t) { cause := 0x10 }, bad (!s.inTrange s.sel m.a.toNat t.rows) illegal] [f.x.toNat] none [] none

/-- `tload` (R270). -/
def execTload (f : EF) (s : State) : Out := s.dispatchE (.tload f) f 1 true (s.prepTload f)

/-- The checks and the entry of the dispatch of `tsave`, in the order of `tload`'s (R270; DESIGN CHOICE, log entry 29). -/
def State.prepTsave (s : State) (f : EF) (m : Cmd) : Except Trap Prep :=
  let t := s.myTile f.x
  let n := f.x.toNat
  slabPrep s m false
    [bad (tableTileBad t) { cause := 0x10 }, bad (!s.inTrange s.sel m.a.toNat t.rows) illegal, tileWriteTrap t] [n]
    (some (n, !f.sub.getLsbD 0)) [] none

/-- `tsave` (R270). -/
def execTsave (f : EF) (s : State) : Out := s.dispatchE (.tsave f) f 1 true (s.prepTsave f)

/-- Entries that `tset` names: 0 means 1 (R270). -/
def tsetCount (m : Cmd) : Nat := if m.b = 0 then 1 else m.b.toNat

/-- The checks and the entry of the dispatch of `tset`. -/
def State.prepTset (s : State) (f : EF) (m : Cmd) : Except Trap Prep :=
  slabPrep s m false
    [bad (decide (4096 < m.b.toNat) || !s.inTrange s.sel m.a.toNat (tsetCount m)) illegal] [] none [] none

/-- `tset` (R270). -/
def execTset (f : EF) (s : State) : Out := s.dispatchE (.tset f) f 1 true (s.prepTset f)

/-- Lanes of an entry that `escn` and `rlpop` fill at most: 0 means 64. -/
def laneCount (x : W64) : Nat := if x = 0 then 64 else x.toNat

/-- The checks and the entry of the dispatch of `escn`. -/
def State.prepEscn (s : State) (f : EF) (m : Cmd) : Except Trap Prep :=
  slabPrep s m false
    [bad (decide (64 < m.b.toNat) || !s.inTrange s.sel m.a.toNat (laneCount m.b)) illegal] [] none [] none

/-- `escn` (R280). -/
def execEscn (f : EF) (s : State) : Out := s.dispatchE (.escn f) f 1 (s.wiredPush 1 f.x.toNat) (s.prepEscn f)

/-- The checks and the entry of the dispatch of `rlpop`. -/
def State.prepRlpop (s : State) (f : EF) (m : Cmd) : Except Trap Prep :=
  slabPrep s m false [bad (decide (64 < m.a.toNat)) illegal] [] none [] none

/-- `rlpop` (R279). -/
def execRlpop (f : EF) (s : State) : Out := s.dispatchE (.rlpop f) f 1 (s.wiredPush 1 f.x.toNat) (s.prepRlpop f)

/-- The checks and the entry of the dispatch of `refold`. -/
def State.prepRefold (s : State) (f : EF) (m : Cmd) : Except Trap Prep :=
  slabPrep s m false
    [bad (m.b.toNat % 32 != 0 || refoldExt m % 32 != 0 || decide (256 < m.b.toNat + refoldExt m)) illegal]
    [f.x.toNat, f.y.toNat] none [] none

/-- `refold` (R284): it reads and writes E in place, and E stays ready. -/
def execRefold (f : EF) (s : State) : Out := s.dispatchE (.refold f) f 1 (s.wiredPop 1 (f.imm.toNat % 64)) (s.prepRefold f)

/-! ## The probe (R271, R272) -/

/-- trunc1: the sign, the exponent and the top fraction bit of a BF16 or FP16 code. -/
def trunc1 (fmt code : Nat) : Nat :=
  if fmt = 1 then (if fld code 14 7 = 255 then code else code / 2 ^ 6 * 2 ^ 6)
  else (if fld code 14 10 = 31 then code else code / 2 ^ 9 * 2 ^ 9)

/-- The exact z of R276 from a start: one AF40 rounding per product, by ascending k. -/
def exactZ (start : Val) (ps : List (Val × Val)) : Val :=
  ps.foldl (fun z p => toAf40 .rne (z.add (p.1.mul p.2) .rne)) start

/-- The larger of two values; of a NaN and a number no larger one is stated, and the answer here is a NaN. -/
def maxNan (a b : Val) : Val := if a.isNan || b.isNan then .nan else a.max b

/-- Row statistics after a probe of one row with A codes `as` (R271).  Where a NaN is among the differences or the statistic, no
largest one is stated, and ETA takes the value `open_` (log entry 22). -/
def probeStat (old : RowStat) (acc : Bool) (fmt : Nat) (as : List Nat) (kext : Nat) (open_ : W32) : RowStat :=
  let dec := (fmtAt fmt).decode
  let nrm := sumVals .rne (as.map (fun c => (dec c).abs))
  let eta := (as.map (fun c => ((dec c).sub (dec (trunc1 fmt c)) .rne).abs)).foldl maxNan (.zero false)
  let v := fun (w : W32) => Fmt.fp32.decode w.toNat
  let code := fun (x : Val) (m : Rnd) => BitVec.ofNat 32 (roundTo .fp32 x m 0 false)
  let etaCode := fun (x : Val) => if x.isNan then open_ else code x .rne
  if acc then
    { norm := code ((v old.norm).add nrm .rup) .rup, eta := etaCode (maxNan (v old.eta) eta), ks := min (old.ks + kext) 65535 }
  else { norm := code nrm .rup, eta := etaCode eta, ks := min kext 65535 }

/-- One element of a probe row. -/
def probeElem (m : Rnd) (exact : Bool) (af bf : Nat) (start : Val) (ab : List (Nat × Nat)) : Val :=
  if exact then exactZ start (ab.map (fun p => ((fmtAt af).decode p.1, (fmtAt bf).decode p.2)))
  else
    let prod := fun (p : Nat × Nat) => ((fmtAt af).decode (trunc1 af p.1)).mul ((fmtAt bf).decode (trunc1 bf p.2))
    (piecesOf 4 ab (ab.length / 4)).foldl (fun z g => stepAdd m 4 z (g.map prod)) start

/-- The effect of `probe` on the accumulator rows and their statistics (R271). -/
def State.probeEffect (s : State) (c : Nat) (m : Cmd) : State :=
  let x := s.core c
  let f := m.ef
  let t := x.tile f.x.toNat
  let p := x.plane f.y.toNat
  let ext := if m.b = 0 then t.cols else m.b.toNat
  let koff := m.a.toNat
  let acc := f.sub.getLsbD 0
  let mode := (Rnd.ofCode (fwRound m.fw)).getD .rne
  ({ s with draws := s.draws + t.rows } : State).modCore c (fun x =>
    (List.range t.rows).foldl (fun x i =>
      let r := m.c.toNat + i
      let as := (List.range ext).map (fun j => tileCode x.spad t 16 i j)
      let row := accOf (fun n =>
        let start := if acc then accVal (x.accRow r) n else .zero false
        af40 mode (probeElem mode m.exactMode t.fmt p.fmt start (as.zip ((List.range ext).map (fun j => p.code (koff + j) n)))))
      { x.setAcc r row with stats := x.stats.set r (probeStat (x.stat r) acc t.fmt as ext (.ofNat 32 (Config.freeNat (s.draws + i)))) }) x)

/-! ## Classification (R273) -/

/-- The kind of an element: none inside its interval, else whether it is near. -/
def classify (e : BitVec 256) (st : RowStat) (exact : Bool) (z : Val) : Option Bool :=
  let lo := entVal e 0x08
  let hi := entVal e 0x0C
  if entP e then some true
  else if exact then (if lo.le z && z.le hi then none else some false)
  else
    let d := entMag e 0x10
    let n := entMag e 0x14
    let norm := Fmt.fp32.decode st.norm.toNat
    let eta := Fmt.fp32.decode st.eta.toNat
    let eps := (((norm.mul d).add (n.mul eta) .rne)).add (((Val.ofInt st.ks).mul d).mul eta) .rne
    let zl := z.sub eps .rne
    let zh := z.add eps .rne
    if lo.lt zl && zh.lt hi then none else if zh.lt lo || hi.lt zl then some false else some true

/-- The records of a `clsf`, in list order. -/
def State.clsfList (s : State) (c : Nat) (m : Cmd) : List Esc :=
  let x := s.core c
  (List.range (rowCount m.a m.b)).flatMap (fun t =>
    (List.range 256).filterMap (fun n =>
      let e := m.c.toNat + n
      if s.inSet c m.fs e then
        match classify (s.entry c e) (x.stat (m.a.toNat + t)) m.exactMode (accVal (x.accRow (m.a.toNat + t)) n) with
        | some near => some { t := t, c := n, e := e, near := near }
        | none => none
      else none))

/-- The effect of `clsf`: the near counts and the list (R273). -/
def State.clsfEffect (s : State) (c : Nat) (m : Cmd) : State :=
  let l := s.clsfList c m
  let s := l.foldl (fun s r =>
    if r.near then s.modEntry c r.e (fun e => entPut 0x1C 0xFFFF0000 (min (entNcount e + 1) 65535 * 2 ^ 16) e) else s) s
  (s.modCore c (fun x => { x with esc := l })).slabEvent c 43 l.length

/-! ## Correction (R275 to R277) -/

/-- The sign of zero that a class shares with `vsf` (R125, log entry 21). -/
def classZero (cls : Nat) : Bool := Config.vsfZeroSign (if cls = 2 then 6 else 7)

/-- F of a fold-set class. -/
def classFn (cls : Nat) (z : Val) : Val := fnEval (Fn.ofClass cls) (classZero cls) z

/-- The list with the exact z of every record.  On a plane loaded by `wld.sp`, which no check refuses, plane row k is the stored row k, here and
in `refold` (R276, R284; DESIGN CHOICE, log entry 49). -/
def State.corrList (s : State) (c : Nat) (m : Cmd) : List Esc :=
  let x := s.core c
  let t := x.tile m.ef.x.toNat
  let p := x.plane (if m.ef.sub.getLsbD 0 then 1 else 0)
  let ext := corrExt t m
  x.esc.map (fun r =>
    let z := exactZ (Fmt.af40.decode r.z.toNat)
      ((List.range ext).map (fun j => (tileVal x.spad t t.fmtOf r.t j, p.value (m.b.toNat + j) r.c)))
    { r with z := BitVec.ofNat 40 (af40 .rne z) })

/-- Whether a record's exact z lies outside the closed interval of its unit (R276). -/
def State.escapes (s : State) (c : Nat) (r : Esc) : Bool :=
  let z := Fmt.af40.decode r.z.toNat
  !((entVal (s.entry c r.e) 0x08).le z && z.le (entVal (s.entry c r.e) 0x0C))

/-- One record of a finishing `corr`: the output row, the counts and the refresh list. -/
def State.corrOne (s : State) (c : Nat) (m : Cmd) (r : Esc) : State :=
  let e := s.entry c r.e
  let z := Fmt.af40.decode r.z.toNat
  if !s.escapes c r then s
  else
    let w := s.tile c m.ef.y.toNat
    let sp := (s.core c).spad
    let line := ((entVal e 0).mul z).add (entVal e 4) .rne
    let d := Fmt.fp32.decode (roundTo .fp32 ((classFn (s.setClass c m.fs) z).sub line .rne) .rne 0 false)
    let row := m.a.toNat + r.t
    let s := s.modCore c (fun x => x.setAcc row (accOf (fun n =>
      af40 .rne ((accVal (x.accRow row) n).add (d.mul (tileVal sp w w.fmtOf r.c n)) .rne))))
    let esum := roundTo .fp32 ((entVal e 0x18).add z .rne) .rne 0 false
    let n := min (entEcount e + 1) 65535
    let limit := s.setLimit c m.fs
    let listed := limit != 0 && decide (limit ≤ n) && !entQ e
    let s := s.modEntry c r.e (fun e => entPut 0x18 0xFFFFFFFF esum (entPut 0x1C 0xFFFF n e))
    if listed then
      (s.modEntry c r.e (entPut 0x10 0x80000000 0x80000000)).modCluster (clusterOf c)
        (fun x => { x with refresh := x.refresh ++ [(r.e, c % 4)] })
    else s

/-- The effect of `corr` (R276). -/
def State.corrEffect (s : State) (c : Nat) (m : Cmd) : State :=
  let l := s.corrList c m
  if m.ef.sub.getLsbD 1 then s.modCore c (fun x => { x with esc := l })
  else (l.foldl (fun s r => s.corrOne c m r) s).modCore c (fun x => { x with esc := [] })

/-- What a `corr` makes of the side path, in cycles of 64 products, and of the table, whose intervals a finishing one reads (R260, R276, R337;
log entry 12). -/
def State.corrCost (s : State) (c : Nat) (m : Cmd) : Nat × Nat :=
  let l := s.corrList c m
  let part := m.ef.sub.getLsbD 1
  let n := if part then 0 else (l.filter (s.escapes c)).length
  ((l.length * corrExt ((s.core c).tile m.ef.x.toNat) m + 256 * n + 63) / 64, if part then 0 else l.length)

/-- Table entries that a `clsf` reads: for each row those of its window that lie in the fold set (R273). -/
def State.clsfReads (s : State) (c : Nat) (m : Cmd) : Nat :=
  rowCount m.a m.b * ((List.range 256).filter (fun n => s.inSet c m.fs (m.c.toNat + n))).length

/-- The tile rule of W (R276). -/
def tileWBad (w : Tile) : Bool := decide (1 < w.fmt) || w.cols != 256

/-- A plane of BF16 or FP16 weights. -/
def Plane.isHalf (p : Plane) : Bool := p.loaded && (p.fmt == 1 || p.fmt == 2)

/-- The issue checks of `corr`. -/
def State.corrBad (s : State) (c : Nat) (m : Cmd) : Bool :=
  let x := s.core c
  let t := x.tile m.ef.x.toNat
  let w := x.tile m.ef.y.toNat
  let part := m.ef.sub.getLsbD 1
  (t.fmt != 1 && t.fmt != 2) || !(x.plane (if m.ef.sub.getLsbD 0 then 1 else 0)).isHalf || (!part && tileWBad w) ||
    x.esc.any (fun r => decide (t.rows ≤ r.t) || decide (255 < m.a.toNat + r.t) || (!part && decide (w.rows ≤ r.c)))

/-! ## Refitting (R282, R283) -/

/-- FP32 codes in order of their values, both zeros at 0, whose code is +0: so a bound of R283 that is zero is written as +0 (DESIGN CHOICE, log
entry 30). -/
def ordCode (o : Int) : Nat := if o < 0 then 0x80000000 + (-o).toNat else o.toNat
def codeOrd (c : Nat) : Int := if c < 0x80000000 then c else -((c % 0x80000000 : Nat) : Int)
def ordVal (o : Int) : Val := Fmt.fp32.decode (ordCode o)

/-- The last finite FP32 value in that order. -/
def maxOrd : Int := 0x7F7FFFFF

/-- The last place, from a place `g` where a property holds toward a place `b` where it does not, up to which it holds. -/
def bisect (p : Int → Bool) : Nat → Int → Int → Int
  | 0, g, _ => g
  | n + 1, g, b =>
    let m := (g + b) / 2
    if (b - g).natAbs ≤ 1 then g else if p m then bisect p n m b else bisect p n g m

/-- Ranges on which F' is monotone: F'' is zero at 0 for tanh and the logistic function, at ±√2 for gelu, at the roots of
x·tanh(x/2) = 2 for silu, and nowhere for softplus and exp (log entry 30). -/
def monotonePieces (cls : Nat) : List (Int × Int) :=
  let sym := fun (r : Int) => [(-maxOrd, -r - 1), (-r, r), (r + 1, maxOrd)]
  match cls with
  | 2 => sym 0x3FB504F3
  | 3 => sym 0x40198F11
  | 4 | 5 => [(-maxOrd, -1), (0, maxOrd)]
  | _ => [(-maxOrd, maxOrd)]

/-- F' against a slope. -/
def slopeCmp (cls : Nat) (a : Val) (o : Int) : Option Ordering :=
  match ordVal o with
  | .num d => (fnDeriv (Fn.ofClass cls) d).cmp a
  | _ => none

/-- Ends of the stretches on which r = F − (a·z + b) is monotone, in order. -/
def stretchEnds (cls : Nat) (a : Val) : List Int :=
  (monotonePieces cls).flatMap (fun p =>
    let s := slopeCmp cls a p.1
    let t := slopeCmp cls a p.2
    if (s == some .lt && t == some .gt) || (s == some .gt && t == some .lt) then
      [bisect (fun o => slopeCmp cls a o == s) 34 p.1 p.2, p.2]
    else [p.2])

/-- Walks outward over stretches that end at the places of a list: the last place of the unbroken run from `g` on where a
property holds, or none when it holds to the end. -/
def runEnd (p : Int → Bool) (dir : Int) : Int → Bool → List Int → Option Int
  | _, _, [] => none
  | g, first, e :: es =>
    let n := if first then g else g + dir
    if !p n then some g
    else if p e then runEnd p dir e false es
    else some (bisect p 34 n e)

/-- The bounds of the smooth classes around c (R283). -/
def smoothBounds (cls : Nat) (a b tau : Val) (c : Nat) : Nat × Nat :=
  let ok := fun (o : Int) => (((classFn cls (ordVal o)).sub ((a.mul (ordVal o)).add b .rne) .rne).abs).le tau
  let o := codeOrd c
  if !ok o then (c, c)
  else
    let ends := stretchEnds cls a
    let hi := match runEnd ok 1 o true (ends.filter (fun q => decide (o ≤ q))) with
      | some q => ordCode q
      | none => 0x7F800000
    let lo := match runEnd ok (-1) o true (((ends.reverse.map (· + 1)).filter (fun q => decide (q ≤ o))) ++ [-maxOrd]) with
      | some q => ordCode q
      | none => 0xFF800000
    (lo, hi)

/-- The mean of the exact z of a unit's escapes. -/
def meanZ (esum : Val) (n : Nat) : Val :=
  match esum with
  | .num d => if d.isZero then .num d else .num (d.quot { neg := false, man := n, exp := 0 } 64)
  | x => x

/-- What `tfit` finds: status, and the new a, b, lo and hi (R283). -/
def refit (cls tau : Nat) (e : BitVec 256) : Nat × Nat × Nat × Nat × Nat :=
  let r32 := fun (v : Val) (m : Rnd) => roundTo .fp32 v m 0 false
  let dec := Fmt.fp32.decode
  let t := dec tau
  if entEcount e = 0 then (1, 0, 0, 0, 0)
  else
    let c := r32 (meanZ (entVal e 0x18) (entEcount e)) .rne
    let root : Val := match t with
      | .num d => .num d.sqrt
      | x => x
    let res :=
      if cls = 0 then
        let v := maxNan (dec c) (dec (r32 root .rup))
        (r32 (v.scale 1) .rne, r32 (v.mul v).neg .rne, r32 (root.neg.add v .rup) .rup, r32 (root.add v .rdn) .rdn)
      else if cls = 1 then
        if (Val.zero false).le (dec c) then (0x3F800000, 0, tau ^^^ 0x80000000, 0x7F800000)
        else (0, 0, 0xFF800000, tau)
      else
        match dec c with
        | .num d =>
          let a := r32 (fnDeriv (Fn.ofClass cls) d) .rne
          let b := r32 ((classFn cls (.num d)).sub ((dec a).mul (.num d)) .rne) .rne
          if (dec a).isFinite && (dec b).isFinite then
            let (lo, hi) := smoothBounds cls (dec a) (dec b) t c
            (a, b, lo, hi)
          else (a, b, 0, 0)
        | _ => (0x7FC00000, 0x7FC00000, 0, 0)
    if (dec res.1).isFinite && (dec res.2.1).isFinite then (0, res) else (2, 0, 0, 0, 0)

/-- The effect of `tfit` (R282). -/
def State.tfitEffect (s : State) (c : Nat) (m : Cmd) : State :=
  let e := m.a.toNat
  let old := s.entry c e
  let (st, a, b, lo, hi) := refit (s.setClass c m.fs) (s.setTau c m.fs) old
  let d := fun (new o : Nat) => roundTo .fp32 ((Fmt.fp32.decode new).sub (entVal old o) .rne) .rne 0 false
  let lanes := if st = 0 then [e, d a 0, d b 4, 0] else [e, 0, 0, st]
  let s := if st = 0 then
      s.modEntry c e (fun x =>
        entPut 0 0xFFFFFFFF a (entPut 4 0xFFFFFFFF b (entPut 8 0xFFFFFFFF lo (entPut 12 0xFFFFFFFF hi x))))
    else s
  s.pushChan c m.ef.x.toNat { data := vecOf 32 lanes, mask := 0xF }

/-! ## Table copies, counts and lists (R270, R278 to R280) -/

/-- The effect of `tload`. -/
def State.tloadEffect (s : State) (c : Nat) (m : Cmd) : State :=
  let t := s.tile c m.ef.x.toNat
  (List.range t.rows).foldl (fun s i =>
    s.modEntry c (m.a.toNat + i) (fun _ => BitVec.ofNat 256 (leNat (s.spadBytes c (t.base + i * t.pitch) 32)))) s

/-- The effect of `tsave`. -/
def State.tsaveEffect (s : State) (c : Nat) (m : Cmd) : State :=
  let t := s.tile c m.ef.x.toNat
  (List.range t.rows).foldl (fun s i =>
    s.modSpad c (fun sp => sp.store (t.base + i * t.pitch) (leBytes 32 (s.entry c (m.a.toNat + i)).toNat))) s

/-- The change of one field of an entry (R270). -/
def tsetField (code v : Nat) (e : BitVec 256) : BitVec 256 :=
  match code with
  | 0 => entPut 0x00 0xFFFFFFFF (v % 2 ^ 32) e
  | 1 => entPut 0x04 0xFFFFFFFF (v % 2 ^ 32) e
  | 2 => entPut 0x08 0xFFFFFFFF (v % 2 ^ 32) e
  | 3 => entPut 0x0C 0xFFFFFFFF (v % 2 ^ 32) e
  | 4 => entPut 0x10 0x7FFFFFFF (v % 2 ^ 31) e
  | 5 => entPut 0x14 0x7FFFFFFF (v % 2 ^ 31) e
  | 6 => entPut 0x18 0xFFFFFFFF (v % 2 ^ 32) e
  | 7 => entPut 0x1C 0xFFFFFFFF (v % 2 ^ 32) e
  | 8 => entPut 0x10 0x80000000 (v % 2 * 2 ^ 31) e
  | _ => entPut 0x14 0x80000000 (v % 2 * 2 ^ 31) e

/-- The effect of `tset`. -/
def State.tsetEffect (s : State) (c : Nat) (m : Cmd) : State :=
  (List.range (tsetCount m)).foldl (fun s i => s.modEntry c (m.a.toNat + i) (tsetField m.ef.imm.toNat m.c.toNat)) s

/-- The first `n` lanes of an entry's mask. -/
def lowMask (n : Nat) : BitVec 64 := BitVec.ofNat 64 (2 ^ n - 1)

/-- The effect of `escn`. -/
def State.escnEffect (s : State) (c : Nat) (m : Cmd) : State :=
  let n := laneCount m.b
  s.pushChan c m.ef.x.toNat
    { data := vecOf 32 ((List.range n).map (fun i => entWord (s.entry c (m.a.toNat + i)) 0x1C)), mask := lowMask n }

/-- Takes up to `n` of a core's records off the refresh list: those taken, and the list that remains. -/
def popRecords (core : Nat) : Nat → List (Nat × Nat) → List Nat × List (Nat × Nat)
  | _, [] => ([], [])
  | 0, l => ([], l)
  | n + 1, r :: rs =>
    if r.2 = core then
      let (t, l) := popRecords core n rs
      (r.1 :: t, l)
    else
      let (t, l) := popRecords core (n + 1) rs
      (t, r :: l)

/-- The effect of `rlpop`. -/
def State.rlpopEffect (s : State) (c : Nat) (m : Cmd) : State :=
  let (t, l) := popRecords (c % 4) (laneCount m.a) (s.cluster (clusterOf c)).refresh
  (s.modCluster (clusterOf c) (fun x => { x with refresh := l })).pushChan c m.ef.x.toNat
    { data := vecOf 32 t, mask := lowMask t.length }

/-! ## Refolding (R284) -/

/-- Planes of a `refold`. -/
def refoldM (f : EF) : Nat := if f.sub.getLsbD 0 then 1 else 0
def refoldP (f : EF) : Nat := if f.sub.getLsbD 1 then 1 else 0

/-- Lane of a popped entry. -/
def ChEntry.lane (e : ChEntry) (i : Nat) : Nat := e.data.toNat / 2 ^ (32 * i) % 2 ^ 32

/-- The issue checks of `refold`.  Those on the unit apply to an entry whose mask bit 0 is set. -/
def State.refoldBad (s : State) (c : Nat) (m : Cmd) (p : ChEntry) : Bool :=
  let x := s.core c
  let w := x.tile m.ef.x.toNat
  let pm := x.plane (refoldM m.ef)
  let pp := x.plane (refoldP m.ef)
  let j := p.lane 0
  !pm.loaded || pm.fmt == 0 || decide (5 < pm.fmt) || !pm.list.isEmpty || !pp.isHalf ||
    decide (capacityOf (fmtAt pm.fmt) < m.b.toNat + refoldExt m) || decide (capacityOf (fmtAt pp.fmt) < m.b.toNat + refoldExt m) ||
    tileWBad w || tileEBad (x.tile m.ef.y.toNat) ||
    (p.mask.getLsbD 0 &&
      (decide (j < m.a.toNat) || decide (m.a.toNat + 255 < j) || decide (w.rows ≤ j - m.a.toNat) || !s.inTrange c j 1))

/-- The effect of `refold`. -/
def State.refoldEffect (s : State) (c : Nat) (m : Cmd) (p : ChEntry) : State :=
  if !p.mask.getLsbD 0 then s
  else
    let x := s.core c
    let w := x.tile m.ef.x.toNat
    let e := x.tile m.ef.y.toNat
    let j := p.lane 0
    let col := j - m.a.toNat
    let da := Fmt.fp32.decode (p.lane 1)
    let db := Fmt.fp32.decode (p.lane 2)
    let wv := fun (sp : Memory) n => tileVal sp w w.fmtOf col n
    let r32 := fun (v : Val) => Fmt.fp32.decode (roundTo .fp32 v .rne 0 false)
    let pp := x.plane (refoldP m.ef)
    let pm := x.plane (refoldM m.ef)
    let g := fmtAt pm.fmt
    let rows := (List.range (refoldExt m)).foldl (fun (l : Map Nat) i =>
      let k := m.b.toNat + i
      let upd := fun (b : Val) (n : Nat) => roundTo g ((pm.value k n).add (r32 ((da.mul b).mul (wv x.spad n))) .rne) .rne 0 false
      let b := pp.value k col
      -- with M = P the columns above c find the weight that column c has just been given
      let b' := if refoldM m.ef = refoldP m.ef then g.decode (upd b col) else b
      l.set k (packRow g.width (fun n => upd (if col < n then b' else b) n))) pm.rows
    let s := s.setPlane c (refoldM m.ef) { pm with rows := rows }
    let s := s.modSpad c (fun sp =>
      (List.range 256).foldl (fun sp n =>
        let a := e.base + 2 * e.pitch + 4 * n
        let v := (Fmt.fp32.decode (leNat (sp.bytes a 4))).add (r32 ((wv sp n).mul db)) .rne
        sp.store a (leBytes 4 (roundTo .fp32 v .rne 0 false))) sp)
    s.modEntry c j (fun x => entPut 0x1C 0xFFFFFFFF 0 (entPut 0x18 0xFFFFFFFF 0 (entPut 0x10 0x80000000 0 x)))

end Sys2Proof.Machine
end

