-- ==== Sys2Proof/Machine/System.lean ====
section
/-! DEFINITION. `nop`, traps and their return, `halt`, `yield`, `mode`, `tstamp`, `hreq`, `fmtp`, `jmark` and the fences (R68, R88, R103,
R214, R234, R319 to R321, R327, R347), and the steps in which a stream takes a trap or its watchdog expires (R317, R318). -/

namespace Sys2Proof.Machine

/-- No effect; it does not end a block (R88). -/
def execNop (s : State) : Out := .next (s.retire 1)

/-- Ends the block; the stream is ready and is the last candidate (R321). -/
def execYield (s : State) : Out := .next ((s.retire 1).endBlock .ready)

/-- Takes cause 0x15 with a code, once what VEC has issued can land; the handler returns to the next instruction (R71, R316, R321). -/
def execTrap (c : BitVec 14) (s : State) : Out :=
  if s.vecFresh s.sel s.slot then .next (s.holdTrap s.sel s.slot)
  else .next ((s.issued).takeTrap s.sel s.slot
    { cause := 0x15, pc := s.cur.pc, jnum := s.cur.jcnt.toNat, resume := s.cur.pc + 4, code := c.toNat })

/-- What `tret` restores: the region mode and the queues whose fault is not pending (R319). -/
def Stream.leaveHandler (t : Stream) : Stream :=
  let pend := t.pendingMask
  { t with
    exp := t.fr.cause.getLsbD 15
    intrap := false
    halted := t.halted &&& pend
    flights := t.flights.map (fun f => if pend.getLsbD f.eng then f else { f with failed := false }) }

/-- Return from the handler (R319).  From cause 0x15 to the address after the `trap`, control passes sequentially from it
(R84); any other return is a taken transfer. -/
def execTret (s : State) : Out :=
  let t := s.cur
  if !t.intrap then trapOut s illegal
  else
    let s' := (s.issued).modCur Stream.leaveHandler
    if t.fr.cause.setWidth 8 == 0x15 && t.fr.resume == t.fr.pc + 4 then
      .next ((s'.modCur (fun t => t.backEdge t.fr.pc t.fr.resume 4)).endBlock .ready)
    else .next ((s'.modCur (fun t => { t with pc := t.fr.resume })).endBlock .ready)

/-- Ends the iteration: the stream is halting until its queues have drained (R103, R319). -/
def execHalt (s : State) : Out := .next (((s.issued).discardHalted s.sel s.slot).endBlock .halting)

/-- Ends the block and drains the stream; then the region mode takes its value (R68). -/
def execMode (m : BitVec 1) (s : State) : Out := .next ((s.issued).wait (.drain (m == 1)))

/-- The drain of `mode` is complete (R68). -/
def execModeDrainComplete (core slot : Nat) (s : State) : Out :=
  let t := s.stream core slot
  match t.st with
  | .waiting (.drain e) =>
    if s.runs core && !t.mustTrap && t.drained then
      .next ((s.setStream core slot { t.seqNext 1 with exp := e, st := .ready }).observeDrain core slot)
    else .next s
  | _ => .next s

/-- TSTAMP_REF (R347). -/
def State.tsRef (s : State) : W64 := BitVec.ofNat 64 s.now

/-- TSTAMP_EFF of the selected core's cluster (R347). -/
def State.tsEff (s : State) : W64 := BitVec.ofNat 64 ((s.cluster (clusterOf s.sel)).eff s.now)

/-- Reads a clock (R347). -/
def execTstamp (d : BitVec 5) (c : BitVec 1) (s : State) : Out := s.writeS d (if c = 0 then s.tsRef else s.tsEff) 1

/-- Posts a request to the host and waits for the reply; while the event queue is full it waits before posting (R320). -/
def execHreq (a : BitVec 5) (s : State) : Out :=
  let part := s.curCtx.cfg.part
  if s.eventsFull part then .next (s.wait (.post (s.sreg a)))
  else
    .next (((s.issued).post part (.hreq (s.ctxOf s.sel) (identOf s.sel s.slot) (s.sreg a) s.cur.fr)).wait .reply)

/-- Pushes a format word; a full queue traps (R234). -/
def execFmtp (a : BitVec 5) (s : State) : Out :=
  if 16 ≤ s.cur.fmtq.length then trapOut s { cause := 0x08 }
  else .next ((s.modCur (fun t => { t with fmtq := t.fmtq ++ [(s.sreg a).setWidth 32] })).retire 1)

/-- Places a mark in the journal; it stalls while 32 records are live (R327). -/
def execJmark (a : BitVec 5) (s : State) : Out :=
  if 32 ≤ s.cur.journal.length then .next (s.wait (.stall .journal))
  else .next ((s.modCur (fun t => (t.journalPush { kind := 2, value := s.sreg a }).settle)).retire 1)

/-- The engines whose queues a fence marks, in chain-free ascending order (R214). -/
def fenceEngines : List Nat := [0, 1, 3, 4, 5]

/-- Appends one marker to a queue, with its journal record (R214, R326). -/
def Stream.mark (t : Stream) (e kind scope : Nat) : Stream :=
  let m : Cmd := { j := t.jcnt.toNat, mark := some (kind, scope), pc := t.pc, aux := e }
  (t.journalPush { kind := 1, cmd := m }).setQueue e (t.queue e ++ [m])

/-- A fence: one marker in each of five queues, or a stall (R214). -/
def State.fence (s : State) (i : Instr) (kind : Nat) (scope : BitVec 3) (close : State → State) : Out :=
  checked i s <|
    let t := s.cur
    if (fenceEngines.any fun e => decide (16 ≤ (t.queue e).length)) || decide (32 < t.journal.length + 5) then
      .next (s.wait (.stall .fenceQueues))
    else
      .next ((close ((s.fenced kind s.sel s.slot t.jcnt.toNat scope.toNat).modCur (fun t =>
        fenceEngines.foldl (fun t e => t.mark e kind scope.toNat) t))).retire 1)

/-- A stream takes the pending fault of its lowest engine, when it is not in its handler (R316, R317). -/
def execTakeTrap (core slot : Nat) (s : State) : Out :=
  let t := s.stream core slot
  if s.runs core && !t.intrap && t.st != .free && !t.faults.isEmpty then .next (s.takePending core slot) else .next s

end Sys2Proof.Machine
end

