-- ==== Sys2Proof/Machine/Ring.lean ====
section
/-! DEFINITION. Rings, barriers, token signals and `chrd` (R165 to R192). -/

namespace Sys2Proof.Machine

/-- The slot word of sequence number `q` (R169). -/
def Ring.slotWord (g : Ring) (q : BitVec 32) : W64 :=
  let i := q.toNat % g.slots
  BitVec.ofNat 64 (q.toNat * 2 ^ 32 + i * 2 ^ 20 + g.base + i * g.size)

/-- The count word (R169). -/
def Ring.countWord (g : Ring) : W64 :=
  if g.slots = 0 then 0
  else BitVec.ofNat 64 (g.free * 2 ^ 48 + g.claimed * 2 ^ 36 + g.filled * 2 ^ 24 + g.taken * 2 ^ 12 + g.slots)

/-- What a ring operation comes to: the ring and the word it gives, a failed attempt, or misuse (R170, R171). -/
inductive RingRes where
  | ok (g : Ring) (w : W64)
  | fail
  | misuse

/-- Claims the next `n` free slots. -/
def Ring.claim (g : Ring) (n : Nat) : RingRes :=
  if n ≤ g.free then .ok { g with fp := g.fp + BitVec.ofNat 32 n, claims := g.claims + 1 } (g.slotWord g.fp) else .fail

/-- Publishes the `n` oldest claimed slots. -/
def Ring.publish (g : Ring) (n : Nat) : RingRes :=
  if n ≤ g.claimed then
    let g' := { g with pp := g.pp + BitVec.ofNat 32 n }
    .ok g' g'.countWord
  else .misuse

/-- Takes the `n` oldest published slots. -/
def Ring.take (g : Ring) (n : Nat) : RingRes :=
  if n ≤ g.filled then .ok { g with tp := g.tp + BitVec.ofNat 32 n } (g.slotWord g.tp) else .fail

/-- Returns the `n` oldest taken slots. -/
def Ring.release (g : Ring) (n : Nat) : RingRes :=
  if n ≤ g.taken then
    let g' := { g with rp := g.rp + BitVec.ofNat 32 n }
    .ok g' g'.countWord
  else .misuse

/-- Takes back the `n` newest published slots, with no claim open. -/
def Ring.back (g : Ring) (n : Nat) : RingRes :=
  if g.claimed ≠ 0 then .misuse
  else if n ≤ g.filled then
    let q := g.pp - BitVec.ofNat 32 n
    .ok { g with pp := q, fp := g.fp - BitVec.ofNat 32 n } (g.slotWord q)
  else .fail

/-- Whether the selected stream's context owns the home of a handle (R171). -/
def State.ringOwned (s : State) (r : Nat) : Bool := s.curCtx.owns (s.homeOf s.sel r)

/-- A ring or barrier operation of the selected core is counted (R337). -/
def State.ringEvent (s : State) : State := s.count (clusterOf s.sel) (s.acct s.sel) 44 1

/-- The order that a successful ring operation makes, with the sequence number of the first slot (R175). -/
inductive RingSync where
  | release (q : BitVec 32)
  | acquire (q : BitVec 32)
  | neither

/-- The slots of `n` sequence numbers from one on. -/
def Ring.slotsFrom (g : Ring) (q : BitVec 32) (n : Nat) : List Nat := (List.range n).map (fun i => (q.toNat + i) % max g.slots 1)

/-- The selected stream releases with the slots that it publishes or returns, or acquires what their publishers and those that returned
them released (R175). -/
def State.ringSync (s : State) (home r n : Nat) (g : Ring) : RingSync → State
  | .release q => s.releases s.sel s.slot ((g.slotsFrom q n).map (.ring home r))
  | .acquire q => s.acquires s.sel s.slot (fun x => (g.slotsFrom q n).any (fun i => x == .ring home r i))
  | .neither => s

/-- A ring instruction other than `rstat`: the home is owned, `n` fits the ring, and the operation is applied (R170, R171). -/
def State.ringOp (s : State) (i : Instr) (d ring : BitVec 5) (n : BitVec 12) (f : Ring → Nat → RingRes)
    (sync : Ring → RingSync) : Out :=
  checked i s <|
    if !s.ringOwned ring.toNat then trapOut s { cause := 0x05 }
    else
      let g := s.ring s.sel ring.toNat
      if g.slots = 0 || decide (g.slots < n.toNat) then trapOut s { cause := 0x0D }
      else
        match f g n.toNat with
        | .ok g' w =>
          let home := s.homeOf s.sel ring.toNat
          ((s.ringEvent.setRing home ring.toNat g').ringSync home ring.toNat n.toNat g (sync g)).writeS d w 1
        | .fail => s.ringEvent.writeS d (BitVec.allOnes 64) 1
        | .misuse => trapOut s { cause := 0x0D }

/-- `rclaim` (R170). -/
def execRclaim (d ring : BitVec 5) (n : BitVec 12) (s : State) : Out :=
  s.ringOp (.rclaim d ring n) d ring n Ring.claim (fun _ => .neither)

/-- `rpub` (R170). -/
def execRpub (d ring : BitVec 5) (n : BitVec 12) (s : State) : Out :=
  s.ringOp (.rpub d ring n) d ring n Ring.publish (fun g => .release g.pp)

/-- `rtake` (R170). -/
def execRtake (d ring : BitVec 5) (n : BitVec 12) (s : State) : Out :=
  s.ringOp (.rtake d ring n) d ring n Ring.take (fun g => .acquire g.tp)

/-- `rfree` (R170). -/
def execRfree (d ring : BitVec 5) (n : BitVec 12) (s : State) : Out :=
  s.ringOp (.rfree d ring n) d ring n Ring.release (fun g => .release g.rp)

/-- `rback` (R170). -/
def execRback (d ring : BitVec 5) (n : BitVec 12) (s : State) : Out :=
  s.ringOp (.rback d ring n) d ring n Ring.back (fun g => .acquire (g.pp - BitVec.ofNat 32 n.toNat))

/-- `rsteal`, which differs from `rtake` only in its place among operations of one cycle (R170, R172). -/
def execRsteal (d ring : BitVec 5) (n : BitVec 12) (s : State) : Out :=
  s.ringOp (.rsteal d ring n) d ring n Ring.take (fun g => .acquire g.tp)

/-- `rstat`: the count word; it makes no check of the ring (R171). -/
def execRstat (d ring : BitVec 5) (s : State) : Out :=
  checked (.rstat d ring) s <|
    if !s.ringOwned ring.toNat then trapOut s { cause := 0x05 }
    else s.ringEvent.writeS d (s.ring s.sel ring.toNat).countWord 1

/-- Whether a barrier is outside the selected context's allotment (R186). -/
def State.barForeign (s : State) (b : Nat) : Bool := !s.curCtx.hasBar (clusterOf s.sel) b

/-- Sets the expected count of a barrier with no arrival (R187). -/
def execBarinit (b : BitVec 8) (c : BitVec 12) (s : State) : Out :=
  checked (.barinit b c) s <|
    if s.barForeign b.toNat then trapOut s { cause := 0x05 }
    else
      let x := s.bar (clusterOf s.sel) b.toNat
      if x.arrival ≠ 0 then trapOut s { cause := 0x0D }
      else .next ((s.ringEvent.setBar (clusterOf s.sel) b.toNat { x with expected := c.toNat }).retire 1)

/-- One arrival at a barrier that expects some (R188). -/
def Bar.arrive (x : Bar) : Bar :=
  if x.arrival + 1 = x.expected then { x with arrival := 0, phase := !x.phase } else { x with arrival := x.arrival + 1 }

/-- An arrival at a barrier of a cluster: what the arrivals of the phase have released goes with its end (R188, R190). -/
def State.arriveAt (s : State) (i cl b : Nat) : State :=
  let x := s.bar cl b
  let s := s.setBar cl b x.arrive
  if x.arrival + 1 = x.expected then s.learn i (· == .arr cl b) [.bar cl b] else s

/-- A stream arrives at a barrier (R188). -/
def execBarv (b : BitVec 8) (s : State) : Out :=
  checked (.barv b) s <|
    if s.barForeign b.toNat then trapOut s { cause := 0x05 }
    else
      let x := s.bar (clusterOf s.sel) b.toNat
      if x.expected = 0 then trapOut s { cause := 0x0D }
      else
        .next (((s.ringEvent.releases s.sel s.slot [.arr (clusterOf s.sel) b.toNat]).arriveAt (s.ctxOf s.sel) (clusterOf s.sel) b.toNat).retire 1)

/-- The byte of TOKCNT of the counter that engine `e` signals in a direction, 1 being up (R176). -/
def tokByte (e dir : Nat) : Nat :=
  match e with
  | 4 => 0
  | 0 => if dir = 0 then 1 else 2
  | 1 => if dir = 0 then 3 else 4
  | 2 => if dir = 0 then 5 else 6
  | _ => 7

/-- Adds to a token counter; a signal past 255 is dropped with cause 0x0C (R179, R180). -/
def execTsig (eng : BitVec 4) (dir : BitVec 1) (cnt : BitVec 12) (s : State) : Out :=
  checked (.tsig eng dir cnt) s <|
    let i := tokByte eng.toNat dir.toNat
    let n := s.cur.tokAt i + cnt.toNat
    if 255 < n then trapOut s { cause := 0x0C, stat := i * 256 + cnt.toNat }
    else .next ((s.modCur (·.setTok i n)).retire 1)

/-- Pops an entry of a channel wired to the sequencer: lanes 0 and 1 where their mask bits are set.  On an empty channel the
block ends and the stream waits (R184). -/
def execChrd (d : BitVec 5) (c : BitVec 14) (s : State) : Out :=
  checked (.chrd d c) s <|
    if !s.curCtx.mayPop 6 c.toNat then trapOut s illegal
    else
      match s.chan s.sel c.toNat with
      | [] => .next (s.wait (.chan c.toNat))
      | e :: rest =>
        let l0 : W32 := if e.mask.getLsbD 0 then e.data.extractLsb' 0 32 else 0
        let l1 : W32 := if e.mask.getLsbD 1 then e.data.extractLsb' 32 32 else 0
        ((s.setChan s.sel c.toNat rest).countCore s.sel 7 1).writeS d (l1 ++ l0) 1

end Sys2Proof.Machine
end

