-- ==== Sys2Proof/Machine/Wait.lean ====
section
/-! DEFINITION. The wait instructions (R87, R88), and a waiting stream whose condition comes to hold (R62). -/

namespace Sys2Proof.Machine

/-- A wait instruction ends the block; its condition is tested afterwards (R63, R87). -/
def State.waitOn (s : State) (w : Wait) : Out := .next ((s.issued).wait w)

/-- Waits for token counts (R87). -/
def execWtok (eng : BitVec 4) (dir : BitVec 1) (cnt : BitVec 12) (s : State) : Out :=
  checked (.wtok eng dir cnt) s (s.waitOn (.tok (tokByte eng.toNat dir.toNat) cnt.toNat))

/-- A wait on a ring whose home is owned and that has as many slots (R88, R171). -/
def State.waitRing (s : State) (r n : Nat) (w : Wait) : Out :=
  if !s.ringOwned r then trapOut s { cause := 0x05 }
  else if (s.ring s.sel r).slots < n then trapOut s { cause := 0x0D }
  else s.waitOn w

/-- Waits for published slots (R87). -/
def execWfil (ring : BitVec 8) (n : BitVec 12) (s : State) : Out :=
  checked (.wfil ring n) s (s.waitRing ring.toNat n.toNat (.fil ring.toNat n.toNat))

/-- Waits for free slots (R87). -/
def execWfre (ring : BitVec 8) (n : BitVec 12) (s : State) : Out :=
  checked (.wfre ring n) s (s.waitRing ring.toNat n.toNat (.fre ring.toNat n.toNat))

/-- Waits for a barrier's phase (R87, R186, R189). -/
def execWbar (b : BitVec 8) (p : BitVec 1) (s : State) : Out :=
  checked (.wbar b p) s <|
    if s.barForeign b.toNat then trapOut s { cause := 0x05 } else s.waitOn (.bar b.toNat p.toNat)

/-- A stream's request for the slab lease (R230). -/
def Stream.request (t : Stream) (now : Nat) : Stream := { t with lease := .requested, reqAt := now, renew := false }

/-- Waits for the slab lease: a lapsed stream requests it, and one that has no lease and no `lease` queued traps (R88, R230). -/
def execWlse (s : State) : Out :=
  match s.cur.lease with
  | .none => if (s.cur.queue 1).any Cmd.isLease then s.waitOn .lse else trapOut s { cause := 0x0E }
  | .lapsed => (s.modCur (·.request s.now)).waitOn .lse
  | _ => s.waitOn .lse

/-- The waiting stream of a slot becomes ready when its condition holds, with what it consumes consumed, unless it has a fault to take
first (R62, R87, R316). -/
def execWaitConditionMet (core slot : Nat) (s : State) : Out :=
  match (s.stream core slot).st with
  | .waiting w =>
    if s.runs core && !(s.stream core slot).mustTrap && s.condHolds core slot w then
      .next ((s.woken core slot w .ready).notePlace (s.waitPlace core slot w))
    else .next s
  | _ => .next s

end Sys2Proof.Machine
end

