-- ==== Sys2Proof/Machine/Idx.lean ====
section
/-! DEFINITION. The index engine: its dispatch checks, and the effect of one unit of each command (R291 to R304). -/

namespace Sys2Proof.Machine

/-! ## Dispatch (R291, R292) -/

/-- Fields of the shape word. -/
def shapeN (c : W64) : Nat := fld c.toNat 47 32
def shapeRb (c : W64) : Nat := fld c.toNat 31 0

/-- Whether a row size is out of its limits. -/
def rowSizeBad (rb : Nat) : Bool := rb % 4 != 0 || decide (rb < 4) || decide (65536 < rb)

/-- Whether a shape word breaks its rules (R292). -/
def shapeBad (c : W64) : Bool :=
  fld c.toNat 63 48 != 0 || decide (shapeN c < 1) || decide (4096 < shapeN c) || rowSizeBad (shapeRb c)

/-- Fields of the summary shape word (R303). -/
def sumN (c : W64) : Nat := fld c.toNat 63 48
def sumRows (c : W64) : Nat := fld c.toNat 47 32

/-- Whether a summary shape word breaks its rules. -/
def sumShapeBad (c : W64) : Bool :=
  decide (sumN c < 1) || decide (4096 < sumN c) || decide (sumRows c < 1) || rowSizeBad (shapeRb c)

/-- The trap of a barrier operand that the context does not hold (R291). -/
def State.barTrap (s : State) (f : EF) : Option Trap := bad (f.y.getLsbD 4 && s.barForeign (f.y.toNat % 16)) { cause := 0x05 }

/-- The whole address space as a span (R295). -/
def allSpan : Span := { lo := 0, hi := 2 ^ 60 }

/-- The dispatch of `gath`, `scat` and `ixpage`: `ch` gives the channel form, `g` the global span. -/
def State.prepRows (s : State) (f : EF) (ch : Bool) (g : Span) (m : Cmd) : Except Trap Prep :=
  let n := shapeN m.c
  let ix := (m.b.toNat, m.b.toNat + 4 * n)
  let area := (m.addr.toNat, m.addr.toNat + n * shapeRb m.c)
  prepWith
    [bad (shapeBad m.c || m.a.toNat % 4 != 0 || m.b.toNat % 4 != 0 || (!ch && m.addr.toNat % 4 != 0)) illegal,
     s.barTrap f, if ch then spadTrap s.jnl [ix] else s.slotRangesAnd f.ad.toNat [area] [ix]]
    { cmd := { m with
        gspan := [g]
        sspan := { lo := ix.1, hi := ix.2 } :: (if ch then [] else [{ lo := area.1, hi := area.2 }]) }
      post := postRegOf f }

/-- The span of rows that an index can name (R295). -/
def rowsSpan (m : Cmd) : Span := { lo := m.a.toNat, hi := min (2 ^ 60) (m.a.toNat + 2 ^ 32 * shapeRb m.c) }

/-- The checks and the entry of the dispatch of `gath`. -/
def State.prepGath (s : State) (f : EF) (m : Cmd) : Except Trap Prep :=
  let ch := f.sub.getLsbD 0
  s.prepRows f ch (rowsSpan m) m

/-- `gath` (R298). -/
def execGath (f : EF) (s : State) : Out :=
  let ch := f.sub.getLsbD 0
  s.dispatchE (.gath f) f 4 (!ch || s.wiredPush 4 f.x.toNat) (s.prepGath f)

/-- The checks and the entry of the dispatch of `scat`. -/
def State.prepScat (s : State) (f : EF) (m : Cmd) : Except Trap Prep :=
  s.prepRows f false (rowsSpan m) m

/-- `scat` (R299). -/
def execScat (f : EF) (s : State) : Out := s.dispatchE (.scat f) f 4 true (s.prepScat f)

/-- The checks and the entry of the dispatch of `ixpage`. -/
def State.prepIxpage (s : State) (f : EF) (m : Cmd) : Except Trap Prep :=
  let ch := f.sub.getLsbD 0
  s.prepRows f ch allSpan m

/-- `ixpage` (R300). -/
def execIxpage (f : EF) (s : State) : Out :=
  let ch := f.sub.getLsbD 0
  s.dispatchE (.ixpage f) f 4 (!ch || s.wiredPush 4 f.x.toNat) (s.prepIxpage f)

/-- The checks and the entry of the dispatch of `ixlist`. -/
def State.prepIxlist (s : State) (f : EF) (m : Cmd) : Except Trap Prep :=
  let r := f.x.toNat
  let h := s.homeOf s.sel r
  let g := s.ring s.sel r
  prepWith
    [bad (shapeBad m.c || m.a.toNat % 4 != 0) illegal, s.barTrap f, bad (!s.ringOwned r) { cause := 0x05 },
     bad (g.slots == 0 || decide (g.size < shapeRb m.c + 16)) { cause := 0x0D }]
    { cmd := { m with gspan := [allSpan], ring := some (h, g.slots, g.size, g.base, r) } }

/-- `ixlist` (R301): the ring's geometry is captured at dispatch. -/
def execIxlist (f : EF) (s : State) : Out := s.dispatchE (.ixlist f) f 4 true (s.prepIxlist f)

/-- The checks and the entry of the dispatch of `ixsum`. -/
def State.prepIxsum (s : State) (f : EF) (m : Cmd) : Except Trap Prep :=
  let rb := shapeRb m.c
  let out := (m.addr.toNat, m.addr.toNat + 2 * sumN m.c * rb)
  prepWith
    [bad (sumShapeBad m.c || m.a.toNat % 4 != 0 || m.b.toNat % 4 != 0 || m.addr.toNat % 4 != 0) illegal,
     s.barTrap f, s.slotRanges f.ad.toNat [out]]
    { cmd := { m with
        gspan := [{ lo := m.a.toNat, hi := m.a.toNat + sumN m.c * m.b.toNat + sumRows m.c * rb }]
        sspan := [{ lo := out.1, hi := out.2 }] }
      post := postRegOf f }

/-- `ixsum` (R303). -/
def execIxsum (f : EF) (s : State) : Out := s.dispatchE (.ixsum f) f 4 true (s.prepIxsum f)

/-! ## Accesses (R200, R294) -/

/-- How a unit fails: cause, status word and the lowest address of the failing access. -/
structure IdxFail where
  cause : Nat := 0x06
  stat : Nat := 0
  va : Nat := 0

/-- Translates one access when it issues. -/
def State.idxPin (s : State) (c va : Nat) (wr : Bool) : Except (IdxFail × State) (Pin × State) :=
  if 2 ^ 60 ≤ va then .error ({ stat := 4 * 256, va := va }, s)
  else
    match s.fill (dieOf c) (s.ctxOf c) va with
    | .error (e, s) => .error (if e.bad then { cause := 0x12, va := va } else { stat := e.reason * 256 + e.level, va := va }, s)
    | .ok (e, s) =>
      if wr && !e.w then .error ({ stat := 0x12 * 256, va := va }, s)
      else if !wr && !e.r then .error ({ stat := 0x11 * 256, va := va }, s)
      else .ok (e.pin, s)

/-- Accesses that one row can take: at most 1,025, and one more to end. -/
def rowFuel : Nat := 1026

/-- Bytes from an address to the next multiple of 64, at most `n`. -/
def pieceLen (va n : Nat) : Nat := min n (64 - va % 64)

/-- The accesses of up to 64 bytes that a range of global memory is made in. -/
def idxPieces (va n : Nat) : List (Nat × Nat) := (linePieces va n).map (fun p => (va + p.1, p.2))

/-- Reads `n` bytes in accesses of up to 64; a line with an uncorrectable error fails the unit, or with `late` is noted. -/
def State.idxRead (s : State) (c : Nat) (m : Cmd) (va n : Nat) (late : Bool) : Nat → Except (IdxFail × State) (List Byte × Option Nat × State)
  | 0 => .ok ([], none, s)
  | fuel + 1 =>
    if n = 0 then .ok ([], none, s)
    else
      match s.idxPin c va false with
      | .error e => .error e
      | .ok (p, s) =>
        let k := pieceLen va n
        let (bs, isBad, s) := ((s.countCore c 5 1).leaving c (p.pa va) k).portRead (dieOf c) (s.acct c) (p.pa va) k
        let (bs, s) := s.memSeen (m.mover c) (p.pa va) bs
        if isBad && !late then .error ({ cause := 0x12, va := va }, s)
        else
          match State.idxRead s c m (va + k) (n - k) late fuel with
          | .error e => .error e
          | .ok (r, b, s) => .ok (bs ++ r, if isBad then some va else b, s)

/-- Translates the accesses of a write: each with its physical page. -/
def State.idxWritePins (s : State) (c va n : Nat) : Nat → Except (IdxFail × State) (List (Nat × Nat × Pin) × State)
  | 0 => .ok ([], s)
  | fuel + 1 =>
    if n = 0 then .ok ([], s)
    else
      match s.idxPin c va true with
      | .error e => .error e
      | .ok (p, s) =>
        let k := pieceLen va n
        match State.idxWritePins s c (va + k) (n - k) fuel with
        | .error e => .error e
        | .ok (r, s) => .ok ((va, k, p) :: r, s)

/-- A unit of a command fails (R296); what it had read is dropped. -/
def State.idxFault (s : State) (c k : Nat) (f : Flight) (e : IdxFail) : State :=
  (s.modStream c k (·.modFlight f.cmd.j (fun g => { g with row := [], rowBad := none }))).unitFault c k f e.cause e.stat e.va

/-! ## Units -/

/-- The index of unit `u`. -/
def State.idxOf (s : State) (c : Nat) (m : Cmd) (u : Nat) : Nat := s.spadWord c (m.b.toNat + 4 * u)

/-- Null (R293). -/
def nullIndex : Nat := 0xFFFFFFFF

/-- The source of unit `u` of a gather: none for a null unit. -/
def State.idxSource (s : State) (c : Nat) (m : Cmd) (u : Nat) : Except (IdxFail × State) (Option Nat × State) :=
  let i := s.idxOf c m u
  if i = nullIndex then .ok (none, s)
  else
    match m.i with
    | .ixpage _ =>
      match s.idxRead c m (m.a.toNat + 8 * i) 8 false rowFuel with
      | .error e => .error e
      | .ok (bs, _, s) =>
        let e := leNat bs
        .ok (if e = 0 then none else some (e / 4 * 4), s)
    | _ => .ok (some (m.a.toNat + i * shapeRb m.c), s)

/-- The row of unit `u`: its bytes, none for a null unit. -/
def State.idxRow (s : State) (c : Nat) (m : Cmd) (u : Nat) : Except (IdxFail × State) (Option (List Byte) × State) :=
  match s.idxSource c m u with
  | .error e => .error e
  | .ok (none, s) => .ok (none, s)
  | .ok (some va, s) =>
    match s.idxRead c m va (shapeRb m.c) false rowFuel with
    | .error e => .error e
    | .ok (bs, _, s) => .ok (some bs, s)

/-- The channel entry of one piece of a row; a null row, held as no bytes, has every mask bit clear (R298). -/
def pieceEntry (row : List Byte) (e : Nat) : ChEntry :=
  let bs := (row.drop (256 * e)).take 256
  { data := BitVec.ofNat 2048 (leNat bs), mask := BitVec.ofNat 64 (2 ^ (bs.length / 4) - 1) }

/-- A unit of `gath` or `ixpage`; in the channel form its entries go in one by one, from the row that the unit has read. -/
def State.unitGath (s : State) (c k : Nat) (f : Flight) : State :=
  let m := f.cmd
  let rb := shapeRb m.c
  let ch := m.ef.sub.getLsbD 0
  let x := m.ef.x.toNat
  if ch && !s.chanRoom c x then s
  else
    let got : Except (IdxFail × State) (Option (List Byte) × State) := if f.piece = 0 then s.idxRow c m f.cursor else .ok (some f.row, s)
    match got with
    | .error (e, s) => s.idxFault c k f e
    | .ok (r, s) =>
      if ch then
        let row := r.getD []
        let s := s.pushFor c k m.j x (pieceEntry row f.piece)
        if (f.piece + 1) * 256 < rb then s.modStream c k (·.modFlight m.j (fun g => { g with piece := g.piece + 1, row := row }))
        else s.advance c k m.j
      else (s.spadStore c (m.addr.toNat + f.cursor * rb) (r.getD (List.replicate rb 0))).advance c k m.j

/-- A unit of `scat` (R299). -/
def State.unitScat (s : State) (c k : Nat) (f : Flight) : State :=
  let m := f.cmd
  let rb := shapeRb m.c
  let i := s.idxOf c m f.cursor
  if i = nullIndex then s.advance c k m.j
  else
    let va := m.a.toNat + i * rb
    match s.idxWritePins c va rb rowFuel with
    | .error (e, s) => s.idxFault c k f e
    | .ok (ps, s') =>
      let src := m.addr.toNat + f.cursor * rb
      (ps.foldl (fun s p =>
        (s.portWrite (m.mover c) (s.acct c) (p.2.2.pa p.1) p.2.2.cmp (s.spadBytes c (src + (p.1 - va)) p.2.1)).countCore c 5 1)
        s').advance c k m.j

/-- The slot of a captured ring at a sequence number, in the home's scratchpad. -/
def slotAddr (g : Nat × Nat × Nat × Nat × Nat) (q : Nat) : Nat := g.2.2.2.1 + q % max g.2.1 1 * g.2.2.1

/-- The bytes of a slot (R301). -/
def listSlot (tag : List Byte) (i : Nat) (payload : List Byte) : List Byte := tag ++ leBytes 4 i ++ leBytes 4 0 ++ payload

/-- The bytes of a slot that another agent may have claimed too: each of its earlier values, of what has been stored there since, or of what
a command of IDX writes (R302). -/
def State.slotMix (s : State) (c k h : Nat) (m : Cmd) (a : Nat) (bs : List Byte) (draw : Nat) : List Byte :=
  bs.zipIdx.map (fun e =>
    let x := a + e.2
    let o := (openAt (fun d => d.before c k m true) s.deeds (s.ctxOf c) h x).map (·.oldAt x) ++ [(s.core h).spad.read x]
    o.getD (o.length - Config.pick draw x % (o.length + 1)) e.1)

/-- A unit of `ixlist` (R301, R302): first its record and payload are read and a slot is claimed, by the slot count read at
dispatch; then the slot is written and published.  The journal keeps the claim, so that a unit which a supply loss has cut short reuses it when
it is replayed, as one repeated after cause 0x12 does (R302, R304; DESIGN CHOICE, log entry 35).  Where another agent has claimed too, each byte of the slots is one of their earlier
values, the other agent's and IDX's. -/
def State.unitIxlist (s : State) (c k : Nat) (f : Flight) : State :=
  let m := f.cmd
  let g := m.ring.getD (c, 1, 16, 0, 0)
  let ring := (s.core g.1).ring g.2.2.2.2
  if f.piece = 0 then
    match s.idxRead c m (m.a.toNat + 16 * f.cursor) 16 false rowFuel with
    | .error (e, s) => s.idxFault c k f e
    | .ok (rec, _, s') =>
      let va := leNat (rec.take 8)
      let rb := shapeRb m.c
      let got : Except (IdxFail × State) (List Byte × Option Nat × State) :=
        if va = 0 then .ok (List.replicate rb 0, none, s') else s'.idxRead c m va rb true rowFuel
      match got with
      | .error (e, s) => s.idxFault c k f e
      | .ok (bs, isBad, s') =>
        if f.claim.isNone && g.2.1 - (ring.fp - ring.rp).toNat = 0 then s
        else
          let q := f.claim.getD ring.fp.toNat
          let s' := if f.claim.isNone then
              (s'.setRing g.1 g.2.2.2.2 { ring with fp := ring.fp + 1, claims := ring.claims + 1 }).count (clusterOf c) (s.acct c) 44 1
            else s'
          let no := if f.claim.isNone then ring.claims + 1 else f.claimNo
          s'.modStream c k (fun t => (t.modFlight m.j (fun x =>
            { x with piece := 1, claim := some q, row := listSlot (rec.drop 8) f.cursor bs, rowBad := isBad, claimNo := no })).modJrec m.j
              (fun r => { r with cmd := { r.cmd with claim := some (q, no) } }))
  else
    match f.rowBad with
    | some va => (s.modStream c k (·.modFlight m.j (fun x => { x with piece := 0 }))).idxFault c k f { cause := 0x12, va := va }
    | none =>
      let q := f.claim.getD 0
      let sole := ring.pp.toNat == q && ring.claims == f.claimNo
      let put := fun (m' : Memory) (a draw : Nat) =>
        m'.store a (if sole then f.row else s.slotMix c k g.1 m a f.row draw)
      let own := put (s.core g.1).spad (slotAddr g q) s.draws
      let (new, s2) : Memory × State := match ring.publish 1 with
        | .ok g' _ =>
          (if sole then own else put own (slotAddr g ring.pp.toNat) (s.draws + 1), s.setRing g.1 g.2.2.2.2 g')
        | _ => (own, s)
      let s2 := s2.modCore g.1 (fun x => { x with spad := new })
      ((({ s2 with draws := s2.draws + 2 } : State).count (clusterOf c) (s.acct c) 44 1).advance c k m.j).modStream c k
        (fun t => t.modJrec m.j (fun r => { r with cmd := { r.cmd with aux := f.cursor + 1, claim := none } }))

/-- The lesser and the greater of two codes of a type, by R75's rules for floating point and signed for integers. -/
def sumPick (g : Fmt) (wantMax : Bool) (a b : Nat) : Nat :=
  if g.isInt then
    let lt := decide (signedOf g.width a < signedOf g.width b)
    if lt == wantMax then b else a
  else
    let x := g.decode a
    let y := g.decode b
    roundTo g (if wantMax then x.max y else x.min y) .rne 0 false

/-- The minimum and the maximum so far, joined with a code. -/
def sumJoin (g : Fmt) (a : Option (Nat × Nat)) (x : Nat) : Nat × Nat :=
  match a with
  | none => (sumPick g false x x, sumPick g true x x)
  | some p => (sumPick g false p.1 x, sumPick g true p.2 x)

/-- Reads the rows of a page in turn, with the element-wise minimum and maximum so far. -/
def State.sumRowsOf (s : State) (c : Nat) (m : Cmd) (va stride rb : Nat) (g : Fmt) (acc : List (Nat × Nat)) :
    Nat → Except (IdxFail × State) (List (Nat × Nat) × State)
  | 0 => .ok (acc, s)
  | n + 1 =>
    match s.idxRead c m va rb false rowFuel with
    | .error e => .error e
    | .ok (bs, _, s) =>
      let w := g.width / 8
      let codes := (List.range (rb / w)).map (fun i => leNat ((bs.drop (w * i)).take w))
      let acc := if acc.isEmpty then codes.map (sumJoin g none) else (acc.zip codes).map (fun p => sumJoin g (some p.1) p.2)
      State.sumRowsOf s c m (va + stride) stride rb g acc n

/-- A unit of `ixsum` (R303). -/
def State.unitIxsum (s : State) (c k : Nat) (f : Flight) : State :=
  let m := f.cmd
  let rb := shapeRb m.c
  let g := fmtAt m.ef.imm.toNat
  match s.sumRowsOf c m (m.a.toNat + f.cursor * m.b.toNat) rb rb g [] (sumRows m.c) with
  | .error (e, s) => s.idxFault c k f e
  | .ok (l, s) =>
    let w := g.width / 8
    let row := fun (sel : Nat × Nat → Nat) => l.flatMap (fun p => leBytes w (sel p))
    ((s.spadStore c (m.addr.toNat + 2 * f.cursor * rb) (row (·.1))).spadStore c (m.addr.toNat + (2 * f.cursor + 1) * rb)
      (row (·.2))).advance c k m.j

/-- Units of an IDX command (R295). -/
def idxUnits (m : Cmd) : Nat :=
  match m.i with
  | .ixsum _ => sumN m.c
  | _ => shapeN m.c

/-- The next unit of an IDX command, or its next piece. -/
def State.idxUnit (s : State) (c k : Nat) (f : Flight) : State :=
  match f.cmd.i with
  | .scat _ => s.unitScat c k f
  | .ixlist _ => s.unitIxlist c k f
  | .ixsum _ => s.unitIxsum c k f
  | _ => s.unitGath c k f

/-- Whether the later units of a command have destination bytes that are open when one fails (R295). -/
def hasAhead (m : Cmd) : Bool :=
  match m.i with
  | .gath f | .ixpage f => !f.sub.getLsbD 0
  | .scat _ | .ixsum _ => true
  | _ => false

/-- Bytes of which each is taken or not, in runs with their offsets. -/
def freeRuns (bs : List Byte) (n : Nat) : List (Nat × List Byte) :=
  entryRuns ((bs.zipIdx.filter (fun e => Config.pick n e.2 % 2 == 1)).map (fun e => (e.2, [e.1])))

/-- A later unit of a `scat` that has failed at an earlier one has written some of its bytes, where its accesses translate. -/
def State.scatAhead (s : State) (c : Nat) (m : Cmd) (u : Nat) : State :=
  let rb := shapeRb m.c
  let i := s.idxOf c m u
  let va := m.a.toNat + i * rb
  if i = nullIndex then s
  else
    (idxPieces va rb).foldl (fun s e =>
      match s.idxWritePins c e.1 e.2 rowFuel with
      | .error _ => s
      | .ok (ps, s) => ps.foldl (fun s p =>
        ((freeRuns (s.spadBytes c (m.addr.toNat + u * rb + (p.1 - va)) p.2.1) s.draws).foldl (fun s e =>
          s.portWrite (m.mover c) (s.acct c) (p.2.2.pa p.1 + e.1) p.2.2.cmp e.2) s).draw.countCore c 5 1) s) s

/-- What the accesses of a read find that translate, with their offsets. -/
def State.readAhead (s : State) (c : Nat) (m : Cmd) (va n : Nat) : List (Nat × List Byte) × State :=
  (idxPieces va n).foldl (fun (acc : List (Nat × List Byte) × State) e =>
    match acc.2.idxRead c m e.1 e.2 true rowFuel with
    | .error (_, s) => (acc.1, s)
    | .ok (bs, _, s) => (acc.1 ++ [(e.1 - va, bs)], s)) ([], s)

/-- The code of element `i` of a row, where the accesses that have translated hold it. -/
def codeIn (w i : Nat) (l : List (Nat × List Byte)) : Option Nat :=
  (l.find? (fun e => decide (e.1 ≤ w * i) && decide (w * i + w ≤ e.1 + e.2.length))).map (fun e => leNat ((e.2.drop (w * i - e.1)).take w))

/-- The summaries of a page, of the elements that the accesses of every row find. -/
def State.sumAhead (s : State) (c : Nat) (m : Cmd) (va : Nat) : List (Nat × List Byte) × State :=
  let rb := shapeRb m.c
  let g := fmtAt m.ef.imm.toNat
  let w := g.width / 8
  let p := (List.range (sumRows m.c)).foldl (fun (acc : List (List (Nat × List Byte)) × State) r =>
    let q := acc.2.readAhead c m (va + r * rb) rb
    (acc.1 ++ [q.1], q.2)) ([], s)
  let sums := (List.range (rb / w)).filterMap (fun i =>
    let l := p.1.map (codeIn w i)
    if l.all (·.isSome) then
      ((l.filterMap id).foldl (fun a x => some (sumJoin g a x)) (none : Option (Nat × Nat))).map (fun q => (w * i, q))
    else none)
  (sums.map (fun e => (e.1, leBytes w e.2.1)) ++ sums.map (fun e => (rb + e.1, leBytes w e.2.2)), p.2)

/-- What a later unit of a command whose destination is scratchpad would write, as far as it can be read, at offsets from its destination:
a row, as far as its accesses translate, or the summaries of a page, where all its rows do. -/
def State.aheadBytes (s : State) (c : Nat) (m : Cmd) (u : Nat) : List (Nat × List Byte) × State :=
  let rb := shapeRb m.c
  match m.i with
  | .ixsum _ => s.sumAhead c m (m.a.toNat + u * m.b.toNat)
  | _ =>
    match s.idxSource c m u with
    | .error (_, s) => ([], s)
    | .ok (none, s) => ([(0, List.replicate rb 0)], s)
    | .ok (some va, s) => s.readAhead c m va rb

/-- A later unit of a command whose destination is scratchpad has written some of its bytes. -/
def State.spadAhead (s : State) (c k : Nat) (m : Cmd) (u : Nat) : State :=
  let len := match m.i with
    | .ixsum _ => 2 * shapeRb m.c
    | _ => shapeRb m.c
  let was := s.stream c k
  let p := s.aheadBytes c m u
  let t := p.2.modStream c k (fun v => { v with gained := was.gained })
  (t.modSpad c (fun _ => p.1.foldl (fun sp e =>
    sp.mixStore (m.addr.toNat + u * len + e.1) e.2 (s.draws + e.1)) (s.core c).spad)).draw

/-- When a unit fails, later units may have begun: of the destination bytes of each, some hold already what it writes (R295). -/
def State.idxAhead (s : State) (c k : Nat) (f : Flight) : State :=
  match (s.stream c k).flight? f.cmd.j with
  | none => s
  | some g =>
    if !g.failed || !hasAhead f.cmd then s
    else
      (List.range (g.units - (g.cursor + 1))).foldl (fun s i =>
        let u := g.cursor + 1 + i
        if Config.freeBit s.draws then
          match g.cmd.i with
          | .scat _ => s.draw.scatAhead c g.cmd u
          | _ => s.draw.spadAhead c k g.cmd u
        else s.draw) s

/-- The slot that a unit of `ixlist` is about to publish: home, ring, slot, address and bytes. -/
def State.idxPublish (s : State) (f : Flight) : Option (Nat × Nat × Nat × Nat × Nat) :=
  match f.cmd.i, f.cmd.ring with
  | .ixlist _, some g =>
    let ring := (s.core g.1).ring g.2.2.2.2
    match ring.publish 1 with
    | .ok _ _ => 
      if f.piece = 0 || f.rowBad.isSome then none
      else some (g.1, g.2.2.2.2, ring.pp.toNat % max ring.slots 1, slotAddr g ring.pp.toNat, f.row.length)
    | _ => none
  | _, _ => none

/-! ## The accesses of a unit -/

/-- The address and bytes of what a unit finds at an address, for its further accesses. -/
def State.idxPeek (s : State) (c : Nat) (m : Cmd) (va n : Nat) : Nat :=
  match s.idxRead c m va n true rowFuel with
  | .ok (bs, _, _) => leNat bs
  | .error _ => 0

/-- The ranges of scratchpad, and the accesses of global memory, that a unit of an IDX command makes. -/
def State.idxSpans (s : State) (c : Nat) (f : Flight) : List (Nat × Nat) × List (Nat × Nat) :=
  let m := f.cmd
  let u := f.cursor
  let rb := shapeRb m.c
  let a := m.a.toNat
  let i := s.idxOf c m u
  let word := (m.b.toNat + 4 * u, 4)
  let area := (m.addr.toNat + u * rb, rb)
  match m.i with
  | .gath e => (word :: (if e.sub.getLsbD 0 then [] else [area]), if i = nullIndex then [] else idxPieces (a + i * rb) rb)
  | .scat _ => if i = nullIndex then ([word], []) else ([word, area], idxPieces (a + i * rb) rb)
  | .ixpage e =>
    let p := s.idxPeek c m (a + 8 * i) 8
    (word :: (if e.sub.getLsbD 0 then [] else [area]),
      if i = nullIndex then []
      else idxPieces (a + 8 * i) 8 ++ (if p = 0 then [] else idxPieces (p / 4 * 4) rb))
  | .ixlist _ =>
    if f.piece = 0 then
      let va := s.idxPeek c m (a + 16 * u) 8
      ([], idxPieces (a + 16 * u) 16 ++ (if va = 0 then [] else idxPieces va rb))
    else ([(slotAddr (m.ring.getD (c, 1, 16, 0, 0)) (f.claim.getD 0), rb + 16)], [])
  | .ixsum _ =>
    ([(m.addr.toNat + 2 * u * rb, 2 * rb)],
      (List.range (sumRows m.c)).flatMap (fun r => idxPieces (a + u * m.b.toNat + r * rb) rb))
  | _ => ([], [])

end Sys2Proof.Machine
end

