-- ==== Sys2Proof/Machine/Sysreg.lean ====
section
/-! DEFINITION. The system registers (R78, R136, R166, R181, R183, R189, R209, R266, R268, R281, R311 to R315, R339, R342, R344, R357,
R376). -/

namespace Sys2Proof.Machine

/-- VSTAT (R136).  A flag whose instruction has not completed reads as set or not (log entry 6). -/
def State.vstat (s : State) : W64 :=
  let t := s.cur
  let pend (k : Nat) : Bool := (t.pend.any fun w => w.dst == .vstat && w.mask.getLsbD k) && Config.freeBit s.draws
  BitVec.ofNat 64 (t.rrb * 2 ^ 8 + t.prb * 2 ^ 4 + (if t.dqmiss || pend 1 then 2 else 0) + (if t.olclamp || pend 0 then 1 else 0))

/-- MODE (R313). -/
def State.modeWord (s : State) : W64 := BitVec.ofNat 64 ((if s.cur.exp then 2 else 0) + (if s.exactBit then 1 else 0))

/-- RINGD_N: the home, and the geometry at the home (R166). -/
def State.ringd (s : State) (n : Nat) : W64 :=
  let g := s.ring s.sel n
  BitVec.ofNat 64 (s.homeOf s.sel n % 4 * 2 ^ 48 + g.slots * 2 ^ 36 + (g.size / 16 - 1) * 2 ^ 24 + g.base)

/-- BARST_N (R189). -/
def Bar.word (b : Bar) : W64 :=
  BitVec.ofNat 64 ((if b.phase then 2 ^ 24 else 0) + b.arrival * 2 ^ 12 + b.expected)

/-- DROOP_THR (R342). -/
def State.droopWord (s : State) : W64 :=
  let cl := clusterOf s.sel
  BitVec.ofNat 64 (min (s.cluster cl).alarms 65535 * 2 ^ 24 + s.thrOf cl * 2 ^ 16 + s.curCtx.thr)

/-- PWR_LEVEL (R344). -/
def State.pwrWord (s : State) : W64 :=
  let i := s.ctxOf s.sel
  let d := dieOf s.sel
  BitVec.ofNat 64 (s.pointOf d * 2 ^ 28 + (s.die d).target * 2 ^ 24 + ((s.cluster (clusterOf s.sel)).norm s.now).pattern.toNat * 2 ^ 8 +
    s.countedVote i d * 2 ^ 4 + (s.ctx i).req.getD d 0 * 2 ^ 2 + s.levelOf i d)

/-- MS_ALLOW (R357). -/
def State.msAllow (s : State) : W64 :=
  let x := s.curCtx
  let d := dieOf s.sel
  BitVec.ofNat 64 ((15360 - s.charged d) * 2 ^ 40 + x.cfg.charge d * 2 ^ 24 + x.cfg.musts.foldl (fun n m => n ||| 2 ^ m.id) 0)

/-- TRANGE (R266). -/
def State.trange (s : State) : W64 :=
  let k := s.curCtx.coreCfg s.sel
  BitVec.ofNat 64 (k.tcount * 2 ^ 12 + k.tbase)

/-- FOLDST (R281). -/
def State.foldst (s : State) : W64 :=
  let rfl := ((s.cluster (clusterOf s.sel)).refresh.filter (fun e => e.2 == s.sel % 4)).length
  BitVec.ofNat 64 (rfl * 2 ^ 16 + (s.core s.sel).esc.length)

/-! ## The capability list (R376, log entry 11) -/

/-- The records of the capability list, with all seven features present. -/
def capList : List CapRec :=
  [⟨1, 1, 4096⟩, ⟨2, 1, 512 * 2 ^ 16 + 256⟩, ⟨3, 1, 0⟩, ⟨4, 1, 64⟩, ⟨5, 1, 4096⟩, ⟨6, 1, 0⟩, ⟨7, 1, 960⟩]

/-- The records with their indexes in the window, and the index of the next one, 0 at the end.  They stand at indexes 1 to 7 in the order of
their identities: R376 leaves the indexes after the first to the fuses (DESIGN CHOICE, log entry 11). -/
def capRecords : List (Nat × CapRec × Nat) :=
  capList.zipIdx.map (fun e => (e.2 + 1, e.1, if e.2 + 1 < capList.length then e.2 + 2 else 0))

/-- A record as the window holds it. -/
def capRecWord (r : CapRec) (next : Nat) : Nat := r.ident + r.version * 2 ^ 16 + next * 2 ^ 24 + r.payload * 2 ^ 32

/-- Record `x` of the capability window, 256 records of 8 bytes. -/
def capWord (x : Nat) : Nat :=
  match capRecords.find? (fun e => e.1 == x) with
  | some e => capRecWord e.2.1 e.2.2
  | none => 0

/-- What host software reads at a byte of the window. -/
def capByte (a : Nat) : Byte := BitVec.ofNat 8 (capWord (a % 2048 / 8) / 2 ^ (8 * (a % 8)))

/-- CAPS_HEAD: what is present, how many records there are, and the first. -/
def capsHead : W64 :=
  BitVec.ofNat 64 (capList.foldl (fun n r => n + 2 ^ (31 + r.ident)) 0 + capList.length * 2 ^ 24 + (capRecords.head?.map (·.1)).getD 0)

/-- The value of a system register (R312). -/
def State.sysValue (s : State) (id : Nat) : W64 :=
  let t := s.cur
  let x := s.curCtx
  match id with
  | 0x000 => capsHead
  | 0x001 => BitVec.ofNat 64 (s.ctxOf s.sel)
  | 0x002 => BitVec.ofNat 64 (x.cfg.part % 256)
  | 0x003 => s.modeWord
  | 0x004 => x.trapVec
  | 0x005 => BitVec.ofNat 64 x.jnlBase
  | 0x006 => t.jcnt
  | 0x007 => t.jmarkV
  | 0x008 => t.hreply
  | 0x009 => BitVec.ofNat 64 (x.cfg.wdog % 2 ^ 32)
  | 0x00A => t.trapst
  | 0x010 => t.fr.cause
  | 0x011 => t.fr.ident
  | 0x012 => t.fr.pc
  | 0x013 => t.fr.jnum
  | 0x014 => t.fr.stat
  | 0x015 => t.fr.va
  | 0x016 => t.fr.cursor
  | 0x017 => t.fr.resume
  | 0x018 => t.tscr0
  | 0x019 => t.tscr1
  | 0x020 => s.droopWord
  | 0x021 => s.pwrWord
  | 0x022 => BitVec.ofNat 64 (s.accounts.getD (acctOf x.cfg.part) {}).nj
  | 0x028 => s.msAllow
  | 0x029 => x.keepStat
  | 0x030 => s.tsRef
  | 0x031 => s.tsEff
  | 0x110 => s.vstat
  | 0x111 => x.cfg.wiring
  | 0x112 => t.tok
  | 0x113 => BitVec.ofNat 64 x.pclose
  | 0x150 => s.trange
  | 0x151 => s.foldst
  | id =>
    if id < 0x110 then sx (t.getA (id % 16)).wrap
    else if id < 0x130 then s.ringd (id % 16)
    else if id < 0x140 then (s.bar (clusterOf s.sel) (id % 16)).word
    else if id < 0x148 then (s.core s.sel).fsa.getD (id % 8) 0
    else (s.core s.sel).fsb.getD (id % 8) 0

/-- Reads a system register; a barrier outside the context's allotment traps (R186, R311). -/
def execSysrd (d : BitVec 5) (imm : BitVec 12) (s : State) : Out :=
  checked (.sysrd d imm) s <|
    let id := imm.toNat
    if 0x130 ≤ id && id < 0x140 && s.barForeign (id % 16) then trapOut s { cause := 0x05 }
    else s.draw.writeS d (s.sysValue id) 1

/-- Writes TSCR_0, TSCR_1 or RDXSTAT (R209, R312). -/
def execSyswr (a : BitVec 5) (imm : BitVec 12) (s : State) : Out :=
  checked (.syswr a imm) s <|
    let v := s.sreg a
    match imm.toNat with
    | 0x018 => .next ((s.modCur (fun t => { t with tscr0 := v })).retire 1)
    | 0x019 => .next ((s.modCur (fun t => { t with tscr1 := v })).retire 1)
    | _ => .next ((s.modCtx (s.ctxOf s.sel) (fun x => { x with pclose := v.toNat % 2 ^ 32 })).retire 1)

/-- Writes MODE.EXACT: at once for the writing stream (R313). -/
def execModeWrite (a : BitVec 5) (s : State) : Out :=
  let b := (s.sreg a).getLsbD 0
  let i := s.ctxOf s.sel
  let d : Deed := { no := s.accesses + 1, ctx := i, what := .exact (some (s.sel, s.slot)) s.curCtx.exact, known := bothStr s.sel s.slot }
  let s' := s.modCtx i (fun x => { x with exact := b })
  .next (({ s' with deeds := s.deeds ++ [d], accesses := s.accesses + 1 } : State).retire 1)

/-- Writes TRAP_VEC: an instruction address, or 0 for no handler (R315). -/
def execTrapVecWrite (a : BitVec 5) (s : State) : Out :=
  if codeAddr (s.sreg a) then .next ((s.modCtx (s.ctxOf s.sel) (fun x => { x with trapVec := s.sreg a })).retire 1)
  else trapOut s illegal

/-- Writes FR_RESUME (R314). -/
def execFrResumeWrite (a : BitVec 5) (s : State) : Out :=
  if codeAddr (s.sreg a) then
    .next ((s.modCur (fun t => { t with fr := { t.fr with resume := s.sreg a } })).retire 1)
  else trapOut s illegal

/-- Writes the wrap counter of an address register (R78). -/
def execWrapAnWrite (a : BitVec 5) (n : BitVec 4) (s : State) : Out :=
  s.writeA n.toNat { s.areg n.toNat with wrap := (s.sreg a).setWidth 32 }

/-- Clears the VSTAT flags whose bits are set in the source (R136). -/
def execVstatClear (a : BitVec 5) (s : State) : Out :=
  let v := s.sreg a
  .next ((s.modCur (fun t =>
    { t with dqmiss := t.dqmiss && !v.getLsbD 1, olclamp := t.olclamp && !v.getLsbD 0 })).retire 1)

/-- Writes all eight token counters (R178, R181). -/
def execTokcntWrite (a : BitVec 5) (s : State) : Out := .next ((s.modCur (fun t => { t with tok := s.sreg a })).retire 1)

/-- The geometry that a word gives a ring: slots, slot size, base, with positions at 0 (R166). -/
def ringOf (v : W64) : Ring :=
  { slots := fld v.toNat 47 36, size := (fld v.toNat 35 24 + 1) * 16, base := fld v.toNat 19 0 }

/-- The scratchpad bytes of a ring. -/
def Ring.range (g : Ring) : Nat × Nat := (g.base, g.base + g.slots * g.size)

/-- What forbids a ring's place: an end past 0xC0000 or the journal range (R139, R142, R166). -/
def Ring.placeTrap (g : Ring) (jnl : Nat) : Option Trap :=
  match spadTrap jnl [g.range] with
  | some t => some t
  | none => if spadSize < g.base + g.slots * g.size then some { cause := 0x0F, va := g.base } else none

/-- Writes RINGD_N: another home only repoints the handle; the core's own sets the geometry of an idle ring (R166). -/
def execRingdWrite (a : BitVec 5) (n : BitVec 4) (s : State) : Out :=
  let v := s.sreg a
  let h := fld v.toNat 49 48
  let home := s.sel / 4 * 4 + h
  let repoint (s : State) : State := s.modCore s.sel (fun x => { x with homes := x.homes.set n.toNat h })
  if !s.curCtx.owns home then trapOut s { cause := 0x05 }
  else if home ≠ s.sel then .next ((repoint s).retire 1)
  else
    let g := ringOf v
    if g.base % 16 ≠ 0 then trapOut s illegal
    else
      match g.placeTrap s.jnl with
      | some t => trapOut s t
      | none =>
        let old := (s.core s.sel).ring n.toNat
        if old.claimed ≠ 0 || old.filled ≠ 0 || old.taken ≠ 0 then trapOut s { cause := 0x0D }
        else .next (((repoint s).setRing s.sel n.toNat g).retire 1)

/-- Whether a class-and-range word names only entries of the core's table range (R268). -/
def fsaOk (k : CoreCfg) (v : W64) : Bool :=
  decide (k.tbase ≤ fld v.toNat 11 0) && decide (fld v.toNat 11 0 + fld v.toNat 23 12 + 1 ≤ k.tbase + k.tcount)

/-- Whether a tolerance is finite and above 0 (R268). -/
def tauOk (v : W64) : Bool :=
  let x := Fmt.fp32.decode (v.toNat % 2 ^ 32)
  x.isFinite && !x.isZero && !x.isNeg

/-- Writes a fold-set descriptor register: FSA_N for N below 8, FSB_(N-8) above (R268). -/
def execFoldSetWrite (a : BitVec 5) (n : BitVec 4) (s : State) : Out :=
  let v := s.sreg a
  if n.toNat < 8 then
    if fsaOk (s.curCtx.coreCfg s.sel) v then
      .next ((s.modCore s.sel (fun x => { x with fsa := x.fsa.set n.toNat (v &&& 0xFFFF000007FFFFFF) })).retire 1)
    else trapOut s illegal
  else if tauOk v then
    .next ((s.modCore s.sel (fun x => { x with fsb := x.fsb.set (n.toNat - 8) (v &&& 0xFFFFFFFF) })).retire 1)
  else trapOut s illegal

/-- Writes DROOP_THR.thr (R342). -/
def execDroopThrWrite (a : BitVec 5) (s : State) : Out :=
  let v := (s.sreg a).toNat % 256
  if 10 ≤ v && v ≤ 120 then .next ((s.modCtx (s.ctxOf s.sel) (fun x => { x with thr := v })).retire 1)
  else trapOut s illegal

/-- `fence.acq` (R214). -/
def execFenceAcq (scope : BitVec 3) (s : State) : Out := s.fence (.fenceAcq scope) 0 scope id

/-- `fence.rel` (R214). -/
def execFenceRel (scope : BitVec 3) (s : State) : Out := s.fence (.fenceRel scope) 1 scope id

/-- `fence.full`; at system scope it closes the context's held lines (R208, R214). -/
def execFenceFull (scope : BitVec 3) (s : State) : Out :=
  s.fence (.fenceFull scope) 2 scope (fun s => if scope = 5 then s.closeCtx (s.ctxOf s.sel) else s)

end Sys2Proof.Machine
end

