-- ==== Sys2Proof/Machine/Launch.lean ====
section
/-! DEFINITION. Nest records, launches, placement, iterations and their end (R90 to R107, R374, R375). -/

namespace Sys2Proof.Machine

/-! ## Iteration spaces (R92 to R95) -/

/-- Levels in position order, as (level, extent, kind). -/
def posOrder (lv : List (Nat × Nat × Nat)) : List (Nat × Nat × Nat) :=
  (List.range lv.length).filterMap fun p =>
    ((List.range lv.length).find? fun i => (lv.getD i (1, 0, 0)).2.2 == p).map fun i =>
      (i, (lv.getD i (1, 0, 0)).1, (lv.getD i (1, 0, 0)).2.1)

/-- The mixed-radix digits of a number; the last level varies fastest (R92). -/
def digits (n : Nat) : List (Nat × Nat × Nat) → List (Nat × Nat)
  | [] => []
  | (i, e, _) :: r =>
    let m := r.foldl (fun p x => p * x.2.1) 1
    (i, n / m % max e 1) :: digits n r

/-- Levels of spatial kind, and of temporal kind, in position order (R94). -/
def spatialLevels (lv : List (Nat × Nat × Nat)) : List (Nat × Nat × Nat) := (posOrder lv).filter (fun x => x.2.2 != 0)

def temporalLevels (lv : List (Nat × Nat × Nat)) : List (Nat × Nat × Nat) := (posOrder lv).filter (fun x => x.2.2 == 0)

/-- Number of combinations. -/
def combos (l : List (Nat × Nat × Nat)) : Nat := l.foldl (fun p x => p * x.2.1) 1

/-- Index of a level among digits. -/
def indexOf (ds : List (Nat × Nat)) (i : Nat) : Nat :=
  match ds.find? (fun d => d.1 == i) with
  | some d => d.2
  | none => 0

/-- The indices of an iteration: those of its unit and those of its temporal number. -/
def UnitRec.indices (u : UnitRec) : List (Nat × Nat) :=
  digits u.spatial (spatialLevels u.levels) ++ digits u.iter (temporalLevels u.levels)

/-- The linear iteration number (R92). -/
def UnitRec.linear (u : UnitRec) : Nat := (posOrder u.levels).foldl (fun n x => n * x.2.1 + indexOf u.indices x.1) 0

/-- The dies that a nest uses (R95): those of its mask, or the launching one. -/
def nestDies (home mask : Nat) : List Nat := if mask = 0 then [home] else (List.range 8).filter (fun b => mask.testBit b)

/-- The die of a unit: that of its index on the `dies` level, or the launching one. -/
def Nest.dieOfUnit (x : Nest) (u : Nat) : Nat :=
  match (spatialLevels x.levels).find? (fun l => l.2.2 == 2) with
  | some l => (nestDies x.home x.mask).getD (indexOf (digits u (spatialLevels x.levels)) l.1) 0
  | none => x.home

/-- Units of a nest on all its dies. -/
def Nest.units (x : Nest) : Nat := combos (spatialLevels x.levels)

/-- How many units apart two units of one die stand at most: the product of the extents inside the `dies` level. -/
def Nest.diePeriod (x : Nest) : Nat := combos ((spatialLevels x.levels).dropWhile (fun l => l.2.2 != 2))

/-- The first unit of a die from a number on; looks over one period. -/
def Nest.seek (x : Nest) (d u : Nat) : Nat :=
  let inner := max (x.diePeriod / max (nestDies x.home x.mask).length 1) 1
  let rec go (u : Nat) : Nat → Nat
    | 0 => u
    | n + 1 => if x.units ≤ u then u else if x.dieOfUnit u == d then u else go (u / inner * inner + inner) n
  go u 9

/-! ## The nest record (R90, R91) -/

/-- The 64-bit word at a byte offset of a record. -/
def recWord (bs : List Byte) (o : Nat) : Nat := leNat ((bs.drop o).take 8)

/-- Why a launch is refused: a status of R91, or a fault of translation. -/
inductive LaunchErr where
  | status (n : Nat)
  | xlat (t : Trap)

/-- Level descriptors of a record, as (extent, kind, position). -/
def recLevels (bs : List Byte) (n : Nat) : List (Nat × Nat × Nat) :=
  (List.range n).map fun i =>
    let w := recWord bs (0x30 + 8 * i)
    (fld w 31 0 + 1, fld w 33 32, fld w 36 34)

/-- Mask of a level. -/
def recMask (bs : List Byte) (i : Nat) : Nat := fld (recWord bs (0x30 + 8 * i)) 47 40

/-- The demand that a record names: vector registers, scratchpad bytes, tile handles, rings (R90). -/
def recDemand (bs : List Byte) : Demand :=
  let w := recWord bs 0x10
  { vregs := 8 * fld w 43 40, spad := fld w 19 0, tiles := fld w 50 44, rings := fld w 55 51 }

/-- Whether a demand fits a budget. -/
def fits (d b : Demand) : Bool :=
  decide (d.vregs ≤ b.vregs) && decide (d.spad ≤ b.spad) && decide (d.tiles ≤ b.tiles) && decide (d.rings ≤ b.rings)

/-- The reserve of a depth. -/
def coreReserve (k : CoreCfg) (d : Nat) : Demand := if d = 1 then k.r1 else if d = 2 then k.r2 else k.r3

/-- Zero fields and alignments of a record (status 3). -/
def recForm (bs : List Byte) : Bool :=
  let w1 := recWord bs 0x08
  let w2 := recWord bs 0x10
  let n := fld w1 23 21
  fld w1 7 0 == 0x4E && fld w1 63 24 == 0 && fld w1 20 18 == 0 && fld w1 15 11 == 0 && fld w2 63 56 == 0 &&
    fld w2 39 20 == 0 && recWord bs 0x28 == 0 && ((List.range 4).all fun i => recWord bs (0x60 + 8 * i) == 0) &&
    ((List.range 6).all fun i =>
      let l := recWord bs (0x30 + 8 * i)
      fld l 63 48 == 0 && fld l 39 37 == 0 && (decide (i < n) || l == 0)) &&
    fld (recWord bs 0) 1 0 == 0 && fld (recWord bs 0) 63 60 == 0 && recWord bs 0x18 % 8 == 0

/-- Levels of a record (status 4). -/
def recLevelsOk (bs : List Byte) : Bool :=
  let n := fld (recWord bs 0x08) 23 21
  let lv := recLevels bs n
  decide (1 ≤ n) && decide (n ≤ 6) && ((List.range n).all fun p => lv.any fun l => l.2.2 == p) &&
    (lv.all fun l => l.2.1 != 3) &&
    ((List.range n).all fun i => (lv.getD i (1, 0, 0)).2.1 == 2 || recMask bs i == 0)

/-- The mask of a record's `dies` level, or 0. -/
def recDies (bs : List Byte) : Nat := (List.range 6).foldl (fun m i => m ||| recMask bs i) 0

/-- The `dies` level of a record (status 5). -/
def recDiesOk (bs : List Byte) (x : CtxCfg) : Bool :=
  let lv := recLevels bs (fld (recWord bs 0x08) 23 21)
  match lv.filter (fun l => l.2.1 == 2) with
  | [] => true
  | [l] =>
    let m := recDies bs
    m != 0 && ((List.range 8).all fun b => !m.testBit b || x.dies.contains b) && countOnes m 8 == l.1
  | _ => false

/-- The demand of a record (status 6). -/
def recDemandOk (bs : List Byte) (x : CtxCfg) : Bool :=
  let d := recDemand bs
  let depth := fld (recWord bs 0x08) 17 16
  decide (8 ≤ d.vregs) && decide (d.vregs ≤ 64) && decide (d.tiles ≤ 64) && decide (d.rings ≤ 16) && d.spad % 64 == 0 &&
    decide (d.spad ≤ 770048) && (depth == 0 || (x.cores.all fun k => fits d (coreReserve k depth)))

/-- The lowest status of R91 that a record breaks, 0 if none.  `from_` is the launcher's depth plus 1, or 0 for the host. -/
def recStatus (bs : List Byte) (x : CtxCfg) (from_ : Nat) : Nat :=
  if from_ = 4 then 1
  else if fld (recWord bs 0x08) 17 16 ≠ from_ then 2
  else if !recForm bs then 3
  else if !recLevelsOk bs then 4
  else if !recDiesOk bs x then 5
  else if !recDemandOk bs x then 6
  else 0

/-- Translates one page for a control step, which walks and caches it at once. -/
def State.page (s : State) (d ctx va : Nat) (a : Acc) : Except (Trap × State) (Pin × State) :=
  match s.fill d ctx va with
  | .error (e, s) => .error (e.trap va, s)
  | .ok (e, s) =>
    match e.denies a va with
    | some t => .error (t, s)
    | none => .ok (e.pin, s)

/-- The launch checks of R91, and the nest they give.  A record in a poisoned line is a fault of cause 0x12 (R380; DEDUCED, log
entry 47).  An instruction's reading of it leaves its core's cluster (R337). -/
def State.readNest (s : State) (i d acct va from_ : Nat) : Except (LaunchErr × State) (Nest × State) :=
  if va % 128 ≠ 0 then .error (.status (if from_ = 4 then 1 else 3), s)
  else
    match s.page d i va { lo := va, hi := va + 128, r := true } with
    | .error (t, s) => .error (.xlat t, s)
    | .ok (p, s) =>
      let s := if from_ = 0 then s else s.leaving s.sel (p.pa va) 128
      let (bs, isBad, s) := s.portRead d acct (p.pa va) 128
      let s := s.looked (p.pa va) 128
      let x := (s.ctx i).cfg
      if isBad then .error (.xlat { cause := 0x12, va := va }, s)
      else
        match recStatus bs x from_ with
        | 0 =>
          let done := recWord bs 0x18
          match s.page d i done { lo := done, hi := done + 8, w := true } with
          | .error (t, s) => .error (.xlat t, s)
          | .ok (q, s) =>
            let w1 := recWord bs 0x08
            .ok ({ id := s.nextNest, ctx := i, home := d, depth := fld w1 17 16, demand := recDemand bs
                   entry := BitVec.ofNat 64 (recWord bs 0), done := done, donePin := q
                   value := BitVec.ofNat 64 (recWord bs 0x20), levels := recLevels bs (fld w1 23 21), mask := recDies bs
                   decl := fld w1 10 8, prio := fld w1 10 8, since := s.now }, s)
        | n => .error (.status n, s)

/-- Records of a depth's partition of the pending pool (R100). -/
def poolSize (d : Nat) : Nat := if d = 0 then 512 else if d = 1 then 256 else 128

/-- Whether a die has a free record for a depth. -/
def State.poolFree (s : State) (e d : Nat) : Bool :=
  decide (((s.die e).nests.filter (·.depth == d)).length < poolSize d)

/-- Records that wait take places in the pool while it has room (R100, R105). -/
def Die.enroll (y : Die) : Die :=
  y.waiting.foldl (fun y z =>
    if (y.nests.filter (·.depth == z.depth)).length < poolSize z.depth then
      { y with nests := y.nests ++ [z], waiting := y.waiting.filter (fun w => w.id != z.id) }
    else y) y

/-- On every die. -/
def State.admitAll (s : State) : State := (List.range 8).foldl (fun s d => s.modDie d Die.enroll) s

/-- The records of a context on some dies, those that wait for a place among them. -/
def State.nestsOf (s : State) (i : Nat) (ds : List Nat) : List (Nat × Nest) :=
  ds.flatMap (fun d => (((s.die d).nests ++ (s.die d).waiting).filter (fun n => n.ctx == i)).map (fun n => (d, n)))

/-- Changes the records of a nest on a die. -/
def Die.modNest (y : Die) (id : Nat) (f : Nest → Nest) : Die :=
  let g := fun (z : Nest) => if z.id == id then f z else z
  { y with nests := y.nests.map g, waiting := y.waiting.map g }

/-- Takes one record on each die of an accepted nest; its completion page is pinned, also where its in-flight count stands at 65,535
or the die's cache is full of pinned entries (DESIGN CHOICE, log entry 47) (R95, R100, R104).  The records of a context that is
saved, or being saved, go with its save area (R375); so do those of a torn one, which never run (R102; DESIGN CHOICE, log entry 32). -/
def State.accept (s : State) (x : Nest) : State :=
  let s := { s with nextNest := s.nextNest + 1, stamp := s.stamp + 1 }
  let s := s.pinPages x.home [x.donePin] true
  let recs := (nestDies x.home x.mask).map (fun d => (d, { x with next := x.seek d 0, turn := s.stamp }))
  if (s.ctx x.ctx).st == .resident then
    recs.foldl (fun s r => s.modDie r.1 (fun y => { y with nests := y.nests ++ [r.2] })) s
  else s.modCtx x.ctx (fun c => { c with image := { c.image with nests := c.image.nests ++ recs } })

/-- A launch by the selected stream: refused, faulting, waiting for a record, or accepted (R101). -/
def State.launch (s : State) (a : BitVec 5) (full ok : State → Out) : Out :=
  let d := dieOf s.sel
  let depth := match s.cur.unit with | some u => u.depth | none => 0
  match s.readNest (s.ctxOf s.sel) d (s.acct s.sel) (s.sreg a).toNat (depth + 1) with
  | .error (.status n, s') => trapOut s' { cause := 0x11, stat := n }
  | .error (.xlat t, s') => trapOut s' t
  | .ok (x, s') =>
    if (nestDies x.home x.mask).all (fun e => s'.poolFree e x.depth) then 
      ok (((s'.drainDie d).learn x.ctx (fun k => k.isStr s.sel s.slot || k == .done s.sel s.slot true) [.nest x.id]).accept x)
    else full s'

/-- The dies and the depth of the record that a waiting `lnch` needs. -/
def State.launchWait (s : State) (a : BitVec 5) : Wait :=
  let depth := match s.cur.unit with | some u => u.depth | none => 0
  match s.readNest (s.ctxOf s.sel) (dieOf s.sel) (s.acct s.sel) (s.sreg a).toNat (depth + 1) with
  | .ok (x, _) => .pool (nestDies x.home x.mask) x.depth
  | .error _ => .pool [] 0

/-- A blocking launch (R101). -/
def execLnch (a : BitVec 5) (s : State) : Out :=
  s.launch a (fun s' => .next (s'.wait (s.launchWait a))) (fun s' => .next (s'.retire 1))

/-- A launch that does not block: sD is 0, or 1 when a partition is full (R101). -/
def execLnchn (d a : BitVec 5) (s : State) : Out := s.launch a (fun s' => s'.writeS d 1 1) (fun s' => s'.writeS d 0 1)

/-- A completion entry for the host (R374). -/
def State.complete (s : State) (func queue status : Nat) : State :=
  { s with completions := s.completions ++ [{ func := func, queue := queue, status := status }] }

/-- Whether a function owns a context. -/
def State.ownsCtx (s : State) (func i : Nat) : Bool :=
  match s.ctxs.find i with
  | some x => x.cfg.part == func
  | none => false

/-- Whether a host launch of a nest waits: its context is resident and a die has no free record for it (R95, R100, R375). -/
def State.launchHeld (s : State) (x : Nest) : Bool :=
  (s.ctx x.ctx).st == .resident && !((nestDies x.home x.mask).all fun e => s.poolFree e x.depth)

/-- A host launch of a depth-0 nest; while the partition is full the entry stays queued (R95, R102, R374, R375).  One without a dies level
that names a die on which the context owns no core is accepted with status 0, and none of its units is ever placed: R91 has no status for it
(DESIGN CHOICE, log entry 47). -/
def execLaunchEntry (func ctx die addr : Nat) (s : State) : Out :=
  if s.boot != .up then .next s
  else if !s.ownsCtx func ctx then .next (s.complete func 0 0xFF)
  else
    match s.readNest ctx die (acctOf func) addr 0 with
    | .error (.status n, s') => .next (s'.complete func 0 n)
    | .error (.xlat _, s') => .next (s'.complete func 0 7)
    | .ok (x, s') => if s'.launchHeld x then .next s else .next ((s'.accept x).complete func 0 0)

/-! ## Placement (R93, R96, R97, R99) -/

/-- The stream state at iteration start (R61, R93, R110, R230, R234). -/
def Stream.begin (t : Stream) (u : UnitRec) (ident : Nat) (now : Nat) : Stream :=
  let t := { t with
    st := .ready, pc := u.entry, s := [], a := [], lc := [], p := [], alloc := u.demand.vregs, v := [], rrb := 0, prb := 0
    pats := [], dqmiss := false, olclamp := false, exp := false, tok := 0, rctr := 0, fmtq := [], lease := .none
    renew := false, win := {}, intrap := false, faults := [], heldAt := 0, halted := 0, progress := now, unit := some u }
  let t := (List.range u.levels.length).foldl (fun t i => t.setS (24 + i) (BitVec.ofNat 64 (indexOf u.indices i))) t
  (t.setS 30 (BitVec.ofNat 64 u.linear)).setS 31 (BitVec.ofNat 64 ident)

/-- The sum and the difference of demands. -/
def demandPlus (a b : Demand) : Demand :=
  { vregs := a.vregs + b.vregs, spad := a.spad + b.spad, tiles := a.tiles + b.tiles, rings := a.rings + b.rings }

def demandMinus (a b : Demand) : Demand :=
  { vregs := a.vregs - b.vregs, spad := a.spad - b.spad, tiles := a.tiles - b.tiles, rings := a.rings - b.rings }

/-- The shared pool of a core: the totals less the reserves (R97). -/
def coreShared (k : CoreCfg) : Demand := demandMinus (demandMinus (demandMinus k.total k.r1) k.r2) k.r3

/-- The lowest free slot of a core that a unit may take: its reservation is met and its resources cover the demand (R96,
R97). -/
def State.slotFor (s : State) (i c depth : Nat) (d : Demand) : Option Nat :=
  let k := (s.ctx i).coreCfg c
  (List.range 8).find? fun n =>
    (s.stream c n).st == .free &&
      (if n < 5 then fits (demandPlus (s.core c).used d) (coreShared k)
       else decide (n - 4 ≤ depth) && fits d (coreReserve k (n - 4)))

/-- The context's cores on a die, from the one after the last placement on (R96). -/
def State.placeOrder (s : State) (i d : Nat) : List Nat :=
  let cs := (s.ctx i).coreList.filter (fun c => dieOf c == d)
  match (s.die d).rr.find i with
  | some l => cs.filter (fun c => decide (l < c)) ++ cs.filter (fun c => decide (c ≤ l))
  | none => cs

/-- Where the next unit of a nest fits. -/
def State.place? (s : State) (d : Nat) (x : Nest) : Option (Nat × Nat) :=
  ((s.placeOrder x.ctx d).filterMap (fun c => (s.slotFor x.ctx c x.depth x.demand).map (fun n => (c, n)))).head?

/-- Whether a nest goes before another: higher priority, or at equal priority an earlier turn, which is that of its last placement or of
its acceptance (R99; DESIGN CHOICE, log entry 49). -/
def Nest.before (a b : Nest) : Bool := decide (b.prio < a.prio) || (a.prio == b.prio && decide (a.turn ≤ b.turn))

/-- Nests in the order of service. -/
def insertNest (x : Nest) : List Nest → List Nest
  | [] => [x]
  | y :: ys => if x.before y then x :: y :: ys else y :: insertNest x ys

/-- Places one unit of a nest in a slot (R93, R94, R97, R99). -/
def State.placeUnit (s : State) (d : Nat) (x : Nest) (c n : Nat) : State :=
  let u : UnitRec :=
    { nest := x.id, home := x.home, depth := x.depth, demand := x.demand, entry := x.entry, levels := x.levels
      spatial := x.next, iter := 0 }
  let s := ((s.forgetSlot c n).modStream c n (fun t =>
    { t.begin u (identOf c n) s.now with rels := [], gained := [], acqs := [] })).acquires c n (· == .nest x.id)
  let s := if n < 5 then s.modCore c (fun y => { y with used := demandPlus y.used x.demand }) else s
  { s.modDie d (fun y =>
      { y with
        rr := y.rr.set x.ctx c
        nests := y.nests.map (fun z =>
          if z.id == x.id then
            { z with next := x.seek d (x.next + 1), running := z.running + 1, since := s.now, turn := s.stamp + 1 }
          else z) }) with stamp := s.stamp + 1 }

/-- The walker of a die places one unit: of the first nest, in order of priority, whose next unit fits a core (R96, R99).  It places none of a
faulted context, of which R99 and R317 do not speak (DESIGN CHOICE, log entry 49). -/
def execUnitPlacement (die : Nat) (s : State) : Out :=
  let live := (s.die die).nests.filter (fun x =>
    decide (x.next < x.units) && (s.ctx x.ctx).st == .resident && !(s.ctx x.ctx).faulted)
  let order := live.foldr insertNest []
  match (order.filterMap (fun x => (s.place? die x).map (fun p => (x, p)))).head? with
  | some (x, c, n) => if s.boot == .up then .next (s.placeUnit die x c n) else .next s
  | none => .next s

/-- A nest that has placed nothing for 1 ms while it held an unplaced unit rises by one step, up to 7 (R99).  Each die's record of a
nest ages by that die's placements (DESIGN CHOICE, log entry 47). -/
def execPriorityAgeing (die nest : Nat) (s : State) : Out :=
  if s.boot != .up then .next s
  else .next (s.modDie die (fun y =>
    { y with
      nests := y.nests.map (fun z =>
        if z.id == nest && decide (z.next < z.units) && decide (z.since + 1000000 ≤ s.now) && decide (z.prio < 7) then
          { z with prio := z.prio + 1, since := z.since + 1000000 }
        else z) }))

/-! ## The end of an iteration (R103, R104) -/

/-- The records of a nest on its dies. -/
def State.nestRecs (s : State) (id : Nat) : List (Nat × Nest) :=
  (List.range 8).flatMap (fun d => (((s.die d).nests ++ (s.die d).waiting).filter (·.id == id)).map (fun x => (d, x)))

/-- The walker of a die stores a completion word, charged to a partition (R100, R338).  No core issues it. -/
def State.storeDone (s : State) (x : Nest) : State :=
  let pa := x.donePin.pa x.done
  let no := s.accesses + 1
  let s := ({ s with accesses := no } : State).learn x.ctx (· == .out x.id) [.rel no]
  (s.chargeAccess (acctOf (s.ctx x.ctx).cfg.part) pa 8).send
    { src := x.home, home := homeDie pa, core := 48 * x.home, slot := 8, pa := pa, cmp := x.donePin.cmp, bytes := leBytes 8 x.value.toNat
      stamp := s.stamp, order := s.stamp
      rels := [{ core := 48 * x.home, slot := 8, ctx := x.ctx, scope := 5, need := 5, no := no : Release }].filter s.live }

/-- When every unit's halt line is raised, the launching die stores the completion value, as a release at system scope of the
nest's writes, and the records are freed (R100, R104).  A faulted context makes no completion write (R317). -/
def State.nestDone (s : State) (id : Nat) : State :=
  let rs := s.nestRecs id
  match rs with
  | [] => s
  | (_, x) :: _ =>
    if rs.all (fun r => decide (r.2.units ≤ r.2.next) && r.2.running == 0) then
      let s := (rs.map (·.1)).foldl State.settleDie s
      let s :=
        if (s.ctx x.ctx).faulted then s
        else s.storeDone x
      let s := s.pinPages x.home [x.donePin] false
      rs.foldl (fun s r => s.modDie r.1 (fun y =>
        Die.enroll { y with nests := y.nests.filter (·.id != id), waiting := y.waiting.filter (·.id != id) })) s
    else s

/-- The slab lease that a stream holds ends (R230). -/
def State.releaseLease (s : State) (c k : Nat) : State :=
  let s := s.modStream c k (fun t => { t with lease := .none, renew := false })
  if (s.cluster (clusterOf c)).holder == some (c, k) then s.modCluster (clusterOf c) (fun y => { y with holder := none })
  else s

/-- A halting stream has drained: its lease and tokens go, and the slot starts the unit's next iteration or is freed with the
unit's halt line raised (R94, R97, R103).  Of a stream that halted in its handler, what an engine has stopped at since is discarded too
(R319; DESIGN CHOICE, log entry 49).  A completion word that meets a full spill area is stored later (R203). -/
def execHaltDrainComplete (core slot : Nat) (s0 : State) : Out :=
  let s := if (s0.stream core slot).st == .halting && s0.runs core then s0.discardHalted core slot else s0
  let t := s.stream core slot
  if t.st != .halting || !t.drained || !t.faults.isEmpty || !s.runs core then .next s
  else
    let s := s.releaseLease core slot
    match t.unit with
    | none => .next (s.modStream core slot (fun t =>
          { t with st := .free, intrap := false, halted := 0, faults := [], tok := 0 }))
    | some u =>
      if u.iter + 1 < combos (temporalLevels u.levels) then
        .next ((s.modStream core slot (fun t => t.begin { u with iter := u.iter + 1 } (identOf core slot) s.now)).acquires core slot
          (· == .done core slot true))
      else
        let s := s.modStream core slot (fun t =>
          { t with st := .free, intrap := false, halted := 0, faults := [], tok := 0, unit := none })
        let s := if slot < 5 then s.modCore core (fun y => { y with used := demandMinus y.used u.demand }) else s
        let s := s.learn (s.ctxOf core) (fun k => k.isStr core slot || k == .done core slot true) [.out u.nest]
        let s := s.modDie (dieOf core) (·.modNest u.nest (fun z => { z with running := z.running - 1 }))
        .next (s0.orWait (s.nestDone u.nest))

end Sys2Proof.Machine
end

