-- ==== Sys2Proof/Machine/Woad.lean ====
section
/-! DEFINITION. Links and collectives: the LNK commands, rounds, and what the Ethernet port brings (R363 to R373). -/

namespace Sys2Proof.Machine

/-! ## Group handles -/

/-- Changes a handle. -/
def State.modGroup (s : State) (ctx die g : Nat) (f : Group → Group) : State :=
  { s with groups := s.groups.map (fun x => if x.ctx == ctx && x.die == die && x.g == g then f x else x) }

/-- Members of a group. -/
def Group.m (x : Group) : Nat := x.cfg.members.length

/-- Changes a round. -/
def Group.modRound (x : Group) (r : Nat) (f : Round → Round) : Group :=
  { x with rounds := x.rounds.map (fun q => if q.r == r then f q else q) }

/-- A round. -/
def Group.round? (x : Group) (r : Nat) : Option Round := x.rounds.find? (fun q => q.r == r)

/-- Every session of the handle is keyed (R371). -/
def Group.up (x : Group) : Bool := (List.range x.m).all (fun j => j == x.cfg.me || x.keyed.contains j)

/-- The status word (R371). -/
def Group.word (x : Group) : Nat :=
  x.next % 2 ^ 32 * 2 ^ 32 + x.open_.length * 2 ^ 28 + (x.open_.filter (fun r => r.result.isSome)).length * 2 ^ 24 +
    (if x.up then 2 ^ 15 else 0) + x.m

/-! ## Dispatch (R368, R369) -/

/-- The selected context's handle on the selected core's die. -/
def State.myGroup (s : State) (f : EF) : Option Group := s.group? (s.ctxOf s.sel) (dieOf s.sel) (groupOf f)

/-- Whether a count is out of range. -/
def countBad (c : W64) : Bool := c == 0 || decide (2 ^ 28 < c.toNat)

/-- The trap of an unconfigured handle (R363). -/
def State.groupTrap (s : State) (f : EF) : Option Trap := bad (s.myGroup f).isNone { cause := 0x05 }

/-- The checks and the entry of the dispatch of `cpost`. -/
def State.prepCpost (s : State) (f : EF) (m : Cmd) : Except Trap Prep :=
  let accs : List Acc := [{ lo := m.a.toNat, hi := m.a.toNat + 4 * m.c.toNat, r := true }]
  prepWith
    [bad (countBad m.c || m.a.toNat % 4 != 0) illegal, s.groupTrap f,
     bad (f.sub.getLsbD 2 && !((s.myGroup f).map (·.cfg.comp)).getD false) illegal, s.barTrap f]
    { cmd := { m with gspan := spansOf accs }, accs := accs }

/-- `cpost`. -/
def execCpost (f : EF) (s : State) : Out := s.dispatchE (.cpost f) f 5 true (s.prepCpost f)

/-- Bytes of the result header. -/
def headerLen : Nat := 520

/-- The checks and the entry of the dispatch of `cjoin`. -/
def State.prepCjoin (s : State) (f : EF) (m : Cmd) : Except Trap Prep :=
  let accs : List Acc :=
    [{ lo := m.a.toNat, hi := m.a.toNat + 4 * m.c.toNat, w := true }, { lo := m.b.toNat, hi := m.b.toNat + headerLen, w := true }]
  prepWith
    [bad (countBad m.c || m.a.toNat % 4 != 0 || m.b.toNat % 8 != 0) illegal, s.groupTrap f, s.barTrap f]
    { cmd := { m with gspan := spansOf accs }, accs := accs }

/-- `cjoin`. -/
def execCjoin (f : EF) (s : State) : Out := s.dispatchE (.cjoin f) f 5 true (s.prepCjoin f)

/-- The checks and the entry of the dispatch of `cstat`. -/
def State.prepCstat (s : State) (f : EF) (m : Cmd) : Except Trap Prep :=
  prepWith [s.groupTrap f] { cmd := m }

/-- `cstat`. -/
def execCstat (f : EF) (s : State) : Out := s.dispatchE (.cstat f) f 5 (s.wiredPush 5 f.y.toNat) (s.prepCstat f)

/-! ## Contributions (R366, R367) -/

/-- Elements of a block. -/
def blockLen : Nat := 256

/-- The scale of a compressed block: the mean magnitude's power of two, from 2^-126 to 2^127. -/
def blockScale (xs : List Val) : Int :=
  match sumVals .rne (xs.map Val.abs) with
  | .num d => if d.isZero then 0 else max (-126) (min 127 ((({ d with exp := d.exp - 8 } : Dy)).log2Floor))
  | _ => 0

/-- What the elements of one block are worth, as AF40 codes, and whether it travels as BF16 (R367). -/
def compressBlock (xs : List Val) : List Nat × Bool :=
  let sc := blockScale xs
  let big := fun (v : Val) => (Val.ofNatExp 16 sc).le v.abs
  if xs.any (fun v => !v.isFinite) || decide (8 < (xs.filter big).length) then
    (xs.map (fun v => af40 .rne (Fmt.bf16.decode (roundTo .bf16 v .rne 0 false))), true)
  else
    (xs.map (fun v =>
      af40 .rne (if big v then v else (Fmt.mk8.decode (roundTo .mk8 (v.scale (-sc)) .rne 0 false)).scale sc)), false)

/-- The contribution that a `cpost` sends. -/
def contribOf (op : Nat) (comp : Bool) (codes : List Nat) : Contrib :=
  if op = 2 then { op := op, count := codes.length, comp := comp, vals := codes }
  else
    let xs := codes.map Fmt.fp32.decode
    if comp then
      let bs := (piecesOf blockLen xs ((xs.length + blockLen - 1) / blockLen)).map compressBlock
      { op := op, count := codes.length, comp := true, vals := bs.flatMap (·.1), bf := bs.any (·.2) }
    else { op := op, count := codes.length, comp := false, vals := xs.map (af40 .rne) }

/-- One element of the sum, members ascending (R366). -/
def sumElem (vs : List Nat) : Nat :=
  let vals := vs.map Fmt.af40.decode
  match vals with
  | [] => 0
  | v :: r => roundTo .fp32 (r.foldl (fun a b => toAf40 .rne (a.add b .rne)) v) .rne 0 false

/-- Included contributions of a round, by ascending member. -/
def Round.included (q : Round) : List (Nat × Contrib) :=
  sortBy (fun a b => decide (a.1 < b.1))
    (q.contribs.filter (fun e => e.2.op == q.op && e.2.count == q.n && e.2.comp == q.comp))

/-- The result that the root forms. -/
def Round.form (q : Round) (m : Nat) : RResult :=
  let inc := q.included
  let vals :=
    if q.op = 2 then (List.range m).flatMap (fun j =>
      match inc.find? (fun e => e.1 == j) with
      | some e => (List.range q.n).map (fun k => e.2.vals.getD k 0)
      | none => List.replicate q.n 0)
    else (List.range q.n).map (fun k => sumElem (inc.map (fun e => e.2.vals.getD k 0)))
  { op := q.op, n := q.n, count := inc.length, bf := inc.any (·.2.bf), members := inc.map (·.1), vals := vals }

/-- The root forms the result of a round once every member's contribution has come, or with `late` when the deadline has passed;
its own contribution is always in it (R365). -/
def Group.tryForm (x : Group) (r : Nat) (late : Bool) : Group :=
  x.modRound r (fun q =>
    if x.cfg.me == x.cfg.root && q.result.isNone && q.own && (late || decide (x.m ≤ q.contribs.length)) then
      { q with result := some (q.form x.m) }
    else q)

/-- A contribution of a member is taken into a round once. -/
def Round.take (q : Round) (j : Nat) (c : Contrib) : Round :=
  if q.contribs.any (fun e => e.1 == j) then q else { q with contribs := q.contribs ++ [(j, c)] }

/-! ## Issue and completion -/

/-- Early results that are still kept at a time (R370). -/
def Group.kept (x : Group) (now : Nat) : List (Nat × Nat × RResult) :=
  x.early.filter (fun e => decide (now ≤ e.2.1 + 2 * x.cfg.deadline))

/-- A `cpost` opens the next round (R365, R370). -/
def Group.post (x : Group) (now op n : Nat) (comp : Bool) : Group :=
  let r := x.next
  let q : Round :=
    { r := r, op := op, n := n, comp := comp, at_ := now
      contribs := (x.ahead.filter (fun e => e.1 == r)).map (·.2)
      result := ((x.kept now).find? (fun e => e.1 == r)).map (·.2.2) }
  { x with
    next := r + 1, rounds := x.rounds ++ [q], early := (x.kept now).filter (fun e => e.1 != r)
    ahead := x.ahead.filter (fun e => e.1 != r) }

/-- Elements that a round writes at this member: the first of the result, and how many (R366). -/
def Group.need (x : Group) (q : Round) : Nat × Nat :=
  let s := (q.n + x.m - 1) / max x.m 1
  match q.op with
  | 1 => (min q.n (x.cfg.me * s), min q.n ((x.cfg.me + 1) * s) - min q.n (x.cfg.me * s))
  | 2 => (0, x.m * q.n)
  | _ => (0, q.n)

/-- The round that a `cjoin` takes. -/
def Group.oldest (x : Group) : Option Round := x.open_.head?

/-- A command takes its round. -/
def State.setRound (s : State) (c k j r : Nat) : State :=
  s.modStream c k (fun t =>
    (t.modFlight j (fun f => { f with round := some r })).modJrec j (fun e => { e with cmd := { e.cmd with round := some r } }))

/-- A `cstat` pushes the status word and is done. -/
def State.issueCstat (s : State) (c k : Nat) (m : Cmd) (ch : Nat) (x : Group) : State :=
  let e : ChEntry := { data := vecOf 32 [x.word % 2 ^ 32, x.word / 2 ^ 32], mask := 3 }
  (s.pushChan c ch e).modStream c k (·.modFlight m.j (fun g => { g with done := true, pushed := [e] }))

/-- A replayed `cpost` takes its recorded round, or the next where it had not issued, of a handle that the host may not have set again
(R372, log entry 35). -/
def State.retakeRound (s : State) (c k : Nat) (m : Cmd) : State :=
  let i := s.ctxOf c
  let g := groupOf m.ef
  let key := 16 * dieOf c + g
  match s.groupAt c m with
  | some x =>
    let r := m.round.getD x.next
    (s.modGroup i (dieOf c) g (fun y => { y with next := max y.next (r + 1) })).setRound c k m.j r
  | none =>
    let n := (s.ctx i).taken.getD key 0
    let r := m.round.getD n
    (s.modCtx i (fun y => { y with taken := y.taken.set key (max n (r + 1)) })).setRound c k m.j r

/-- A replayed LNK command issues; the round of a `cjoin` that had not issued is open (R372, log entry 35). -/
def State.reissueLnk (s : State) (c k : Nat) (m : Cmd) : State :=
  match m.i, s.groupAt c m with
  | .cpost _, _ => s.retakeRound c k m
  | .cjoin _, _ => s.draw.setRound c k m.j (m.round.getD (Config.freeNat s.draws % 2 ^ 32))
  | .cstat f, some x => s.issueCstat c k m f.y.toNat x
  | _, _ => s

/-- An LNK command issues (R369); the flight is in the stream already. -/
def State.issueLnk (s : State) (c k : Nat) (m : Cmd) : State :=
  let mod := s.modGroup (s.ctxOf c) (dieOf c) (groupOf m.ef)
  if m.replay then s.reissueLnk c k m
  else
    match s.groupAt c m with
    | none => s
    | some x =>
      match m.i with
      | .cpost f => (mod (fun y => y.post s.now (f.sub.toNat % 4) m.c.toNat (f.sub.getLsbD 2))).setRound c k m.j x.next
      | .cjoin _ =>
        match x.oldest with
        | none => s.retireFault c k 5 m 0x0D 0 0
        | some q =>
          if m.c.toNat < (x.need q).2 then s.retireFault c k 5 m 0x0D ((x.need q).2 % 2 ^ 32) 0
          else (mod (·.modRound q.r (fun q => { q with joined := true }))).setRound c k m.j q.r
      | .cstat f => s.issueCstat c k m f.y.toNat x
      | _ => s

/-! ## Packets (R364, R365, R370) -/

/-- A packet leaves the module's Ethernet port. -/
def State.sendPacket (s : State) (p : Packet) : State := { s with wire := s.wire ++ [p] }

/-- A handle by context, die and number. -/
def Group.key (x : Group) : Nat × Nat × Nat := (x.ctx, x.die, x.g)

/-- The packets that carry a result to every other member; one whose contribution did not match is told so (R365, R371). -/
def Group.resultPackets (x : Group) (q : Round) (r : RResult) : List Packet :=
  ((List.range x.m).filter (fun j => j != x.cfg.me)).map (fun j =>
    { sender := x.key, members := x.cfg.members, src := x.cfg.me, dst := j, round := q.r
      result := some { r with status := if q.contribs.any (fun e => e.1 == j) && !r.members.contains j then 2 else 0 } })

/-- A root forms the result of a round where it can, and sends it; a round whose `cjoin` has completed before is no more then. -/
def State.formRound (s : State) (ctx die g r : Nat) (late : Bool) : State :=
  match s.group? ctx die g with
  | none => s
  | some x =>
    let y := x.tryForm r late
    let s' := s.modGroup ctx die g (fun _ => { y with rounds := y.rounds.filter (fun q => !(q.gone && q.result.isSome)) })
    match x.round? r, (y.round? r).bind (fun q => q.result.map (fun v => (q, v))) with
    | some q, some (q', v) => if q.result.isNone then (y.resultPackets q' v).foldl State.sendPacket s' else s'
    | _, _ => s'

/-- Whether a member is a die of this module. -/
def Group.local? (x : Group) (j : Nat) : Bool := ((x.cfg.members.getD j (0, 0, 0)).1 == Config.device)

/-- The handle by its key, where it is set. -/
def State.groupBy (s : State) (k : Nat × Nat × Nat) : Option Group := s.group? k.1 k.2.1 k.2.2

/-- Whether a packet's sending handle and the handle that it reaches are each other's.  Which handle of one member goes with which of another's
the host has set and the manual does not show: the first packet tells (R363, R370; DESIGN CHOICE, log entry 42). -/
def State.paired (s : State) (x : Group) (p : Packet) : Bool :=
  (x.peers.find p.src).all (· == p.sender) && ((s.groupBy p.sender).all (fun y => (y.peers.find p.dst).all (· == x.key)))

/-- The packet, of those sent and not received, that arrives at a handle with some contents: none where none has been sent. -/
def State.onWire (s : State) (x : Group) (p : Packet) : Option Packet :=
  s.wire.find? (fun q => q == { p with sender := q.sender } && s.paired x q)

/-- A packet of a member on this module has arrived: it is off the wire, and the two handles are paired. -/
def State.received (s : State) (x : Group) (q : Packet) : State :=
  let s := { s with wire := s.wire.erase q }
  let s := s.modGroup x.ctx x.die x.g (fun y => { y with peers := y.peers.set q.src q.sender })
  s.modGroup q.sender.1 q.sender.2.1 q.sender.2.2 (fun y => { y with peers := y.peers.set q.dst x.key })

/-- What the arrival of a packet brings about first: from another module anything may come, from this one what has been sent (R365). -/
def State.arrival (s : State) (x : Group) (p : Packet) : Option State :=
  if x.local? p.src then (s.onWire x p).map (s.received x) else some s

/-- The effects of a `cpost` before it completes: every source byte is read and the contribution sent; at the root it is this
member's own. -/
def State.finishCpost (s : State) (c k : Nat) (f : Flight) : State :=
  let m := f.cmd
  let n := m.c.toNat
  let (got, s) := s.cmdRead c m m.a.toNat (4 * n)
  match got.bad with
  | some va => s.unitFault c k f 0x12 0 va
  | none =>
    let codes := (List.range n).map (fun i => leNat ((got.bytes.drop (4 * i)).take 4))
    let i := s.ctxOf c
    let d := dieOf c
    let g := groupOf m.ef
    let r := f.round.getD 0
    let s : State := match s.groupAt c m with
      | none => s
      | some x =>
        let v := contribOf (m.ef.sub.toNat % 4) (m.ef.sub.getLsbD 2) codes
        if x.cfg.me == x.cfg.root then
          let late := (x.round? r).any (fun q => decide (q.at_ + x.cfg.deadline ≤ s.now))
          (s.modGroup i d g (fun x =>
            x.modRound r (fun q => { q.take x.cfg.me v with own := true }))).formRound i d g r late
        else s.sendPacket { sender := x.key, members := x.cfg.members, src := x.cfg.me, dst := x.cfg.root, round := r, contrib := some v }
    s.modStream c k (·.modFlight m.j (fun g => { g with done := true }))

/-- The bitmap of a header. -/
def bitmapOf (ms : List Nat) : List Byte := leBytes 512 ((ms.eraseDups.filter (fun j => decide (j < 4096))).foldl (fun n j => n + 2 ^ j) 0)

/-- A result header (R371). -/
def headerOf (r count status : Nat) (bf : Bool) (ms : List Nat) : List Byte :=
  leBytes 8 (r % 2 ^ 32 * 2 ^ 32 + count % 2 ^ 13 * 2 ^ 19 + (if bf then 16 else 0) + status) ++ bitmapOf ms

/-- A `cjoin` writes and completes, its writes performed at system scope; it waits while a spill area refuses them. -/
def State.writeJoin (s : State) (c k : Nat) (f : Flight) (dest header : List Byte) : State :=
  let m := f.cmd
  if s.mustWait m m.a.toNat dest.length || s.mustWait m m.b.toNat header.length then s
  else
    (((s.cmdWrite c k m m.a.toNat dest).cmdWrite c k m m.b.toNat header).settleDie (dieOf c)).modStream c k
      (·.modFlight m.j (fun g => { g with done := true }))

/-- A number that the manual leaves open in a header: the count of a lost round. -/
def State.openCount (s : State) : Nat := Config.freeNat s.draws % 4097

/-- The `cjoin` of a round has completed: the round is over, but at the root not before it has formed the result for the others (R365). -/
def Group.endRound (x : Group) (r : Nat) : Group :=
  { x with rounds := (x.modRound r (fun q => { q with gone := true })).rounds.filter (fun q =>
      !q.gone || (x.cfg.me == x.cfg.root && q.result.isNone)) }

/-- The effects of a `cjoin` once its round has a result, or is lost to it (R366, R369 to R371). -/
def State.finishCjoin (s : State) (c k : Nat) (f : Flight) : State :=
  let m := f.cmd
  let r := f.round.getD 0
  match s.groupAt c m with
  | none => s
  | some x =>
    match x.round? r with
    | none => s
    | some q =>
      match if q.lost then some { op := q.op, n := q.n, status := 1 } else q.result with
      | none => s
      | some res =>
        let (lo, n) := x.need q
        let dest := if res.status = 0 then (List.range n).flatMap (fun i => leBytes 4 (res.vals.getD (lo + i) 0)) else []
        let header :=
          if res.status = 1 then headerOf r s.openCount 1 (Config.freeBit s.draws) []
          else headerOf r res.count res.status res.bf (if res.status = 0 then res.members else [])
        let s' := s.writeJoin c k f dest header
        if ((s'.stream c k).flight? m.j).any (·.done) then
          (s'.modGroup (s.ctxOf c) (dieOf c) (groupOf m.ef) (fun x => x.endRound r)).draw
        else s

/-- What is left of an LNK command in flight (R369, R372). -/
def State.finishLnk (s : State) (c k : Nat) (f : Flight) : State :=
  if f.done || f.failed then s
  else
    match f.cmd.i with
    | .cpost _ =>
      if f.cmd.replay then s.modStream c k (·.modFlight f.cmd.j (fun g => { g with done := true })) else s.finishCpost c k f
    | .cjoin _ =>
      if f.cmd.replay then s.writeJoin c k f [] (headerOf (f.round.getD 0) 0 3 false []) else s.finishCjoin c k f
    | _ => s

/-! ## What the Ethernet port and firmware bring (R364, R365, R370) -/

/-- A packet that fails authentication is discarded and counted for the host (R364): its session is not keyed, or it names no other
member. -/
def Group.forged (x : Group) (member : Nat) : Bool := member == x.cfg.me || decide (x.m ≤ member) || !x.keyed.contains member

/-- A contribution reaches the root: kept for a round not yet posted, taken in time, and else discarded. -/
def execContributionArrival (ctx die g round member : Nat) (k : Contrib) (s : State) : Out :=
  match s.group? ctx die g with
  | none => .next s
  | some x =>
    let p : Packet := { members := x.cfg.members, src := member, dst := x.cfg.me, round := round, contrib := some k }
    if s.boot != .up then .next s
    else if x.forged member then .next (s.modGroup ctx die g (fun x => { x with failed := x.failed + 1 }))
    else
    match s.arrival x p with
    | none => .next s
    | some s =>
      if x.cfg.me != x.cfg.root then .next s
      else
        match x.round? round with
        | none =>
          if x.next ≤ round && !x.ahead.any (fun e => e.1 == round && e.2.1 == member) then
            .next (s.modGroup ctx die g (fun x => { x with ahead := x.ahead ++ [(round, member, k)] }))
          else .next s
        | some q =>
          if q.result.isNone && decide (s.now ≤ q.at_ + x.cfg.deadline) then
            .next ((s.modGroup ctx die g (·.modRound round (·.take member k))).formRound ctx die g round false)
          else .next s

/-- The deadline D after the root's `cpost` has passed. -/
def execRoundDeadline (ctx die g round : Nat) (s : State) : Out :=
  match (s.group? ctx die g).bind (fun x => (x.round? round).map (fun q => (x, q))) with
  | some (x, q) => if s.boot == .up && decide (q.at_ + x.cfg.deadline ≤ s.now) then .next (s.formRound ctx die g round true) else .next s
  | none => .next s

/-- A result reaches a member: the result of its posted round, or an early result of which at most 8 are kept (R370). -/
def execResultArrival (ctx die g round : Nat) (r : RResult) (s : State) : Out :=
  let r := { r with status := if r.status = 2 then 2 else 0 }
  match s.group? ctx die g with
  | none => .next s
  | some x =>
    let p : Packet := { members := x.cfg.members, src := x.cfg.root, dst := x.cfg.me, round := round, result := some r }
    if s.boot != .up then .next s
    else if x.forged x.cfg.root then .next (s.modGroup ctx die g (fun x => { x with failed := x.failed + 1 }))
    else
    match s.arrival x p with
    | none => .next s
    | some s =>
      .next <| s.modGroup ctx die g fun x =>
        match x.round? round with
        | some q => if q.result.isNone then x.modRound round (fun q => { q with result := some r }) else x
        | none =>
          let kept := x.kept s.now
          if x.next ≤ round && decide (kept.length < 8) && !kept.any (fun e => e.1 == round) then
            { x with early := kept ++ [(round, s.now, r)] }
          else { x with early := kept }

/-- Rounds that a `cjoin` in flight on a die waits for, of one handle of a context, resident or saved (R322). -/
def State.joining (s : State) (ctx die g : Nat) : List Nat :=
  (s.cores ++ (s.ctx ctx).image.cores).flatMap (fun p =>
    if dieOf p.1 == die && p.2.resident == some ctx then
      p.2.streams.flatMap (fun t => t.2.flights.filterMap (fun f =>
        match f.cmd.i with
        | .cjoin e => if groupOf e == g && !f.cmd.replay then f.round else none
        | _ => none))
    else [])

/-- 2D after this member's `cpost` has passed and no result has come: the round that a `cjoin` waits for is lost to it (R369); the root still
forms its result for the others (R365). -/
def execJoinDeadline (ctx die g : Nat) (s : State) : Out :=
  let l := s.joining ctx die g
  if s.boot != .up then .next s else .next <| s.modGroup ctx die g fun x =>
    { x with rounds := x.rounds.map (fun q =>
        if l.contains q.r && q.result.isNone && decide (q.at_ + 2 * x.cfg.deadline ≤ s.now) then
          { q with lost := true }
        else q) }

/-- A kept early result has been kept for 2D (R370). -/
def execEarlyResultExpiry (ctx die g round : Nat) (s : State) : Out :=
  if s.boot != .up then .next s else .next <| s.modGroup ctx die g fun x =>
    { x with early := x.early.filter (fun e => !(e.1 == round && decide (e.2.1 + 2 * x.cfg.deadline ≤ s.now))) }

/-- A session is rekeyed: packets under the old key are accepted until the new key is confirmed, so nothing that a program sees
changes (R364). -/
def execSessionRekey (ctx die g peer : Nat) (s : State) : Out :=
  .next <| s.modGroup ctx die g fun x => if x.keyed.contains peer then { x with keyed := x.keyed } else x

/-- The session with a peer is keyed (R364). -/
def execSessionKeyed (ctx die g peer : Nat) (s : State) : Out :=
  if s.boot != .up then .next s else .next <| s.modGroup ctx die g fun x =>
    if decide (peer < x.m) && peer != x.cfg.me && !x.keyed.contains peer then { x with keyed := x.keyed ++ [peer] } else x

end Sys2Proof.Machine
end

