-- ==== Sys2Proof/Machine/Engine.lean ====
section
/-! DEFINITION. The engines: which queue head issues and what issuing does, units, completion, fence markers, the lease and the
watchdog (R66, R160, R177, R214, R224, R230 to R238, R318). -/

namespace Sys2Proof.Machine

/-! ## Issue -/

/-- The counters are decremented. -/
def Stream.consume (t : Stream) (eng : Nat) (m : Cmd) : Stream :=
  (m.waits eng).foldl (fun t b => t.setTok b (t.tokAt b - 1)) t

/-- An entry leaves its queue and its command is in flight; the counters it waits on are consumed (R66, R177, R318). -/
def Stream.issueCmd (t : Stream) (eng : Nat) (m : Cmd) (now : Nat) : Stream :=
  let t := (t.consume eng m).setQueue eng ((t.queue eng).filter (fun x => x.j != m.j))
  let w := if eng = 1 then some t.win else none
  { t.modJrec m.j (fun r => { r with issued := true, win := w }) with progress := now }

/-- The outcome of the checks of a slab command at issue (R237, R255, R273, R276). -/
inductive SlabCheck where
  | pass
  | fail (cause stat : Nat)

/-- op7 of a command. -/
def Cmd.op7 (m : Cmd) : Nat := fld m.head.toNat 22 16

/-- Entries that a list would hold beyond its capacity: cause and status. -/
def State.slabOver (s : State) (c : Nat) (m : Cmd) : Option (Nat × Nat) :=
  let l := s.listTile c m
  match m.i with
  | .mma _ | .mmas _ | .probe _ => if fwAol m.fw && decide (512 < l.listLen) then some (0x0A, overStatus m l.listLen 0) else none
  | .wld f =>
    let x := s.core c
    let t := x.tile f.x.toNat
    let p := (loadPlane x.spad t (x.plane f.y.toNat) m l (s.ctxOf c)).list.length
    if 256 < p then some (0x0A, overStatus m p 1) else none
  | .clsf _ =>
    let n := (s.clsfList c m).length
    if 512 < n then some (0x16, overStatus m n 0) else none
  | .corr _ =>
    let n := ((s.corrEffect c m).cluster (clusterOf c)).refresh.length
    if 256 < n && (s.cluster (clusterOf c)).refresh.length < n then some (0x0B, overStatus m n 0) else none
  | _ => none

/-- Check 3 of R237 for every slab command; `p` is the entry that `refold` has popped. -/
def State.conditionBad (s : State) (c : Nat) (m : Cmd) (p : ChEntry) : Bool :=
  match m.i with
  | .clsf _ => !(List.range 256).any (fun n => s.inSet c m.fs (m.c.toNat + n))
  | .corr _ => s.corrBad c m
  | .tfit _ => !s.inSet c m.fs m.a.toNat
  | .refold _ => s.refoldBad c m p
  | _ => s.planeBad c m

/-- The checks of R237 in their order, without the lease. -/
def State.slabCheck (s : State) (c k : Nat) (m : Cmd) (p : ChEntry) : SlabCheck :=
  if m.badWord then .fail 0x09 m.op7
  else if s.conditionBad c m p then .fail 0x10 m.op7
  else
    match s.bankBreak c k m with
    | some g => .fail 0x07 (g * 16 + g)
    | none =>
      match s.slabOver c m with
      | some (cause, stat) => .fail cause stat
      | none => .pass

/-- Side-path cycles of the entries of a streaming command (R260). -/
def State.sideCycles (s : State) (c : Nat) (m : Cmd) : Nat :=
  let x := s.core c
  let t := x.tile m.ef.x.toNat
  let a := if fwAol m.fw then ((listOf x.spad (s.listTile c m)).filter (fun e => !inert e.2.2)).length else 0
  let b := if fwBol m.fw then ((x.plane m.ef.y.toNat).list.filter (fun e => !inert e.val.toNat)).length else 0
  4 * a + b * ((t.rows + 63) / 64)

/-- What a `wld` makes of its plane; one requeued for its data effects leaves the plane's list (R328). -/
def State.wldPlane (s : State) (c : Nat) (m : Cmd) : Plane :=
  let x := s.core c
  let old := x.plane m.ef.y.toNat
  let p := loadPlane x.spad (x.tile m.ef.x.toNat) old m (s.listTile c m) (s.ctxOf c)
  if m.dataOnly then { p with list := old.list } else p

/-- The effect of a slab command on the state, with the events that it counts (R337, log entry 12). -/
def State.slabEffect (s : State) (c k : Nat) (m : Cmd) (p : ChEntry) : State :=
  let x := s.core c
  let f := m.ef
  let t := x.tile f.x.toNat
  match m.i with
  | .wld _ =>
    (s.setPlane c f.y.toNat (s.wldPlane c m)).slabEvent c 37 t.cols
  | .mma _ => ((s.mmaEffect c m false).slabEvent c (arrayEvent (fwA m.fw)) t.rows).slabEvent c 36 (s.sideCycles c m)
  | .mmas _ => ((s.mmaEffect c m true).slabEvent c (arrayEvent (fwA m.fw)) t.rows).slabEvent c 36 (s.sideCycles c m)
  | .probe _ => (s.probeEffect c m).slabEvent c 35 t.rows
  | .accz _ => (s.acczEffect c m).slabEvent c 39 (rowCount m.a m.b)
  | .drain _ => (s.drainEffect c k m).slabEvent c 38 (rowCount m.a m.b)
  | .clsf _ => (s.clsfEffect c m).slabEvent c 40 (s.clsfReads c m)
  | .corr _ =>
    ((if m.dataOnly then s else s.corrEffect c m).slabEvent c 36 (s.corrCost c m).1).slabEvent c 40 (s.corrCost c m).2
  | .tfit _ => (s.tfitEffect c m).slabEvent c 40 1
  | .tload _ => (s.tloadEffect c m).slabEvent c 40 t.rows
  | .tsave _ => (s.tsaveEffect c m).slabEvent c 40 t.rows
  | .tset _ => (s.tsetEffect c m).slabEvent c 40 (tsetCount m)
  | .escn _ => (s.escnEffect c m).slabEvent c 40 (laneCount m.b)
  | .rlpop _ => s.rlpopEffect c m
  | .refold _ =>
    if p.mask.getLsbD 0 then ((s.refoldEffect c m p).slabEvent c 41 (refoldExt m)).slabEvent c 40 1 else s.refoldEffect c m p
  | _ => s

/-- The keys at which two maps differ, with what the first holds there. -/
def Map.changed {α : Type} [DecidableEq α] (old new : Map α) (d : α) : Map α :=
  (((old ++ new).map (·.1)).eraseDups.filter (fun k => old.getD k d != new.getD k d)).foldl (fun m k => m.set k (old.getD k d)) []

/-- A plane but for its rows, scales and codes. -/
def Plane.head (p : Plane) : Plane := { p with rows := [], scales := [], codes := [] }

/-- What of a core's slab differs between two states, as the first has it. -/
def slabChange (s t : State) (c : Nat) : SlabSide :=
  let x := s.core c
  let y := t.core c
  let part := fun (g : Plane → Map Nat) => (List.range 2).flatMap (fun p =>
    (Map.changed (g (x.plane p)) (g (y.plane p)) 0).map (fun e => (2 ^ 16 * p + e.1, e.2)))
  let a := s.cluster (clusterOf c)
  let b := t.cluster (clusterOf c)
  { rows := part (·.rows), scales := part (·.scales), codes := part (·.codes)
    heads := ((List.range 2).filter (fun p => (x.plane p).head != (y.plane p).head)).map (fun p => (p, (x.plane p).head))
    acc := Map.changed x.acc y.acc 0, stats := Map.changed x.stats y.stats {}, esc := if x.esc == y.esc then none else some x.esc
    table := Map.changed a.table b.table 0, refresh := if a.refresh == b.refresh then none else some a.refresh }

/-- A number of `n` bytes: where another's bytes have changed since, what they are now. -/
def keepNat (n old was now : Nat) : Nat :=
  let m := packBits 8 ((List.range n).map (fun i => if was / 2 ^ (8 * i) % 256 == now / 2 ^ (8 * i) % 256 then 0 else 255))
  (now &&& m) ||| (old &&& (2 ^ (8 * n) - 1 - m))

/-- What of the slab an older command may take back once another has completed, which has changed some of it: that stays (R163, R239). -/
def SlabSide.settled (u g : SlabSide) (s : State) (c : Nat) : SlabSide :=
  let x := s.core c
  let y := s.cluster (clusterOf c)
  let nums := fun (n : Nat) (u g : Map Nat) (now : Nat → Nat) => u.map (fun e =>
    match g.find e.1 with
    | some w => (e.1, keepNat n e.2 w (now e.1))
    | none => e)
  let part := fun (f : Plane → Map Nat) (k : Nat) => (f (x.plane (k / 2 ^ 16))).getD (k % 2 ^ 16) 0
  { rows := nums 512 u.rows g.rows (part (·.rows)), scales := nums 256 u.scales g.scales (part (·.scales))
    codes := nums 128 u.codes g.codes (part (·.codes)), heads := u.heads.filter (fun e => (g.heads.find e.1).isNone)
    acc := u.acc.map (fun e =>
      match g.acc.find e.1 with
      | some w => (e.1, BitVec.ofNat 10240 (keepNat 1280 e.2.toNat w.toNat (x.accRow e.1).toNat))
      | none => e)
    stats := u.stats.filter (fun e => (g.stats.find e.1).isNone), esc := if g.esc.isSome then none else u.esc
    table := u.table.map (fun e =>
      match g.table.find e.1 with
      | some w => (e.1, BitVec.ofNat 256 (keepNat 32 e.2.toNat w.toNat (y.table.getD e.1 0).toNat))
      | none => e)
    refresh := if g.refresh.isSome then none else u.refresh }

/-- A slab command completes: what it has changed is no older command's to take back. -/
def State.settleSlab (s : State) (c : Nat) (f : Flight) : State :=
  match f.undo with
  | none => s
  | some g =>
    s.modCore c (fun x => { x with streams := x.streams.map (fun t => (t.1, { t.2 with
      flights := t.2.flights.map (fun h => if h.order < f.order then { h with undo := h.undo.map (·.settled g s c) } else h) })) })

/-- A flight is added to a stream. -/
def State.fly (s : State) (c k : Nat) (f : Flight) : State := s.modStream c k (fun t => { t with flights := t.flights ++ [f] })

/-- `lease` issues (R230, R233): from the held state it renews and completes at once; while its stream's request stands it completes at
the grant (DESIGN CHOICE, log entry 49). -/
def State.issueLease (s : State) (c k : Nat) (f : Flight) : State :=
  if f.cmd.dataOnly then s.fly c k { f with done := true }
  else
    match (s.stream c k).lease with
    | .held => (s.modStream c k (fun t => { t with renew := true })).fly c k { f with done := true }
    | .requested => s.fly c k f
    | _ => (s.modStream c k (·.request s.now)).fly c k f

/-- `unls` issues (R230, R231): the lease or the request ends. -/
def State.issueUnls (s : State) (c k : Nat) (f : Flight) : State :=
  (if f.cmd.dataOnly then s else s.releaseLease c k).fly c k { f with done := true }

/-- Bank words of a tile's rows and scales. -/
def Tile.words (t : Tile) : Nat := bankWords (t.rowSpans (List.range t.rows))

/-- Whether a command passed its checks at issue, as its journal record keeps it (R239). -/
def Stream.passedOnce (t : Stream) (j : Nat) : Bool := t.journal.any (fun r => r.j == j && r.winAfter.isSome)

/-- The entry that an instruction has pushed into its channel between two states, if any (R163). -/
def State.pushedBy (s t : State) (c : Nat) (i : Instr) : List ChEntry :=
  match chanOf i with
  | some (ch, true) => (t.chan c ch).drop (s.chan c ch).length
  | _ => []

/-- The metadata that a command reads beside its tiles (R240). -/
def State.sparseSpans (s : State) (c : Nat) (m : Cmd) : List (Nat × Nat) :=
  match m.i with
  | .wld f => if f.sub.getLsbD 0 then [sparseMeta (s.tile c f.x.toNat) m] else []
  | _ => []

/-- A slab command issues: the operand entry of `refold` is popped, the checks are made, and the effect follows (R237, R284).  One
requeued for its data effects that fails a check has none (log entry 35).  The windows of the bank-group rule change for a command that
passes the checks only (DESIGN CHOICE, log entry 49); one that passed them before the loss keeps its place in the windows (R239). -/
def State.issueSlab (s : State) (c k : Nat) (f : Flight) : State :=
  let m := f.cmd
  let p : ChEntry := match m.i with
    | .refold e => (s.chan c (e.imm.toNat % 64)).headD {}
    | _ => {}
  let (s, f) := match m.i with
    | .refold e => (s.popChan c (e.imm.toNat % 64), { f with popped := [p] })
    | _ => (s, f)
  match s.slabCheck c k m p with
  | .fail cause stat =>
    if m.dataOnly then
      (if (s.stream c k).passedOnce m.j then s.modStream c k (fun t => { t with win := s.bankNext c m t.win }) else s).fly c k
        { f with done := true }
    else
    let s := if cause = 0x09 then s.modCore c (fun x => { x with accBad := true }) else s
    s.retireFault c k 1 m cause stat 0
  | .pass =>
    let win := s.bankNext c m (s.stream c k).win
    let t := s.slabEffect c k m p
    let s' := ((t.modStream c k (fun t =>
      { t.modJrec m.j (fun r => { r with winAfter := some win }) with win := win })).countCore c 6
      (m.tiles.foldl (fun n x => n + (s.tile c x).words) (bankWords (s.sparseSpans c m)))).fly c k
        { f with done := true, undo := some (slabChange s t c), pushed := s.pushedBy t c m.i }
    if m.dataOnly then s' else s'.leaseCount c k

/-- The windows of the bank-group rule step over the commands behind a requeued one that replay skips (R239, R328). -/
def Stream.skipWin (t : Stream) (m : Cmd) : Stream :=
  match m.winTo with
  | some w => { t with win := w }
  | none => t

/-- The ranges of scratchpad that a slab command reads, and writes. -/
def State.slabSpad (s : State) (c : Nat) (m : Cmd) : List (Nat × Nat) × List (Nat × Nat) :=
  let t := s.tile c m.ef.x.toNat
  let reads := (m.tiles.filter (fun n => (m.wr.map (·.1)) != some n || m.readsOwn)).map (fun n =>
    ((s.tile c n).base, (s.tile c n).limit - (s.tile c n).base))
  match m.i with
  | .drain _ =>
    (reads, (List.range (rowCount m.a m.b)).map (fun i => (t.base + (m.c.toNat + i) * t.pitch, t.fmtOf.width / 8 * t.cols)))
  | .tsave _ => ([], (List.range t.rows).map (fun i => (t.base + i * t.pitch, 32)))
  | .refold e =>
    let g := s.tile c e.y.toNat
    (reads, if ((s.chan c (e.imm.toNat % 64)).headD {}).mask.getLsbD 0 then [(g.base + 2 * g.pitch, 1024)] else [])
  | _ => (reads ++ s.sparseSpans c m, [])

/-- An MXE command issues. -/
def State.issueMxe (s : State) (c k : Nat) (f : Flight) : State :=
  (match f.cmd.i with
   | .lease _ => s.issueLease c k f
   | .unls _ => s.issueUnls c k f
   | _ =>
     let p := s.slabSpad c f.cmd
     (s.race c k c f p.1 p.2 (fun t => ((t.stream c k).flight? f.cmd.j).isSome) (fun s => s.issueSlab c k f)).countCorrected (dieOf c)
       c).modStream c k (·.skipWin f.cmd)

/-- The tile of a `cpout` starts to drain (R146). -/
def State.startDrain (s : State) (c : Nat) (m : Cmd) : State :=
  match m.i with
  | .cpout e => if m.dataOnly then s else s.modTile c e.x.toNat (fun t => { t with st := .draining })
  | _ => s

/-- Units of a command of LDE, STE or IDX, and where it starts: a replayed `ixlist` after its published units (R304). -/
def State.unitsOf (s : State) (c eng : Nat) (m : Cmd) : Nat := if eng = 4 then idxUnits m else s.copyUnits c m
def firstUnit (m : Cmd) : Nat :=
  match m.i with
  | .ixlist _ => m.aux
  | _ => 0

/-- A command that issues acquires what the counters that it waits on, and the tiles that it names, pass on (R148, R220, R223). -/
def State.acquiresAtIssue (s : State) (c k eng : Nat) (m : Cmd) : State :=
  s.learn (s.ctxOf c) (fun x => (m.waits eng).any (fun b => x == .tok c k b) || m.tiles.any (fun n => x == .tile c n)) (bothCmd c k m.j)

/-- The command of a slot issues in its engine. -/
def State.issueAt (s : State) (c k eng : Nat) (m : Cmd) : State :=
  let order := s.stamp
  let s := { s with stamp := s.stamp + 1 }
  let s := if (m.waits eng).isEmpty then s else s.noteOrder (tokObj c k, consumeKey eng)
  let m := { m with slot := k, order := order }
  let s := s.acquiresAtIssue c k eng m
  let s := s.modCore c (fun x => { x with served := x.served.set (8 * eng + k) (order + 1) })
  let s := s.modStream c k (·.issueCmd eng m s.now)
  let f : Flight := { eng := eng, cmd := m, order := order }
  match eng with
  | 2 => s.issueVec c k m order
  | 1 => s.issueMxe c k f
  | 5 => (s.fly c k f).issueLnk c k m
  | _ =>
    let n := s.unitsOf c eng m
    (s.startDrain c m).fly c k
      { f with
        cursor := firstUnit m, units := n, done := decide (n ≤ firstUnit m), claim := m.claim.map (·.1)
        claimNo := (m.claim.map (·.2)).getD 0 }

/-- A slab command of a stream without a lease is retired at its queue head: cause 0x09 first, then 0x0E (R230, R237). -/
def State.refuseSlab (s : State) (c k : Nat) (m : Cmd) : State :=
  let s := s.modStream c k (fun t => (t.setQueue 1 ((t.queue 1).filter (fun x => x.j != m.j))).skipWin m)
  if m.badWord then
    (s.modCore c (fun x => { x with accBad := true })).retireFault c k 1 m 0x09 m.op7 0
  else s.retireFault c k 1 m 0x0E m.op7 0

/-- Streams whose lease has lapsed ask again when a slab command has reached the head of their MXE queue (R230). -/
def State.askAgain (s : State) (c : Nat) : State :=
  (List.range 8).foldl (fun s k =>
    let t := s.stream c k
    match t.head 1 with
    | some m => if t.lease == .lapsed && isSlab m.i && !m.dataOnly then s.modStream c k (·.request s.now) else s
    | none => s) s

/-- Whether a command of MXE reads a list tile at its issue: its word asks for it, and the checks before have passed (R237, R263).  One
requeued for its data effects makes its reads too (R328). -/
def State.readsList (s : State) (c k : Nat) (m : Cmd) : Bool :=
  (match m.i with
   | .wld _ => fwBol m.fw
   | .mma _ | .mmas _ | .probe _ => fwAol m.fw
   | _ => false) &&
    !m.badWord && !s.conditionBad c m {} && (s.bankBreak c k m).isNone

/-- A slab command whose list tile has an uncorrectable error does not issue: it has no effect, its queue is halted, and after `tret`
it issues in full (R263).  FR_VA is the list tile's first byte (DESIGN CHOICE, log entry 29); FR_STAT holds op7, and the error comes before
the check of the list's capacity (DESIGN CHOICE, log entry 49). -/
def State.holdSlab (s : State) (c k : Nat) (m : Cmd) : State :=
  s.modStream c k (·.engFault
    { eng := 1, cause := 0x12, pc := m.pc, j := m.j, stat := BitVec.ofNat 64 m.op7
      va := BitVec.ofNat 64 (s.listTile c m).base })

/-- An engine of a core issues at most one entry in a cycle (R66). -/
def execEngineIssue (core : Nat) (turn : IssueTurn) (s : State) : Out :=
  let eng := turn.eng
  if !s.runs core || !s.mayIssue core then .next s
  else
    let s := if eng = 1 then s.askAgain core else s
    match s.pickHead core eng with
    | some (k, m) =>
      .next (if s.leaseless core k eng m then s.refuseSlab core k m
        else if turn.bad && eng == 1 && s.readsList core k m then s.holdSlab core k m
        else s.issueAt core k eng m)
    | none => .next s

/-! ## Units -/

/-- The tile that a `stch.app` appends to. -/
def appTile (i : Instr) : Option Nat :=
  match i with
  | .stchApp f => some f.y.toNat
  | _ => none

/-- Whether two commands take turns: they move entries through one channel, or append to one tile (R182, R253). -/
def takesTurns (a b : Instr) : Bool :=
  (chanOf a).isSome && chanOf a == chanOf b || (appTile a).isSome && appTile a == appTile b

/-- Whether the command is the one that moves entries next: those of one engine follow their order of issue (R182), and every step of a
`stch.app` comes before those of a later one on its tile (R253; DESIGN CHOICE, log entry 49). -/
def State.chanTurn (s : State) (c : Nat) (f : Flight) : Bool :=
  !(s.core c).streams.any (fun t =>
    t.2.flights.any (fun g => g.eng == f.eng && decide (g.order < f.order) && !g.done && takesTurns f.cmd.i g.cmd.i))

/-- Whether a command of IDX has read its row and only pushes it on: no error can befall it. -/
def Flight.pushing (f : Flight) : Bool :=
  decide (0 < f.piece) &&
    match f.cmd.i with
    | .ixlist _ => false
    | _ => true

/-- The ranges of scratchpad that the next unit of a command accesses, and the accesses of global memory. -/
def State.unitSpans (s : State) (c : Nat) (f : Flight) : List (Nat × Nat) × List (Nat × Nat) :=
  if !f.rets.isEmpty then (f.rets.map (fun e => (e.1, e.2.length)), [])
  else if f.eng = 4 then s.idxSpans c f else s.copySpans c f.cmd f.cursor

/-- An error that an input brings to an access of a unit: the unit fails whole, with an address of it: any byte of a unit of LDE or STE,
the lowest of an access of IDX (R162, R296; log entry 19). -/
def State.unitHurt (s : State) (c k : Nat) (f : Flight) : State :=
  let p := s.unitSpans c f
  let n := spanLen p.1 + (if f.eng = 4 then p.2.length else spanLen p.2)
  let i := Config.pick s.draws 0 % max n 1
  if f.eng = 4 then
    if f.pushing then s.idxUnit c k f
    else
      (s.draw.modStream c k (·.modFlight f.cmd.j (fun g => { g with piece := 0 }))).idxFault c k f
        { cause := 0x12, va := if i < spanLen p.1 then spanByte p.1 i else (p.2.getD (i - spanLen p.1) (0, 0)).1 }
  else if n = 0 then s.copyUnit c k f
  else s.draw.unitError c k f (spanByte (p.1 ++ p.2) i)

/-- A unit as it goes where no error befalls it. -/
def State.unitGoes (s : State) (c k : Nat) (f : Flight) : State := if f.eng = 4 then s.idxUnit c k f else s.copyUnit c k f

/-- Whether a command has made a step: it has moved on by a unit or a piece, or has left. -/
def State.moved (s : State) (c k : Nat) (f : Flight) : Bool :=
  ((s.stream c k).flight? f.cmd.j).all (fun g => g.cursor != f.cursor || decide (f.piece < g.piece) || g.done)

/-- The ranges of scratchpad that the next unit of a command reads, and writes.  A once-only `stat` writes its old values after its commit
(R351). -/
def State.unitSpad (s : State) (c : Nat) (f : Flight) : List (Nat × Nat) × List (Nat × Nat) :=
  let p := (s.unitSpans c f).1
  match f.cmd.i with
  | .cpout _ | .ldch _ | .ldbc _ | .stg _ | .scat _ => (p, [])
  | .stat e =>
    if f.rets.isEmpty then (if statVec e then p else [], if statRet e && !e.once then p else []) else ([], p)
  | .gath _ | .ixpage _ => (p.take 1, p.drop 1)
  | .ixlist _ => ([], if f.piece = 0 then [] else p)
  | _ => ([], p)

/-- The core whose scratchpad a command accesses: its own, or the home of its ring (R301). -/
def Flight.padCore (f : Flight) (c : Nat) : Nat :=
  match f.cmd.i, f.cmd.ring with
  | .ixlist _, some g => g.1
  | _, _ => c

/-- What the next unit of a command does, races among its bytes included; later units of an IDX command may have written ahead of
one that fails (R143, R226, R295).  The publish of a slot releases its bytes (R302). -/
def State.unitStep (s : State) (c k : Nat) (f : Flight) (isBad : Bool) : State :=
  let p := s.unitSpad c f
  let s' := s.race c k (f.padCore c) f p.1 p.2 (fun t => t.moved c k f && !((t.stream c k).flight? f.cmd.j).any (·.failed)) (fun s =>
    let s' := if isBad then s.unitHurt c k f else s.unitGoes c k f
    if f.eng = 4 then s'.idxAhead c k f else s')
  let s' := match s.idxPublish f with
    | some (h, r, i, a, n) =>
      if s'.moved c k f then
        s'.learnIf (s.ctxOf c) (fun d => d.who == some (c, k, f.cmd.j) && d.meets (s.ctxOf c) h a n) (fun _ => true) [.ring h r i]
      else s'
    | none => s'
  let words := if f.piece = 0 || f.cmd.i matches .ixlist _ then bankWords (s.unitSpans c f).1 else 0
  (if s'.moved c k f then s'.countCore c 6 words else s').countCorrected (dieOf c) c

/-- Whether something that a command has sent is under way. -/
def State.sending (s : State) (c k j : Nat) : Bool := s.transit.any (·.isOf c k j)

/-- Whether a command in flight has a unit that may complete: the reductions of the one before are at their homes (R160). -/
def State.unitReady (s : State) (c k : Nat) (f : Flight) : Bool :=
  s.alive c && !f.failed && !f.done && (f.eng == 0 || f.eng == 3 || f.eng == 4) && s.chanTurn c f &&
    !s.transit.any (fun t => t.isOf c k f.cmd.j && !t.reds.isEmpty)

/-- The next unit of a command of LDE, STE or IDX completes, or fails with an uncorrectable error (R160, R162, R295).  A unit one of
whose accesses meets a full spill area waits (R203, log entry 18); one that fails does so once the homes have accepted what the units
before it have written. -/
def execUnitCompletion (core slot j : Nat) (isBad : Bool) (s : State) : Out :=
  match (s.stream core slot).flight? j with
  | none => .next s
  | some f =>
    if !s.unitReady core slot f then .next s
    else
      let s' := s.unitStep core slot f isBad
      .next (if ((s'.stream core slot).flight? j).any (·.failed) && s.sending core slot j then s.draw else s.orWait s')

/-! ## Completion (R177, R180, R188) -/

/-- Whether the writes of commands of a slot numbered up to `j` are performed at a scope (R219): a write sent to a remote home is
performed for other dies once applied there, and one to the host aperture for the host once the root port has it. -/
def State.performed (s : State) (c k : Nat) (sel : Nat → Bool) (scope : Nat) : Bool :=
  let mine := fun (t : Transit) => t.core == c && t.slot == k && sel t.j
  (decide (scope < 4) || !s.transit.any mine) && (decide (scope < 5) || !s.root.any mine)

/-- The scope that a command's completion waits for: its home ports have accepted its writes (R210), and those of a `stat` are performed at
its own scope, at die scope and narrower once they have been sent (R212, R219). -/
def scopeOf (i : Instr) : Nat :=
  match i with
  | .stat f => f.imm.toNat % 8
  | _ => 4

/-- Whether the reductions of a command that are under way find no poisoned line as things stand: one that does stops its command first
(R213, R380). -/
def State.sentWell (s : State) (c k j : Nat) : Bool := (s.poisonedRed [] (s.transit.filter (·.isOf c k j))).isNone

/-- One token signal of an engine (R177, R180). -/
def Stream.signal (t : Stream) (eng dir : Nat) (m : Cmd) : Stream :=
  let b := tokByte eng dir
  if 255 ≤ t.tokAt b then
    t.engFault { eng := eng, cause := 0x0C, pc := m.pc, j := m.j, stat := BitVec.ofNat 64 (b * 256 + 1) }
  else t.setTok b (t.tokAt b + 1)

/-- The signals of a command. -/
def Stream.signals (t : Stream) (eng : Nat) (m : Cmd) : Stream :=
  let k := tokOf m.i
  let t := if k.su then t.signal eng 1 m else t
  if k.sd then t.signal eng 0 m else t

/-- The barrier of a command (R291, R368). -/
def barrierOf (eng : Nat) (m : Cmd) : Option Nat :=
  if (eng == 4 || eng == 5) && m.ef.y.getLsbD 4 then
    match m.i with
    | .cstat _ => none
    | _ => some (m.ef.y.toNat % 16)
  else none

/-- The arrival of a command (R188). -/
def State.arrive (s : State) (c k eng : Nat) (m : Cmd) : State :=
  match barrierOf eng m with
  | none => s
  | some b =>
    let x := s.bar (clusterOf c) b
    if x.expected = 0 then
      s.modStream c k (·.engFault { eng := eng, cause := 0x0D, pc := m.pc, j := m.j })
    else (s.arriveAt (s.ctxOf c) (clusterOf c) b).count (clusterOf c) (s.acct c) 44 1

/-- The tile of a `cpout` is ready again (R146). -/
def State.endDrain (s : State) (c : Nat) (m : Cmd) : State :=
  match m.i with
  | .cpout e => s.modTile c e.x.toNat (fun t => { t with st := .ready })
  | _ => s

/-- What a command comes after and what it has done or found goes to the releases that stand behind it, and to the commands that a fence of
kind `rel` or `full` holds behind it: `fence.rel` holds writes only (R214, R220, R227). -/
def State.passBehind (s : State) (c k : Nat) (m : Cmd) : State :=
  let t := s.stream c k
  s.learn (s.ctxOf c) (Knower.isCmd c k m.j) (t.heldBehind c k m.j (· == 2) false ++ t.heldBehind c k m.j (· != 0) true ++
    (t.rels.filter (fun r => decide (m.j < r.j))).map (fun r => .rel r.no))

/-- The counters that a completing command signals and the barrier that it arrives at, where the signal and the arrival are applied (R180,
R188). -/
def State.shownTo (s : State) (c k eng : Nat) (m : Cmd) : List Knower :=
  let tk := tokOf m.i
  (((if tk.su then [1] else []) ++ (if tk.sd then [0] else [])).filter (fun d =>
    decide ((s.stream c k).tokAt (tokByte eng d) < 255))).map (fun d => Knower.tok c k (tokByte eng d)) ++
    (match barrierOf eng m with
     | some b => if (s.bar (clusterOf c) b).expected = 0 then [] else [.arr (clusterOf c) b]
     | none => [])

/-- What a command comes after and what it has done or found is passed on as it completes: to its counters and its barrier, to the tile that
it has written or given back as far as the tile's bytes go, to what stands behind it, and what its reads come after to the commands that a
`fence.acq` holds behind it (R146, R148, R190, R214, R220, R223, R227). -/
def State.passOn (s : State) (c k : Nat) (f : Flight) : State :=
  let m := f.cmd
  let i := s.ctxOf c
  let s := (s.passBehind c k m).learn i (Knower.isCmd c k m.j) (.done c k true :: if m.dataOnly then [] else s.shownTo c k f.eng m)
  let s := if m.dataOnly then s else
    match m.wr, m.i with
    | some (n, _), _ => s.learnTile c n (Knower.isCmd c k m.j) (.fill c n)
    | none, .cpout e => s.learnTile c e.x.toNat (Knower.isCmd c k m.j) (.tile c e.x.toNat)
    | _, _ => s
  if readsMem m then
    s.learnIf i (fun d => d.who != some (c, k, m.j)) (Knower.isCmd c k m.j)
      (.done c k false :: (s.stream c k).heldBehind c k m.j (· == 0) false)
  else s

/-- A command completes: signals, arrival, tiles, pins and its journal record. -/
def State.finish (s : State) (c k : Nat) (f : Flight) : State :=
  let m := f.cmd
  let s := (s.passOn c k f).settleSlab c f
  let s := if f.eng = 2 then (s.modCore c (·.landPushes [f])).modStream c k (·.landCmd m.j) else s
  let s :=
    if m.dataOnly then s
    else
      ((((s.modStream c k (·.signals f.eng m)).arrive c k f.eng m).endDrain c m).tilesOf c m Tile.complete).tileReady c m
  ((s.pinPages (dieOf c) m.pins false).modStream c k (fun t => (t.dropFlight m.j).jdone m.j)).pruneRaces.forgetCmd c k m.j

/-- The core of a saved context with an LNK command in flight there, if any. -/
def State.savedLnk (s : State) (c k j : Nat) : Option (Nat × Core × Flight) :=
  s.ctxs.findSome? (fun e =>
    if e.2.st == .saved then
      match e.2.image.cores.find? (fun y => y.1 == c) with
      | some (_, y) =>
        match (y.stream k).flight? j with
        | some f => if f.eng == 5 then some (e.1, y, f) else none
        | none => none
      | none => none
    else none)

/-- An LNK command of a saved context goes on in the Woad engine: its data effects take place, and its completion is held
(R322). -/
def State.lnkWhileSaved (s : State) (c k j : Nat) : State :=
  match s.savedLnk c k j with
  | none => s
  | some (i, y, f) =>
    let now := s.core c
    let s' := (s.setCore c y).finishLnk c k f
    let y' := s'.core c
    if s'.overfull then s.draw
    else (s'.setCore c now).modCtx i (fun x =>
      { x with image := { x.image with cores := x.image.cores.map (fun e => if e.1 == c then (c, y') else e) } })

/-- An engine command completes (R177, R213, R369).  The entry that a VEC command pushes enters its channel first.  What an LNK command
stores waits while it meets a full spill area (R203). -/
def execCommandCompletion (core slot j : Nat) (s : State) : Out :=
  if s.boot != .up then .next s
  else if !s.alive core then .next (s.lnkWhileSaved core slot j)
  else
    match (s.stream core slot).flight? j with
    | none => .next (s.lnkWhileSaved core slot j)
    | some f =>
      let s' := if f.eng = 5 then s.finishLnk core slot f else s
      if s'.overfull then .next s.draw
      else if s.vecWaits core f then .next s
      else if (s.core core).pushing.any (fun p => f.eng == 2 && p.1 == f.order) then .next (s.modCore core (·.landPushes [f]))
      else
        match (s'.stream core slot).flight? j with
        | none => .next s'
        | some f =>
          if f.done && !f.failed && s'.performed core slot (fun n => n == j) (scopeOf f.cmd.i) && s'.sentWell core slot j then
            .next (s'.finish core slot f)
          else .next s'

/-! ## Fence markers (R214) -/

/-- Whether a command in flight ahead of a marker of kind `rel` or `full` at die scope or narrower has sent all that it writes: that is then
performed, without the remote homes (R219). -/
def State.allSent (s : State) (c k scope : Nat) (f : Flight) : Bool :=
  decide (scope < 4) && f.done && !f.failed && s.sending c k f.cmd.j && s.sentWell c k f.cmd.j

/-- Whether nothing ahead of a marker holds it: for an acquire no read that has not completed, and for a release no command that has not
completed, with its writes performed at the scope (R214, R219). -/
def State.markerFree (s : State) (c k : Nat) (m : Cmd) (kind scope : Nat) : Bool :=
  let t := s.stream c k
  let queued := fenceEngines.flatMap (fun e => (t.queue e).filter (fun x => x.mark.isNone))
  let flying := (t.flights.filter (fun f => fenceEngines.contains f.eng && !(kind != 0 && s.allSent c k scope f))).map (·.cmd)
  let ahead := (queued ++ flying).filter (fun x => decide (x.j < m.j))
  if kind = 0 then !ahead.any readsMem
  else ahead.isEmpty && s.performed c k (fun n => decide (n < m.j)) scope

/-- A marker leaves the head of its queue.  What it lets pass comes after what the commands ahead of it have sent. -/
def State.dropMarker (s : State) (c k eng : Nat) (m : Cmd) (kind scope : Nat) (r : List Cmd) : State :=
  let sent := (s.stream c k).flights.filter (fun f => kind != 0 && decide (f.cmd.j < m.j) && s.allSent c k scope f)
  (sent.foldl (fun s f => s.passBehind c k f.cmd) s).modStream c k (fun t => (t.setQueue eng r).jdone m.j)

/-- A marker at the head of its queue is removed once its condition holds. -/
def execFenceMarkerRetire (core slot eng : Nat) (s : State) : Out :=
  let t := s.stream core slot
  if !s.alive core || t.bitHalted eng then .next s
  else
    match t.queue eng with
    | m :: r =>
      match m.mark with
      | some (kind, scope) =>
        if s.markerFree core slot m kind scope then
          .next (s.dropMarker core slot eng m kind scope r)
        else .next s
      | none => .next s
    | [] => .next s

/-! ## The lease (R231, R232) -/

/-- Whether every slab command of a cluster has completed. -/
def State.slabIdle (s : State) (cl : Nat) : Bool :=
  (List.range 4).all (fun i =>
    (s.core (4 * cl + i)).streams.all (fun t => t.2.flights.all (fun f => f.eng != 1 || f.cmd.isLease)))

/-- The stream of a core whose request is the oldest; of equal ones the lower slot. -/
def Core.requester (x : Core) : Option Nat :=
  (sortBy (fun a b => decide ((x.stream a).reqAt < (x.stream b).reqAt))
    ((List.range 8).filter (fun k => (x.stream k).lease == .requested))).head?

/-- The core that the slab serves next, and its stream. -/
def State.nextHolder (s : State) (cl : Nat) : Option (Nat × Nat) :=
  ((List.range 4).map (fun i => 4 * cl + ((s.cluster cl).lastCore + 1 + i) % 4)).findSome? (fun c =>
    if s.alive c then ((s.core c).requester).map (fun k => (c, k)) else none)

/-- A free slab grants its lease; what the core finds there under another context's tag is empty (R229, R232, R266). -/
def execLeaseGrant (cluster : Nat) (s : State) : Out :=
  if (s.cluster cluster).holder.isSome || !s.slabIdle cluster || s.boot != .up then .next s
  else
    match s.nextHolder cluster with
    | none => .next s
    | some (c, k) =>
      let i := s.ctxOf c
      let s := (s.retagTable c i).modCore c (·.retag i)
      let s := s.modCluster cluster (fun x =>
        { x with holder := some (c, k), grantAt := x.eff s.now, issued := 0, lastCore := c % 4 })
      let s := s.modStream c k (fun t =>
        { t with
          lease := .held, renew := false
          flights := t.flights.map (fun f => if f.cmd.isLease then { f with done := true } else f) })
      .next (s.slabEvent c 42 1)

/-- When a lease's 8,192 effective cycles are over (R231). -/
def Cluster.leaseOverAt (x : Cluster) (now : Nat) : Nat := x.timeOf now (x.grantAt + 8192)

/-- The lease's 8,192 effective cycles have passed. -/
def execLeaseEnd (cluster : Nat) (s : State) : Out :=
  let x := s.cluster cluster
  if x.grantAt + 8192 ≤ x.eff s.now && s.boot == .up then .next (s.leaseQuota cluster (min s.now (x.leaseOverAt s.now))) else .next s

/-! ## The watchdog (R318) -/

/-- Whether nothing holds what comes next in a queue: a marker leaves it, an entry issues, or a slab command is retired without a lease
(R214, R230). -/
def State.headGoes (s : State) (c k eng : Nat) (m : Cmd) : Bool :=
  (match m.mark with
   | some (kind, scope) => !(s.stream c k).bitHalted eng && s.markerFree c k m kind scope
   | none => false) ||
    ((s.stream c k).head eng).any (fun h => s.canIssue c k eng h || s.leaseless c k eng h)

/-- The lowest engine whose next entry cannot issue, with that entry. -/
def State.stuckHead (s : State) (c k : Nat) : Option (Nat × Cmd) :=
  (List.range 6).findSome? (fun e =>
    match (s.stream c k).queue e with
    | m :: _ => if s.headGoes c k e m then none else some (e, ((s.stream c k).head e).getD m)
    | [] => none)

/-- Whether a stream waits on `hreq`, for a place in the event queue or for the reply (R320). -/
def SState.onHost : SState → Bool
  | .waiting .reply => true
  | .waiting (.post _) => true
  | _ => false

/-- Whether a slot's stream waits, other than on `hreq`, or halts, with its queues draining: one whose condition holds is ready, and a
drained one waits for nothing (R62, R64, R103, R318). -/
def State.watched (s : State) (c k : Nat) : Bool :=
  match (s.stream c k).st with
  | .waiting .reply => false
  | .waiting (.post _) => false
  | .waiting w => !s.condHolds c k w
  | .halting =>
    let t := (s.discardHalted c k).stream c k
    !t.drained || !t.faults.isEmpty
  | _ => false

/-- The first reference-microsecond boundary at or after a time. -/
def microAfter (t : Nat) : Nat := (t + 999) / 1000 * 1000

/-- When the watchdog of a slot expires if nothing happens in it: none where it does not run (R318, R320). -/
def State.watchdogAt (s : State) (c k : Nat) : Option Nat :=
  let t := s.stream c k
  let w := (s.ctx (s.ctxOf c)).cfg.wdog
  if !s.runs c || w = 0 || t.st == .free || t.st.onHost || (!s.watched c k && (s.stuckHead c k).isNone) then none
  else some (microAfter (t.progress + w * 1000))

/-- The watchdog of a slot expires: the trap's address and resume point are where the stream stands.  The trap waits as any does (R71). -/
def execWatchdogExpiry (core slot : Nat) (s : State) : Out :=
  let t := s.stream core slot
  if (s.watchdogAt core slot).all (fun a => decide (s.now < a)) then .next s
  else
    let r : TrapRec := match s.stuckHead core slot with
      | some (e, m) => { cause := 0x14, eng := e, pc := m.pc, jnum := m.j, resume := t.pc }
      | none => { cause := 0x14, pc := t.pc, jnum := t.jcnt.toNat, resume := t.pc }
    .next (s.takeTrap core slot r)

end Sys2Proof.Machine
end

