-- ==== Sys2Proof/Machine/Fp.lean ====
section
/-! DEFINITION. The scalar floating-point instructions (R75 to R77). -/

namespace Sys2Proof.Machine

/-- A rounded operation on two scalar operands of a type. -/
def State.fpOp (s : State) (i : Instr) (d a b t : BitVec 5) (rnd : BitVec 3) (f : Val → Val → Rnd → Val) : Out :=
  checked i s (s.writeFp d (fpTy t) (f (fpArg (fpTy t) (s.sreg a)) (fpArg (fpTy t) (s.sreg b)) (rndOf rnd)) (rndOf rnd))

/-- Sum, rounded once. -/
def execFadd (d a b t : BitVec 5) (rnd : BitVec 3) (s : State) : Out := s.fpOp (.fadd d a b t rnd) d a b t rnd Val.add

/-- Difference, rounded once. -/
def execFsub (d a b t : BitVec 5) (rnd : BitVec 3) (s : State) : Out := s.fpOp (.fsub d a b t rnd) d a b t rnd Val.sub

/-- Product, rounded once. -/
def execFmul (d a b t : BitVec 5) (rnd : BitVec 3) (s : State) : Out :=
  s.fpOp (.fmul d a b t rnd) d a b t rnd (fun x y _ => x.mul y)

/-- Product plus the old sD, with one rounding. -/
def execFfma (d a b t : BitVec 5) (rnd : BitVec 3) (s : State) : Out :=
  s.fpOp (.ffma d a b t rnd) d a b t rnd (fun x y m => (x.mul y).add (fpArg (fpTy t) (s.sreg d)) m)

/-- The lesser operand; one NaN gives the other operand (R75). -/
def execFmin (d a b t : BitVec 5) (s : State) : Out :=
  checked (.fmin d a b t) s
    (s.writeS d (BitVec.ofNat 64
      (roundTo (fpTy t) ((fpArg (fpTy t) (s.sreg a)).min (fpArg (fpTy t) (s.sreg b))) .rne 0 false)) 1)

/-- The greater operand; one NaN gives the other operand (R75). -/
def execFmax (d a b t : BitVec 5) (s : State) : Out :=
  checked (.fmax d a b t) s
    (s.writeS d (BitVec.ofNat 64
      (roundTo (fpTy t) ((fpArg (fpTy t) (s.sreg a)).max (fpArg (fpTy t) (s.sreg b))) .rne 0 false)) 1)

/-- The condition of `fcmp`: eq, lt, le or unordered (R75). -/
def fpCond (c : Nat) (x y : Val) : Bool :=
  match c with
  | 0 => x.cmp y == some .eq
  | 1 => x.lt y
  | 2 => x.le y
  | _ => x.cmp y == none

/-- 1 or 0 as the condition holds. -/
def execFcmp (d a b t : BitVec 5) (c : BitVec 3) (s : State) : Out :=
  checked (.fcmp d a b t c) s
    (s.writeS d (ofBool (fpCond c.toNat (fpArg (fpTy t) (s.sreg a)) (fpArg (fpTy t) (s.sreg b)))) 1)

/-- A code placed in a scalar register: sign-extended for a signed integer format, zero-extended for any other (R76). -/
def codeToReg (f : Fmt) (c : Nat) : W64 :=
  if f.isInt && f.isSigned then BitVec.ofInt 64 (signedOf f.width c) else BitVec.ofNat 64 (c % 2 ^ f.width)

/-- Conversion of a scalar from one format to another (R76). -/
def execFcvt (d a src t : BitVec 5) (rnd : BitVec 3) (s : State) : Out :=
  checked (.fcvt d a src t rnd) s <|
    match Fmt.ofCode src.toNat, Fmt.ofCode t.toNat with
    | some f, some g =>
      let m := rndOf rnd
      let (u, s') := s.ctlDraw m
      s'.writeS d (codeToReg g (convert f g ((s.sreg a).toNat % 2 ^ f.width) m u false)) 1
    | _, _ => trapOut s illegal

end Sys2Proof.Machine
end

