-- ==== Sys2Proof/Machine/Power.lean ====
section
/-! DEFINITION. Votes and the rail, the estimator, droop, the controller, and the control instructions `pwrl`, `swpt` and `musts`
(R332 to R346, R356). -/

namespace Sys2Proof.Machine

/-! ## The rail (R334, R335) -/

/-- Nominal voltage of a point in mV (R332). -/
def pointMv (i : Nat) : Nat := 550 + 25 * i

/-- The clusters of a die. -/
def dieClusters (d : Nat) : List Nat := (List.range 12).map (fun k => 12 * d + k)

/-- When a cluster's next period starts: never before a stretch under way is over (R335, R340). -/
def Cluster.nextPeriod (x : Cluster) (now : Nat) : Nat :=
  let x := x.norm now
  let t0 := if x.stretch then x.since + 12 else x.since
  let t := max now t0
  t + (16 - (x.phase + (t - t0)) % 16) % 16

/-- A cluster takes the canonical pattern of a point at the start of its next period. -/
def Cluster.order (x : Cluster) (now point : Nat) : Cluster :=
  let x := x.norm now
  if x.pattern == canonical (point + 1) && x.pending.isNone then x
  else { x with pending := some (x.nextPeriod now, canonical (point + 1)) }

/-- Every cluster of a die takes the pattern of a point; the time of the last change still to come, or 0. -/
def State.orderPatterns (s : State) (d point : Nat) : State × Nat :=
  let s' := (dieClusters d).foldl (fun s k => s.modCluster k (fun x => x.order s.now point)) s
  (s', (dieClusters d).foldl (fun m k =>
    match (s'.cluster k).pending with
    | some (t, _) => max m t
    | none => m) 0)

/-- The rail stands at or above the target's voltage: the patterns take the target's point, and a rail above it holds for
100 µs from the last change before it falls (R335). -/
def State.settleRail (s : State) (d : Nat) : State :=
  let x := s.die d
  let (s, t) := s.orderPatterns d x.target
  s.modDie d (fun y =>
    if pointMv x.target < y.mv then { y with rail := .hold, railAt := max t y.patAt + 100000 } else { y with rail := .still })

/-- The target of a die falls: patterns above the new point narrow. -/
def State.narrow (s : State) (d point : Nat) : State :=
  if (dieClusters d).any (fun k => decide (point < (s.cluster k).patPoint s.now)) then
    let (s', t) := s.orderPatterns d point
    s'.modDie d (fun y => { y with patAt := max t s.now })
  else s.modDie d (fun y => { y with patAt := s.now })

/-- A die follows its target when a vote, a residency or a ceiling has changed (R334, R335). -/
def State.retarget (s : State) (d : Nat) : State :=
  let x := s.die d
  let t := s.targetOf d
  if t = x.target then s
  else
    let s := s.modDie d (fun y => { y with target := t })
    if x.mv < pointMv t then
      if x.rail = .rise then s else s.modDie d (fun y => { y with rail := .rise, railAt := s.now + 2000 })
    else
      let s := if t < x.target then s.narrow d t else s
      if x.rail = .rise then s else s.settleRail d

/-- Retargets every die. -/
def State.retargetAll (s : State) : State := (List.range 8).foldl State.retarget s

/-- The rail moves by 5 mV (R335). -/
def execRailStep (die : Nat) (s : State) : Out :=
  let x := s.die die
  if s.now < x.railAt || s.boot != .up then .next s
  else
    match x.rail with
    | .rise =>
      let s := s.modDie die (fun y => { y with mv := y.mv + 5, railAt := y.railAt + 2000 })
      if pointMv x.target ≤ x.mv + 5 then .next (s.settleRail die) else .next s
    | .fall =>
      let mv := x.mv - 5
      .next (s.modDie die (fun y =>
        { y with mv := mv, railAt := y.railAt + 2000, rail := if mv ≤ pointMv x.target then .still else .fall }))
    | _ => .next s

/-- The hold before a fall is over (R335). -/
def execRailHoldEnd (die : Nat) (s : State) : Out :=
  let x := s.die die
  if x.rail = .hold && decide (x.railAt ≤ s.now) && s.boot == .up then
    .next (s.modDie die (fun y => { y with rail := .fall, railAt := y.railAt + 2000 }))
  else .next s

/-- Sets the context's vote and requested level on the issuing die (R336). -/
def execPwrl (a : BitVec 5) (s : State) : Out :=
  let v := s.sreg a
  let d := dieOf s.sel
  if fld v.toNat 9 8 = 3 || fld v.toNat 7 4 ≠ 0 || fld v.toNat 63 10 ≠ 0 then trapOut s illegal
  else
    .next (((s.modCtx (s.ctxOf s.sel) (fun x =>
      { x with vote := x.vote.set d (fld v.toNat 3 0), req := x.req.set d (fld v.toNat 9 8) })).retarget d).retire 1)

/-- Moves to a switch point of the schedule that the granted level selects (R345). -/
def execSwpt (_n : BitVec 8) (t0 t1 t2 : W32) (s : State) : Out :=
  if s.cur.lc.any (fun c => c.2.active) then trapOut s illegal
  else
    let w := match s.levelOf (s.ctxOf s.sel) (dieOf s.sel) with
      | 0 => t0
      | 1 => t1
      | _ => t2
    .next (s.jump (s.target w))

/-! ## The must-save table (R356) -/

/-- Translates the pages of a range for a control step: the pages, or the trap of the first that fails. -/
def State.fillRange (s : State) (d ctx : Nat) (a : Acc) (va : Nat) (pins : List Pin) :
    Nat → Except (Trap × State) (List Pin × State)
  | 0 => .ok (pins, s)
  | n + 1 =>
    if a.hi ≤ va then .ok (pins, s)
    else
      match s.fill d ctx va with
      | .error (e, s) => .error (e.trap va, s)
      | .ok (e, s) =>
        match e.denies a va with
        | some t => .error (t, s)
        | none => State.fillRange s d ctx a (e.pin.vbase + 2 ^ e.pin.size) (pins ++ [e.pin]) n

/-- Translates the pages of several ranges for a die, once each; none where one fails. -/
def State.fillAll (s : State) (d ctx : Nat) (l : List Acc) : Option (List Pin × State) :=
  l.foldl (fun (acc : Option (List Pin × State)) a =>
    match acc with
    | none => none
    | some (ps, s) =>
      match s.fillRange d ctx a a.lo ps 1026 with
      | .error _ => none
      | .ok (ps, s) => some (ps.eraseDups, s)) (some ([], s))

/-- Pins or unpins pages by die. -/
def State.pinList (s : State) (l : List (Nat × Pin)) (up : Bool) : State := l.foldl (fun s p => s.pinPages p.1 [p.2] up) s

/-- Steps that suffice to cover a range by pages of 64 KiB or more. -/
def granules (a : Acc) : Nat := (a.hi - a.lo) / 2 ^ 16 + 2

/-- Changes a region of the must-save table: its pages are translated with R and pinned, and the old ones unpinned; it waits as
a dispatch does where a count or the cache allows no further pin (R197, R216, R356). -/
def execMusts (a b : BitVec 5) (imm : BitVec 4) (s : State) : Out :=
  let i := s.ctxOf s.sel
  let x := s.curCtx
  let base := (s.sreg a).toNat
  let n := (s.sreg b).toNat
  match x.musts.find imm.toNat with
  | none => trapOut s illegal
  | some e =>
    if e.declared < n || base % 64 ≠ 0 || n % 64 ≠ 0 then trapOut s illegal
    else
      let d := x.cfg.keeper imm.toNat
      let r : Acc := { lo := base, hi := base + n, r := true }
      match s.fillRange d i r base [] (granules r) with
      | .error (t, s') => trapOut s' t
      | .ok (ps, s') =>
        let s' := s'.pinList e.pins false
        match fullPin (s'.die d).tlb ps with
        | some p => .next (s.wait (.stall (.pin p.id)))
        | none =>
          if cacheHolds (s'.die d).tlb ps then
            let pins := ps.map (fun p => (d, p))
            .next (((s'.pinList pins true).modCtx i (fun x =>
              { x with musts := x.musts.set imm.toNat { e with base := base, bytes := n, pins := pins } })).retire 1)
          else .next (s.wait (.stall .cache))

/-! ## The estimator (R337, R338, R341) -/

/-- The weight in force of an event on a die, in 1/16 pJ. -/
def State.weightOf (s : State) (d e : Nat) : Nat :=
  match (s.die d).weights with
  | [] => (Config.weight d e).toNat
  | w => (w.getD e 0).toNat

/-- 2 nJ in 1/64 pJ. -/
def twoNj : Nat := 128000

/-- The charges of a cluster's window by account, in 1/64 pJ: counted events, and a quarter of the clock tree and the static
figure for each core. -/
def State.windowCharges (s : State) (k : Nat) : Map Nat :=
  let x := s.cluster k
  let d := k / 12
  let m : Map Nat := x.counts.foldl (fun m e =>
    m.set (e.1 / 64) (m.getD (e.1 / 64) 0 + 4 * e.2 * s.weightOf d (e.1 % 64))) []
  let q := 128 * s.weightOf d 46 + Config.static d (s.pointOf d)
  (List.range 4).foldl (fun m c => m.set (s.acct (4 * k + c)) (m.getD (s.acct (4 * k + c)) 0 + q)) m

/-- Sum of charges. -/
def chargeSum (m : Map Nat) : Nat := m.foldl (fun n e => n + e.2) 0

/-- The partition's account whose charge fell most from one window to the next; the lower number on a tie (R341).  Account 0 is no
partition's; it is charged only where no partition's charge fell. -/
def fellMost (old new : Map Nat) : Nat :=
  (old.foldl (fun (b : Nat × Nat) e =>
    let f := e.2 - new.getD e.1 0
    if e.1 ≠ 0 && b.2 < f then (e.1, f) else b) (0, 0)).1

/-- A window of 128 effective cycles ends: ballast is added, the charges are made, and halving or ballast follows from the
change of the estimate (R337, R338, R341). -/
def execEstimatorWindowEnd (cluster : Nat) (s : State) : Out :=
  let x := (s.cluster cluster).norm s.now
  let d := cluster / 12
  if x.eff s.now < x.winStart + 128 || s.boot != .up then .next s
  else
    let m := s.windowCharges cluster
    let w := 4 * s.weightOf d 47
    let lack := x.ballast - chargeSum m
    let units := if w = 0 then 0 else (lack + w - 1) / w
    let m := if units = 0 then m else m.set x.ballastAcct (m.getD x.ballastAcct 0 + units * w)
    let e := chargeSum m
    let s := m.foldl (fun s c => s.charge d c.1 c.2) s
    .next (s.modCluster cluster (fun y =>
      let y := y.norm s.now
      { y with
        winStart := y.winStart + 128, counts := [], prevCharge := m, prevE := e
        halvingAt := if 2 * x.prevE + twoNj < e then some (x.winStart + 128) else y.halvingAt
        ballast := if 2 * e + 2 * twoNj < x.prevE then x.prevE / 2 else 0
        ballastAcct := fellMost x.prevCharge m }))

/-- The physical function loads override weights for a die (R337). -/
def execWeightOverrideLoad (func die : Nat) (w : List (BitVec 12)) (s : State) : Out :=
  if func = 0 && s.boot == .up then .next (s.modDie die (fun y => { y with weights := w })) else .next s

/-! ## Droop (R340, R342) -/

/-- The first time from `now` on, within two periods, at which an effective cycle begins. -/
def Cluster.nextCycle (x : Cluster) (now : Nat) : Nat → Nat
  | 0 => now
  | n + 1 => if x.begins now then now else Cluster.nextCycle x (now + 1) n

/-- A stretch starts at the next effective cycle: six cycles of two nanoseconds, the pattern suspended from the slot after the
one used (R340). -/
def Cluster.startStretch (x : Cluster) (now : Nat) : Cluster :=
  let t := x.nextCycle now 32
  let y := x.norm t
  let slot := (y.phase + (t - y.since)) % 16
  let z := { y with effBase := y.eff t, since := t, phase := (slot + 1) % 16, stretch := true, halvingAt := none }
  { z with pending := z.pending.map (fun p => (z.nextPeriod t, p.2)) }

/-- The detector raises an alarm when the rail stands more than the threshold below nominal; one during a stretch is ignored
(R340). -/
def execDroopAlarm (cluster sag : Nat) (s : State) : Out :=
  let x := (s.cluster cluster).norm s.now
  if sag ≤ s.thrOf cluster || s.boot != .up || (x.stretch && decide (s.now < x.since + 12)) then .next s
  else
    .next (s.setCluster cluster { x.startStretch s.now with alarms := min (x.alarms + 1) 65535 })

/-- A stretch is over: the pattern resumes and a halving window begins (R340). -/
def execStretchEnd (cluster : Nat) (s : State) : Out :=
  let x := s.cluster cluster
  if x.stretch && decide (x.since + 12 ≤ s.now) then .next (s.setCluster cluster (x.norm s.now)) else .next s

/-- A halving window is over (R340). -/
def execHalvingEnd (cluster : Nat) (s : State) : Out :=
  let x := s.cluster cluster
  match x.halvingAt with
  | some h => if h + 64 ≤ x.eff s.now then .next (s.setCluster cluster { x with halvingAt := none }) else .next s
  | none => .next s

/-! ## The controller (R343) -/

/-- Whether a partition has a context resident on a die. -/
def State.partOn (s : State) (p d : Nat) : Bool := s.ctxIds.any (fun i => (s.ctx i).cfg.part == p && s.residentOn i d)

/-- One watt over 20 µs, in 1/64 pJ. -/
def wattUnits : Nat := 64 * 20000000

/-- The evaluation of one partition. -/
def Die.evaluate (x : Die) (p share : Nat) (above : Bool) : Die :=
  let e := x.energy.getD p 0
  let calm := if 4 * e < 3 * share * wattUnits then min (x.calm.getD p 0 + 1) 10 else 0
  let b := x.level.getD p 0
  let b' := if share * wattUnits < e || above then min (b + 1) 2 else if calm = 10 then b - 1 else b
  { x with calm := x.calm.set p calm, level := x.level.set p b' }

/-- The controller of a die evaluates each partition with contexts resident there, every 20 µs (R343). -/
def execControllerEvaluation (die : Nat) (s : State) : Out :=
  let x := s.die die
  if s.now < x.ctrlAt + 20000 || s.boot != .up then .next s
  else
    let above := decide (560 * wattUnits < x.dieEnergy)
    let ps := (s.parts.map (·.1)).filter (fun p => s.partOn p die)
    let y := ps.foldl (fun y p => y.evaluate p ((s.parts.getD p {}).share.getD die 0) above) x
    .next (s.setDie die
      { y with
        level := y.level.filter (fun e => ps.contains e.1), calm := y.calm.filter (fun e => ps.contains e.1)
        energy := [], dieEnergy := 0, ctrlAt := x.ctrlAt + 20000 })

end Sys2Proof.Machine
end

