-- ==== Sys2Proof/Machine/Context.lean ====
section
/-! DEFINITION. Contexts: creation, destruction, pre-emption, the save and restoration (R191, R247, R287, R297, R308, R309, R322 to
R325, R355, R375). -/

namespace Sys2Proof.Machine

/-! ## The limits of a configuration (R308) -/

/-- What a core has (R97, R108, R142). -/
def coreMax : Demand := { vregs := 256, spad := 770048, tiles := 64, rings := 16 }

/-- The limits of a core's items.  Whether table ranges overlap is tested apart, by `tableApart`. -/
def coreCfgOk (k : CoreCfg) : Bool :=
  decide (k.core < 384) && fits k.total coreMax && fits (demandPlus (demandPlus k.r1 k.r2) k.r3) k.total &&
    decide (k.tbase < 4096) && decide (k.tbase + k.tcount ≤ 4096) && decide (k.live.length ≤ 8) &&
    k.live.all (fun r => r.1 % 4096 == 0 && r.2 % 4096 == 0 && r.2 != 0 && decide (r.1 + r.2 ≤ spadSize))

/-- Whether the table ranges of two cores do not overlap, where they are ranges of one slab (R228, R266). -/
def tableApart (k l : CoreCfg) : Bool :=
  clusterOf k.core != clusterOf l.core || k.core == l.core || k.tcount == 0 || l.tcount == 0 ||
    decide (k.tbase + k.tcount ≤ l.tbase) || decide (l.tbase + l.tcount ≤ k.tbase)

/-- Bytes of the journal range. -/
def jnlLen : Nat := 0x4000

/-- The wiring names engines as producers and has its zero bits clear (R183). -/
def wiringOk (w : W64) : Bool :=
  (List.range 8).all (fun g => fld w.toNat (8 * g + 7) (8 * g + 6) == 0 && decide (fld w.toNat (8 * g + 5) (8 * g + 3) ≤ 5))

/-- The setup records (R142, R145, R167, R268).  A `.fold` record of eight to fifteen whose tau is not above 0, and one of zero to seven whose
range lies outside the table range of a core, is refused, as a write of the register is (R269, R308; DESIGN CHOICE, log entry 31). -/
def recordsOk (x : CtxCfg) : Bool :=
  let jnl := x.jnl.getD 0xBC000
  x.tiles.all (fun e => decide (e.1 < 64) && (descTrap jnl e.2.1 e.2.2).isNone) &&
    x.rings.all (fun e =>
      let g : Ring := { base := e.2.2.1, slots := e.2.2.2.1, size := e.2.2.2.2 }
      decide (e.1 < 16) && decide (e.2.1 ≤ 4) && decide (1 ≤ g.slots) && decide (g.slots ≤ 4095) && g.size % 16 == 0 &&
        decide (16 ≤ g.size) && decide (g.size ≤ 65536) && g.base % 16 == 0 && (g.placeTrap jnl).isNone) &&
    x.folds.all (fun e =>
      decide (e.1 < 16) && (if e.1 < 8 then x.cores.all (fun k => fsaOk k e.2) else tauOk e.2))

/-- The must-save table (R355). -/
def mustsOk (x : CtxCfg) : Bool :=
  decide (x.musts.map (·.id)).Nodup &&
    x.musts.all (fun m => decide (m.id < 16) && m.base % 64 == 0 && m.size % 64 == 0 && decide (64 ≤ m.size) &&
      decide (m.size ≤ 960 * 2 ^ 20))

/-- Every item keeps its limit. -/
def cfgOk (x : CtxCfg) : Bool :=
  decide (x.id < 65536) && !x.cores.isEmpty && decide (x.cores.map (·.core)).Nodup && x.cores.all coreCfgOk &&
    x.root % 0x4000 == 0 && decide (x.root < 2 ^ 42) && x.saveBase % 0x10000 == 0 &&
    decide (0x10000 + 0x200000 * x.cores.length ≤ x.saveLen) && codeAddr x.trapVec && decide (x.wdog < 2 ^ 32) &&
    x.jnl.getD 0xBC000 % jnlLen == 0 && decide (x.jnl.getD 0xBC000 < 0xC0000) && wiringOk x.wiring &&
    x.cores.all (fun k => x.cores.all (tableApart k)) && x.bars.all (fun b => decide (b.1 < 96) && decide (b.2 < 65536)) && mustsOk x && decide (x.keepPrio < 256) && recordsOk x

/-! ## Admission -/

/-- The partition owns the cores, and no other context is resident on them. -/
def State.coresFree (s : State) (x : CtxCfg) : Bool :=
  x.cores.all (fun k => (s.parts.getD x.part {}).cores.contains k.core && (s.core k.core).resident.isNone)

/-- No other context has been allotted one of the barriers. -/
def State.barsFree (s : State) (x : CtxCfg) : Bool :=
  x.bars.all (fun b => s.ctxs.all (fun y => y.2.cfg.bars.all (fun e => e.1 != b.1 || (e.2 &&& b.2) == 0)))

/-- No range of the table that the context is allotted overlaps one that another context has on another core (R228, R266, R310): a creation
that asks for one is refused (DESIGN CHOICE, log entry 31). -/
def State.tablesFree (s : State) (x : CtxCfg) : Bool :=
  x.cores.all (fun k => s.ctxs.all (fun y => y.2.cfg.cores.all (tableApart k)))

/-- The keep-store charges of every die stay within 960 MiB (R355). -/
def State.admitted (s : State) (x : CtxCfg) : Bool := (List.range 8).all (fun d => decide (s.charged d + x.charge d ≤ 15360))

/-- Translates an area for a context and pins its pages, where no count would pass 65,535 and the die's cache allows it (R197, R309,
R355; log entry 29). -/
def State.pinArea (s : State) (d ctx : Nat) (a : Acc) : Option (List Pin × State) :=
  match s.fillRange d ctx a a.lo [] (granules a) with
  | .error _ => none
  | .ok (ps, s') =>
    if (fullPin (s'.die d).tlb ps).isNone && cacheHolds (s'.die d).tlb ps then
      some (ps, s'.pinPages d ps true)
    else none

/-- A must-save table as (id, declared size, base, bytes). -/
abbrev MustList := List (Nat × Nat × Nat × Nat)

/-- The table that a configuration declares. -/
def declaredMusts (x : CtxCfg) : MustList := x.musts.map (fun m => (m.id, m.size, m.base, m.size))

/-- Translates and pins every region on its keeper die (R355). -/
def State.pinMusts (s : State) (x : CtxCfg) : MustList → Option (Map Must × State)
  | [] => some ([], s)
  | (id, size, base, n) :: r =>
    match s.pinArea (x.keeper id) x.id { lo := base, hi := base + n, r := true } with
    | none => none
    | some (ps, s') =>
      match State.pinMusts s' x r with
      | none => none
      | some (m, s'') =>
        some (m.set id { declared := size, base := base, bytes := n, pins := ps.map (fun p => (x.keeper id, p)) }, s'')

/-! ## What creation sets -/

/-- A core as a new context finds it, its setup records applied (R16, R141, R167, R182, R228, R269). -/
def freshCore (x : CtxCfg) (k : CoreCfg) : Core :=
  { resident := some x.id, tabTag := some x.id, accTag := some x.id
    planes := [(0, { tag := some x.id }), (1, { tag := some x.id })]
    tiles := x.tiles.foldl (fun m e => m.set e.1 { d0 := e.2.1, d1 := e.2.2 }) []
    homes := x.rings.foldl (fun m e => if e.2.1 = 4 then m.erase e.1 else m.set e.1 e.2.1) []
    rings := x.rings.foldl (fun m e =>
      if e.2.1 = 4 || e.2.1 = k.core % 4 then
        m.set e.1 { base := e.2.2.1, slots := e.2.2.2.1, size := e.2.2.2.2 }
      else m) []
    fsa := x.folds.foldl (fun m e => if e.1 < 8 then m.set e.1 (e.2 &&& 0xFFFF000007FFFFFF) else m) []
    fsb := x.folds.foldl (fun m e => if e.1 < 8 then m else m.set (e.1 - 8) (e.2 &&& 0xFFFFFFFF)) [] }

/-- Entries of a table outside a core's range. -/
def outsideRange (k : CoreCfg) (t : Map (BitVec 256)) : Map (BitVec 256) :=
  t.filter (fun e => !(decide (k.tbase ≤ e.1) && decide (e.1 < k.tbase + k.tcount)))

/-- A core leaves the slab of its cluster: its refresh records go, and the lease where one of its streams holds it: the slab is free from
that moment, at the end of a save (R247; DESIGN CHOICE, log entry 32). -/
def Cluster.without (y : Cluster) (c : Nat) : Cluster :=
  { y with
    refresh := y.refresh.filter (fun e => e.2 != c % 4)
    holder := match y.holder with
      | some (h, k) => if h = c then none else some (h, k)
      | none => none }

/-- The barriers of an allotment hold expected 0, arrival 0 and phase 0 (R186). -/
def State.clearBars (s : State) (l : List (Nat × Nat)) : State :=
  l.foldl (fun s b => s.modCluster b.1 (fun y => { y with bars := y.bars.filter (fun e => !b.2.testBit e.1) })) s

/-- The cores of a new context. -/
def State.installCores (s : State) (x : CtxCfg) : State :=
  x.cores.foldl (fun s k =>
    (s.setCore k.core (freshCore x k)).modCluster (clusterOf k.core) (fun y =>
      { (y.without k.core) with table := outsideRange k y.table })) s

/-- The budget level of a partition starts anew on each die where it becomes resident with a context (R343). -/
def State.freshLevels (s : State) (x : CtxCfg) : State :=
  x.dies.foldl (fun s d =>
    if s.partOn x.part d then s
    else s.modDie d (fun y => { y with level := y.level.erase x.part, calm := y.calm.erase x.part })) s

/-- A context's votes at its creation: the partition's ceiling on each of its dies (R334). -/
def State.firstVotes (s : State) (x : CtxCfg) : Map Nat := x.dies.foldl (fun m d => m.set d (s.ceilOf x.part d)) []

/-- The releases of a context's number are forgotten. -/
def State.forgetReleases (s : State) (i : Nat) : State :=
  let keep := fun (l : List Release) => l.filter (fun r => r.ctx != i)
  let sent := fun (t : Transit) => { t with rels := keep t.rels, reds := t.reds.map (fun r => { r with rels := keep r.rels }) }
  { s with
    marks := (s.marks.map (fun e => (e.1, e.2.1, keep e.2.2))).filter (fun e => !e.2.2.isEmpty)
    transit := s.transit.map sent, root := s.root.map sent, races := s.races.map (fun r => { r with rels := keep r.rels })
    dies := s.dies.map (fun e => (e.1, { e.2 with held := e.2.held.map (fun h =>
      { h with reds := h.reds.map (fun r => { r with rels := keep r.rels }) }) })) }

/-- Creates a context, or refuses it whole; its save area may have 1,024 pages (R197, R308, R309, R355, R378; log
entry 25).  Its translations follow the tables as they now are (R199). -/
def State.create (s : State) (x : CtxCfg) (musts : MustList) (recovery : Bool) : Option State :=
  if cfgOk x && (s.ctxs.find x.id).isNone && s.coresFree x && s.barsFree x && s.tablesFree x && s.admitted x &&
      (recovery || x.dies.all (fun d => !(s.die d).report)) then
    let d := x.dies.headD 0
    match ((((s.forgetReleases x.id).freshLevels x).cover x.id 0 (2 ^ 60)).setCtx x.id
        { cfg := x, exact := x.exact, trapVec := x.trapVec, vote := s.firstVotes x }).pinArea d x.id
        { lo := x.saveBase, hi := x.saveBase + x.saveLen, r := true, w := true } with
    | none => none
    | some (ps, s1) =>
      match if ps.length ≤ 1024 then s1.pinMusts x musts else none with
      | none => none
      | some (m, s2) =>
        some ((((s2.installCores x).clearBars x.bars).modCtx x.id (fun c =>
          { c with savePins := ps.map (fun p => (d, p)), musts := m })).retargetAll)
  else none

/-- The statuses of a completion entry other than 0 (R374). -/
def refusals : List Nat := [1, 2, 3, 4, 5, 6, 7, 0xFD, 0xFE, 0xFF]

/-- A completion entry of an entry that was not done, where the manual does not say with which status: any of them. -/
def State.completeOpen (s : State) (func queue : Nat) : State :=
  s.draw.complete func queue (refusals.getD (Config.freeNat s.draws % refusals.length) 1)

/-- A control entry is refused: nothing changes, and the host is told (R308, R325). -/
def State.refuseEntry (s : State) (func queue ctx : Nat) : State := (s.post func (.refused ctx)).completeOpen func queue

/-- Whether a control entry for a context waits (R374). -/
def State.ctxBusy (s : State) (i : Nat) : Bool := (s.ctxs.find i).any (fun x => x.st == .saving)

/-- A control entry creates a context (R308). -/
def execContextCreate (func : Nat) (cfg : CtxCfg) (s : State) : Out :=
  let x := { cfg with part := func }
  if s.boot != .up || s.ctxBusy x.id then .next s
  else
    match s.create x (declaredMusts x) false with
    | some s' => .next (s'.complete func 1 0)
    | none => .next (s.refuseEntry func 1 x.id)

/-! ## Leaving the cores, and destruction (R191, R201, R375) -/

/-- Nothing that was done by commands on some cores is theirs any more: they are gone. -/
def State.leaveRaces (s : State) (gone : Nat → Bool) : State :=
  { s with races := s.races.map (fun r => if r.who.any (fun w => gone w.1) then { r with who := none } else r) }

/-- What has been done in a context comes before all that it does from here on: it is gone, saved, or restored, which is an acquire that
synchronises with the save's release (R324). -/
def State.settleDeeds (s : State) (i : Nat) : State := { s with deeds := s.deeds.filter (fun d => d.ctx != i) }

/-- A context's cores, slab parts, barriers and pending records are given up, and what was done there is settled. -/
def State.vacate (s : State) (i : Nat) : State :=
  let x := s.ctx i
  let s := s.settleDeeds i
  let s := x.cfg.cores.foldl (fun s k =>
    if (s.core k.core).resident == some i then
      (s.setCore k.core {}).modCluster (clusterOf k.core) (fun y => y.without k.core)
    else s) s
  let s := (s.clearBars x.cfg.bars).leaveRaces (fun c => x.owns c && (s.core c).resident.isNone)
  (List.range 8).foldl (fun s d => s.modDie d (fun y =>
    Die.enroll { y with nests := y.nests.filter (fun n => n.ctx != i), waiting := y.waiting.filter (fun n => n.ctx != i) })) s

/-- Everything of a context is reclaimed: its pins and cached translations with its commands. -/
def State.reclaim (s : State) (i : Nat) : State :=
  let s := s.vacate i
  let s := (List.range 8).foldl (fun s d => s.modDie d (fun y =>
    { y with tlb := y.tlb.filter (fun e => e.2.ctx != i), rr := y.rr.erase i })) s
  ({ s with
    ctxs := s.ctxs.erase i, groups := s.groups.filter (fun g => g.ctx != i)
    fetched := s.fetched.filter (fun e => e.1 != i), stale := s.stale.filter (fun e => e.1 != i) } : State).retargetAll

/-- A control entry destroys a context. -/
def execContextDestroy (func ctx : Nat) (s : State) : Out :=
  if s.boot != .up then .next s
  else if !s.ownsCtx func ctx then .next (s.complete func 1 0xFF)
  else if s.ctxBusy ctx then .next s
  else .next ((s.reclaim ctx).complete func 1 0)

/-! ## Pre-emption (R322 to R325) -/

/-- The sequencers and engines stop issuing for a resident context; a save begins. -/
def State.startSave (s : State) (i : Nat) (ben entry : Option Nat) : State :=
  s.modCtx i (fun x => { x with st := .saving, beneficiary := ben, entry := entry })

/-- Whether a stream of a context is taking a trap, as it has been waiting to since anything of it last issued: a pre-emption waits until it has
(R325). -/
def State.trapping (s : State) (i : Nat) : Bool :=
  (s.ctx i).st == .resident && !(s.ctx i).faulted && (s.ctx i).coreList.any (fun c => (s.core c).streams.any (fun t => decide (t.2.progress < t.2.heldAt)))

/-- A control entry pre-empts a resident context; it waits while a trap is being taken there, and completes when the context is saved. -/
def execContextPreempt (func ctx : Nat) (ben : Option Nat) (s : State) : Out :=
  if s.boot != .up then .next s
  else if !s.ownsCtx func ctx then .next (s.complete func 1 0xFF)
  else if s.ctxBusy ctx then .next s
  else if (s.ctx ctx).st == .resident then .next (if s.trapping ctx then s else s.startSave ctx ben (some func))
  else .next (s.completeOpen func 1)

/-- The partition schedule pre-empts a resident context, unless a trap is being taken there: then it does so at a later step (R325). -/
def execPartitionSchedulePreempt (ctx : Nat) (s : State) : Out :=
  if s.boot == .up && (s.ctxs.find ctx).any (fun x => x.st == .resident) && !s.trapping ctx then .next (s.startSave ctx none none)
  else .next s

/-- The rest of a unit that an IDX command has begun: an `ixlist` publishes, and entries go into a channel while it has room. -/
def State.finishPieces (s : State) (c k j : Nat) : Nat → State
  | 0 => s
  | n + 1 =>
    match (s.stream c k).flight? j with
    | none => s
    | some f => if f.piece = 0 || f.failed || f.done then s else State.finishPieces (s.idxUnit c k f) c k j n

/-- Steps that the pieces of a unit can take. -/
def pieceFuel : Nat := 258

/-- Commands of LDE and IDX at the save: a begun unit is completed, and an issued `pfch` is discarded (R161, R297). -/
def State.cutFlight (s : State) (c k : Nat) (f : Flight) : State :=
  match f.cmd.i with
  | .ixlist _ | .gath _ | .ixpage _ => s.finishPieces c k f.cmd.j pieceFuel
  | .pfch _ => (s.dropCmd c k f.cmd).modStream c k (·.dropFlight f.cmd.j)
  | _ => s

/-- Whether a command in flight completes before the save: VEC and MXE commands, and those whose last unit has landed (R161,
R247). -/
def Flight.settles (f : Flight) : Bool := !f.failed && f.eng != 5 && (f.done || f.eng == 2 || f.cmd.isLease)

/-- The `cpost` commands in flight read their sources: the Woad engine goes on (R322). -/
def State.readPosts (s : State) (c k : Nat) (f : Flight) : State :=
  match f.cmd.i with
  | .cpost _ => s.finishLnk c k f
  | _ => s

/-- The engines deal with the commands of a stream as the table of R322 says. -/
def State.quiesce (s : State) (c k : Nat) : State :=
  let s := (s.stream c k).flights.foldl (fun s f => (s.cutFlight c k f).readPosts c k f) s
  let s := (s.stream c k).flights.foldl (fun s f => if f.settles then s.finish c k f else s) s
  s.modStream c k Stream.landAll

/-- The scratchpad bytes that an image keeps: the live ranges and the journal range (R323, R354). -/
def liveSpad (x : Ctx) (c : Nat) (m : Memory) : Memory :=
  let live := (x.coreCfg c).live
  m.filter (fun b =>
    live.isEmpty || live.any (fun r => decide (r.1 ≤ b.1) && decide (b.1 < r.1 + r.2)) ||
      (decide (x.jnlBase ≤ b.1) && decide (b.1 < x.jnlBase + jnlLen)))

/-- The state of a context on some dies (R323, R354). -/
def State.imageOf (s : State) (i : Nat) (ds : List Nat) : Image :=
  let x := s.ctx i
  let cs := x.coreList.filter (fun c => ds.contains (dieOf c))
  { cores := cs.map (fun c => (c, { s.core c with spad := liveSpad x c (s.core c).spad }))
    bars := (x.cfg.bars.filter (fun b => ds.contains (b.1 / 12))).flatMap (fun b =>
      ((List.range 16).filter (fun n => b.2.testBit n)).map (fun n => (b.1, n, s.bar b.1 n)))
    table := cs.flatMap (fun c =>
      let k := x.coreCfg c
      ((s.cluster (clusterOf c)).table.filter (fun e => decide (k.tbase ≤ e.1) && decide (e.1 < k.tbase + k.tcount))).map
        (fun e => (clusterOf c, e.1, e.2)))
    refresh := cs.flatMap (fun c =>
      ((s.cluster (clusterOf c)).refresh.filter (fun e => e.2 == c % 4)).map (fun e => (clusterOf c, e.1, e.2)))
    nests := s.nestsOf i ds
    exact := x.exact, trapVec := x.trapVec }

/-- Every completed write of a context is performed at system scope (R208, R324). -/
def State.release (s : State) (i : Nat) : State := ((s.ctx i).cfg.dies.foldl State.settleDie s).closeCtx i

/-- A save has been written over the save area, in a layout that is not architectural; poisoned lines there are healed (R309, R322, R380). -/
def State.layDown (s : State) (x : Ctx) : State :=
  x.savePins.foldl (fun s p =>
    let r := x.saveRange p.2
    s.deviceStore p.2.cmp r.1 (r.2 - r.1) (fun s =>
      let s := s.noteStale r.1 (r.2 - r.1)
      { s with laid := cutLaid s.laid r.1 r.2 ++ [(r.1, r.2, s.draws)], marks := cutLaid s.marks r.1 r.2
               poison := healed s.poison r.1 (r.2 - r.1) }.draw)) s

/-- The energy of a save or restore, whose amount is open (R338). -/
def State.openCharge (s : State) (ds : List Nat) (acct : Nat) : State :=
  ds.foldl (fun s d => s.draw.charge d acct (Config.freeNat s.draws)) s

/-- The account that pays for a context's save and restore (R338). -/
def Ctx.payer (x : Ctx) : Nat := acctOf (x.beneficiary.getD x.cfg.part)

/-- The save of a context is complete: it is saved, or torn by an uncorrectable error (R322 to R325).  Errors that
ECC corrects in what is read of the cores are counted (R379).  It waits for what VEC has issued in this very cycle (R71), and where a stack that the save area lies in has no room for it (R203). -/
def execPreemptSaveComplete (ctx : Nat) (isBad : Bool) (s0 : State) : Out :=
  if s0.boot != .up || !s0.ctxBusy ctx ||
      (s0.ctx ctx).coreList.any (fun c => (List.range 8).any (s0.vecFresh c)) then .next s0
  else
    let s := s0
    let x := s.ctx ctx
    let s := x.coreList.foldl (fun s c => (List.range 8).foldl (fun s k => s.quiesce c k) s) (s.release ctx)
    let s := s.release ctx
    let img := s.imageOf ctx x.cfg.dies
    let img := { img with nests := s.nestsOf ctx (List.range 8) ++ x.image.nests }
    let s := (((s.vacate ctx).layDown x).modCtx ctx (fun x => { x with st := if isBad then .torn else .saved, image := img, entry := none }))
    let s := x.coreList.foldl (fun s c => s.countCorrected (dieOf c) c) (s.openCharge x.cfg.dies x.payer).retargetAll
    let s := if isBad then s.post x.cfg.part (.torn ctx) else s
    .next (s0.orWait (match x.entry with
      | some func => if isBad then s.completeOpen func 1 else s.complete func 1 0
      | none => if isBad then s else s.post x.cfg.part (.saved ctx)))

/-! ## Restoration (R322, R324) -/

/-- A stream goes on: a wait is executed afresh, and a lease it held or asked for has lapsed (R89, R230).  With `again` a posted
`hreq` is executed afresh too. -/
def Stream.resume (t : Stream) (now : Nat) (again : Bool) : Stream :=
  { t with
    rels := [], gained := []
    flights := t.flights.map (fun f => { f with commits := f.commits.map (fun e => ({ e.1 with rels := [] }, e.2)) })
    st := match t.st with
      | .running => .ready
      | .waiting .reply => if again then .ready else .waiting .reply
      | .waiting _ => .ready
      | x => x
    lease := match t.lease with
      | .held => .lapsed
      | .requested => .lapsed
      | x => x
    renew := false
    heldAt := 0
    progress := now }

/-- The reply to an open `hreq`: HREPLY is written, and the stream is ready at the next instruction (R320). -/
def Stream.reply (t : Stream) (v : W64) : Stream := { t.seqNext 1 with hreply := v, heldReply := none, st := .ready }

/-- A reply that was held is written (R322). -/
def Stream.takeReply (t : Stream) : Stream :=
  match t.heldReply, t.st with
  | some v, .waiting .reply => t.reply v
  | _, _ => t

/-- A core that comes back. -/
def Core.cameBack (y : Core) (i : Nat) (f : Stream → Stream) : Core :=
  { y with resident := some i, streams := y.streams.map (fun t => (t.1, f t.2)) }

/-- An image takes its place on the context's cores, clusters and dies; ageing starts again (R99).  Refresh records
come behind those of other cores, past 256 where there are so many (R278; DESIGN CHOICE, log entry 32).  Pending records are re-admitted as their depth's partition has room for them (R100, R105). -/
def State.putImage (s : State) (i : Nat) (m : Image) (f : Stream → Stream) : State :=
  let x := s.ctx i
  let s := (s.forgetReleases i).settleDeeds i
  let s := m.cores.foldl (fun s e =>
    (s.setCore e.1 (e.2.cameBack i f)).modCluster
      (clusterOf e.1) (fun y => { y with table := outsideRange (x.coreCfg e.1) y.table })) s
  let s := m.table.foldl (fun s e => s.modCluster e.1 (fun y => { y with table := y.table.set e.2.1 e.2.2 })) s
  let s := m.refresh.foldl (fun s e => s.modCluster e.1 (fun y => { y with refresh := y.refresh ++ [e.2] })) s
  let s := m.bars.foldl (fun s e => s.setBar e.1 e.2.1 e.2.2) s
  m.nests.foldl (fun s e => s.modDie e.1 (fun y =>
    Die.enroll { y with waiting := y.waiting ++ [{ e.2 with prio := e.2.decl, since := s.now }] })) s

/-- LNK completions that were held are applied before any stream issues (R322). -/
def State.heldCompletions (s : State) (cs : List Nat) : State :=
  cs.foldl (fun s c => (List.range 8).foldl (fun s k =>
    (s.stream c k).flights.foldl (fun s f => if f.eng == 5 && f.done && !f.failed then s.finish c k f else s) s) s) s

/-- Whether every core of a context is free of other contexts (R325). -/
def State.coresVacant (s : State) (x : Ctx) : Bool := x.cfg.cores.all (fun k => (s.core k.core).resident.isNone)

end Sys2Proof.Machine
end

