-- ==== Sys2Proof/Machine/Holdup.lean ====
section
/-! DEFINITION. The hold-up reserve and the keep store: the power-fail event, the save of each die, the module reset, bring-up with
its reports, and recovery with replay (R163, R316, R325, R328, R348 to R360, R378). -/

namespace Sys2Proof.Machine

/-! ## The event: the memory ports (R350) -/

/-- What a die has sent to a remote home: the home has accepted some of it, oldest first, and applies that; the rest is lost. -/
def State.settleQueue (s : State) (src home : Nat) : State :=
  let mine := fun (t : Transit) => t.src == src && t.home == home
  let l := s.transit.filter mine
  if l.isEmpty then s
  else
    (l.take (Config.freeNat s.draws % (l.length + 1))).foldl (State.writeAtHome · true ·)
      { s.draw with transit := s.transit.filter (fun t => !mine t) }

/-- Every held line closes. -/
def State.closeAll (s : State) : State :=
  (List.range 8).foldl (fun s d => ((s.die d).held.map (·.line)).foldl (fun s l => s.closeLine d l) s) s

/-- The ports apply what they accepted before the event, writes to the host aperture among it. -/
def State.settlePorts (s : State) : State :=
  ((((List.range 8).foldl (fun s a => (List.range 8).foldl (fun s h => s.settleQueue a h) s) s).drainRoot).closeAll).drainRoot

/-! ## The event: commands in flight (R163, R350, R351) -/

/-- The streams of contexts on their cores, as (core, slot). -/
def State.liveSlots (s : State) : List (Nat × Nat) :=
  s.cores.flatMap (fun e => if e.2.resident.isSome then e.2.streams.map (fun t => (e.1, t.1)) else [])

/-- A once-only command that has committed is complete: its record was marked done in that step. -/
def State.finishCommitted (s : State) (c k : Nat) : State :=
  (s.stream c k).flights.foldl (fun s f => if f.committed && f.done && !f.failed then s.finish c k f else s) s

/-- The units that an abandoned command had before it, as if they went on: one that has stopped at a fault too would write the rest, and a
unit that fails is passed over (R162, R163). -/
def State.runOut (s : State) (c k j : Nat) : Nat → State
  | 0 => s
  | n + 1 =>
    match (s.stream c k).flight? j with
    | none => s
    | some f =>
      if f.done then s
      else if f.failed then
        State.runOut (s.modStream c k (·.modFlight j (fun g => { g.advance with failed := false, cursor := f.cursor + 1 }))) c k j n
      else State.runOut (if f.eng = 4 then s.idxUnit c k f else s.copyUnit c k f) c k j n

/-- Steps that the units of a command can take. -/
def Flight.fuel (f : Flight) : Nat := 258 * (f.units - f.cursor)

/-- Whether a command adds to memory or is an atomic: of its elements those stay that the ports have accepted (R351). -/
def addsOnly (i : Instr) : Bool :=
  match i with
  | .cpout f => f.sub.getLsbD 2
  | .stat _ => true
  | _ => false

/-- An abandoned command as if it had written all that it would write: of a once-only one, what it stores after its commit (R351). -/
def State.asIfDone (s : State) (c k : Nat) (f : Flight) : State :=
  match f.eng with
  | 0 | 3 | 4 =>
    if onceOf f.cmd.i then s.unitRets c k f else (s.modStream c k (·.modFlight f.cmd.j (fun g => { g with failed := false }))).runOut c k f.cmd.j f.fuel
  | 2 => s.modCore c (·.landPushes [f])
  | 5 => s.finishLnk c k f
  | _ => s

/-- The state as if every abandoned command that a test picks had written all that it would write, and every write had reached its
home. -/
def State.asIfRun (s : State) (p : Flight → Bool) : State :=
  let t := s.liveSlots.foldl (fun s q =>
    (s.stream q.1 q.2).flights.foldl (fun s f => if p f then s.asIfDone q.1 q.2 f else s) s) s
  (((List.range 8).foldl State.settleDie t).closeAll).drainRoot

/-- The channel that a command pops. -/
def popsChan (i : Instr) : Option Nat :=
  match chanOf i, vecPop i with
  | some (ch, false), _ => some ch
  | _, some ch => some ch
  | _, _ => none

/-- The channel that a command pushes. -/
def pushesChan (i : Instr) : Option Nat :=
  match i, chanOf i, vecPush i with
  | .cstat f, _, _ => some f.y.toNat
  | _, some (ch, true), _ => some ch
  | _, _, some ch => some ch
  | _, _, _ => none

/-- The commands in flight on a core that a test picks, in their order of issue. -/
def Core.flightsOf (x : Core) (p : Flight → Bool) : List Flight :=
  sortBy (fun a b => decide (a.order < b.order)) (x.streams.flatMap (fun t => t.2.flights.filter p))

/-- The entries that the abandoned commands of a core had popped from a channel, oldest first: those of a `stch.app`, whose replay
appends the same ones, are there again, and others are or are not (R163, R262). -/
def State.givenBack (s : State) (c ch : Nat) : List ChEntry :=
  (((s.core c).flightsOf (fun f => popsChan f.cmd.i == some ch)).zipIdx).flatMap (fun e =>
    if (appTile e.1.cmd.i).isSome || Config.pick (s.draws + e.2) ch % 2 == 1 then e.1.popped else [])

/-- A list without the last occurrence of an entry. -/
def eraseLast (l : List ChEntry) (e : ChEntry) : List ChEntry := (l.reverse.erase e).reverse

/-- What a channel holds without what the abandoned commands of a core have pushed. -/
def State.notPushed (s : State) (c ch : Nat) (l : List ChEntry) : List ChEntry :=
  (((s.core c).flightsOf (fun f => pushesChan f.cmd.i == some ch)).flatMap (·.pushed)).reverse.foldl eraseLast l

/-- A number of `n` bytes each of which is that of one number or of another. -/
def mixNat (n draw old new : Nat) : Nat :=
  if old == new then old
  else
    let m := packBits 8 ((List.range n).map (fun i => if Config.pick draw i % 2 == 1 then 255 else 0))
    (old &&& m) ||| (new &&& (2 ^ (8 * n) - 1 - m))

/-- A channel entry each of whose bytes is that of one entry or of another. -/
def mixEntry (draw : Nat) (old new : ChEntry) : ChEntry :=
  { data := BitVec.ofNat 2048 (mixNat 256 draw old.data.toNat new.data.toNat)
    mask := BitVec.ofNat 64 (mixNat 8 (draw + 1) old.mask.toNat new.mask.toNat) }

/-- A channel each of whose entries is old, new or a mixture, as long as the old one or the new one (R163). -/
def mixChan (draw : Nat) (old new : List ChEntry) : List ChEntry :=
  (List.range (if Config.pick draw 0 % 2 == 1 then old.length else new.length)).map (fun i =>
    match old[i]?, new[i]? with
    | some x, some y => mixEntry (draw + 2 * i + 1) x y
    | some x, none => x
    | none, some y => y
    | none, none => {})

/-- The entries that the abandoned commands of a core would still have pushed into a channel; `t` is the state as if they had. -/
def State.wouldPush (s t : State) (c ch : Nat) : List ChEntry :=
  ((s.core c).flightsOf (fun f => pushesChan f.cmd.i == some ch)).flatMap (fun f =>
    if f.eng = 2 then ((s.core c).pushing.filter (fun p => p.1 == f.order && p.2.1 == ch)).map (·.2.2)
    else
      (((t.core c).flightsOf (fun g => g.order == f.order)).flatMap (·.pushed)).drop f.pushed.length)

/-- A channel after its commands are abandoned: what they popped may be back at its head and what they pushed may be gone: it holds old
entries, those of now, those that would be there, or mixtures.  Where a `stch.app` was popping, its replay finds the entries that it popped,
and those that no abandoned command has pushed (R163, R262). -/
def State.leftChan (s t : State) (c ch draw : Nat) : List ChEntry :=
  let now := s.givenBack c ch ++ s.chan c ch
  let old := s.notPushed c ch now
  let apps := (s.core c).streams.any (fun x => x.2.flights.any (fun f => (appTile f.cmd.i).isSome && popsChan f.cmd.i == some ch))
  let would := if apps then now ++ s.wouldPush t c ch else t.chan c ch
  if now == old && would == now then now else mixChan (draw + 64) (mixChan draw old now) would

/-- Draws that a channel takes. -/
def chanDraws : Nat := 128

/-- A core's scratchpad and channels after its commands are abandoned. -/
def State.mixCore (s : State) (t : State) (c : Nat) : State :=
  let x := s.core c
  let y := t.core c
  let p := mixMem x.spad y.spad s.draws
  let chs := ((x.chans ++ y.chans ++ x.streams.flatMap (fun t => t.2.flights.filterMap (fun f =>
    (popsChan f.cmd.i).map (fun ch => (ch, ([] : List ChEntry)))))).map (·.1)).eraseDups
  ({ s with draws := p.2 + 64 * chanDraws } : State).modCore c (fun z =>
    { z with
      spad := p.1, pushing := []
      chans := chs.foldl (fun m ch => m.set ch (s.leftChan t c ch (p.2 + chanDraws * ch))) z.chans })

/-- The numbers of a plane that are listed for it, each byte old or as it is. -/
def mixRows (n draw p : Nat) (old new : Map Nat) : Map Nat :=
  (old.filter (fun e => e.1 / 2 ^ 16 == p)).foldl (fun m e =>
    m.set (e.1 % 2 ^ 16) (mixNat n (draw + e.1 % 2 ^ 16) e.2 (new.getD (e.1 % 2 ^ 16) 0))) new

/-- A plane each of whose changed rows, scales and codes is old or new, byte by byte, with the list and the rest of the one or the other. -/
def mixPlane (draw p : Nat) (u : SlabSide) (now : Plane) : Plane :=
  { (match u.heads.find p with
     | some q => if Config.pick draw 0 % 2 == 1 then q else now
     | none => now) with
    rows := mixRows 512 (draw + 1) p u.rows now.rows, scales := mixRows 256 (draw + 1025) p u.scales now.scales
    codes := mixRows 128 (draw + 1281) p u.codes now.codes }

/-- What a slab command has changed is old or new (R163, R350). -/
def State.unslab (s : State) (c : Nat) (u : SlabSide) : State :=
  let d := s.draws
  let keep := fun (i : Nat) => Config.pick (d + 8192) i % 2 == 1
  let s := ({ s with draws := d + 8193 } : State).modCore c (fun x =>
    { x with
      planes := (List.range 2).foldl (fun m p =>
        let q := mixPlane (d + 2048 * p) p u (x.plane p)
        if q == x.plane p then m else m.set p q) x.planes
      acc := u.acc.foldl (fun m e =>
        m.set e.1 (BitVec.ofNat 10240 (mixNat 1280 (d + 4096 + e.1) e.2.toNat (x.accRow e.1).toNat))) x.acc
      stats := u.stats.foldl (fun m e => if keep (2 + e.1) then m.set e.1 e.2 else m) x.stats
      esc := match u.esc with
        | some l => if keep 0 then l else x.esc
        | none => x.esc })
  s.modCluster (clusterOf c) (fun y =>
    { y with
      table := u.table.foldl (fun m e =>
        m.set e.1 (BitVec.ofNat 256 (mixNat 32 (d + 4352 + e.1) e.2.toNat (y.table.getD e.1 0).toNat))) y.table
      refresh := match u.refresh with
        | some l => if keep 1 then l else y.refresh
        | none => y.refresh })

/-- Slab commands in flight leave their targets old or new, the newest first. -/
def State.unslabAll (s : State) : State :=
  let l := s.liveSlots.flatMap (fun p => (s.stream p.1 p.2).flights.filterMap (fun f => f.undo.map (fun u => (f.order, p.1, u))))
  (sortBy (fun (a b : Nat × Nat × SlabSide) => decide (b.1 < a.1)) l).foldl (fun s e => s.unslab e.2.1 e.2.2) s

/-- Bytes that plain writes of commands in flight have written are old or new, the newest writes first: what a reduction or an atomic gave,
and whatever a completed command wrote, stays, with all that came before it (R163, R350, R351). -/
def State.unwrite (s : State) : State :=
  let l := (s.races.filter (!·.look)).reverse.zipIdx
  let p := l.foldl (fun (p : Memory × List Nat) e =>
    let r := e.1
    if !s.flying r.who || r.rmw || p.2.contains r.addr || !Config.freeBit (s.draws + e.2) then (p.1, r.addr :: p.2)
    else (p.1.write r.addr r.old, p.2)) (s.mem, [])
  s.cores.foldl (fun t e => t.unwriteSpad s.flying e.1) { s with mem := p.1, draws := s.draws + l.length }

/-- Bytes chosen freely among the 256 of a register. -/
def freeBytes (n : Nat) : Vec :=
  (List.range 256).foldl (fun v i => if (Config.freeMask (n + i / 64)).getLsbD (i % 64) then v ||| (0xFF <<< (8 * i)) else v) 0

/-- A VEC result that had not landed: each byte of it has or has not. -/
def PWrite.maybe (w : PWrite) (n : Nat) : PWrite := { w with mask := w.mask &&& freeBytes n }

/-- A stream after the event: nothing queued or in flight, its journal kept. -/
def Stream.stop (t : Stream) (n : Nat) : Stream :=
  let t := ({ t with pend := t.pend.zipIdx.map (fun (e : PWrite × Nat) => e.1.maybe (n + 4 * e.2)) } : Stream).landAll
  { t with queues := [], flights := [] }

/-- What VEC has issued long enough ago has landed and is in its channel (R58). -/
def State.landDue (s : State) (c k : Nat) : State :=
  let e := (s.cluster (clusterOf c)).eff s.now
  let t := s.stream c k
  (s.modCore c (·.landPushes (t.flights.filter (fun f => f.lands.any (fun l => decide (l.2 ≤ e)))))).modStream c k
    (·.landThose (fun w => decide (w.due ≤ e)))

/-- Every command in flight is abandoned: its targets hold the old bytes or those that it would write (R163, R350). -/
def State.abandon (s : State) : State :=
  let s := s.liveSlots.foldl (fun s p => s.landDue p.1 p.2) s
  let t := s.asIfRun (fun _ => true)
  let p := mixMem s.mem (s.asIfRun (fun f => !addsOnly f.cmd.i)).mem s.draws
  let s := { s with draws := p.2 }
  let s := { (s.cores.foldl (fun s e => if e.2.resident.isSome then s.mixCore t e.1 else s) s) with mem := p.1 }
  let s := { s.unslabAll.unwrite with races := [], deeds := [] }
  s.liveSlots.foldl (fun s p =>
    ({ s with draws := s.draws + 4 * (s.stream p.1 p.2).pend.length } : State).modStream p.1 p.2 (fun t => t.stop s.draws)) s

/-! ## Die records (R352 to R354) -/

/-- The slots of a die's keep store whose header is valid, the higher save sequence first. -/
def Die.slots (x : Die) : List (Nat × KRec) :=
  match x.keep0, x.keep1 with
  | some a, some b => if a.seq < b.seq then [(1, b), (0, a)] else [(0, a), (1, b)]
  | some a, none => [(0, a)]
  | none, some b => [(1, b)]
  | none, none => []

/-- The most recent sealed record, with its slot. -/
def Die.lastSealed (x : Die) : Option (Nat × KRec) := x.slots.find? (fun e => e.2.sealed)

/-- The slot that a save writes, and its sequence. -/
def Die.nextSave (x : Die) : Nat × Nat :=
  match x.lastSealed with
  | some (n, r) => (1 - n, r.seq + 1)
  | none => (0, 1)

/-- The contexts with cores resident on a die, by keep priority and CTX_ID. -/
def State.savedOn (s : State) (d : Nat) : List Nat :=
  sortBy (fun a b => decide ((s.ctx a).cfg.keepPrio < (s.ctx b).cfg.keepPrio) ||
      ((s.ctx a).cfg.keepPrio == (s.ctx b).cfg.keepPrio && decide (a < b)))
    (s.ctxIds.filter (fun i => (s.ctx i).cfg.cores.any (fun k => dieOf k.core == d && (s.core k.core).resident == some i)))

/-- The bytes of a region through its pinned pages, and whether a line of it is uncorrectable. -/
def State.regionBytes (s : State) (pins : List Pin) (va n : Nat) : Nat → List Byte × Bool
  | 0 => ([], false)
  | fuel + 1 =>
    if n = 0 then ([], false)
    else
      match pinFor pins va with
      | none => (List.replicate n 0, false)
      | some p =>
        let m := min n (p.vbase + 2 ^ p.size - va)
        let r := State.regionBytes s pins (va + m) (n - m) fuel
        (s.memBytes (p.pa va) m ++ r.1, s.poisoned (p.pa va) m || r.2)

/-- The regions of a context that a die keeps; one with an uncorrectable line, known before or met in the save, is torn (R353, R355,
R379). -/
def State.regionsOn (s : State) (i d : Nat) : List KRegion :=
  let x := s.ctx i
  (x.musts.filter (fun e => e.2.bytes != 0 && x.cfg.keeper e.1 == d)).map (fun e =>
    let r := s.regionBytes (e.2.pins.map (·.2)) e.2.base e.2.bytes (e.2.bytes / 2 ^ 16 + 2)
    { id := e.1, base := e.2.base, data := r.1, len := e.2.bytes
      status := if r.2 || Config.pick (s.draws + i) (16 * d + e.1) % 2 == 1 then 2 else 1 })

/-- The dies whose pending records a die keeps for a context: its own, and the context's first die those where it has no cores. -/
def keptNestDies (x : CtxCfg) (d : Nat) : List Nat :=
  if x.dies.headD 0 = d then d :: (List.range 8).filter (fun e => !x.dies.contains e) else [d]

/-- The state of a context that a die keeps, with the records accepted while the context was being saved (R354, R375). -/
def State.keptImage (s : State) (i d : Nat) : Image :=
  let ds := keptNestDies (s.ctx i).cfg d
  { s.imageOf i [d] with nests := s.nestsOf i ds ++ (s.ctx i).image.nests.filter (fun e => ds.contains e.1) }

/-- A context's part of a die record; an uncorrectable error in reading its image makes it not whole, and whether there is one
is open (R354). -/
def State.keepCtx (s : State) (i d n : Nat) : KCtx :=
  let x := s.ctx i
  { id := i, part := x.cfg.part, prio := x.cfg.keepPrio, cores := x.coreList.filter (fun c => dieOf c == d), allCores := x.coreList
    musts := x.musts.map (fun e => (e.1, { e.2 with pins := [] })), image := s.keptImage i d, whole := Config.freeBit n
    regions := s.regionsOn i d }

/-- The record that a die starts to write, and whether its reserve will fail it: then the save has no end within the time of R355 (R360;
DESIGN CHOICE, log entry 34). -/
def State.startRecord (s : State) (d : Nat) : State :=
  let (slot, seq) := (s.die d).nextSave
  let l := s.savedOn d
  let r : KRec := { seq := seq, ts := s.now, ctxs := l.zipIdx.map (fun e => s.keepCtx e.1 d (s.draws + e.2)) }
  ({ s with draws := s.draws + l.length + 1 } : State).modDie d (fun y =>
    { y with saving := some (r, slot), failing := Config.freeBit (s.draws + l.length) })

/-- Every cluster runs the pattern 0x8888 (R349). -/
def Cluster.savePattern (x : Cluster) (now : Nat) : Cluster :=
  { x with effBase := x.eff now, since := now, phase := 0, pattern := 0x8888, pending := none, stretch := false, halvingAt := none }

/-- Every session and round of a handle stops (R349, R372). -/
def Group.stop (x : Group) : Group := { x with rounds := [], ahead := [], early := [], keyed := [] }

/-- 36 J in 1/64 pJ (R1, R348). -/
def reserveUnits : Nat := 36 * 64 * 10 ^ 12

/-- The greatest draw of a save, 1.6 kW in 1/64 pJ for each nanosecond (R1, R348). -/
def maxDraw : Nat := 102400000

/-- What a die's save has drawn by its end: together with what others have drawn no more than the greatest draw gives since the trip, for
`most` ns at most, nor than the reserve holds (R1, R338, R348, R355). -/
def State.holdCharge (s : State) (d most : Nat) : State :=
  let most := min s.reserve (maxDraw * min (s.now - s.tripAt) most - (reserveUnits - s.reserve))
  let e := Config.freeNat s.draws % (most + 1)
  { s.draw.charge d 0 e with reserve := s.reserve - e }

/-- The guaranteed save window, in ns (R1, R348). -/
def saveWindow : Nat := 20000000

/-- When a save has ended at the latest, in ns after the trip (R355). -/
def saveEnd : Nat := 16620000

/-- The supply monitor trips (R348 to R351): nothing issues any more, the ports apply what they accepted, commands in flight are
abandoned, and every die starts its record.  What R349 bounds by 2 us and by 100 us after the trip is all done at the trip (DESIGN CHOICE,
log entry 34).  Before the reports of bring-up are built nothing is saved (R378). -/
def execSupplyTrip (s : State) : Out :=
  if s.boot != .up then .next s
  else
    let s := { s with boot := .saving, tripAt := s.now, reserve := reserveUnits }
    let s := s.liveSlots.foldl (fun s p => s.finishCommitted p.1 p.2) s.settlePorts
    let s := { s.abandon with groups := s.groups.map Group.stop }
    let s := (List.range 96).foldl (fun s k => s.modCluster k (fun x => x.savePattern s.now)) s
    .next ((List.range 8).foldl State.startRecord s)

/-! ## The end of a save, and the reset (R348, R352) -/

/-- A record is put into a slot. -/
def Die.putSlot (x : Die) (slot : Nat) (r : Option KRec) : Die :=
  let y := { x with saving := none }
  if slot = 0 then { y with keep0 := r } else { y with keep1 := r }

/-- What a module reset leaves: the keep store, the firmware, host memory, and the model's own counters; HBM4E is zeroed (R358,
R378). -/
def State.restart (s : State) : State :=
  { now := s.now, mem := s.mem.filter (fun e => isAperture e.1), fw := s.fw, fwNext := s.fwNext, resetCause := s.resetCause
    dies := s.dies.map (fun e => (e.1, { keep0 := e.2.keep0, keep1 := e.2.keep1 })), nextNest := s.nextNest
    nextPin := s.nextPin, stamp := s.stamp, agenda := s.agenda, draws := s.draws }

/-- The module resets once every die has ended its save; the cause is a power failure (R316, R348). -/
def State.resetIfSaved (s : State) : State :=
  if (List.range 8).all (fun d => (s.die d).saving.isNone) then { s.restart with resetCause := 0x13 } else s

/-- When the save engines of the dies start, in ns after the trip (R349). -/
def saveStart : Nat := 100000

/-- A die has written its records, which it began to write 100 us after the trip: it seals the record (R349, R352, R353).  A save that has
not ended 16.62 ms after the trip is one whose reserve fails (R355, log entry 34). -/
def execKeepSaveComplete (die : Nat) (s : State) : Out :=
  match (s.die die).saving with
  | some (r, slot) =>
    if s.boot == .saving && decide (s.tripAt + saveStart ≤ s.now) && !((s.die die).failing && decide (s.tripAt + saveEnd < s.now)) then
      .next ((s.holdCharge die saveEnd).modDie die (fun y => y.putSlot slot (some { r with sealed := true }))).resetIfSaved
    else .next s
  | none => .next s

/-- A record of which only the first `n` items were written, and of the next its header where it was `begun`: it is torn (R352, R353, R358).
The items are the die header, the images, the regions and the die seal. -/
def KRec.cut (r : KRec) (n : Nat) (begun : Bool) : Option KRec :=
  if n = 0 then none
  else
    let found := fun (i : Nat) => decide (i < n) || (begun && i == n)
    let cs := ((r.ctxs.zipIdx 1).filter (fun e => found e.2)).map (fun e =>
      { e.1 with whole := e.1.whole && decide (e.2 < n) })
    let p := cs.foldl (fun (acc : List KCtx × Nat) c =>
      (acc.1 ++ [{ c with
        regions := ((c.regions.zipIdx acc.2).filter (fun e => found e.2)).map (fun e =>
          if e.2 < n then e.1 else { e.1 with status := 2, data := [] }) }], acc.2 + c.regions.length)) ([], r.ctxs.length + 1)
    some { r with ctxs := p.1, sealed := false }

/-- Items of a record before its seal. -/
def KRec.items (r : KRec) : Nat := 1 + r.ctxs.length + (r.ctxs.map (fun c => c.regions.length)).foldl (· + ·) 0

/-- The reserve of a die is lost before its save ends, and not within the guaranteed window: its record lacks what was not written
(R348, R360). -/
def execReserveLost (die : Nat) (s : State) : Out :=
  match (s.die die).saving with
  | some (r, slot) =>
    if s.boot == .saving && decide (s.tripAt + saveWindow ≤ s.now) then
      .next (((s.holdCharge die saveWindow).draw.modDie die (fun y =>
        y.putSlot slot (r.cut (Config.freeNat (s.draws + 1) % (r.items + 1)) (Config.freeBit (s.draws + 1)))))).resetIfSaved
    else .next s
  | none => .next s

/-! ## Reports (R358) -/

/-- A context's part in a die's keep store: from the slot with the higher sequence if it is whole there, else from the other. -/
def State.pickCtx (s : State) (d i : Nat) : Option (Nat × KCtx) :=
  (s.die d).slots.findSome? (fun e => (e.2.ctxs.find? (fun c => c.id == i && c.whole)).map (fun c => (e.1, c)))

/-- The parts of a context in every slot, with their save sequences. -/
def State.keptParts (s : State) (i : Nat) : List (Nat × KCtx) :=
  (List.range 8).flatMap (fun d => (s.die d).slots.flatMap (fun e => (e.2.ctxs.filter (fun c => c.id == i)).map (fun c => (e.2.seq, c))))

/-- The cores of a context as its most recent save has them. -/
def State.keptCores (s : State) (i : Nat) : List Nat :=
  ((s.keptParts i).foldl (fun (m : Nat × List Nat) e => if m.1 ≤ e.1 then (e.1, e.2.allCores) else m) (0, [])).2

/-- What the firmware finds of a context. -/
structure KeepReport where
  cores : List Nat
  dies : List Nat
  /-- die, slot and part -/
  picks : List (Nat × Nat × KCtx)
  whole : Bool
  musts : Map Must
  regions : List KRegion

/-- A context's part that a die reports: whole where it is whole in a slot, else that of the slot with the higher sequence (R358). -/
def State.reportPart (s : State) (d i : Nat) : Option (Nat × KCtx) :=
  match s.pickCtx d i with
  | some p => some p
  | none => (s.die d).slots.findSome? (fun e => (e.2.ctxs.find? (fun c => c.id == i)).map (fun c => (e.1, c)))

/-- The report of a context: whole when it is whole on every die that holds its cores; each region's from its keeper die. -/
def State.keepReport (s : State) (i : Nat) : KeepReport :=
  let cores := s.keptCores i
  let dies := (List.range 8).filter (fun d => cores.any (fun c => dieOf c == d))
  let picks := dies.filterMap (fun d => (s.reportPart d i).map (fun p => (d, p)))
  let whole := !dies.isEmpty && picks.length == dies.length && picks.all (fun p => p.2.2.whole)
  let musts := (picks.head?.map (fun p => p.2.2.musts)).getD []
  let regions := (musts.filter (fun e => e.2.bytes != 0)).map (fun e =>
    let keeper := dies.getD (e.1 % max dies.length 1) 0
    match picks.find? (fun p => p.1 == keeper) with
    | some p => (p.2.2.regions.find? (fun r => r.id == e.1)).getD { id := e.1, base := e.2.base, len := e.2.bytes }
    | none => { id := e.1, base := e.2.base, len := e.2.bytes })
  { cores := cores, dies := dies, picks := picks, whole := whole, musts := musts, regions := regions }

/-- The contexts found in the keep store, ascending. -/
def State.keptIds (s : State) : List Nat :=
  sortBy (fun a b => decide (a < b))
    ((List.range 8).flatMap (fun d => (s.die d).slots.flatMap (fun e => e.2.ctxs.map (·.id)))).eraseDups

/-- The events that bring-up posts. -/
def State.bringUpEvents (s : State) (cause : Nat) : List HostEvent :=
  s.keptIds.map (fun i =>
    let r := s.keepReport i
    .keepReport i r.whole (r.picks.map (fun p => (p.1, p.2.1))) (r.regions.map (fun g => (g.id, g.status)))) ++ [.resetCause cause]

/-- Whether boot ROM accepts a firmware image (R377). -/
def fwOk (f : FwImage) : Bool := f.sigOk && decide (Config.minSecver ≤ f.secver)

/-- Reset and bring-up (R378): firmware is verified, HBM4E zeroed, the reports built, accounts and clocks set to 0, and the reports
and the reset cause posted; errors corrected in reading the keep store are counted (R379).  On a module that is up it is a module reset first. -/
def execBringUp (s : State) : Out :=
  if s.boot == .saving then .next s
  else
    let fw := s.fwNext.getD s.fw
    let known := s.boot != .up && s.resetCause == 0x13
    let t := { s.restart with fw := fw, fwNext := none }
    if !fwOk fw then .next { t with boot := .recovery, resetCause := if known then 0x13 else 0 }
    else
      let t := { t with boot := .up, now := 0, resetCause := 0, draws := t.draws + 1 }
      let t := (List.range 8).foldl (fun t d => (t.countCorrected d d).modDie d (fun y => { y with report := true })) t
      .next ((t.bringUpEvents (if known then 0x13 else Config.freeNat s.draws)).foldl (fun t e => t.post 0 e) t)

/-! ## Recovery (R328, R359, R360) -/

/-- The engine of a command (R50). -/
def Cmd.engine (m : Cmd) : Nat := fld m.head.toNat 30 28

/-- Stores bytes at a virtual address by pages, for the device, charged to an account (R203, R208, R338). -/
def State.storePages (s : State) (acct : Nat) (pins : List Pin) (va : Nat) (bs : List Byte) : Nat → State
  | 0 => s
  | fuel + 1 =>
    if bs.isEmpty then s
    else
      match pinFor pins va with
      | none => s
      | some p =>
        let m := min bs.length (p.vbase + 2 ^ p.size - va)
        let s := (s.chargeAccess acct (p.pa va) m).deviceStore p.cmp (p.pa va) m (·.storeMem (p.pa va) (bs.take m) false)
        State.storePages s acct pins (va + m) (bs.drop m) fuel

/-- The data of every whole region is written to its range, which must be mapped with W. -/
def State.writeRegions (s : State) (x : CtxCfg) : List KRegion → Option State
  | [] => some s
  | r :: rs =>
    if r.status ≠ 1 then State.writeRegions s x rs
    else
      let a : Acc := { lo := r.base, hi := r.base + r.data.length, w := true }
      match s.fillRange (x.keeper r.id) x.id a r.base [] (granules a) with
      | .error _ => none
      | .ok (ps, s') => State.writeRegions (s'.storePages (acctOf x.part) ps r.base r.data (granules a)) x rs

/-- The pages of a requeued command are translated and pinned afresh: those parts of its ranges that it had pinned. -/
def State.repinCmd (s : State) (d i : Nat) (m : Cmd) : Option (Cmd × State) :=
  if m.pins.isEmpty then some (m, s)
  else
    let gs := (m.pins.flatMap (fun p => m.gspan.map (fun g =>
      ({ lo := max p.vbase g.lo, hi := min (p.vbase + 2 ^ p.size) g.hi } : Span)))).filter (fun g => decide (g.lo < g.hi))
    match s.fillAll d i (gs.map (fun g => { lo := g.lo, hi := g.hi })) with
    | none => none
    | some (ps, s) => some ({ m with pins := ps }, s.pinPages d ps true)

/-- Whether a record is of a command of MXE. -/
def JRec.isMxe (r : JRec) : Bool := r.kind == 0 && r.cmd.engine == 1

/-- The windows of the bank-group rule after the commands of MXE that replay skips at the head of a list: the last one's (R239). -/
def skippedWin : List JRec → Option MxeWin
  | [] => none
  | r :: rs =>
    if !r.isMxe then skippedWin rs
    else if r.once && r.done then
      match skippedWin rs with
      | some w => some w
      | none => if r.winAfter.isSome then r.winAfter else r.win
    else none

/-- Each record of a list with what comes behind it. -/
def withRest : List JRec → List (JRec × List JRec)
  | [] => []
  | r :: rs => (r, rs) :: withRest rs

/-- One record is requeued (R328): for its data effects only where it is done, and in full otherwise.  A fence applies its condition
again. -/
def State.requeue (s : State) (c k i : Nat) (r : JRec) (behind : List JRec) : Option State :=
  if r.kind = 2 || (r.once && r.done) then some s
  else if r.kind = 1 then some (s.modStream c k (fun t => t.setQueue r.cmd.aux (t.queue r.cmd.aux ++ [r.cmd])))
  else
    match s.repinCmd (dieOf c) i { r.cmd with dataOnly := r.done, replay := true, winTo := skippedWin behind } with
    | none => none
    | some (m, s) =>
      let s : State := match m.i with
        | .cpout e =>
          if r.issued && !r.done then
            s.modTile c e.x.toNat (fun (t : Tile) => if t.st == .draining then { t with st := .ready } else t)
          else s
        | _ => s
      some (s.modStream c k (fun t => t.setQueue m.engine (t.queue m.engine ++ [m])))

/-- The records from the first that is not done on. -/
def replayRecs (l : List JRec) : List JRec := l.dropWhile (fun r => r.done)

/-- The tokens that commands issued and not done had consumed are added back. -/
def Stream.refund (t : Stream) : Stream :=
  t.journal.foldl (fun t r =>
    if r.kind == 0 && r.issued && !r.done then
      (waitBytes r.cmd.engine (tokOf r.cmd.i)).foldl (fun t b => t.setTok b (t.tokAt b + 1)) t
    else t) t

/-- The bank-group windows that replay starts from: those behind the first commands of MXE if it skips them, or those that the first one
has found, or is to find, when it issues (R239). -/
def Stream.winBack (t : Stream) (l : List JRec) : MxeWin :=
  match skippedWin l with
  | some w => w
  | none => ((l.find? JRec.isMxe).bind (·.win)).getD t.win

/-- Records with the windows that each command of MXE behind a completed one is to find, those that the completed one left: it may be freed
before its data effects are repeated (R239, R326, R328). -/
def withWins : Option MxeWin → List JRec → List JRec
  | _, [] => []
  | w, r :: rs =>
    if r.isMxe then
      let r := if r.win.isSome then r else { r with win := w }
      r :: withWins (if r.done then (if r.winAfter.isSome then r.winAfter else r.win) else none) rs
    else r :: withWins w rs

/-- Replay of a stream's journal (R328).  Its marks are dropped. -/
def State.replay (s : State) (c k i : Nat) : Option State :=
  let l := replayRecs (s.stream c k).journal
  if l.isEmpty then some s
  else
    let s := s.modStream c k (fun t =>
      { t.refund with
        win := t.winBack l
        journal := (withWins none (l.filter (fun r => r.kind != 2))).map (fun r =>
          { r with issued := r.issued && r.done, winAfter := if r.done then r.winAfter else none }) })
    (withRest l).foldl (fun (acc : Option State) r =>
      match acc with
      | none => none
      | some s => s.requeue c k i r.1 r.2) (some s)

/-- The completion words of the restored nests are translated and pinned afresh (R104, R107). -/
def State.repinNests (s : State) (i : Nat) : Option State :=
  let ns := (s.nestsOf i (List.range 8)).map (·.2)
  (ns.map (·.id)).eraseDups.foldl (fun (acc : Option State) id =>
    match acc, ns.find? (fun n => n.id == id) with
    | some s, some n =>
      match s.page n.home i n.done { lo := n.done, hi := n.done + 8, w := true } with
      | .error _ => none
      | .ok (q, s) =>
        some ((List.range 8).foldl (fun s d => s.modDie d (·.modNest id (fun z => { z with donePin := q })))
          (s.pinPages n.home [q] true))
    | acc, _ => acc) (some s)

/-- KEEP_STAT (R360). -/
def KeepReport.stat (r : KeepReport) : W64 :=
  BitVec.ofNat 64 (2 ^ 40 + r.picks.foldl (fun n p => n + p.2.1 * 2 ^ (32 + p.1)) 0 +
    r.regions.foldl (fun n g => n + g.status * 2 ^ (2 * g.id)) 0)

/-- The steps of R359 for a context that has been created anew.  The walker's place among its cores and the effective priorities start
anew, as after a restoration (R96, R99, R107; DESIGN CHOICE, log entry 47). -/
def State.recover (s : State) (x : CtxCfg) (r : KeepReport) : Option State :=
  match s.writeRegions x r.regions with
  | none => none
  | some s =>
    let m := ((r.picks.head?).map (fun p => p.2.2.image)).getD {}
    let s := r.picks.foldl (fun s p =>
      (s.countCorrected p.1 p.2.1).putImage x.id p.2.2.image (fun t => t.resume s.now true)) s
    let s := s.modCtx x.id (fun c =>
      { c with exact := m.exact, trapVec := m.trapVec, keepStat := r.stat })
    match s.repinNests x.id with
    | none => none
    | some s =>
      (r.cores.flatMap (fun c => (List.range 8).map (fun k => (c, k)))).foldl (fun (acc : Option State) p =>
        match acc with
        | none => none
        | some s => s.replay p.1 p.2 x.id) (some s)

/-- The must-save table of a recovered context: the regions that its configuration declares, with the ranges in force at the trip where
the save holds the region and it keeps the declared size (R352, R356, R359; log entry 17). -/
def recoveredMusts (x : CtxCfg) (m : Map Must) : MustList :=
  x.musts.map (fun d =>
    match m.find d.id with
    | some e => if e.bytes ≤ d.size then (d.id, d.size, e.base, e.bytes) else (d.id, d.size, d.base, d.size)
    | none => (d.id, d.size, d.base, d.size))

/-- A control entry recovers a context from the keep store (R359); a torn context of that CTX_ID is given up first (R325).  It waits where a
stack has no room for the regions (R203). -/
def execContextRecover (func : Nat) (cfg : CtxCfg) (s : State) : Out :=
  if s.boot != .up || s.ctxBusy cfg.id then .next s
  else if (s.ctxs.find cfg.id).any (fun y => y.cfg.part != func) then .next (s.complete func 1 0xFF)
  else
    let s0 := if (s.ctxs.find cfg.id).any (fun y => y.st == .torn) then s.reclaim cfg.id else s
    let r := s0.keepReport cfg.id
    let x := { cfg with part := func }
    if !r.whole || ({ cfg := x } : Ctx).coreList != r.cores then .next (s.refuseEntry func 1 cfg.id)
    else
      match s0.create x (recoveredMusts x r.musts) true with
      | none => .next (s.refuseEntry func 1 cfg.id)
      | some s1 =>
        match s1.recover x r with
        | none => .next (s.refuseEntry func 1 cfg.id)
        | some s2 => .next (s.orWait ((s2.retargetAll).complete func 1 0))

end Sys2Proof.Machine
end

