-- ==== Sys2Proof/Machine/HostEntries.lean ====
section
/-! DEFINITION. What the host's other entries and doorbells do: invalidations, replies, event entries, assignments, group handles,
attestation, firmware and keep-store reports (R199, R320, R363, R374, R375, R377, R378, R381). -/

namespace Sys2Proof.Machine

/-! ## Invalidation (R199, R309, R355) -/

/-- Whether a page shares an address with a range. -/
def Pin.meets (p : Pin) (lo len : Nat) : Bool := decide (p.vbase < lo + len) && decide (lo < p.vbase + 2 ^ p.size)

/-- Whether a range covers a pinned page of a context's save area or must-save regions. -/
def Ctx.guards (x : Ctx) (lo len : Nat) : Bool :=
  x.savePins.any (fun p => p.2.meets lo len) || x.musts.any (fun m => m.2.pins.any (fun p => p.2.meets lo len))

/-- Whether a cached translation of a context covers part of a range. -/
def TlbE.covers (e : TlbE) (ctx lo len : Nat) : Bool := e.ctx == ctx && e.pin.meets lo len

/-- The cached translations that a range covers, as (die, entry). -/
def State.covered (s : State) (ctx lo len : Nat) : List (Nat × Nat) :=
  (List.range 8).flatMap (fun d => ((s.die d).tlb.filter (fun e => e.2.covers ctx lo len)).map (fun e => (d, e.1)))

/-- An invalidation entry: the cached translations of the range retire at once; one that covers save-area or must-save pages is
refused.  It waits behind an earlier one of its queue. -/
def execInvalidationEntry (func ctx lo len : Nat) (s : State) : Out :=
  if s.boot != .up || !(s.invals.getD func []).isEmpty then .next s
  else if !s.ownsCtx func ctx then .next (s.complete func 2 0xFF)
  else if (s.ctx ctx).guards lo len then .next (s.refuseEntry func 2 ctx)
  else
    let es := s.covered ctx lo len
    let s := es.foldl (fun s e => s.modDie e.1 (fun y =>
      { y with tlb := y.tlb.map (fun t => if t.1 == e.2 then (t.1, { t.2 with retiring := true }) else t) })) s
    let s := s.cover ctx lo len
    .next { s with invals := s.invals.set func (s.invals.getD func [] ++ [{ ctx := ctx, lo := lo, len := len, ents := es }]) }

/-- Whether a write that a die has sent through a cached translation is still under way: an IDX access of it has not completed (R199). -/
def State.writing (s : State) (d : Nat) (e : TlbE) : Bool :=
  (s.transit ++ s.root).any (fun t => t.src == d && s.ctxOf t.core == e.ctx &&
    decide (e.pin.pbase < t.pa + t.bytes.length) && decide (t.pa < e.pin.pbase + 2 ^ e.pin.size))

/-- Whether no command holds a cached translation any more, and no access through it has still to complete (R199). -/
def State.unpinned (s : State) (e : Nat × Nat) : Bool :=
  ((s.die e.1).tlb.find e.2).all (fun t => t.count == 0 && !s.writing e.1 t)

/-- The invalidation at the head of a function's queue completes once its translations are unpinned and what has been sent through them
has reached its home (R199). -/
def execInvalidationComplete (func : Nat) (s : State) : Out :=
  match s.invals.getD func [] with
  | [] => .next s
  | v :: r =>
    if s.boot == .up && v.ents.all s.unpinned then
      let s := v.ents.foldl (fun s e => s.modDie e.1 (fun y => { y with tlb := y.tlb.erase e.2 })) s
      .next (({ s with invals := s.invals.set func r } : State).complete func 2 0)
    else .next s

/-! ## Replies and events (R320, R374, R375) -/

/-- Whether a stream has an open `hreq`. -/
def Stream.asks (t : Stream) : Bool := t.st == .waiting .reply && t.heldReply.isNone

/-- A reply to a stream of a context that is not on its cores is held. -/
def Image.holdReply (m : Image) (c k : Nat) (v : W64) : Image :=
  { m with cores := m.cores.map (fun e =>
      if e.1 == c then (c, e.2.setStream k { e.2.stream k with heldReply := some v }) else e) }

/-- A reply entry answers the open `hreq` of a stream: HREPLY is written and the stream is ready, or the reply is held while the
context is saved.  What is no identity of a stream names no open `hreq` (R9, R374). -/
def execReplyEntry (func ctx ident : Nat) (reply : W64) (s : State) : Out :=
  let c := identCore ident
  let k := identSlot ident
  if s.boot != .up then .next s
  else if !s.ownsCtx func ctx then .next (s.complete func 3 0xFF)
  else if identOf c k != ident then .next (s.complete func 3 0xFE)
  else if (s.core c).resident == some ctx then
    if (s.stream c k).asks then
      .next ((s.modStream c k (fun t => { t.reply reply with progress := s.now })).complete func 3 0)
    else .next (s.complete func 3 0xFE)
  else if (s.ctx ctx).image.cores.any (fun e => e.1 == c && (e.2.stream k).asks) then
    .next ((s.modCtx ctx (fun x => { x with image := x.image.holdReply c k reply })).complete func 3 0)
  else .next (s.complete func 3 0xFE)

/-- The host advances the head of a function's event queue: the oldest `n` entries are free, and events that waited for them are
posted in their order.  The host interface is stopped during a save (R349). -/
def execEventQueueHeadAdvance (func n : Nat) (s : State) : Out :=
  if s.boot == .saving then .next s
  else
    let l := (s.events.getD func []).drop n ++ s.lateEvents.getD func []
    .next { s with
      events := s.events.set func (l.take (s.ringEntries func 11))
      lateEvents := s.lateEvents.set func (l.drop (s.ringEntries func 11)) }

/-- The host enables a function's queues with the size of each ring, from 16 to 4,096 entries; events that have waited for an event
ring are posted in their order (R374). -/
def State.enable (s : State) (func : Nat) (sizes : List Nat) : State :=
  if s.boot == .up && decide (func ≤ 128) && (s.queues.find func).isNone && sizes.length == 12 &&
      sizes.all (fun n => decide (4 ≤ n) && decide (n ≤ 12)) then
    let l := s.lateEvents.getD func []
    let n := 2 ^ sizes.getD 11 4
    { s with
      queues := s.queues.set func sizes
      events := s.events.set func (l.take n), lateEvents := s.lateEvents.set func (l.drop n) }
  else s

/-! ## The physical function (R377, R378, R381) -/

/-- Whether an assignment is one that the device applies (R381). -/
def State.assignOk (s : State) (a : Assign) : Bool :=
  decide (a.func ≤ 128) && decide a.cores.Nodup && a.cores.all (fun c => decide (c < 384)) &&
    a.ceil.all (fun p => decide (p ≤ 15)) &&
    s.parts.all (fun p => p.1 == a.func || a.cores.all (fun c => !p.2.cores.contains c)) &&
    s.ctxs.all (fun x => x.2.cfg.part != a.func || x.2.cfg.cores.all (fun k => a.cores.contains k.core))

/-- A partition is assigned its cores, quota, share and ceiling, or the entry is refused whole. -/
def execPartitionAssignment (func : Nat) (asg : Assign) (s : State) : Out :=
  if s.boot != .up then .next s
  else if func != 0 || !s.assignOk asg then .next (s.complete func 1 0xFD)
  else
    let s := if (s.parts.find asg.func).isNone then { s with accounts := s.accounts.set (acctOf asg.func) {} } else s
    let p : Part := { cores := asg.cores, quota := asg.quota, share := asg.share, ceil := asg.ceil }
    .next ((({ s with parts := s.parts.set asg.func p } : State).retargetAll).complete func 1 0)

/-- An attestation report of a partition, asked for through the physical function or its own, with each resident or saved context of it
(R377). -/
def execAttestationRequest (func part nonce : Nat) (s : State) : Out :=
  if s.boot != .up || !(func == 0 || func == part) then .next s
  else
    let p := s.parts.getD part {}
    let ds := (List.range 8).filter (fun d => p.cores.any (fun c => dieOf c == d))
    let xs := (s.ctxs.filter (fun x => x.2.cfg.part == part && x.2.st != .torn)).map (·.2.cfg)
    .next (s.draw.post func
      (.attestation part nonce s.fw.hash (capRecords.map (·.2.1)) p xs (ds.map (fun d => (d, Config.sign d s.draws)))))

/-- The physical function, once it is enumerable, stores a firmware image, which takes effect at the next reset (R377, R378).  Where boot
ROM has refused the firmware, the recovery it enters takes one too. -/
def execFirmwareUpdate (func : Nat) (img : FwImage) (s : State) : Out :=
  if func == 0 && (s.boot == .up || s.boot == .recovery) then .next { s with fwNext := some img } else .next s

/-- A control entry releases the keep-store report of a die (R378). -/
def execKeepReportRelease (func die : Nat) (s : State) : Out :=
  if s.boot != .up then .next s
  else if 8 ≤ die then .next (s.completeOpen func 1)
  else .next ((s.modDie die (fun y => { y with report := false })).complete func 1 0)

/-! ## Group handles (R363) -/

/-- The limits of a handle. -/
def groupOk (c : GroupCfg) : Bool :=
  let m := c.members.length
  decide (1 ≤ m) && decide (m ≤ 4096) && decide (c.me < m) && decide (c.root < m) && decide (1000000 ≤ c.deadline) &&
    decide (c.deadline ≤ 30000000000)

/-- The host sets a handle of a context on one of its dies; it cannot change one while a round of it is open.  Rounds that replay has taken
are not taken again (R372). -/
def execGroupHandleSet (func ctx die g : Nat) (cfg : GroupCfg) (s : State) : Out :=
  if s.boot != .up || !s.ownsCtx func ctx || 16 ≤ g || !(s.ctx ctx).cfg.dies.contains die || !groupOk cfg then .next s
  else
    match s.group? ctx die g with
    | none =>
      .next { s with groups := s.groups ++
        [{ ctx := ctx, die := die, g := g, cfg := cfg, next := (s.ctx ctx).taken.getD (16 * die + g) 0 }] }
    | some x =>
      if x.rounds.all (·.gone) then
        .next (s.modGroup ctx die g (fun x => { x with cfg := cfg, keyed := [], ahead := [], early := [], rounds := [], peers := [] }))
      else .next s

end Sys2Proof.Machine
end

