-- ==== Sys2Proof/Machine/Illegal.lean ====
section
/-! DEFINITION. What decodes to no instruction (R47, R56, R60). -/

namespace Sys2Proof.Machine

/-- The cause of a rejected word: 0x01, 0x02 for engine 6 or 7, 0x03 for a modifier's check nibble (R60). -/
def rejectCause (r : Reject) : Nat :=
  match r with
  | .opcode => 0x01
  | .op7 => 0x01
  | .engine => 0x02
  | .modifier => 0x03

/-- A word that names no instruction traps precisely (R60). -/
def execIllegalInstruction (r : Reject) (s : State) : Out := trapOut s { cause := rejectCause r }

end Sys2Proof.Machine
end

