-- ==== Sys2Proof/Machine/PortEvents.lean ====
section
/-! DEFINITION. What happens at the memory ports of their own accord or by the host: deliveries, pressure closes, host accesses,
scrubs and freed spill space (R203, R205, R208, R219, R380). -/

namespace Sys2Proof.Machine

/-- Whether the host's accesses reach a range: the module is enumerated and the range exists. -/
def State.hostReaches (s : State) (pa n : Nat) : Bool := s.boot == .up && physOk pa n

/-- What a host's access brings about: held lines close, and the ports charge it to the partition of the function that it comes
through (R208, R338). -/
def State.hostTouch (s : State) (func pa n : Nat) : State :=
  let s := s.closeTouched pa n
  if isAperture pa then s else (s.chargeAccess (acctOf func) pa n).draw

/-- The host's bytes are stored, behind all that has been done to them. -/
def State.hostStore (s : State) (pa : Nat) (bs : List Byte) : State :=
  (s.noteRaces none s.stamp ((s.memBytes pa bs.length).zipIdx.map (fun e => (pa + e.2, e.1)))).storeMem pa bs true

/-- A memory port, or the root port, applies an access. -/
def execPortAccess (op : PortOp) (s : State) : Out :=
  match op with
  | .deliver src home =>
    match s.transit.find? (fun t => t.src == src && t.home == home) with
    | some t =>
      let s' := ({ s with transit := s.transit.erase t } : State).writeAtHome false t
      if s'.overfull then .next s else .next s'
    | none => .next s
  | .pressure die => .next (s.pressureClose die)
  | .hostWrite func pa bytes =>
    if s.hostReaches pa bytes.length then .next ((s.hostTouch func pa bytes.length).hostStore pa bytes) else .next s
  | .hostRead func pa len => if s.hostReaches pa len then .next ((s.hostTouch func pa len).looked pa len) else .next s
  | .rootAccept =>
    match s.root with
    | t :: r => .next (({ s with root := r } : State).acceptRoot t)
    | [] => .next s

/-- A port scrubs a line of its HBM4E: an access in its home order, charged to account 0, that finds it good, corrects it, which
is counted for the host (R379), or marks it poisoned.  The energy of in-field tests since the last scrub of the die, of which the manual says
no more than who pays, is an open amount that goes to account 0 with the scrub's (R338; DESIGN CHOICE, log entry 12). -/
def execPatrolScrub (line : Nat) (found : Ecc) (s : State) : Out :=
  if 2 ^ 36 ≤ line || s.boot != .up then .next s
  else
    let d := homeDie (64 * line)
    let s := ((s.closeTouched (64 * line) 64).draw).charge d 0 (4 * Config.accessEnergy d + Config.freeNat s.draws)
    match found with
    | .clean => .next s
    | .corrected => .next (s.modDie d (fun x => { x with corrected := x.corrected + 1 }))
    | .uncorrectable => .next (if s.poison.contains line then s else { s with poison := s.poison ++ [line] })

/-- The host frees space in a stack's spill area: how much is left is open. -/
def execSpillSpaceFreed (stack : Nat) (s : State) : Out :=
  let u := s.spill.getD stack 0
  if u = 0 then .next s else .next { s.draw with spill := s.spill.set stack (Config.freeNat s.draws % u) }

end Sys2Proof.Machine
end

