-- ==== Sys2Proof/Machine/Restore.lean ====
section
/-! DEFINITION. The restoration of a saved context, and what a save area gives back that was written meanwhile (R309, R322, R324; log
entry 17). -/

namespace Sys2Proof.Config

/-- What a save area that was written while its context was saved gives back where that is not what was saved, by the number of the
draw (R309, log entry 17). -/
opaque spoiledImage (n : Nat) : Machine.Image

end Sys2Proof.Config

namespace Sys2Proof.Machine

/-! ## Registers, rings and barriers that written bytes make up (R309) -/

/-- A ring as written bytes may give it back, where it lies within the scratchpad. -/
def Ring.spoiled (g free : Ring) (jnl : Nat) : Ring :=
  if decide (1 ≤ free.slots) && decide (free.slots ≤ 4095) && free.size % 16 == 0 && decide (16 ≤ free.size) &&
      decide (free.size ≤ 65536) && free.base % 16 == 0 && (free.placeTrap jnl).isNone then free
  else { free with slots := g.slots, size := g.size, base := g.base }

/-- A barrier as written bytes may give it back: twelve bits of an expected count, and an arrival count below it (R186). -/
def Bar.spoiled (b : Bar) : Bar :=
  let n := b.expected % 4096
  { b with expected := n, arrival := b.arrival % max n 1 }

/-- Whether a stream has a command in the Woad engine, which goes on outside the save area (R322): its unit stays as it was saved. -/
def Stream.linked (t : Stream) : Bool := t.flights.any (fun f => f.eng == 5)

/-- A stream as written bytes may give it back, but for what `State.refill` puts into its slot: queues, journal, commands in flight and
the unit that it runs. -/
def Stream.spoiled (t u : Stream) : Stream :=
  { t with
    st := if t.linked then t.st else .free, unit := if t.linked then t.unit else none
    pc := u.pc &&& 0x0FFFFFFFFFFFFFFC, s := u.s, a := u.a, lc := u.lc, p := u.p, rrb := u.rrb % max t.nrot 1, prb := u.prb % 8
    v := u.v, pats := u.pats
    dqmiss := u.dqmiss, olclamp := u.olclamp, exp := u.exp, tok := u.tok, rctr := u.rctr, fmtq := u.fmtq.take 16, lease := u.lease
    reqAt := u.reqAt, win := u.win, fr := u.fr, intrap := u.intrap, halted := u.halted, tscr0 := u.tscr0, tscr1 := u.tscr1
    jcnt := u.jcnt, jmarkV := u.jmarkV, hreply := u.hreply
    queues := [], journal := [], flights := t.flights.filter (fun f => f.eng == 5)
    faults := (u.faults.take 6).map (fun f => { f with eng := f.eng % 6 }) }

/-- The keys of a map below a bound, each with the value that written bytes give it where they list it, else its own. -/
def Map.spoiled {α : Type} (m free : Map α) (n : Nat) (f : Option α → α → Option α) : Map α :=
  (List.range n).foldl (fun r k =>
    match (match free.find k with
      | some v => f (m.find k) v
      | none => m.find k) with
    | some v => r.set k v
    | none => r) []

/-- A plane as written bytes may give it back: rows and metadata of its size, and up to 256 listed values in their order (R228, R254). -/
def Plane.spoiled (p : Plane) : Plane :=
  let cap := (if p.sparse then 2 else 1) * capacityOf (fmtAt p.fmt)
  { p with
    rows := p.rows.filter (fun e => decide (e.1 < cap)), scales := p.scales.filter (fun e => decide (e.1 < cap / 32))
    codes := p.codes.filter (fun e => decide (e.1 < cap / 4))
    list := (sortBy (fun (a b : PEntry) => decide (a.row < b.row) || (a.row == b.row && decide (a.col < b.col)))
      (p.list.filter (fun e => decide (e.row < cap) && decide (e.col < 256)))).take 256 }

/-- Escape records that written bytes make up, as a list holds them: up to 512 in ascending order, of units in the core's range (R266, R275). -/
def escSpoiled (k : CoreCfg) (l : List Esc) : List Esc :=
  ((l.filter (fun r => decide (r.t < 256) && decide (r.c < 256) && decide (k.tbase ≤ r.e) && decide (r.e < k.tbase + k.tcount))).foldl
    (fun (m : Map Esc) r => m.set (256 * r.t + r.c) r) []).map (·.2) |>.take 512

/-- A core as bytes written over a save area may give it back, within the core, its table range and its cluster's cores of the context:
what breaks a limit of its register or its list comes back as it was saved, or is not there. -/
def Core.spoiled (y free : Core) (x : Ctx) (c : Nat) : Core :=
  let k := x.coreCfg c
  let spad := free.spad.foldl (fun (m : Memory) b => if b.1 < spadSize then m.write b.1 b.2 else m) []
  let streams := Map.spoiled y.streams free.streams 8 (fun t u => some ((t.getD {}).spoiled u))
  { y with
    spad := liveSpad x c spad
    tiles := Map.spoiled y.tiles free.tiles 64 (fun t u => if (descTrap x.jnlBase u.d0 u.d1).isNone then some u else t)
    chans := (free.chans.filter (fun e => decide (e.1 < 64))).map (fun e => (e.1, e.2.take chanDepth)), pushing := []
    planes := (free.planes.filter (fun e => decide (e.1 < 2))).map (fun e => (e.1, e.2.spoiled))
    acc := free.acc.filter (fun e => decide (e.1 < 256)), accBad := free.accBad
    stats := (free.stats.filter (fun e => decide (e.1 < 256))).map (fun e => (e.1, { e.2 with ks := e.2.ks % 2 ^ 16 }))
    esc := escSpoiled k free.esc
    fsa := Map.spoiled y.fsa free.fsa 8 (fun v w => if fsaOk k w then some (w &&& 0xFFFF000007FFFFFF) else v)
    fsb := Map.spoiled y.fsb free.fsb 8 (fun v w => if tauOk w then some (w &&& 0xFFFFFFFF) else v)
    rings := Map.spoiled y.rings free.rings 16 (fun r g => some ((r.getD {}).spoiled g x.jnlBase))
    homes := Map.spoiled y.homes free.homes 16 (fun e h => if h < 4 && x.owns (4 * clusterOf c + h) then some h else e)
    streams := streams
    used := (streams.filter (fun t => decide (t.1 < 5))).foldl (fun d t =>
      match t.2.unit with
      | some u => demandPlus d u.demand
      | none => d) {} }

/-- The saved nests whose units stay as they were saved. -/
def Image.linkedNests (m : Image) : List (Nat × Nest) :=
  m.nests.filter (fun n => m.cores.any (fun e => e.2.streams.any (fun t => t.2.linked && t.2.unit.any (fun u => u.nest == n.2.id))))

/-- An image as written bytes may give it back, but for what `State.refill` adds. -/
def Image.spoiled (m free : Image) (x : Ctx) : Image :=
  { cores := m.cores.map (fun e => (e.1, e.2.spoiled (Map.getD free.cores e.1 {}) x e.1))
    bars := m.bars.map (fun e =>
      match free.bars.find? (fun b => b.1 == e.1 && b.2.1 == e.2.1) with
      | some b => (e.1, e.2.1, b.2.2.spoiled)
      | none => e)
    table := free.table.filter (fun e => x.coreList.any (fun c =>
      let k := x.coreCfg c
      clusterOf c == e.1 && decide (k.tbase ≤ e.2.1) && decide (e.2.1 < k.tbase + k.tcount)))
    refresh := x.coreList.flatMap (fun c =>
      let k := x.coreCfg c
      (free.refresh.filter (fun e => e.1 == clusterOf c && e.2.2 == c % 4 && decide (k.tbase ≤ e.2.1) &&
        decide (e.2.1 < k.tbase + k.tcount))).take 256)
    nests := m.linkedNests
    exact := free.exact, trapVec := if codeAddr free.trapVec then free.trapVec else m.trapVec }

/-! ## Commands, units and nests that written bytes make up (R309) -/

/-- An instruction of an engine with captured values, as an entry. -/
def madeCmd (m : Cmd) : Cmd :=
  let w := encode m.i
  { j := m.j, i := m.i, head := BitVec.ofNat 32 (w.getD 0 0), body := BitVec.ofNat 32 (w.getD 1 0)
    modw := BitVec.ofNat 32 (w.getD 2 0), pc := m.pc, a := m.a, b := m.b, c := m.c, addr := m.addr, clo := m.clo, chi := m.chi
    exact := m.exact, al := m.ef.al.toNat }

/-- The engine of an instruction, whether the selected core's channels are wired to it, and the checks of its dispatch with given captured
values; none for an instruction of the sequencer. -/
def State.entryChecks (s : State) (m : Cmd) : Option (Nat × Bool × Except Trap Prep) :=
  match m.i with
  | .cpin f => some (0, true, s.prepIn m.i f m)
  | .cpcv f => some (0, true, s.prepIn m.i f m)
  | .cpinCh f => some (0, s.wiredPop 0 f.y.toNat, s.prepCpinCh f m)
  | .ldch f => some (0, s.wiredPush 0 f.x.toNat, s.prepLdch f m)
  | .ldbc f => some (0, s.wiredPush 0 f.x.toNat, s.prepLdbc f m)
  | .pfch f => some (0, true, s.prepPfch f m)
  | .cpout f => some (3, true, s.prepCpout f m)
  | .stch f => some (3, s.wiredPop 3 f.x.toNat, s.prepStch f m)
  | .stchApp f => some (3, s.wiredPop 3 f.x.toNat, s.prepStchApp f m)
  | .stg f => some (3, true, s.prepStg f m)
  | .stat f => some (3, true, s.prepStat f m)
  | .lease f => some (1, true, s.prepLease f m)
  | .unls f => some (1, true, s.prepUnls f m)
  | .wld f => some (1, true, s.prepWld f m)
  | .mma f => some (1, true, s.prepStream m.i f 1 m)
  | .mmas f => some (1, true, s.prepStream m.i f 2 m)
  | .probe f => some (1, true, s.prepStream m.i f 1 m)
  | .accz f => some (1, true, s.prepAccz f m)
  | .drain f => some (1, true, s.prepDrain f m)
  | .clsf f => some (1, true, s.prepClsf f m)
  | .corr f => some (1, true, s.prepCorr f m)
  | .tfit f => some (1, s.wiredPush 1 f.x.toNat, s.prepTfit f m)
  | .tload f => some (1, true, s.prepTload f m)
  | .tsave f => some (1, true, s.prepTsave f m)
  | .tset f => some (1, true, s.prepTset f m)
  | .escn f => some (1, s.wiredPush 1 f.x.toNat, s.prepEscn f m)
  | .rlpop f => some (1, s.wiredPush 1 f.x.toNat, s.prepRlpop f m)
  | .refold f => some (1, s.wiredPop 1 (f.imm.toNat % 64), s.prepRefold f m)
  | .gath f => some (4, !f.sub.getLsbD 0 || s.wiredPush 4 f.x.toNat, s.prepGath f m)
  | .scat f => some (4, true, s.prepScat f m)
  | .ixpage f => some (4, !f.sub.getLsbD 0 || s.wiredPush 4 f.x.toNat, s.prepIxpage f m)
  | .ixlist f => some (4, true, s.prepIxlist f m)
  | .ixsum f => some (4, true, s.prepIxsum f m)
  | .cpost f => some (5, true, s.prepCpost f m)
  | .cjoin f => some (5, true, s.prepCjoin f m)
  | .cstat f => some (5, s.wiredPush 5 f.y.toNat, s.prepCstat f m)
  | i => (vfOf i).map (fun _ => (2, s.vecWired i, .ok { cmd := m }))

/-- An entry that written bytes make up, with its engine: it passes the checks of a dispatch on its core, with its address registers'
windows open and its tiles being filled, and its pages are those of the context, which may be pinned once more. -/
def State.madeEntry (s : State) (c k : Nat) (m : Cmd) : Option (Nat × Cmd × State) :=
  let u := ({ s with sel := c } : State).modCore c (fun y => { y with last := k })
  let u := u.modStream c k (fun t => { t with a := [], fmtq := m.fmt.toList })
  let u := u.modCore c (fun y => { y with tiles := y.tiles.map (fun e => (e.1, { e.2 with st := .filling, fin := false })) })
  if !m.i.wellFormed then none
  else
    match u.entryChecks (madeCmd m) with
    | some (e, true, .ok p) =>
      if p.pop && m.fmt.isNone then none
      else
        match s.fillAll (dieOf c) (s.ctxOf c) (sortAccs p.accs) with
        | none => none
        | some (ps, s') =>
          let tlb := (s'.die (dieOf c)).tlb
          if ps.length ≤ 1024 && (fullPin tlb ps).isNone && cacheHolds tlb ps then
            some (e, { p.cmd with pins := ps, fmt := p.word (u.stream c k) }, s')
          else none
    | _ => none

/-- A fence marker that written bytes make up. -/
def madeMark (m : Cmd) (e : Nat) : Option Cmd :=
  match m.mark with
  | some (kind, scope) =>
    if decide (kind < 3) && decide (scope < 6) && fenceEngines.contains e then
      some { j := m.j, mark := m.mark, pc := m.pc, aux := e }
    else none
  | none => none

/-- A queue takes an entry while it has room. -/
def Stream.enter (t : Stream) (e : Nat) (m : Cmd) : Stream := t.setQueue e (t.queue e ++ [m])

/-- A slot's queue takes an entry that written bytes make up. -/
def State.refillQueue (s : State) (c k e : Nat) (m : Cmd) : State :=
  if m.mark.isSome then
    match madeMark m e with
    | some q => if ((s.stream c k).queue e).length < 16 then s.modStream c k (·.enter e q) else s
    | none => s
  else
    match s.madeEntry c k m with
    | some (e, q, s') =>
      if ((s.stream c k).queue e).length < 16 then (s'.pinPages (dieOf c) q.pins true).modStream c k (·.enter e q) else s
    | none => s

/-- A slot's journal takes a record that written bytes make up, up to 32 of them (R326). -/
def State.refillJournal (s : State) (c k : Nat) (r : JRec) : State :=
  let push := fun (s : State) (r : JRec) => s.modStream c k (fun t => { t with journal := t.journal ++ [r] })
  if 32 ≤ (s.stream c k).journal.length then s
  else if r.kind = 2 then push s { j := r.j, kind := 2, value := r.value }
  else if r.kind = 1 then
    match madeMark r.cmd r.cmd.aux with
    | some q => push s { j := r.j, kind := 1, cmd := { q with j := r.j }, done := r.done }
    | none => s
  else
    match s.madeEntry c k { r.cmd with j := r.j } with
    | some (_, q, s') => push s' { r with kind := 0, cmd := q, value := 0, once := onceOf q.i }
    | none => s

/-- A slot has a command of LDE, STE or IDX in flight that written bytes make up, at some cursor. -/
def State.refillFlight (s : State) (c k : Nat) (f : Flight) : State :=
  match s.madeEntry c k f.cmd with
  | some (e, q, s') =>
    if e = 0 || e = 3 || e = 4 then
      let q := { q with slot := k, order := s.stamp }
      let n := s'.unitsOf c e q
      let at_ := f.cursor % (n + 1)
      ({ s'.pinPages (dieOf c) q.pins true with stamp := s.stamp + 1 } : State).fly c k
        { eng := e, cmd := q, order := s.stamp, cursor := at_, units := n, failed := f.failed && decide (at_ < n), done := decide (n ≤ at_) }
    else s
  | none => s

/-- Whether a nest keeps the limits of a record (R90, R91). -/
def Nest.sound (z : Nest) (x : CtxCfg) : Bool :=
  let n := z.levels.length
  decide (z.depth < 4) && codeAddr z.entry && z.done % 8 == 0 && decide (1 ≤ n) && decide (n ≤ 6) &&
    ((List.range n).all fun p => z.levels.any fun l => l.2.2 == p) &&
    (z.levels.all fun l => decide (1 ≤ l.1) && decide (l.1 ≤ 2 ^ 32) && decide (l.2.1 < 3)) &&
    (match z.levels.filter (fun l => l.2.1 == 2) with
     | [] => z.mask == 0
     | [l] => decide (z.mask < 256) && z.mask != 0 && ((List.range 8).all fun b => !z.mask.testBit b || x.dies.contains b) &&
         countOnes z.mask 8 == l.1
     | _ => false) &&
    z.demand.vregs % 8 == 0 && decide (8 ≤ z.demand.vregs) && decide (z.demand.vregs ≤ 64) && decide (z.demand.tiles ≤ 64) &&
    decide (z.demand.rings ≤ 16) && z.demand.spad % 64 == 0 && decide (z.demand.spad ≤ 770048) &&
    (z.depth == 0 || x.cores.all (fun k => fits z.demand (coreReserve k z.depth)))

/-- A pending nest that written bytes make up, on each of its dies at any unit and with any number of units running; its completion word
is one of the context's, and its records wait for a place (R100, R105). -/
def State.refillNest (s : State) (i : Nat) (x : CtxCfg) (z : Nest) : State :=
  if !(z.sound x && x.dies.contains z.home) then s
  else
    match s.page z.home i z.done { lo := z.done, hi := z.done + 8, w := true } with
    | .error _ => s
    | .ok (q, s') =>
      let s' := { s'.pinPages z.home [q] true with nextNest := s.nextNest + 1, stamp := s.stamp + 1, draws := s'.draws + 1 }
      (nestDies z.home z.mask).foldl (fun t d => t.modDie d (fun y => { y with waiting := y.waiting ++
        [{ z with
           id := s.nextNest, ctx := i, donePin := q, decl := z.decl % 8, prio := z.decl % 8, since := s.now, turn := s'.stamp
           next := z.seek d (Config.pick s'.draws d % (z.units + 1)), running := Config.pick s'.draws (8 + d) % 2 ^ 16 }] })) s'

/-- A slot runs a unit of one of the context's nests that written bytes make up, where its core has room for it (R97), with queues,
journal and commands in flight. -/
def State.refillSlot (s : State) (i c k : Nat) (u : Stream) : State :=
  let y := (s.ctx i).coreCfg c
  let zs := (s.nestsOf i [dieOf c]).map (·.2)
  let t := s.stream c k
  let s' :=
    match u.unit.bind (fun w => (zs[w.nest % zs.length]?).map (fun z => (w, z))) with
    | some (w, z) =>
      let ok := if k < 5 then fits (demandPlus (s.core c).used z.demand) (coreShared y)
        else decide (k - 4 ≤ z.depth) && fits z.demand (coreReserve y (k - 4))
      if t.unit.isSome || u.st == .free || !ok then s
      else
        let r : UnitRec :=
          { nest := z.id, home := z.home, depth := z.depth, demand := z.demand, entry := z.entry, levels := z.levels
            spatial := w.spatial % max z.units 1, iter := w.iter % max (combos (temporalLevels z.levels)) 1 }
        (s.modStream c k (fun t => { t with
          unit := some r, alloc := z.demand.vregs, rrb := t.rrb % max (z.demand.vregs - 32) 1, st := (u.resume s.now false).st })).modCore c (fun y =>
          { y with used := if k < 5 then demandPlus y.used z.demand else y.used })
    | none => s
  if (s'.stream c k).st == .free then s'
  else
    let s' := (List.range 6).foldl (fun s e => (u.queue e).foldl (fun s m => s.refillQueue c k e m) s) s'
    let s' := u.journal.foldl (fun s r => s.refillJournal c k r) s'
    (u.flights.take 32).foldl (fun s f => s.refillFlight c k f) s'

/-- The pages that saved commands and nests had pinned are so no more, and nothing that they did comes before anything. -/
def State.dropSaved (s : State) (m : Image) : State :=
  let s := m.cores.foldl (fun s e => e.2.streams.foldl (fun s t =>
    (t.2.queues.flatMap (·.2) ++ (t.2.flights.filter (fun f => f.eng != 5)).map (·.cmd)).foldl (fun s q =>
      s.pinPages (dieOf e.1) q.pins false) s) s) s
  let kept := m.linkedNests.map (·.2.id)
  let gone := (m.nests.map (·.2)).filter (fun n => !kept.contains n.id)
  (gone.map (fun n => (n.id, n.home, n.donePin))).eraseDups.foldl (fun s n => s.pinPages n.2.1 [n.2.2] false) s

/-- What written bytes make up beside registers and tables: nests, and in every slot a unit with its queues, journal and commands in
flight. -/
def State.refill (s : State) (i : Nat) (free : Image) : State :=
  let x := s.ctx i
  let s := x.coreList.foldl (fun s c => (List.range 8).foldl (fun s k => s.forgetSlot c k) s) s
  let s := (free.nests.take 896).foldl (fun s z => s.refillNest i x.cfg z.2) s
  let s := s.admitAll
  x.coreList.foldl (fun s c => (List.range 8).foldl (fun s k =>
    s.refillSlot i c k ((Map.getD free.cores c {}).streams.getD k {})) s) s

/-! ## Restoration (R322, R324) -/

/-- Whether the restoration of a context gives what written bytes of its save area encode (R309). -/
def State.rewritten (s : State) (x : Ctx) : Bool := x.spoiled && Config.freeBit s.draws

/-- The image that is restored: the saved one, or where the save area has been written meanwhile, that or what the bytes encode (R309). -/
def State.restored (s : State) (x : Ctx) : Image :=
  if s.rewritten x then x.image.spoiled (Config.spoiledImage s.draws) x else x.image

/-- The device reads the save area of a context: the held lines there close, and errors that ECC corrects are counted (R208, R379). -/
def State.readSaved (s : State) (x : Ctx) : State :=
  x.saveRanges.foldl (fun s r => (s.closeTouched r.1 (r.2 - r.1)).countCorrected (homeDie r.1) r.1) s

/-- A control entry restores a saved context onto its cores. -/
def execContextRestore (func ctx : Nat) (s : State) : Out :=
  if s.boot != .up then .next s
  else if !s.ownsCtx func ctx then .next (s.complete func 1 0xFF)
  else if s.ctxBusy ctx then .next s
  else
    let x := s.ctx ctx
    if x.st != .saved || !s.coresVacant x then .next (s.refuseEntry func 1 ctx)
    else
      let s := s.readSaved x
      let x := s.ctx ctx
      let m := s.restored x
      let w := s.rewritten x
      let free := Config.spoiledImage s.draws
      let s := if w then s.dropSaved x.image else s
      let s := ((s.draw.freshLevels x.cfg).putImage ctx m (fun t => (t.resume s.now false).takeReply)).modCtx ctx (fun y =>
        { y with st := .resident, image := {}, spoiled := false, exact := m.exact, trapVec := m.trapVec })
      let s := if w then s.refill ctx free else s
      let s := s.heldCompletions x.coreList
      .next (((s.openCharge x.cfg.dies x.payer).retargetAll).complete func 1 0)

end Sys2Proof.Machine
end

