-- ==== Sys2Proof/Machine/Dispatch.lean ====
section
/-! DEFINITION. The meaning of every step: one arm per constructor. -/

namespace Sys2Proof.Machine

def exec (i : Instr) (s : State) : Host.Outcome State Fault Refusal :=
  match i with
  | .add d a b => Sys2Proof.Machine.execAdd d a b s
  | .sub d a b => Sys2Proof.Machine.execSub d a b s
  | .mul d a b => Sys2Proof.Machine.execMul d a b s
  | .mulh d a b => Sys2Proof.Machine.execMulh d a b s
  | .div d a b => Sys2Proof.Machine.execDiv d a b s
  | .rem d a b => Sys2Proof.Machine.execRem d a b s
  | .and d a b => Sys2Proof.Machine.execAnd d a b s
  | .or d a b => Sys2Proof.Machine.execOr d a b s
  | .xor d a b => Sys2Proof.Machine.execXor d a b s
  | .shl d a b => Sys2Proof.Machine.execShl d a b s
  | .shr d a b => Sys2Proof.Machine.execShr d a b s
  | .sra d a b => Sys2Proof.Machine.execSra d a b s
  | .slt d a b => Sys2Proof.Machine.execSlt d a b s
  | .sltu d a b => Sys2Proof.Machine.execSltu d a b s
  | .min d a b => Sys2Proof.Machine.execMin d a b s
  | .max d a b => Sys2Proof.Machine.execMax d a b s
  | .minu d a b => Sys2Proof.Machine.execMinu d a b s
  | .maxu d a b => Sys2Proof.Machine.execMaxu d a b s
  | .clz d a => Sys2Proof.Machine.execClz d a s
  | .ctz d a => Sys2Proof.Machine.execCtz d a s
  | .popc d a => Sys2Proof.Machine.execPopc d a s
  | .sel d a b => Sys2Proof.Machine.execSel d a b s
  | .addi d a imm => Sys2Proof.Machine.execAddi d a imm s
  | .andi d a imm => Sys2Proof.Machine.execAndi d a imm s
  | .ori d a imm => Sys2Proof.Machine.execOri d a imm s
  | .xori d a imm => Sys2Proof.Machine.execXori d a imm s
  | .shli d a c => Sys2Proof.Machine.execShli d a c s
  | .shri d a c => Sys2Proof.Machine.execShri d a c s
  | .srai d a c => Sys2Proof.Machine.execSrai d a c s
  | .slti d a imm => Sys2Proof.Machine.execSlti d a imm s
  | .li d ext => Sys2Proof.Machine.execLi d ext s
  | .lih d ext => Sys2Proof.Machine.execLih d ext s
  | .mov d a => Sys2Proof.Machine.execMov d a s
  | .fadd d a b t rnd => Sys2Proof.Machine.execFadd d a b t rnd s
  | .fsub d a b t rnd => Sys2Proof.Machine.execFsub d a b t rnd s
  | .fmul d a b t rnd => Sys2Proof.Machine.execFmul d a b t rnd s
  | .ffma d a b t rnd => Sys2Proof.Machine.execFfma d a b t rnd s
  | .fmin d a b t => Sys2Proof.Machine.execFmin d a b t s
  | .fmax d a b t => Sys2Proof.Machine.execFmax d a b t s
  | .fcmp d a b t c => Sys2Proof.Machine.execFcmp d a b t c s
  | .fcvt d a src t rnd => Sys2Proof.Machine.execFcvt d a src t rnd s
  | .acfg k a b m => Sys2Proof.Machine.execAcfg k a b m s
  | .aset k a => Sys2Proof.Machine.execAset k a s
  | .aget d k => Sys2Proof.Machine.execAget d k s
  | .aadd k imm => Sys2Proof.Machine.execAadd k imm s
  | .apost k => Sys2Proof.Machine.execApost k s
  | .lds d p k sz off => Sys2Proof.Machine.execLds d p k sz off s
  | .sts d p k sz off => Sys2Proof.Machine.execSts d p k sz off s
  | .tdef a b t => Sys2Proof.Machine.execTdef a b t s
  | .tfill t => Sys2Proof.Machine.execTfill t s
  | .tfree t => Sys2Proof.Machine.execTfree t s
  | .tstat d t => Sys2Proof.Machine.execTstat d t s
  | .br c a off => Sys2Proof.Machine.execBr c a off s
  | .brAlways off => Sys2Proof.Machine.execBrAlways off s
  | .jmp off => Sys2Proof.Machine.execJmp off s
  | .jmpFar ext => Sys2Proof.Machine.execJmpFar ext s
  | .call off => Sys2Proof.Machine.execCall off s
  | .callFar ext => Sys2Proof.Machine.execCallFar ext s
  | .jmpr a => Sys2Proof.Machine.execJmpr a s
  | .ret => Sys2Proof.Machine.execRet s
  | .loop lc src endw => Sys2Proof.Machine.execLoop lc src endw s
  | .loopn lc n endw => Sys2Proof.Machine.execLoopn lc n endw s
  | .loopp lc k endw => Sys2Proof.Machine.execLoopp lc k endw s
  | .lbrk lc => Sys2Proof.Machine.execLbrk lc s
  | .wtok eng dir cnt => Sys2Proof.Machine.execWtok eng dir cnt s
  | .wfil ring n => Sys2Proof.Machine.execWfil ring n s
  | .wfre ring n => Sys2Proof.Machine.execWfre ring n s
  | .wbar b p => Sys2Proof.Machine.execWbar b p s
  | .wlse => Sys2Proof.Machine.execWlse s
  | .rclaim d ring n => Sys2Proof.Machine.execRclaim d ring n s
  | .rpub d ring n => Sys2Proof.Machine.execRpub d ring n s
  | .rtake d ring n => Sys2Proof.Machine.execRtake d ring n s
  | .rfree d ring n => Sys2Proof.Machine.execRfree d ring n s
  | .rback d ring n => Sys2Proof.Machine.execRback d ring n s
  | .rsteal d ring n => Sys2Proof.Machine.execRsteal d ring n s
  | .rstat d ring => Sys2Proof.Machine.execRstat d ring s
  | .barinit b c => Sys2Proof.Machine.execBarinit b c s
  | .barv b => Sys2Proof.Machine.execBarv b s
  | .tsig eng dir cnt => Sys2Proof.Machine.execTsig eng dir cnt s
  | .chrd d c => Sys2Proof.Machine.execChrd d c s
  | .lnch a => Sys2Proof.Machine.execLnch a s
  | .lnchn d a => Sys2Proof.Machine.execLnchn d a s
  | .fmtp a => Sys2Proof.Machine.execFmtp a s
  | .mode m => Sys2Proof.Machine.execMode m s
  | .swpt n t0 t1 t2 => Sys2Proof.Machine.execSwpt n t0 t1 t2 s
  | .pwrl a => Sys2Proof.Machine.execPwrl a s
  | .musts a b imm => Sys2Proof.Machine.execMusts a b imm s
  | .jmark a => Sys2Proof.Machine.execJmark a s
  | .nop => Sys2Proof.Machine.execNop s
  | .sysrd d imm => Sys2Proof.Machine.execSysrd d imm s
  | .syswr a imm => Sys2Proof.Machine.execSyswr a imm s
  | .modeWrite a => Sys2Proof.Machine.execModeWrite a s
  | .trapVecWrite a => Sys2Proof.Machine.execTrapVecWrite a s
  | .frResumeWrite a => Sys2Proof.Machine.execFrResumeWrite a s
  | .wrapAnWrite a n => Sys2Proof.Machine.execWrapAnWrite a n s
  | .vstatClear a => Sys2Proof.Machine.execVstatClear a s
  | .tokcntWrite a => Sys2Proof.Machine.execTokcntWrite a s
  | .ringdWrite a n => Sys2Proof.Machine.execRingdWrite a n s
  | .foldSetWrite a n => Sys2Proof.Machine.execFoldSetWrite a n s
  | .droopThrWrite a => Sys2Proof.Machine.execDroopThrWrite a s
  | .trap c => Sys2Proof.Machine.execTrap c s
  | .tret => Sys2Proof.Machine.execTret s
  | .halt => Sys2Proof.Machine.execHalt s
  | .yield => Sys2Proof.Machine.execYield s
  | .tstamp d c => Sys2Proof.Machine.execTstamp d c s
  | .fenceAcq scope => Sys2Proof.Machine.execFenceAcq scope s
  | .fenceRel scope => Sys2Proof.Machine.execFenceRel scope s
  | .fenceFull scope => Sys2Proof.Machine.execFenceFull scope s
  | .hreq a => Sys2Proof.Machine.execHreq a s
  | .cpin f => Sys2Proof.Machine.execCpin f s
  | .cpinCh f => Sys2Proof.Machine.execCpinCh f s
  | .cpcv f => Sys2Proof.Machine.execCpcv f s
  | .ldch f => Sys2Proof.Machine.execLdch f s
  | .ldbc f => Sys2Proof.Machine.execLdbc f s
  | .pfch f => Sys2Proof.Machine.execPfch f s
  | .lease f => Sys2Proof.Machine.execLease f s
  | .unls f => Sys2Proof.Machine.execUnls f s
  | .wld f => Sys2Proof.Machine.execWld f s
  | .mma f => Sys2Proof.Machine.execMma f s
  | .mmas f => Sys2Proof.Machine.execMmas f s
  | .accz f => Sys2Proof.Machine.execAccz f s
  | .drain f => Sys2Proof.Machine.execDrain f s
  | .probe f => Sys2Proof.Machine.execProbe f s
  | .clsf f => Sys2Proof.Machine.execClsf f s
  | .corr f => Sys2Proof.Machine.execCorr f s
  | .tfit f => Sys2Proof.Machine.execTfit f s
  | .tload f => Sys2Proof.Machine.execTload f s
  | .tsave f => Sys2Proof.Machine.execTsave f s
  | .tset f => Sys2Proof.Machine.execTset f s
  | .escn f => Sys2Proof.Machine.execEscn f s
  | .rlpop f => Sys2Proof.Machine.execRlpop f s
  | .refold f => Sys2Proof.Machine.execRefold f s
  | .vadd f => Sys2Proof.Machine.execVadd f s
  | .vsub f => Sys2Proof.Machine.execVsub f s
  | .vmul f => Sys2Proof.Machine.execVmul f s
  | .vfma f => Sys2Proof.Machine.execVfma f s
  | .vfms f => Sys2Proof.Machine.execVfms f s
  | .vmin f => Sys2Proof.Machine.execVmin f s
  | .vmax f => Sys2Proof.Machine.execVmax f s
  | .vcmp f => Sys2Proof.Machine.execVcmp f s
  | .vsel f => Sys2Proof.Machine.execVsel f s
  | .vcvt f => Sys2Proof.Machine.execVcvt f s
  | .vand f => Sys2Proof.Machine.execVand f s
  | .vor f => Sys2Proof.Machine.execVor f s
  | .vxor f => Sys2Proof.Machine.execVxor f s
  | .vnot f => Sys2Proof.Machine.execVnot f s
  | .vshl f => Sys2Proof.Machine.execVshl f s
  | .vshr f => Sys2Proof.Machine.execVshr f s
  | .vsra f => Sys2Proof.Machine.execVsra f s
  | .vmov f => Sys2Proof.Machine.execVmov f s
  | .vbc f => Sys2Proof.Machine.execVbc f s
  | .vidx f => Sys2Proof.Machine.execVidx f s
  | .vred f => Sys2Proof.Machine.execVred f s
  | .vscan f => Sys2Proof.Machine.execVscan f s
  | .vperm f => Sys2Proof.Machine.execVperm f s
  | .vbit f => Sys2Proof.Machine.execVbit f s
  | .vbpat f => Sys2Proof.Machine.execVbpat f s
  | .vsf f => Sys2Proof.Machine.execVsf f s
  | .vtopk f => Sys2Proof.Machine.execVtopk f s
  | .vrnd f => Sys2Proof.Machine.execVrnd f s
  | .vqnt f => Sys2Proof.Machine.execVqnt f s
  | .vdq f => Sys2Proof.Machine.execVdq f s
  | .vrcv f => Sys2Proof.Machine.execVrcv f s
  | .vsnd f => Sys2Proof.Machine.execVsnd f s
  | .vrot f => Sys2Proof.Machine.execVrot f s
  | .pand f => Sys2Proof.Machine.execPand f s
  | .por f => Sys2Proof.Machine.execPor f s
  | .pxor f => Sys2Proof.Machine.execPxor f s
  | .pnot f => Sys2Proof.Machine.execPnot f s
  | .pcnt f => Sys2Proof.Machine.execPcnt f s
  | .pset f => Sys2Proof.Machine.execPset f s
  | .cpout f => Sys2Proof.Machine.execCpout f s
  | .stch f => Sys2Proof.Machine.execStch f s
  | .stchApp f => Sys2Proof.Machine.execStchApp f s
  | .stg f => Sys2Proof.Machine.execStg f s
  | .stat f => Sys2Proof.Machine.execStat f s
  | .gath f => Sys2Proof.Machine.execGath f s
  | .scat f => Sys2Proof.Machine.execScat f s
  | .ixlist f => Sys2Proof.Machine.execIxlist f s
  | .ixpage f => Sys2Proof.Machine.execIxpage f s
  | .ixsum f => Sys2Proof.Machine.execIxsum f s
  | .cpost f => Sys2Proof.Machine.execCpost f s
  | .cjoin f => Sys2Proof.Machine.execCjoin f s
  | .cstat f => Sys2Proof.Machine.execCstat f s
  | .waitConditionMet core slot => Sys2Proof.Machine.execWaitConditionMet core slot s
  | .translationWalkDone core slot => Sys2Proof.Machine.execTranslationWalkDone core slot s
  | .engineIssue core eng => Sys2Proof.Machine.execEngineIssue core eng s
  | .commandCompletion core slot j => Sys2Proof.Machine.execCommandCompletion core slot j s
  | .fenceMarkerRetire core slot eng => Sys2Proof.Machine.execFenceMarkerRetire core slot eng s
  | .modeDrainComplete core slot => Sys2Proof.Machine.execModeDrainComplete core slot s
  | .haltDrainComplete core slot => Sys2Proof.Machine.execHaltDrainComplete core slot s
  | .unitPlacement die => Sys2Proof.Machine.execUnitPlacement die s
  | .priorityAgeing die nest => Sys2Proof.Machine.execPriorityAgeing die nest s
  | .leaseGrant cluster => Sys2Proof.Machine.execLeaseGrant cluster s
  | .leaseEnd cluster => Sys2Proof.Machine.execLeaseEnd cluster s
  | .takeTrap core slot => Sys2Proof.Machine.execTakeTrap core slot s
  | .watchdogExpiry core slot => Sys2Proof.Machine.execWatchdogExpiry core slot s
  | .portAccess op => Sys2Proof.Machine.execPortAccess op s
  | .patrolScrub line found => Sys2Proof.Machine.execPatrolScrub line found s
  | .launchEntry func ctx die addr => Sys2Proof.Machine.execLaunchEntry func ctx die addr s
  | .contextCreate func cfg => Sys2Proof.Machine.execContextCreate func cfg s
  | .contextDestroy func ctx => Sys2Proof.Machine.execContextDestroy func ctx s
  | .contextPreempt func ctx ben => Sys2Proof.Machine.execContextPreempt func ctx ben s
  | .preemptSaveComplete ctx bad => Sys2Proof.Machine.execPreemptSaveComplete ctx bad s
  | .contextRestore func ctx => Sys2Proof.Machine.execContextRestore func ctx s
  | .contextRecover func cfg => Sys2Proof.Machine.execContextRecover func cfg s
  | .keepReportRelease func die => Sys2Proof.Machine.execKeepReportRelease func die s
  | .invalidationEntry func ctx lo len => Sys2Proof.Machine.execInvalidationEntry func ctx lo len s
  | .invalidationComplete func => Sys2Proof.Machine.execInvalidationComplete func s
  | .replyEntry func ctx ident reply => Sys2Proof.Machine.execReplyEntry func ctx ident reply s
  | .eventQueueHeadAdvance func n => Sys2Proof.Machine.execEventQueueHeadAdvance func n s
  | .partitionAssignment func asg => Sys2Proof.Machine.execPartitionAssignment func asg s
  | .attestationRequest func part nonce => Sys2Proof.Machine.execAttestationRequest func part nonce s
  | .firmwareUpdate func img => Sys2Proof.Machine.execFirmwareUpdate func img s
  | .weightOverrideLoad func die w => Sys2Proof.Machine.execWeightOverrideLoad func die w s
  | .groupHandleSet func ctx die g cfg => Sys2Proof.Machine.execGroupHandleSet func ctx die g cfg s
  | .supplyTrip => Sys2Proof.Machine.execSupplyTrip s
  | .keepSaveComplete die => Sys2Proof.Machine.execKeepSaveComplete die s
  | .bringUp => Sys2Proof.Machine.execBringUp s
  | .railStep die => Sys2Proof.Machine.execRailStep die s
  | .railHoldEnd die => Sys2Proof.Machine.execRailHoldEnd die s
  | .estimatorWindowEnd cluster => Sys2Proof.Machine.execEstimatorWindowEnd cluster s
  | .droopAlarm cluster sag => Sys2Proof.Machine.execDroopAlarm cluster sag s
  | .stretchEnd cluster => Sys2Proof.Machine.execStretchEnd cluster s
  | .halvingEnd cluster => Sys2Proof.Machine.execHalvingEnd cluster s
  | .controllerEvaluation die => Sys2Proof.Machine.execControllerEvaluation die s
  | .contributionArrival ctx die g round member c => Sys2Proof.Machine.execContributionArrival ctx die g round member c s
  | .roundDeadline ctx die g round => Sys2Proof.Machine.execRoundDeadline ctx die g round s
  | .resultArrival ctx die g round r => Sys2Proof.Machine.execResultArrival ctx die g round r s
  | .joinDeadline ctx die g => Sys2Proof.Machine.execJoinDeadline ctx die g s
  | .earlyResultExpiry ctx die g round => Sys2Proof.Machine.execEarlyResultExpiry ctx die g round s
  | .sessionRekey ctx die g peer => Sys2Proof.Machine.execSessionRekey ctx die g peer s
  | .illegalInstruction r => Sys2Proof.Machine.execIllegalInstruction r s
  | .unitCompletion core slot j bad => Sys2Proof.Machine.execUnitCompletion core slot j bad s
  | .partitionSchedulePreempt ctx => Sys2Proof.Machine.execPartitionSchedulePreempt ctx s
  | .spillSpaceFreed stack => Sys2Proof.Machine.execSpillSpaceFreed stack s
  | .sessionKeyed ctx die g peer => Sys2Proof.Machine.execSessionKeyed ctx die g peer s
  | .reserveLost die => Sys2Proof.Machine.execReserveLost die s

end Sys2Proof.Machine
end

