-- ==== Sys2Proof/Machine/Due.lean ====
section
/-! DEFINITION. What the manual dates: events that happen when their time comes, before time passes it (R2; log entry 2). -/

namespace Sys2Proof.Machine

/-- The end of a cluster's estimator window and of its lease (R231, R337). -/
def State.clusterDue (s : State) (k : Nat) : List (Nat × Instr) :=
  let x := s.cluster k
  (x.timeOf s.now (x.winStart + 128), .estimatorWindowEnd k) ::
    (if x.holder.isSome then [(x.leaseOverAt s.now, .leaseEnd k)] else [])

/-- A die's rail, its controller, and the ageing of its nests (R99, R335, R343). -/
def State.dieDue (s : State) (d : Nat) : List (Nat × Instr) :=
  let x := s.die d
  (match x.rail with
   | .still => []
   | .hold => [(x.railAt, Instr.railHoldEnd d)]
   | _ => [(x.railAt, Instr.railStep d)]) ++
    [(x.ctrlAt + 20000, .controllerEvaluation d)] ++
    (x.nests.filter (fun z => decide (z.next < z.units) && decide (z.prio < 7))).map (fun z =>
      (z.since + 1000000, .priorityAgeing d z.id))

/-- A time, or the next effective cycle of a slot's cluster where what VEC has issued in this one has to land first (R71). -/
def State.fromLanding (s : State) (c k a : Nat) : Nat :=
  let y := s.cluster (clusterOf c)
  if s.vecFresh c k then max a (y.timeOf s.now (y.eff s.now + 1)) else a

/-- The watchdogs of a core's streams (R318). -/
def State.watchdogsDue (s : State) (c : Nat) : List (Nat × Instr) :=
  (s.core c).streams.filterMap (fun t => (s.watchdogAt c t.1).map (fun a => (s.fromLanding c t.1 a, .watchdogExpiry c t.1)))

/-- The waits of a core's streams whose condition holds: their streams are ready in this cycle (R64). -/
def State.waitsDue (s : State) (c : Nat) : List (Nat × Instr) :=
  if s.runs c then
    (s.core c).streams.filterMap (fun t =>
      match t.2.st with
      | .waiting w => if !t.2.mustTrap && s.condHolds c t.1 w then some (s.now, .waitConditionMet c t.1) else none
      | _ => none)
  else []

/-- The traps of a core's streams that wait or halt, at once (R316). -/
def State.trapsDue (s : State) (c : Nat) : List (Nat × Instr) :=
  ((s.core c).streams.filter (fun t =>
    s.runs c && t.2.mustTrap &&
      (match t.2.st with
       | .waiting _ => true
       | .halting => true
       | _ => false))).map (fun t => (s.fromLanding c t.1 s.now, .takeTrap c t.1))

/-- When the VEC commands of a core's exposed regions have landed at the latest (R58, R177; log entry 7). -/
def State.vecDue (s : State) (c : Nat) : List (Nat × Instr) :=
  (s.core c).streams.flatMap (fun t => t.2.flights.filterMap (fun f =>
    if s.alive c then
      f.lands.map (fun l => ((s.cluster (clusterOf c)).timeOf s.now l.2, .commandCompletion c t.1 f.cmd.j))
    else none))

/-- The deadlines of a group handle: a round at the root, a result that a `cjoin` waits for, early results (R365, R369, R370). -/
def State.groupDue (s : State) (x : Group) : List (Nat × Instr) :=
  let joins := s.joining x.ctx x.die x.g
  let lost := x.rounds.filter (fun q => joins.contains q.r && q.result.isNone && !q.lost)
  ((x.rounds.filter (fun q => x.cfg.me == x.cfg.root && q.result.isNone && q.own)).map (fun q =>
    (q.at_ + x.cfg.deadline, Instr.roundDeadline x.ctx x.die x.g q.r))) ++
    lost.map (fun q => (q.at_ + 2 * x.cfg.deadline, Instr.joinDeadline x.ctx x.die x.g)) ++
    x.early.map (fun e => (e.2.1 + 2 * x.cfg.deadline, Instr.earlyResultExpiry x.ctx x.die x.g e.1))

/-- Everything that has a date, with it: while a supply loss is being saved only the end of each die's save, or the
loss of its reserve (R1, R348, R355). -/
def State.dated (s : State) : List (Nat × Instr) :=
  match s.boot with
  | .up =>
    (List.range 96).flatMap s.clusterDue ++ (List.range 8).flatMap s.dieDue ++
      s.cores.flatMap (fun e => s.waitsDue e.1) ++
      s.cores.flatMap (fun e => s.trapsDue e.1 ++ s.vecDue e.1 ++ s.watchdogsDue e.1) ++
      s.groups.flatMap s.groupDue
  | .saving =>
    ((List.range 8).filter (fun d => (s.die d).saving.isSome)).map (fun d =>
      if (s.die d).failing then (s.tripAt + saveWindow, .reserveLost d) else (s.tripAt + saveEnd, .keepSaveComplete d))
  | _ => []

/-- The first of some dated events; of equal dates the earlier in the list. -/
def earliest : List (Nat × Instr) → Option (Nat × Instr)
  | [] => none
  | e :: r =>
    match earliest r with
    | none => some e
    | some f => if f.1 < e.1 then some f else some e

/-- What must happen before time reaches a point: nothing if it does not pass. -/
def State.dueBefore (s : State) (t : Nat) : Option (Nat × Instr) :=
  if t ≤ s.now then none else (earliest s.dated).filter (fun e => decide (e.1 < t))

end Sys2Proof.Machine
end

