-- ==== Sys2Proof/Machine/Turn.lean ====
section
/-! DEFINITION. What the next turn of the machine does (log entries 1 to 3): a sequencer selects a stream or fetches and decodes an
instruction (R43, R44, R62, R64), a step of the device, another agent or the host takes place, the host announces an entry or the device
serves one (R374), or what has a date comes first.  And the machine made ready to fetch a given instruction. -/

namespace Sys2Proof.Machine

/-- What a turn comes to: nothing more, or an instruction to execute. -/
inductive Todo where
  | done (s : State)
  | run (i : Instr) (s : State)

/-- Whether a row is a step of the device or of an agent beside it, which no program word and no queue names. -/
def isEvent (i : Instr) : Bool :=
  match i with
  | .waitConditionMet _ _ | .translationWalkDone _ _ | .engineIssue _ _ | .commandCompletion _ _ _
  | .fenceMarkerRetire _ _ _ | .modeDrainComplete _ _ | .haltDrainComplete _ _ | .unitPlacement _ | .priorityAgeing _ _
  | .leaseGrant _ | .leaseEnd _ | .takeTrap _ _ | .watchdogExpiry _ _ | .portAccess _ | .patrolScrub _ _
  | .preemptSaveComplete _ _ | .invalidationComplete _ | .eventQueueHeadAdvance _ _
  | .attestationRequest _ _ _ | .firmwareUpdate _ _ | .weightOverrideLoad _ _ _ | .groupHandleSet _ _ _ _ _
  | .supplyTrip | .keepSaveComplete _ | .bringUp | .railStep _ | .railHoldEnd _ | .estimatorWindowEnd _
  | .droopAlarm _ _ | .stretchEnd _ | .halvingEnd _ | .controllerEvaluation _ | .contributionArrival _ _ _ _ _ _
  | .roundDeadline _ _ _ _ | .resultArrival _ _ _ _ _ | .joinDeadline _ _ _ | .earlyResultExpiry _ _ _ _
  | .sessionRekey _ _ _ _ | .unitCompletion _ _ _ _ | .partitionSchedulePreempt _ | .spillSpaceFreed _
  | .sessionKeyed _ _ _ _ | .reserveLost _ => true
  | _ => false

/-! ## The queues of a function (R374) -/

/-- The queues of a function that the device serves: 0 to 7 launch, 8 control, 9 invalidation, 10 reply. -/
def queueCount : Nat := 11

/-- The function of a row that is a queue entry, and whether a queue takes it. -/
def entryFits (i : Instr) (queue : Nat) : Option Nat :=
  match i with
  | .launchEntry f _ _ _ => if queue < 8 then some f else none
  | .contextCreate f _ => if queue = 8 then some f else none
  | .contextDestroy f _ => if queue = 8 then some f else none
  | .contextPreempt f _ _ => if queue = 8 then some f else none
  | .contextRestore f _ => if queue = 8 then some f else none
  | .contextRecover f _ => if queue = 8 then some f else none
  | .keepReportRelease f _ => if queue = 8 then some f else none
  | .partitionAssignment f _ => if queue = 8 then some f else none
  | .invalidationEntry f _ _ _ => if queue = 9 then some f else none
  | .replyEntry f _ _ _ => if queue = 10 then some f else none
  | _ => none

/-- The key of a queue. -/
def queueKey (func queue : Nat) : Nat := 16 * func + queue

/-- The host announces an entry: it joins its queue, where the ring has room. -/
def State.announce (s : State) (func queue : Nat) (i : Instr) : State :=
  let k := queueKey func queue
  let l := s.subs.getD k []
  if s.boot == .up && entryFits i queue == some func && decide (l.length < s.ringEntries func queue) then
    { s with subs := s.subs.set k (l ++ [i]) }
  else s

/-- Whether an entry at the head of its queue waits. -/
def State.entryWaits (s : State) (i : Instr) : Bool :=
  match i with
  | .launchEntry func ctx die addr =>
    s.ownsCtx func ctx &&
      (match s.readNest ctx die (acctOf func) addr 0 with
       | .ok (x, s') => s'.launchHeld x
       | .error _ => false)
  | .contextCreate _ cfg => s.ctxBusy cfg.id
  | .contextRecover _ cfg => s.ctxBusy cfg.id
  | .contextDestroy _ ctx => s.ctxBusy ctx
  | .contextPreempt func ctx _ => s.ctxBusy ctx || (s.ownsCtx func ctx && s.trapping ctx)
  | .contextRestore _ ctx => s.ctxBusy ctx
  | .invalidationEntry func _ _ _ => !(s.invals.getD func []).isEmpty
  | _ => false

/-- The queue of a function that is served next: after the one served last, the first whose head does not wait; with its head. -/
def State.nextEntry (s : State) (func : Nat) : Option (Nat × Instr) :=
  ((List.range queueCount).map (fun n => (s.served.getD func 10 + 1 + n) % queueCount)).findSome? (fun q =>
    match s.subs.getD (queueKey func q) [] with
    | i :: _ => if s.entryWaits i then none else some (q, i)
    | [] => none)

/-- A head leaves its queue. -/
def State.pop (s : State) (func queue : Nat) : State :=
  { s with
    subs := s.subs.set (queueKey func queue) (s.subs.getD (queueKey func queue) []).tail, served := s.served.set func queue }

/-! ## The order of one cycle's operations (R172, R178, R188, R336, R345, R356) -/

/-- The place of an IDX command among a ring's operations of a kind: after the streams' (R302). -/
def idxKey (kind c : Nat) : Nat := 4096 * kind + 3072 + c

/-- The objects and the places of an operation that has them; of an instruction, executed by a core's running stream. -/
def State.placeOf (s : State) (c : Nat) (i : Instr) : List (Nat × Nat) :=
  let k := (s.core c).last
  let ring := fun (kind : Nat) (r : BitVec 5) => [(ringObj (s.homeOf c r.toNat) r.toNat, ringKey kind c k)]
  match i with
  | .rpub _ r _ => ring 0 r
  | .rfree _ r _ => ring 1 r
  | .rback _ r _ => ring 2 r
  | .rclaim _ r _ => ring 3 r
  | .rtake _ r _ => ring 4 r
  | .rsteal _ r _ => ring 5 r
  | .tsig _ _ _ => [(tokObj c k, tsigKey)]
  | .tokcntWrite _ => [(tokObj c k, tokWriteKey)]
  | .barv b => [(barObj (clusterOf c) b.toNat, barvKey c k)]
  | .swpt _ _ _ _ => [(requestObj (s.ctxOf c) (dieOf c), levelKey)]
  | .pwrl _ => [(requestObj (s.ctxOf c) (dieOf c), requestKey c k)]
  | .musts _ _ n => [(mustObj (s.ctxOf c) n.toNat, 8 * c + k)]
  | .commandCompletion d n j =>
    match (s.stream d n).flight? j with
    | some f =>
      (if (tokOf f.cmd.i).su || (tokOf f.cmd.i).sd then [(tokObj d n, signalKey f.eng)] else []) ++
        (match barrierOf f.eng f.cmd with
         | some b => [(barObj (clusterOf d) b, arriveKey d f.eng)]
         | none => [])
    | none => []
  | .unitCompletion d n j _ =>
    match (s.stream d n).flight? j with
    | some f =>
      match f.cmd.ring with
      | some g => [(ringObj g.1 g.2.2.2.2, idxKey (if f.piece = 0 then 3 else 0) d)]
      | none => []
    | none => []
  | _ => []

/-- The places of the VEC completions that take place in this cycle at the latest (R58, R178, R188). -/
def State.vecPlaces (s : State) : List (Nat × Nat) :=
  s.cores.flatMap (fun e => ((s.vecDue e.1).filter (fun d => decide (d.1 ≤ s.now))).flatMap (fun d => s.placeOf 0 d.2))

/-- An operation goes ahead if its places in the cycle are still to come, and none is behind that of a completion which this cycle has to
see. -/
def State.inPlace (s : State) (p : List (Nat × Nat)) : Bool :=
  p.all (fun e => s.inOrder e && s.vecPlaces.all (fun q => q.1 != e.1 || decide (e.2 ≤ q.2)))

/-! ## Turns -/

/-- The next turn: the head of the agenda, or the one that the implementation takes. -/
def State.nextTurn (s : State) : Turn × State :=
  match s.agenda with
  | t :: r => (t, { s with agenda := r })
  | [] => (Config.turn s.draws, { s with draws := s.draws + 1 })

/-- Time passes; a new cycle has no operations yet. -/
def State.pass (s : State) (dt : Nat) : State := if dt = 0 then s else { s with now := s.now + dt, cycle := [] }

/-- A turn of a core's sequencer: the running stream takes a pending fault, or its next instruction; with no running stream
the next one is selected (R62, R64, R317).  An operation that would come before one of the same cycle holds the sequencer. -/
def State.sequencerTurn (s : State) (c : Nat) : Todo :=
  let s := { s with sel := c }
  if !s.runs c || !s.mayIssue c then .done s
  else if s.cur.st == .running then
    if !s.cur.intrap && !s.cur.faults.isEmpty then .done (s.takePending c s.slot)
    else
      match s.fetch c s.cur.pc.toNat with
      | .error (t, s') => .done (s'.trap t)
      | .ok (ws, s') =>
        let i := decodeFetched ws
        let p := s.placeOf c i
        if s.inPlace p then .run i (s'.notePlace p) else .done s
  else .done (s.select c)

/-- A turn of some agent. -/
def State.turnOf (s : State) (who : Who) : Todo :=
  match who with
  | .sequencer c => s.sequencerTurn c
  | .event i =>
    let p := s.placeOf 0 i
    if isEvent i && s.inPlace p then .run i (s.notePlace p) else .done s
  | .enable func sizes => .done (s.enable func sizes)
  | .doorbell func queue i => .done (s.announce func queue i)
  | .serve func =>
    match s.nextEntry func with
    | some (q, i) => if s.boot == .up then .run i (s.pop func q) else .done s
    | none => .done s

/-- What the next turn does: what is due before its time comes first, and the turn stays the next one. -/
def State.turn (s : State) : Todo :=
  let (t, s') := s.nextTurn
  match s'.dueBefore (s'.now + t.dt) with
  | some (at_, i) =>
    let d := at_ - s'.now
    let s1 := { s' with agenda := { t with dt := t.dt - d } :: s'.agenda }.pass d
    .run i (s1.notePlace (s1.placeOf 0 i))
  | none => (s'.pass t.dt).turnOf t.who

/-! ## The machine made ready to fetch an instruction (log entry 3) -/

/-- Physical addresses of the two tables that `readyAt` writes. -/
def readyRoot : Nat := 2 ^ 38

/-- The context that `readyAt` makes resident on core 0: the one that is, or context 0. -/
def State.readyCtx (s : State) : Nat := (s.core 0).resident.getD 0

/-- The address at which the stream of core 0 fetches: its own, or 0x1000 where 16 bytes from there do not lie in one 256 GiB
page of the address space. -/
def State.readyPc (s : State) : W64 :=
  let pc := (s.stream 0 (s.core 0).last).pc
  if pc.toNat < 2 ^ 60 && pc.toNat % 2 ^ 38 + 16 ≤ 2 ^ 38 then pc else 0x1000

/-- The state with code bytes where the next step fetches: the module is up, a context is resident on core 0 with its tables
mapping the page of the program counter, the stream of core 0 runs, and its sequencer takes the next turn. -/
def State.readyAt (s : State) (code : List Byte) : State :=
  let i := s.readyCtx
  let pc := s.readyPc
  let l3 := readyRoot + 8 * (pc.toNat / 2 ^ 49 % 2048)
  let l2 := readyRoot + 0x4000 + 8 * (pc.toNat / 2 ^ 38 % 2048)
  let mem := ((s.mem.store l3 (leBytes 8 (readyRoot + 0x4000 + 1))).store l2 (leBytes 8 0x1F)).store (pc.toNat % 2 ^ 38) code
  let x := s.ctx i
  let x := { x with
    st := .resident, faulted := false
    cfg := { x.cfg with root := readyRoot, cores := if x.owns 0 then x.cfg.cores else x.cfg.cores ++ [{ core := 0 }] } }
  let s := { s with
    boot := .up, mem := mem, agenda := [⟨0, .sequencer 0⟩]
    stale := s.stale.filter (fun e => e.1 != i), cycle := [] }
  let s := (s.setCtx i x).modCore 0 (fun y => { y with resident := some i })
  let s := s.modStream 0 (s.core 0).last (fun t => { t with st := .running, pc := pc, faults := [] })
  let s := s.modCluster 0 (fun y => { y with pattern := 0xFFFF, phase := 0, pending := none, stretch := false, halvingAt := none })
  s.modDie 0 (fun y => { y with tlb := y.tlb.filter (fun e => e.2.ctx != i) })

end Sys2Proof.Machine
end

