-- ==== Sys2Proof/Machine/Step.lean ====
section
/-! DEFINITION. One step of the machine. -/

namespace Sys2Proof.Machine

/-- One turn: what it comes to is done, or its instruction is executed. -/
def step (s : State) : Host.Outcome State Fault Refusal :=
  match s.turn with
  | .done s' => .next s'
  | .run i s' => exec i s'

/-- The state with an instruction stored where the next step fetches, so that it runs exactly it (log entry 3). -/
def State.withFetchWord (s : State) (nbits w : Nat) : State := s.readyAt (tableBytes nbits w)

end Sys2Proof.Machine
end

