-- ==== Sys2Proof/Safety.lean ====
section
/-! DEFINITION. The terms that claims use: a step that answers a next state, what a step leaves alone, how an instruction passes control
on, and the canonical form of memory. -/

namespace Sys2Proof

open Machine

/-- A step that answers a next state of which something holds. -/
def Gives (o : Out) (P : State → Prop) : Prop := ∃ t, o = .next t ∧ P t

/-- Global memory is in canonical form: addresses rise strictly, and no listed byte equals what an unlisted one reads as. -/
def MemInv (s : State) : Prop := s.mem.wf = true

/-- No hardware loop ends at the instruction that a stream is about to execute (R84). -/
def NoLoopEnd (u : Stream) : Prop := ∀ e ∈ u.lc, e.2.active = true → e.2.last ≠ u.pc

/-- The parts of a stream that passing an instruction on may change: the program counter, the loop counters (R84), the watchdog's time of
the last progress (R318), and the model's own records of what the stream has acquired and released (log entries 10 and 37). -/
def streamCore (u : Stream) : Stream :=
  { u with pc := 0, lc := [], progress := 0, rels := [], gained := [], acqs := [] }

/-- Control passes sequentially over `n` words from `u` to `t`, a stream that is otherwise `u`. -/
structure Passed (n : Nat) (u t : Stream) : Prop where
  rest : streamCore t = streamCore u
  seq : NoLoopEnd u → t.pc = u.pc + BitVec.ofNat 64 (4 * n) ∧ t.lc = u.lc

/-- Nothing differs but one stream, the counts of estimator events, and the model's own note of what has been done in the present
cycle. -/
structure OnlyStream (c k : Nat) (s t : State) : Prop where
  rest : t = { s with cores := t.cores, clusters := t.clusters, cycle := t.cycle }
  core : ∀ x, { t.core x with streams := [] } = { s.core x with streams := [] }
  others : ∀ x j, (x, j) ≠ (c, k) → t.stream x j = s.stream x j
  clus : ∀ x, { t.cluster x with counts := [] } = { s.cluster x with counts := [] }

/-- The selected stream executes an instruction of `n` words: it passes on from `u`, and nothing else of `s` changes. -/
structure Does (s t : State) (u : Stream) (n : Nat) : Prop where
  only : OnlyStream s.sel s.slot s t
  passed : Passed n u t.cur

/-- The selected stream writes `v` to scalar register `d` and passes on; s0 discards the write and reads zero (R8). -/
structure Writes (s t : State) (d : BitVec 5) (v : W64) (n : Nat) : Prop where
  only : OnlyStream s.sel s.slot s t
  regs : ∀ r, t.cur.getS r = if r = 0 then 0 else if r = d.toNat then v else s.cur.getS r
  passed : Passed n { s.cur with s := [] } { t.cur with s := [] }

/-- The instruction writes `v` to scalar register `d`, and changes nothing else. -/
def GivesReg (s : State) (i : Instr) (d : BitVec 5) (v : W64) (n : Nat) : Prop := Gives (exec i s) (fun t => Writes s t d v n)

/-- The selected stream ends its block in a state `x` at `pc`, being otherwise `u`; then the sequencer of its core selects the
next stream (R63, R64). -/
def Ends (s t : State) (u : Stream) (pc : W64) (x : SState) : Prop :=
  ∃ m, OnlyStream s.sel s.slot s m ∧ m.cur = { u with pc := pc, st := x, progress := m.cur.progress } ∧ t = m.select s.sel

/-- What FAULT_REC holds after a precise trap of the selected stream (R60, R314). -/
def preciseRec (s : State) (cause stat va code : Nat) : FaultRec :=
  { cause := BitVec.ofNat 64 (code * 2 ^ 16 + (if s.cur.exp then 2 ^ 15 else 0) + 8 * 2 ^ 8 + cause)
    ident := BitVec.ofNat 64 (identOf s.sel s.slot), pc := s.cur.pc, jnum := BitVec.ofNat 64 s.cur.jcnt.toNat
    stat := BitVec.ofNat 64 stat, va := BitVec.ofNat 64 va, cursor := 0, resume := s.cur.pc }

/-- The handler of the selected stream's context is entered with a fault record (R317). -/
structure Handler (s t : State) (r : FaultRec) : Prop where
  rest : t = { s with cores := t.cores }
  fr : t.cur.fr = r
  intrap : t.cur.intrap = true
  exp : t.cur.exp = false
  pc : t.cur.pc = s.curCtx.trapVec
  regs : t.cur.s = s.cur.s ∧ t.cur.a = s.cur.a ∧ t.cur.lc = s.cur.lc ∧ t.cur.queues = s.cur.queues ∧ t.cur.tok = s.cur.tok
  core : ∀ x, { t.core x with streams := [], chans := [], pushing := [] } = { s.core x with streams := [], chans := [], pushing := [] }
  chans : ∀ x, x ≠ s.sel ∨ (s.core s.sel).pushing = [] → (t.core x).chans = (s.core x).chans ∧ (t.core x).pushing = (s.core x).pushing
  others : ∀ x j, (x, j) ≠ (s.sel, s.slot) → t.stream x j = s.stream x j

/-- The instruction traps with a cause, and changes nothing but what entering the handler changes.  While VEC results of an exposed region
are in their cycle of issue, the trap waits for the next cycle (R58, R71, log entry 7). -/
def Traps (s : State) (i : Instr) (cause stat va : Nat) : Prop :=
  s.vecFresh s.sel s.slot = false → s.cur.intrap = false → s.curCtx.trapVec ≠ 0 → Gives (exec i s) (fun t => Handler s t (preciseRec s cause stat va 0))

/-- R95, R100, R103: what the acceptance of a nest `x` does to the dies.  Each die that the nest uses takes one record of it behind those that
it holds, at the first unit of that die; every other die keeps its records; and the page of the completion word is pinned once more on the
die that launches. -/
structure Accepted (s t : State) (x : Nest) : Prop where
  nests : ∀ d, (t.die d).nests = (s.die d).nests ++
    (if d ∈ nestDies x.home x.mask then [{ x with next := x.seek d 0, turn := s.stamp + 1 }] else [])
  waiting : ∀ d, (t.die d).waiting = (s.die d).waiting
  pinned : ∀ e, (s.die x.home).tlb.find x.donePin.id = some e →
    (t.die x.home).tlb.find x.donePin.id = some { e with count := e.count + 1 }
  others : ∀ d n, (d, n) ≠ (x.home, x.donePin.id) → (t.die d).tlb.find n = (s.die d).tlb.find n

/-! ## Scalar operands, tokens and rings -/

/-- R75, R77: an FP instruction writes the code of its rounded result to the low bits of sD and clears the rest; under `rsto` (code 5)
the rounding counter advances by 1 and gives the element index of the draw. -/
def fpGives (s : State) (i : Instr) (d : BitVec 5) (rnd : BitVec 3) (code : Nat → Nat) : Prop :=
  let key := BitVec.ofNat 64 (s.ctxOf s.sel)
  let u := if rnd = 5 then (gen key (BitVec.ofNat 32 (identOf s.sel s.slot)) s.cur.rctr).toNat else 0
  let r := if rnd = 5 then s.cur.rctr + 1 else s.cur.rctr
  Gives (exec i s) (fun t => Does s t (({ s.cur with rctr := r } : Stream).setS d.toNat (BitVec.ofNat 64 (code u))) 1)

/-- R80, R81, R142: whether `n` bytes at an address that was formed from an address register are open to a scalar access. -/
def openTo (s : State) (k : BitVec 4) (addr n : Nat) : Prop :=
  let x := s.areg k.toNat
  (x.length = 0 ∨ (x.base.toNat ≤ addr ∧ addr + n ≤ x.base.toNat + x.length.toNat)) ∧ addr % n = 0 ∧ addr + n ≤ 0xC0000 ∧
    (addr + n ≤ s.jnl ∨ s.jnl + 0x4000 ≤ addr)

/-- R139, R142: a scratchpad byte that is closed to programs. -/
def closedAt (jnl a : Nat) : Prop := 0xC0000 ≤ a ∨ (jnl ≤ a ∧ a < jnl + 0x4000)

/-- R139: the lowest closed byte of a range, upper end excluded. -/
def lowestClosed (jnl lo hi a : Nat) : Prop :=
  lo ≤ a ∧ a < hi ∧ closedAt jnl a ∧ ∀ x, lo ≤ x → x < a → ¬closedAt jnl x

/-- R143: an overwriting of a byte of the selected core's scratchpad that nothing orders before a load, or before a store, of the selected
stream's sequencer: the stream has neither done nor acquired it (log entry 10). -/
def racing (s : State) (store : Bool) (a : Nat) (d : Deed) : Prop :=
  d.meets (s.ctxOf s.sel) s.sel a 1 = true ∧ Knower.str s.sel s.slot store ∉ d.known

/-- R143: a byte of a core's scratchpad as a load of its sequencer may find it: what it holds, or what it held before a racing
overwriting. -/
def maySee (s : State) (a : Nat) (b : Byte) : Prop :=
  b = (s.core s.sel).spad.read a ∨ ∃ d ∈ s.deeds, d.oldAt a = b ∧ racing s false a d

/-- R81: the address that `lds` and `sts` form. -/
def scalarAddr (s : State) (p : BitVec 1) (k : BitVec 4) (off : BitVec 11) : Nat :=
  if p = 1 then (s.areg k.toNat).value.toNat else ((s.areg k.toNat).value + BitVec.ofInt 64 off.toInt).toNat

/-- R51, R176: the byte of TOKCNT that engine `e` signals in a direction, in the order lde-up ... of the chain. -/
def tokenByte (e dir : Nat) : Nat := if e = 4 then 0 else if e = 3 then 7 else 2 * e + 1 + dir

/-- R169: the slot word of sequence number q. -/
def slotWordOf (g : Ring) (q : BitVec 32) : W64 :=
  BitVec.ofNat 64 (q.toNat * 2 ^ 32 + q.toNat % g.slots * 2 ^ 20 + (g.base + q.toNat % g.slots * g.size))

/-- R168, R169: the count word, from the four positions; all 0 on an unconfigured ring (R171). -/
def countWordOf (g : Ring) : W64 :=
  let claimed := (g.fp - g.pp).toNat
  let filled := (g.pp - g.tp).toNat
  let taken := (g.tp - g.rp).toNat
  let free := g.slots - (g.fp - g.rp).toNat
  if g.slots = 0 then 0
  else BitVec.ofNat 64 (free * 2 ^ 48 + claimed * 2 ^ 36 + filled * 2 ^ 24 + taken * 2 ^ 12 + g.slots)

/-- R168: every ring instruction keeps the order of the four positions, rp ≤ tp ≤ pp ≤ fp ≤ rp + S read as distances. -/
def ringOrdered (g : Ring) : Prop :=
  (g.tp - g.rp).toNat + (g.pp - g.tp).toNat + (g.fp - g.pp).toNat = (g.fp - g.rp).toNat ∧ (g.fp - g.rp).toNat ≤ g.slots ∧
    g.slots ≤ 4095

/-- R46 to R57: an instruction that a program word encodes; the other rows are steps of the device or entries of a host queue. -/
def ofProgram (i : Instr) : Bool := !isEvent i && (List.range queueCount).all (fun q => (entryFits i q).isNone)

/-- R67: with room in the queue and the journal, an instruction whose checks give the entry `p` and whose pages all translate appends it
and passes on. -/
def dispatches (s : State) (i : Instr) (words eng : Nat) (prep : Except Trap Prep) : Prop :=
  ∀ p pins, (s.cur.queue eng).length < 16 → s.cur.journal.length < 32 → prep = .ok p → (p.pop = true → s.cur.fmtq ≠ []) →
    xlatAll (s.die (s.sel / 48)).tlb (s.ctxOf s.sel) [] (sortAccs p.accs) = .ok pins →
    cacheHolds (s.die (s.sel / 48)).tlb pins = true →
    Gives (exec i s) (fun t => Does (s.append eng p pins) t (s.append eng p pins).cur words)

end Sys2Proof
end

