-- ==== Sys2Proof/Certificates/Slice0/Obligations.lean ====
section
/-! DEFINITION. The statements for the provers. -/

open Sys2Proof Sys2Proof.Machine

/-! ## Integer instructions -/

/-- R73, R74: the results of the integer instructions on two registers, written from their arithmetic.  Nothing else changes but the
program counter, the loop counters at a back edge, the watchdog's time and the estimator's counts. -/
def Obligations.IntegerInstructionsOnTwoRegisters : Prop :=
  ∀ (s : State) (d a b : BitVec 5),
    let x := s.sreg a
    let y := s.sreg b
    let n := y.toNat % 64
    GivesReg s (.add d a b) d (BitVec.ofNat 64 (x.toNat + y.toNat)) 1 ∧
    GivesReg s (.sub d a b) d (BitVec.ofInt 64 (x.toInt - y.toInt)) 1 ∧
    GivesReg s (.mul d a b) d (BitVec.ofNat 64 (x.toNat * y.toNat)) 1 ∧
    GivesReg s (.mulh d a b) d (BitVec.ofInt 64 (x.toInt * y.toInt / 2 ^ 64)) 1 ∧
    GivesReg s (.div d a b) d (if y = 0 then -1 else BitVec.ofInt 64 (x.toInt.tdiv y.toInt)) 1 ∧
    GivesReg s (.rem d a b) d (if y = 0 then x else BitVec.ofInt 64 (x.toInt.tmod y.toInt)) 1 ∧
    GivesReg s (.and d a b) d (x &&& y) 1 ∧
    GivesReg s (.or d a b) d (x ||| y) 1 ∧
    GivesReg s (.xor d a b) d (x ^^^ y) 1 ∧
    GivesReg s (.shl d a b) d (BitVec.ofNat 64 (x.toNat * 2 ^ n)) 1 ∧
    GivesReg s (.shr d a b) d (BitVec.ofNat 64 (x.toNat / 2 ^ n)) 1 ∧
    GivesReg s (.sra d a b) d (BitVec.ofInt 64 (x.toInt / 2 ^ n)) 1 ∧
    GivesReg s (.slt d a b) d (if x.toInt < y.toInt then 1 else 0) 1 ∧
    GivesReg s (.sltu d a b) d (if x.toNat < y.toNat then 1 else 0) 1 ∧
    GivesReg s (.min d a b) d (if x.toInt ≤ y.toInt then x else y) 1 ∧
    GivesReg s (.max d a b) d (if x.toInt ≤ y.toInt then y else x) 1 ∧
    GivesReg s (.minu d a b) d (if x.toNat ≤ y.toNat then x else y) 1 ∧
    GivesReg s (.maxu d a b) d (if x.toNat ≤ y.toNat then y else x) 1

/-- R73: `clz`, `ctz` and `popc` by the bits of a, `mov`, and `sel`, which looks at the old sD.

R73, R46: the forms with an immediate, sign-extended from 14 bits, or with an extension word. -/
def Obligations.IntegerInstructionsOnOneRegister : Prop :=
  (∀ (s : State) (d a b : BitVec 5),
     let x := s.sreg a
     (∃ n, GivesReg s (.clz d a) d (BitVec.ofNat 64 n) 1 ∧ n ≤ 64 ∧ (∀ i < n, x.getLsbD (63 - i) = false) ∧
       (n < 64 → x.getLsbD (63 - n) = true)) ∧
     (∃ n, GivesReg s (.ctz d a) d (BitVec.ofNat 64 n) 1 ∧ n ≤ 64 ∧ (∀ i < n, x.getLsbD i = false) ∧
       (n < 64 → x.getLsbD n = true)) ∧
     GivesReg s (.popc d a) d (BitVec.ofNat 64 ((List.range 64).countP (fun i => x.getLsbD i))) 1 ∧
     GivesReg s (.mov d a) d x 1 ∧
     GivesReg s (.sel d a b) d (if s.sreg d ≠ 0 then x else s.sreg b) 1) ∧
  (∀ (s : State) (d a : BitVec 5) (i : BitVec 14) (c : BitVec 6) (w : W32),
     let x := s.sreg a
     let imm := BitVec.ofInt 64 i.toInt
     GivesReg s (.addi d a i) d (x + imm) 1 ∧
     GivesReg s (.andi d a i) d (x &&& imm) 1 ∧
     GivesReg s (.ori d a i) d (x ||| imm) 1 ∧
     GivesReg s (.xori d a i) d (x ^^^ imm) 1 ∧
     GivesReg s (.slti d a i) d (if x.toInt < i.toInt then 1 else 0) 1 ∧
     GivesReg s (.shli d a c) d (BitVec.ofNat 64 (x.toNat * 2 ^ c.toNat)) 1 ∧
     GivesReg s (.shri d a c) d (BitVec.ofNat 64 (x.toNat / 2 ^ c.toNat)) 1 ∧
     GivesReg s (.srai d a c) d (BitVec.ofInt 64 (x.toInt / 2 ^ c.toNat)) 1 ∧
     GivesReg s (.li d w) d (BitVec.ofInt 64 w.toInt) 2 ∧
     GivesReg s (.lih d w) d (BitVec.ofNat 64 (w.toNat * 2 ^ 32 + (s.sreg d).toNat % 2 ^ 32)) 2)

/-- R74, whole: `div` and `rem` never trap, and their results at a divisor of 0 and at the one quotient that overflows. -/
def Obligations.DivisionCorners : Prop :=
  ∀ (s : State) (d a b : BitVec 5),
    (∃ q r, GivesReg s (.div d a b) d q 1 ∧ GivesReg s (.rem d a b) d r 1) ∧
    (s.sreg b = 0 → GivesReg s (.div d a b) d 0xFFFFFFFFFFFFFFFF 1 ∧ GivesReg s (.rem d a b) d (s.sreg a) 1) ∧
    (s.sreg a = BitVec.ofInt 64 (-2 ^ 63) → s.sreg b = -1 →
      GivesReg s (.div d a b) d (BitVec.ofInt 64 (-2 ^ 63)) 1 ∧ GivesReg s (.rem d a b) d 0 1)

/-! ## Scalar floating point -/

/-- R75 to R77: the rounded scalar FP instructions.  Operands are the low bits of their registers; each result is rounded once.

R76, R77: `fcvt` between the formats 0 to 5, 8 to 11 and 13.  Between integers the low bits of the target are kept; a signed target
is sign-extended in sD and every other one zero-extended. -/
def Obligations.ScalarFloatingPointResults : Prop :=
  (∀ (s : State) (d a b t : BitVec 5) (rnd : BitVec 3), t.toNat ≤ 2 → rnd.toNat ≤ 5 →
     let f : Fmt := if t = 0 then .fp32 else if t = 1 then .bf16 else .fp16
     let w := if t = 0 then 32 else 16
     let arg := fun (r : BitVec 5) => f.decode ((s.sreg r).toNat % 2 ^ w)
     let m := (Rnd.ofCode rnd.toNat).getD .rne
     fpGives s (.fadd d a b t rnd) d rnd (fun u => roundTo f ((arg a).add (arg b) m) m u false) ∧
     fpGives s (.fsub d a b t rnd) d rnd (fun u => roundTo f ((arg a).add (arg b).neg m) m u false) ∧
     fpGives s (.fmul d a b t rnd) d rnd (fun u => roundTo f ((arg a).mul (arg b)) m u false) ∧
     fpGives s (.ffma d a b t rnd) d rnd (fun u => roundTo f (((arg a).mul (arg b)).add (arg d) m) m u false)) ∧
  (∀ (s : State) (d a src t : BitVec 5) (rnd : BitVec 3) (f g : Fmt), fcvtFmt src.toNat = true → fcvtFmt t.toNat = true →
     rnd.toNat ≤ 5 → Fmt.ofCode src.toNat = some f → Fmt.ofCode t.toNat = some g →
     let m := (Rnd.ofCode rnd.toNat).getD .rne
     let x := (s.sreg a).toNat % 2 ^ f.width
     let key := BitVec.ofNat 64 (s.ctxOf s.sel)
     let u := if rnd = 5 then (gen key (BitVec.ofNat 32 (identOf s.sel s.slot)) s.cur.rctr).toNat else 0
     let r := if rnd = 5 then s.cur.rctr + 1 else s.cur.rctr
     let c := if f.isInt ∧ g.isInt then ((if f.isSigned then signedOf f.width x else (x : Int)) % 2 ^ g.width).toNat
       else roundTo g (f.decode x) m u false
     let v : W64 := if g.isSigned then BitVec.ofInt 64 (signedOf g.width c) else BitVec.ofNat 64 (c % 2 ^ g.width)
     Gives (exec (.fcvt d a src t rnd) s) (fun t => Does s t (({ s.cur with rctr := r } : Stream).setS d.toNat v) 1))

/-- R75: `fmin`, `fmax` and `fcmp`.  They do not round; of two equal operands of opposite signs `fmin` gives the negative one; one NaN
gives the other operand, two give the canonical NaN; the three ordered
conditions are false on a NaN and `uno` is true exactly then. -/
def Obligations.ScalarFloatingPointComparisons : Prop :=
  ∀ (s : State) (d a b t : BitVec 5), t.toNat ≤ 2 →
    let f : Fmt := if t = 0 then .fp32 else if t = 1 then .bf16 else .fp16
    let w := if t = 0 then 32 else 16
    let x := f.decode ((s.sreg a).toNat % 2 ^ w)
    let y := f.decode ((s.sreg b).toNat % 2 ^ w)
    let code := fun (v : Val) => BitVec.ofNat 64 (roundTo f v .rne 0 false)
    let bit := fun (p : Bool) => (if p then 1 else 0 : W64)
    (x = .nan → y ≠ .nan → GivesReg s (.fmin d a b t) d (code y) 1 ∧ GivesReg s (.fmax d a b t) d (code y) 1) ∧
    (y = .nan → x ≠ .nan → GivesReg s (.fmin d a b t) d (code x) 1 ∧ GivesReg s (.fmax d a b t) d (code x) 1) ∧
    (x = .nan → y = .nan → GivesReg s (.fmin d a b t) d (code .nan) 1 ∧ GivesReg s (.fmax d a b t) d (code .nan) 1) ∧
    (x.cmp y = some .lt → GivesReg s (.fmin d a b t) d (code x) 1 ∧ GivesReg s (.fmax d a b t) d (code y) 1) ∧
    (x.cmp y = some .gt → GivesReg s (.fmin d a b t) d (code y) 1 ∧ GivesReg s (.fmax d a b t) d (code x) 1) ∧
    (x.cmp y = some .eq → x.isNeg = true → y.isNeg = false →
      GivesReg s (.fmin d a b t) d (code x) 1 ∧ GivesReg s (.fmax d a b t) d (code y) 1) ∧
    (x.cmp y = some .eq → x.isNeg = false → y.isNeg = true →
      GivesReg s (.fmin d a b t) d (code y) 1 ∧ GivesReg s (.fmax d a b t) d (code x) 1) ∧
    (x.cmp y = some .eq → x.isNeg = y.isNeg →
      GivesReg s (.fmin d a b t) d (code x) 1 ∧ GivesReg s (.fmax d a b t) d (code x) 1) ∧
    GivesReg s (.fcmp d a b t 0) d (bit (x.cmp y == some .eq)) 1 ∧
    GivesReg s (.fcmp d a b t 1) d (bit (x.cmp y == some .lt)) 1 ∧
    GivesReg s (.fcmp d a b t 2) d (bit (x.cmp y == some .lt || x.cmp y == some .eq)) 1 ∧
    GivesReg s (.fcmp d a b t 3) d (bit (x == .nan || y == .nan)) 1 ∧
    ((x = .nan ∨ y = .nan) → x.cmp y = none)

/-! ## Address registers and scalar scratchpad access -/

/-- R78: `aset`, `acfg`, `aget` and `aadd`, and the cases in which `acfg` raises cause 0x01. -/
def Obligations.AddressRegisterInstructions : Prop :=
  ∀ (s : State) (d k a b : BitVec 5) (imm : BitVec 14) (m : BitVec 2), k.toNat ≤ 15 →
    let x := s.areg k.toNat
    let len := (s.sreg a).toNat
    let step := (s.sreg b).toInt
    let ok := len < 2 ^ 32 ∧ -2 ^ 31 ≤ step ∧ step < 2 ^ 31 ∧ (m = 1 ∨ m = 3 → len ≠ 0) ∧
      (m = 2 → ∃ n, 1 ≤ n ∧ n ≤ 31 ∧ len = 2 ^ n)
    Gives (exec (.aset k a) s)
      (fun t => Does s t (s.cur.setA k.toNat { x with value := s.sreg a, base := s.sreg a, wrap := 0 }) 1) ∧
    (ok → Gives (exec (.acfg k a b m) s)
      (fun t => Does s t (s.cur.setA k.toNat
        { value := x.base, base := x.base, length := BitVec.ofNat 32 len, step := BitVec.ofInt 32 step, mode := m, wrap := 0 }) 1)) ∧
    (¬ok → Traps s (.acfg k a b m) 0x01 0 0) ∧
    GivesReg s (.aget d k) d x.value 1 ∧
    Gives (exec (.aadd k imm) s)
      (fun t => Does s t (s.cur.setA k.toNat { x with value := x.value + BitVec.ofInt 64 imm.toInt }) 1)

/-- R79: the post-update in each mode, as `apost` applies it.  The division and the mod are floored; `rev n x` has bit i equal to bit
n - 1 - i of x.  That value - base is a difference of unbounded integers is the model's reading, log entry 27. -/
def Obligations.PostUpdateByMode : Prop :=
  ∀ (s : State) (k : BitVec 5) (rev : Nat → Nat → Nat), k.toNat ≤ 15 →
    (∀ n x, rev n x < 2 ^ n ∧ ∀ i < n, (rev n x).testBit i = x.testBit (n - 1 - i)) →
    let x := s.areg k.toNat
    let len : Int := x.length.toNat
    let v : Int := (x.value.toNat : Int) - x.base.toNat
    let step := x.step.toInt
    let after := fun (y : AddrReg) => Gives (exec (.apost k) s) (fun t => Does s t (s.cur.setA k.toNat y) 1)
    (x.mode = 0 → after { x with value := x.value + BitVec.ofInt 64 step }) ∧
    (x.mode = 1 → len ≠ 0 → after { x with value := x.base + BitVec.ofInt 64 ((v + step).fmod len) }) ∧
    (∀ n, x.mode = 2 → 1 ≤ n → n ≤ 31 → len = 2 ^ n →
      let o := rev n (v.fmod len).toNat
      let st := rev n (step.fmod len).toNat
      after { x with value := x.base + BitVec.ofNat 64 (rev n ((o + st) % 2 ^ n)) }) ∧
    (x.mode = 3 → len ≠ 0 →
      after { x with wrap := x.wrap + BitVec.ofInt 32 ((v + step).fdiv len)
                     value := x.base + BitVec.ofInt 64 ((v + step).fmod len) })

/-- R81, R143: `lds` loads little-endian bytes, zero-extended for sizes u8 to u64 and sign-extended for s8 to s32; P = 1 applies the
post-update.  A byte that a command in flight, or another stream whose store this one has not acquired, has overwritten reads as either
(log entry 10).  R379: both count the errors that are corrected in what they access (log entry 19).

R81, R143: `sts` stores the low bytes of sD, little-endian, at the address formed from the address register; every other byte of every
scratchpad and all of the rest of the state stays as it is, but for the address register that P = 1 post-updates.  A byte that such
a command or store has overwritten may end as that one's.

R80, R81, R139, R142: cause 0x0F of `lds` and `sts`: bytes outside the window of the slot, an address that is not a multiple of the
size, or bytes at or above 0xC0000 or in the journal.  That FR_VA is the formed address for a misaligned access too is the model's
reading, log entry 29.  R308 keeps the journal below 0xC0000 and aligned. -/
def Obligations.ScalarLoadAndStore : Prop :=
  (∀ (s : State) (d : BitVec 5) (p : BitVec 1) (k : BitVec 4) (sz : BitVec 3) (off : BitVec 11),
     sz.toNat ≤ 6 → (p = 0 ∨ off = 0) →
     let n := if sz.toNat < 4 then 2 ^ sz.toNat else 2 ^ (sz.toNat - 4)
     let addr := scalarAddr s p k off
     let y := if p = 1 then (s.areg k.toNat).postUpdate else s.areg k.toNat
     openTo s k addr n →
     Gives (exec (.lds d p k sz off) s) (fun t => ∃ seen : Nat → Byte, (∀ i < n, maySee s (addr + i) (seen i)) ∧
       let x := ((List.range n).map (fun i => (seen i).toNat * 2 ^ (8 * i))).sum
       let v : Int := if sz.toNat < 4 ∨ x < 2 ^ (8 * n - 1) then x else (x : Int) - 2 ^ (8 * n)
       Does ({ s.draw with deeds := t.deeds }.countCorrected (dieOf s.sel) 0) t ((s.cur.setA k.toNat y).setS d.toNat (BitVec.ofInt 64 v)) 1)) ∧
  (∀ (s : State) (d : BitVec 5) (p : BitVec 1) (k : BitVec 4) (sz : BitVec 3) (off : BitVec 11),
     sz.toNat ≤ 3 → (p = 0 ∨ off = 0) →
     let n := 2 ^ sz.toNat
     let addr := scalarAddr s p k off
     let y := if p = 1 then (s.areg k.toNat).postUpdate else s.areg k.toNat
     openTo s k addr n →
     Gives (exec (.sts d p k sz off) s) (fun t =>
       (∀ c a, ¬(c = s.sel ∧ addr ≤ a ∧ a < addr + n) → (t.core c).spad.read a = (s.core c).spad.read a) ∧
       (∀ a, addr ≤ a → a < addr + n → let b := (t.core s.sel).spad.read a
         b.toNat = (s.sreg d).toNat / 2 ^ (8 * (a - addr)) % 256 ∨
           (b = (s.core s.sel).spad.read a ∧ ∃ d ∈ s.deeds, racing s true a d)) ∧
       Passed 1 (s.cur.setA k.toNat y) t.cur ∧
       (∀ c j, (c, j) ≠ (s.sel, s.slot) → t.stream c j = s.stream c j) ∧
       (∀ c, { t.core c with streams := [], spad := [] } = { s.core c with streams := [], spad := [] }) ∧
       (∀ c, { t.cluster c with counts := [] } = { s.cluster c with counts := [] }) ∧
       (∀ d, { t.die d with corrected := 0 } = { s.die d with corrected := 0 }) ∧
       t = { s with cores := t.cores, clusters := t.clusters, dies := t.dies, deeds := t.deeds, accesses := t.accesses
                    draws := t.draws })) ∧
  (∀ (s : State) (d : BitVec 5) (p : BitVec 1) (k : BitVec 4) (sz : BitVec 3) (off : BitVec 11),
     (p = 0 ∨ off = 0) → s.jnl % 0x4000 = 0 → s.jnl < 0xC0000 →
     let n := if sz.toNat < 4 then 2 ^ sz.toNat else 2 ^ (sz.toNat - 4)
     let addr := scalarAddr s p k off
     ¬openTo s k addr n →
     (sz.toNat ≤ 6 → Traps s (.lds d p k sz off) 0x0F 0 addr) ∧ (sz.toNat ≤ 3 → Traps s (.sts d p k sz off) 0x0F 0 addr))

/-! ## Tiles -/

/-- R139, R144 to R149: `tdef` sets the descriptor of an empty tile, `tfill` makes it fill, `tfree` empties one that no command names, and
`tstat` reads state, finishing bit, format, outstanding count and cursor.  What a tile that `tstat` finds ready passes on, the stream has
observed, and a `tfree` tile passes on nothing more (R148, R175): the model's own record of what comes after what, log entry 10.  Cause 0x0F, with the lowest closed byte, for a tile that does
not lie in the open bytes, of which R308 puts the journal below 0xC0000; cause 0x10 otherwise. -/
def Obligations.TileTableInstructions : Prop :=
  ∀ (s : State) (d a b : BitVec 5) (n : BitVec 6),
    let x := s.tile s.sel n.toNat
    let d0 := (s.sreg a).toNat
    let d1 := (s.sreg b).toNat
    let rows := d1 % 2 ^ 16
    let cols := d1 / 2 ^ 16 % 2 ^ 16
    let fmt := d1 / 2 ^ 32 % 2 ^ 5
    let base := d0 % 2 ^ 20
    let pitch := d0 / 2 ^ 24 % 2 ^ 20
    let good := d0 / 2 ^ 20 % 2 ^ 4 = 0 ∧ d0 / 2 ^ 44 = 0 ∧ d1 / 2 ^ 37 = 0 ∧ base % 16 = 0 ∧ pitch % 16 = 0 ∧ rows ≠ 0 ∧ cols ≠ 0 ∧
      ∃ f, fmt ≤ 12 ∧ Fmt.ofCode fmt = some f ∧ (cols * f.width + 7) / 8 ≤ pitch
    let last := base + rows * pitch + (if fmt = 6 then rows * ((cols + 31) / 32) else 0)
    let idle := x.st = .empty ∧ x.out = 0
    (idle → good → last ≤ 0xC0000 → (last ≤ s.jnl ∨ s.jnl + 0x4000 ≤ base) →
      Gives (exec (.tdef a b n) s) (fun t =>
        let m := s.modTile s.sel n.toNat (fun x => { x with d0 := s.sreg a, d1 := s.sreg b, cursor := 0 })
        Does m t m.cur 1)) ∧
    (idle → good → s.jnl ≤ 0xC0000 → 0xC0000 < last ∨ (s.jnl < last ∧ base < s.jnl + 0x4000) →
      ∃ va, lowestClosed s.jnl base last va ∧ Traps s (.tdef a b n) 0x0F 0 va) ∧
    (idle → ¬good → Traps s (.tdef a b n) 0x10 0 0) ∧
    (¬idle → Traps s (.tdef a b n) 0x10 0 0) ∧
    (x.st = .empty → x.d1.toNat % 2 ^ 16 ≠ 0 →
      Gives (exec (.tfill n) s) (fun t =>
        let m := s.modTile s.sel n.toNat (fun x => { x with st := .filling, cursor := 0 })
        Does m t m.cur 1)) ∧
    (x.st ≠ .empty ∨ x.d1.toNat % 2 ^ 16 = 0 → Traps s (.tfill n) 0x10 0 0) ∧
    (x.out = 0 →
      Gives (exec (.tfree n) s) (fun t =>
        let m := s.modTile s.sel n.toNat (fun x => { x with st := .empty, fin := false, finDone := false, writes := 0 })
        Does { m with deeds := t.deeds } t m.cur 1 ∧
        ∀ e ∈ t.deeds, Knower.tile s.sel n.toNat ∉ e.known ∧ Knower.fill s.sel n.toNat ∉ e.known)) ∧
    (x.out ≠ 0 → Traps s (.tfree n) 0x10 0 0) ∧
    Gives (exec (.tstat d n) s) (fun t =>
      (x.st ≠ .ready → t.deeds = s.deeds) ∧
      (x.st = .ready → ∀ e ∈ t.deeds, e.ctx = s.ctxOf s.sel → Knower.tile s.sel n.toNat ∈ e.known → Knower.obs s.sel s.slot ∈ e.known) ∧
      Writes { s with deeds := t.deeds } t d (BitVec.ofNat 64 (x.cursor % 2 ^ 20 * 2 ^ 20 + x.out % 2 ^ 10 * 2 ^ 10 + x.d1.toNat / 2 ^ 32 % 2 ^ 5 * 2 ^ 3 +
        (if x.fin then 4 else 0) + (match x.st with | .empty => 0 | .filling => 1 | .ready => 2 | .draining => 3))) 1)

/-! ## Branches, loops and waits -/

/-- R47, R48, R82: a taken transfer ends the block with the stream ready at the target and makes no back-edge test; a `br` that is not
taken passes on; calls leave the address of the next instruction in s1; a register target with a bit of 1:0 or 63:60 raises cause 0x01.

R345: `swpt` is a taken transfer to the offset that the granted level selects; on a stream with an active loop it raises cause 0x01. -/
def Obligations.Branches : Prop :=
  (∀ (s : State) (c : BitVec 4) (a : BitVec 5) (off : BitVec 15) (ext : W32), c.toNat ≤ 5 →
     let pc := s.cur.pc
     let near := pc + 4 * BitVec.ofInt 64 off.toInt
     let far := pc + 4 * BitVec.ofInt 64 ext.toInt
     let x := (s.sreg a).toInt
     let holds : Prop := match c.toNat with | 0 => x = 0 | 1 => x ≠ 0 | 2 => x < 0 | 3 => 0 ≤ x | 4 => 0 < x | _ => x ≤ 0
     let legal := fun (y : W64) => y.toNat % 4 = 0 ∧ y.toNat < 2 ^ 60
     let goes := fun (i : Instr) (u : Stream) (tgt : W64) => Gives (exec i s) (fun t => Ends s t u tgt .ready)
     (holds → goes (.br c a off) s.cur near) ∧
     (¬holds → Gives (exec (.br c a off) s) (fun t => Does s t s.cur 1)) ∧
     goes (.brAlways off) s.cur near ∧ goes (.jmp off) s.cur near ∧ goes (.jmpFar ext) s.cur far ∧
     goes (.call off) (s.cur.setS 1 (pc + 4)) near ∧ goes (.callFar ext) (s.cur.setS 1 (pc + 8)) far ∧
     (legal (s.sreg a) → goes (.jmpr a) s.cur (s.sreg a)) ∧ (¬legal (s.sreg a) → Traps s (.jmpr a) 0x01 0 0) ∧
     (legal (s.sreg 1) → goes .ret s.cur (s.sreg 1)) ∧ (¬legal (s.sreg 1) → Traps s .ret 0x01 0 0)) ∧
  (∀ (s : State) (n : BitVec 8) (t0 t1 t2 : W32),
     let g := s.levelOf (s.ctxOf s.sel) (dieOf s.sel)
     let off := if g = 0 then t0 else if g = 1 then t1 else t2
     ((∀ e ∈ s.cur.lc, e.2.active = false) → Gives (exec (.swpt n t0 t1 t2) s)
       (fun t => Ends s t s.cur (s.cur.pc + 4 * BitVec.ofInt 64 off.toInt) .ready)) ∧
     ((∃ e ∈ s.cur.lc, e.2.active = true) → Traps s (.swpt n t0 t1 t2) 0x01 0 0))

/-- R83 to R86: a loop of `count` trips starts with its counter the newest; with no trip it is skipped by a taken transfer to the address
after its body, for which the word at the end is fetched, or takes the trap of that fetch (log entry 46); the fetch may stop commands of
the stream that a poisoned line meets (R380); `loopp` takes its count and s28
from two row pointers, as a load finds them (log entries 10 and 19); `lbrk` leaves an active loop. -/
def Obligations.HardwareLoops : Prop :=
  ∀ (s s' : State) (lc : BitVec 2) (src n : BitVec 5) (k : BitVec 4) (endw : BitVec 16) (after : W64) (e : Trap), endw ≠ 0 →
    let last := s.cur.pc + BitVec.ofNat 64 (4 * endw.toNat)
    let starts := fun (i : Instr) (r : State) (count : Nat) (own : Stream → Stream) =>
      (count = 0 → (r.afterInstr last = .ok (after, s') → Gives (exec i s) (fun t => Ends s' t (own s'.cur) after .ready)) ∧
        (r.afterInstr last = .error (e, s') → Gives (exec i s) (fun t => t = s'.trap e))) ∧
      (count ≠ 0 → Gives (exec i s) (fun t => ∃ c : LoopCtr,
        c.count = BitVec.ofNat 32 count ∧ c.start = s.cur.pc + 4 ∧ c.last = last ∧ c.active = true ∧
        (∀ e ∈ s.cur.lc, e.2.active = true → e.2.order < c.order) ∧ Does r t ((own r.cur).setL lc.toNat c) 1))
    let a := s.areg k.toNat
    let s1 := s.spadLooked s.sel s.slot a.value.toNat 4
    let s2 := s1.spadLooked s.sel s.slot (a.value + 4).toNat 4
    let lo := leNat (s.spadSeen s.sel s.slot a.value.toNat 4)
    let hi := leNat (s1.spadSeen s.sel s.slot (a.value + 4).toNat 4)
    ((s.sreg src).toNat < 2 ^ 32 → starts (.loop lc src endw) s (s.sreg src).toNat id) ∧
    starts (.loopn lc n endw) s n.toNat id ∧
    (openTo s k a.value.toNat 4 → openTo s k (a.value + 4).toNat 4 →
      starts (.loopp lc k endw) ((s2.countCore s.sel 6 2).countCorrected (dieOf s.sel) 0) (hi - lo)
        (fun u => (u.setS 28 (BitVec.ofNat 64 lo)).setA k.toNat a.postUpdate)) ∧
    (2 ^ 32 ≤ (s.sreg src).toNat → Traps s (.loop lc src endw) 0x01 0 0) ∧
    ((s.cur.getL lc.toNat).active = true → s.afterInstr (s.cur.getL lc.toNat).last = .ok (after, s') →
      Gives (exec (.lbrk lc) s)
        (fun t => Ends s' t (s'.cur.setL lc.toNat { s.cur.getL lc.toNat with active := false }) after .ready)) ∧
    ((s.cur.getL lc.toNat).active = false → Traps s (.lbrk lc) 0x01 0 0)

/-- R84: the back edge, as a `nop` passes it.  Where one active counter ends its body at the program counter, a count above 1 falls by 1
and control goes to the start of the body; a count of 1 makes the counter inactive and control passes on. -/
def Obligations.BackEdge : Prop :=
  ∀ (s : State) (k : Nat) (c : LoopCtr),
    s.cur.lc.Pairwise (fun a b => a.1 < b.1) → (k, c) ∈ s.cur.lc → c.active = true → c.last = s.cur.pc →
    (∀ e ∈ s.cur.lc, e.2.active = true → e.2.last = s.cur.pc → e = (k, c)) →
    Gives (exec .nop s) (fun t =>
      streamCore t.cur = streamCore s.cur ∧
      (∀ j, j ≠ k → t.cur.getL j = s.cur.getL j) ∧
      (1 < c.count.toNat → t.cur.pc = c.start ∧ t.cur.getL k = { c with count := c.count - 1 }) ∧
      (c.count.toNat ≤ 1 → t.cur.pc = s.cur.pc + 4 ∧ t.cur.getL k = { c with active := false }))

/-- R63, R87, R88: a wait instruction ends the block whether or not its condition holds, the stream waiting at its own address with
nothing consumed.  A lapsed stream's `wlse` requests the lease (R230); the faults are those of R88, R171 and R186.  That cause 0x05 of
`wfil` and `wfre` goes before 0x0D is the model's reading, log entry 29. -/
def Obligations.WaitInstructions : Prop :=
  ∀ (s : State) (eng : BitVec 4) (dir p : BitVec 1) (cnt n : BitVec 12) (r b : BitVec 8),
    let waits := fun (i : Instr) (u : Stream) (w : Wait) => Gives (exec i s) (fun t => Ends s t u s.cur.pc (.waiting w))
    (tokDir eng.toNat dir.toNat = true → 1 ≤ cnt.toNat → cnt.toNat ≤ 255 →
      waits (.wtok eng dir cnt) s.cur (.tok (tokenByte eng.toNat dir.toNat) cnt.toNat)) ∧
    (r.toNat ≤ 15 → n ≠ 0 →
      let home := s.homeOf s.sel r.toNat
      let slots := ((s.core home).ring r.toNat).slots
      (s.curCtx.owns home = true → n.toNat ≤ slots →
        waits (.wfil r n) s.cur (.fil r.toNat n.toNat) ∧ waits (.wfre r n) s.cur (.fre r.toNat n.toNat)) ∧
      (s.curCtx.owns home = true → slots < n.toNat → Traps s (.wfil r n) 0x0D 0 0 ∧ Traps s (.wfre r n) 0x0D 0 0) ∧
      (s.curCtx.owns home = false → Traps s (.wfil r n) 0x05 0 0 ∧ Traps s (.wfre r n) 0x05 0 0)) ∧
    (b.toNat ≤ 15 →
      (s.curCtx.hasBar (clusterOf s.sel) b.toNat = true → waits (.wbar b p) s.cur (.bar b.toNat p.toNat)) ∧
      (s.curCtx.hasBar (clusterOf s.sel) b.toNat = false → Traps s (.wbar b p) 0x05 0 0)) ∧
    (s.cur.lease = .held ∨ s.cur.lease = .requested → waits .wlse s.cur .lse) ∧
    (s.cur.lease = .lapsed → waits .wlse { s.cur with lease := .requested, reqAt := s.now, renew := false } .lse) ∧
    (s.cur.lease = .none → (∃ m ∈ s.cur.queue 1, m.isLease = true) → waits .wlse s.cur .lse) ∧
    (s.cur.lease = .none → (∀ m ∈ s.cur.queue 1, m.isLease = false) → Traps s .wlse 0x0E 0 0)

/-- R62, R67, R68, R87, R89: a stream whose wait condition comes to hold becomes ready.  `wtok` consumes its tokens and a wait passes on;
`mode` sets the region mode once the stream has drained; a stalled instruction is executed afresh at its own address.  R175, R190, R223: the end
of `wtok` or `wbar` is an acquire, and that of the drain of `mode` observes what the commands before have done, which shows only in the
model's own record of what comes after what (log entry 10).  R316: a stream that has a fault to take does so first. -/
def Obligations.WaitsEnd : Prop :=
  ∀ (s : State) (c k : Nat) (w : Wait), s.runs c = true → (s.stream c k).st = .waiting w → s.condHolds c k w = true →
    (s.stream c k).intrap = true ∨ (s.stream c k).faults = [] →
    let u := s.stream c k
    Gives (exec (.waitConditionMet c k) s) (fun t =>
      OnlyStream c k { s with deeds := t.deeds } t ∧ (t.stream c k).st = .ready ∧
      ((∀ b n, w ≠ .tok b n) → (∀ b ph, w ≠ .bar b ph) → (∀ x, w ≠ .drain x) → t.deeds = s.deeds) ∧
      (∀ b n, w = .tok b n → n ≤ u.tokAt b ∧
        Passed 1 { u.setTok b (u.tokAt b - n) with st := .ready } (t.stream c k)) ∧
      ((∃ r n, w = .fil r n ∨ w = .fre r n) ∨ w = .lse → Passed 1 { u with st := .ready } (t.stream c k)) ∧
      (∀ b ph, w = .bar b ph → (s.bar (c / 4) b).phase = (ph == 1) ∧
        Passed 1 { u with st := .ready } (t.stream c k)) ∧
      (∀ x, w = .drain x → u.drained = true ∧ Passed 1 { u with st := .ready, exp := x } (t.stream c k)) ∧
      ((∃ x, w = .stall x) ∨ (∃ n, w = .chan n) ∨ (∃ l d, w = .pool l d) ∨ (∃ v, w = .post v) →
        t.stream c k = { u with st := .ready }))

/-! ## Rings, barriers, tokens and channels -/

/-- R168 to R171: each ring instruction on a configured ring whose home the context owns, with n from 1 to S: its effect on the four
positions and the word it writes, or all ones where it fails.

R170, R171: misuse of a ring raises cause 0x0D and a home that the context does not own cause 0x05; and the words of the seven
instructions.

R175: what comes before a publish or a return goes with its slots, and what goes with slots comes before whatever follows the operation
that takes them: the model's own record of what comes after what, log entry 10. -/
def Obligations.RingInstructions : Prop :=
  (∀ (s : State) (d ring : BitVec 5) (n : BitVec 12), ring.toNat ≤ 15 → n ≠ 0 →
     let home := s.homeOf s.sel ring.toNat
     let g := (s.core home).ring ring.toNat
     let k := BitVec.ofNat 32 n.toNat
     let claimed := (g.fp - g.pp).toNat
     let filled := (g.pp - g.tp).toNat
     let taken := (g.tp - g.rp).toNat
     let free := g.slots - (g.fp - g.rp).toNat
     let gives := fun (i : Instr) (h : Ring) (w : W64) =>
       Gives (exec i s) (fun t => Writes (s.setRing home ring.toNat h) t d w 1)
     let slot := fun (q : BitVec 32) (x : Nat) => Knower.ring home ring.toNat ((q.toNat + x) % g.slots)
     let syncs := fun (i : Instr) (h : Ring) (w : W64) (orders : Deed → Prop) => Gives (exec i s) (fun t =>
       Writes { s.setRing home ring.toNat h with deeds := t.deeds } t d w 1 ∧ ∀ e ∈ t.deeds, e.ctx = s.ctxOf s.sel → orders e)
     let publishes := fun (i : Instr) (h : Ring) (w : W64) (q : BitVec 32) =>
       syncs i h w (fun e => e.passes (Knower.isStr s.sel s.slot) = true → ∀ x < n.toNat, slot q x ∈ e.known)
     let acquires := fun (i : Instr) (h : Ring) (w : W64) (q : BitVec 32) =>
       syncs i h w (fun e => (∃ x < n.toNat, slot q x ∈ e.known) → ∀ store, Knower.str s.sel s.slot store ∈ e.known)
     let fails := fun (i : Instr) => GivesReg s i d 0xFFFFFFFFFFFFFFFF 1
     s.curCtx.owns home = true →
     (n.toNat ≤ g.slots →
       (n.toNat ≤ free → gives (.rclaim d ring n) { g with fp := g.fp + k, claims := g.claims + 1 } (slotWordOf g g.fp)) ∧
       (free < n.toNat → fails (.rclaim d ring n)) ∧
       (n.toNat ≤ claimed → publishes (.rpub d ring n) { g with pp := g.pp + k } (countWordOf { g with pp := g.pp + k }) g.pp) ∧
       (n.toNat ≤ filled → acquires (.rtake d ring n) { g with tp := g.tp + k } (slotWordOf g g.tp) g.tp ∧
         acquires (.rsteal d ring n) { g with tp := g.tp + k } (slotWordOf g g.tp) g.tp) ∧
       (filled < n.toNat → fails (.rtake d ring n) ∧ fails (.rsteal d ring n)) ∧
       (n.toNat ≤ taken → publishes (.rfree d ring n) { g with rp := g.rp + k } (countWordOf { g with rp := g.rp + k }) g.rp) ∧
       (claimed = 0 → n.toNat ≤ filled →
         acquires (.rback d ring n) { g with pp := g.pp - k, fp := g.fp - k } (slotWordOf g (g.pp - k)) (g.pp - k)) ∧
       (claimed = 0 → filled < n.toNat → fails (.rback d ring n))) ∧
     GivesReg s (.rstat d ring) d (countWordOf g) 1) ∧
  (∀ (s : State) (d ring : BitVec 5) (n : BitVec 12), ring.toNat ≤ 15 → n ≠ 0 →
     let home := s.homeOf s.sel ring.toNat
     let g := (s.core home).ring ring.toNat
     (s.curCtx.owns home = true → g.slots < n.toNat →
       ∀ i ∈ [Instr.rclaim d ring n, .rpub d ring n, .rtake d ring n, .rfree d ring n, .rback d ring n, .rsteal d ring n],
         Traps s i 0x0D 0 0) ∧
     (s.curCtx.owns home = true → (g.fp - g.pp).toNat < n.toNat → Traps s (.rpub d ring n) 0x0D 0 0) ∧
     (s.curCtx.owns home = true → (g.tp - g.rp).toNat < n.toNat → Traps s (.rfree d ring n) 0x0D 0 0) ∧
     (s.curCtx.owns home = true → (g.fp - g.pp).toNat ≠ 0 → Traps s (.rback d ring n) 0x0D 0 0) ∧
     (s.curCtx.owns home = false →
       ∀ i ∈ [Instr.rclaim d ring n, .rpub d ring n, .rtake d ring n, .rfree d ring n, .rback d ring n, .rsteal d ring n,
         .rstat d ring], Traps s i 0x05 0 0)) ∧
  (∀ (d ring : BitVec 5) (n : BitVec 12),
     let word := fun (op n : Nat) => op * 2 ^ 24 + d.toNat * 2 ^ 19 + ring.toNat * 2 ^ 14 + n
     ∀ e ∈ [(0x45, n, Instr.rclaim d ring n), (0x46, n, .rpub d ring n), (0x47, n, .rtake d ring n), (0x48, n, .rfree d ring n),
         (0x49, n, .rback d ring n), (0x4A, n, .rsteal d ring n), (0x4B, 0, .rstat d ring)],
       decodeWords (word e.1 e.2.1.toNat) 0 0 0 = .ok e.2.2)

/-- R168: the positions of every ring of every core stay ordered through every ring instruction. -/
def Obligations.RingPositionsStayOrdered : Prop :=
  ∀ (s t : State) (d ring : BitVec 5) (n : BitVec 12),
    (∀ c r, ringOrdered ((s.core c).ring r)) →
    ∀ i ∈ [Instr.rclaim d ring n, .rpub d ring n, .rtake d ring n, .rfree d ring n, .rback d ring n, .rsteal d ring n,
        .rstat d ring], exec i s = .next t → ∀ c r, ringOrdered ((t.core c).ring r)

/-- R186 to R188: `barinit` sets the expected count of a barrier with no arrival; `barv` arrives, and the arrival that reaches the
expected count clears the count and flips the phase.  Misuse raises 0x0D, and a barrier outside the allotment 0x05.  The word of
`barinit` has opcode 0x4C, obj = N and cnt = count.  R190: what comes before an arrival comes before the end of its phase: the model's own
record of what comes after what, log entry 10. -/
def Obligations.Barriers : Prop :=
  ∀ (s : State) (b : BitVec 8) (c : BitVec 12), b.toNat ≤ 15 → c ≠ 0 →
    let cl := s.sel / 4
    let x := s.bar cl b.toNat
    let gives := fun (i : Instr) (y : Bar) => Gives (exec i s) (fun t =>
      Does (s.setBar cl b.toNat y) t s.cur 1 ∧ t.bar cl b.toNat = y ∧ ∀ k j, (k, j) ≠ (cl, b.toNat) → t.bar k j = s.bar k j)
    let arrives := fun (y : Bar) (ks : Knower) => Gives (exec (.barv b) s) (fun t =>
      Does { s.setBar cl b.toNat y with deeds := t.deeds } t s.cur 1 ∧ t.bar cl b.toNat = y ∧
      (∀ k j, (k, j) ≠ (cl, b.toNat) → t.bar k j = s.bar k j) ∧
      ∀ e ∈ t.deeds, e.ctx = s.ctxOf s.sel → e.passes (Knower.isStr s.sel s.slot) = true → ks ∈ e.known)
    (s.curCtx.hasBar cl b.toNat = true →
      (x.arrival = 0 → gives (.barinit b c) { x with expected := c.toNat }) ∧
      (x.arrival ≠ 0 → Traps s (.barinit b c) 0x0D 0 0) ∧
      (x.expected ≠ 0 → x.arrival + 1 ≠ x.expected →
        arrives { x with arrival := x.arrival + 1 } (.arr cl b.toNat)) ∧
      (x.expected ≠ 0 → x.arrival + 1 = x.expected →
        arrives { x with arrival := 0, phase := !x.phase } (.bar cl b.toNat)) ∧
      (x.expected = 0 → Traps s (.barv b) 0x0D 0 0)) ∧
    (s.curCtx.hasBar cl b.toNat = false → Traps s (.barinit b c) 0x05 0 0 ∧ Traps s (.barv b) 0x05 0 0) ∧
    decodeWords (0x4C * 2 ^ 24 + b.toNat * 2 ^ 12 + c.toNat) 0 0 0 = .ok (.barinit b c)

/-- R179, R180, R184: `tsig` adds to a counter, and past 255 it is dropped with cause 0x0C; `chrd` pops an entry of a channel wired to the
sequencer, or waits on an empty one.  That the record of the overflow holds the byte and the count is the model's reading of R180,
log entry 29. -/
def Obligations.TokenSignalsAndChannelReads : Prop :=
  ∀ (s : State) (eng : BitVec 4) (dir : BitVec 1) (cnt : BitVec 12) (d : BitVec 5) (c : BitVec 14),
    tokDir eng.toNat dir.toNat = true → 1 ≤ cnt.toNat → cnt.toNat ≤ 255 → 56 ≤ c.toNat → c.toNat ≤ 63 →
    let b := tokenByte eng.toNat dir.toNat
    let byte := fun (t : Stream) i => t.tok.toNat / 2 ^ (8 * i) % 256
    let n := byte s.cur b + cnt.toNat
    let seq := s.curCtx.consumer c.toNat = 6
    (n ≤ 255 → Gives (exec (.tsig eng dir cnt) s) (fun t =>
      Does s t { s.cur with tok := t.cur.tok } 1 ∧ ∀ i < 8, byte t.cur i = if i = b then n else byte s.cur i)) ∧
    (255 < n → Traps s (.tsig eng dir cnt) 0x0C (b * 256 + cnt.toNat) 0) ∧
    (∀ e l, seq → s.chan s.sel c.toNat = e :: l →
      let lane := fun i => if e.mask.getLsbD i then e.data.toNat / 2 ^ (32 * i) % 2 ^ 32 else 0
      Gives (exec (.chrd d c) s) (fun t =>
        Writes (s.setChan s.sel c.toNat l) t d (BitVec.ofNat 64 (lane 1 * 2 ^ 32 + lane 0)) 1)) ∧
    (seq → s.chan s.sel c.toNat = [] →
      Gives (exec (.chrd d c) s) (fun t => Ends s t s.cur s.cur.pc (.waiting (.chan c.toNat)))) ∧
    (¬seq → Traps s (.chrd d c) 0x01 0 0)

/-! ## Launches, and the other control instructions -/

/-- R90, R91, R101: with the record read and its checks passed (`readNest` gives the nest), `lnch` and `lnchn` take one record on every
die that the nest uses where each has one free, and otherwise wait or write 1; a broken check raises cause 0x11 with its status.

R95, R100: in a resident context the record stands on each of those dies behind the others, at its first unit there, and the page of the completion
word is pinned.  That
acceptance first applies every write that the die has sent to a remote home is log entry 39, and that what comes before the launch comes
before the nest is the model's own record, log entry 10. -/
def Obligations.Launches : Prop :=
  ∀ (s s' : State) (d a : BitVec 5) (x : Nest) (n : Nat),
    let die := dieOf s.sel
    let depth := match s.cur.unit with | some u => u.depth | none => 0
    let read := s.readNest (s.ctxOf s.sel) die (s.acct s.sel) (s.sreg a).toNat (depth + 1)
    let free := ∀ e ∈ nestDies x.home x.mask,
      ((s'.die e).nests.filter (·.depth == x.depth)).length < (if x.depth = 0 then 512 else if x.depth = 1 then 256 else 128)
    let m := fun (t : State) => ({ s'.drainDie die with deeds := t.deeds } : State).accept x
    let takes := fun (t : State) => (s'.ctx x.ctx).st = .resident → Accepted (s'.drainDie die) t x
    let after := fun (t : State) => ∀ e ∈ t.deeds, e.ctx = x.ctx → e.passes (Knower.isStr s.sel s.slot) = true → Knower.nest x.id ∈ e.known
    (read = .ok (x, s') → free →
      Gives (exec (.lnch a) s) (fun t => Does (m t) t (m t).cur 1 ∧ takes t ∧ after t) ∧
      Gives (exec (.lnchn d a) s) (fun t => Writes (m t) t d 0 1 ∧ takes t ∧ after t)) ∧
    (read = .ok (x, s') → ¬free →
      Gives (exec (.lnch a) s) (fun t => Ends s' t s'.cur s'.cur.pc (.waiting (.pool (nestDies x.home x.mask) x.depth))) ∧
      Gives (exec (.lnchn d a) s) (fun t => Writes s' t d 1 1)) ∧
    (read = .error (.status n, s') → s'.vecFresh s'.sel s'.slot = false → s'.cur.intrap = false → s'.curCtx.trapVec ≠ 0 →
      ∀ i ∈ [Instr.lnch a, .lnchn d a], Gives (exec i s) (fun t => Handler s' t (preciseRec s' 0x11 n 0 0)))

/-- R68, R88, R103, R234, R321, R327, R347: `nop`, `yield`, `tstamp`, `fmtp`, `jmark`, `mode` and a `halt` outside a handler. -/
def Obligations.PlainControlInstructions : Prop :=
  ∀ (s : State) (d a : BitVec 5) (m : BitVec 1),
    Gives (exec .nop s) (fun t => Does s t s.cur 1) ∧
    Gives (exec .yield s) (fun t => ∃ u, Passed 1 s.cur u ∧ Ends s t u u.pc .ready) ∧
    GivesReg s (.tstamp d 0) d (BitVec.ofNat 64 s.now) 1 ∧
    GivesReg s (.tstamp d 1) d (BitVec.ofNat 64 ((s.cluster (s.sel / 4)).eff s.now)) 1 ∧
    (s.cur.fmtq.length < 16 → Gives (exec (.fmtp a) s)
      (fun t => Does s t { s.cur with fmtq := s.cur.fmtq ++ [BitVec.ofNat 32 (s.sreg a).toNat] } 1)) ∧
    (16 ≤ s.cur.fmtq.length → Traps s (.fmtp a) 0x08 0 0) ∧
    (s.cur.journal = [] → Gives (exec (.jmark a) s)
      (fun t => Does s t { s.cur with jcnt := s.cur.jcnt + 1, jmarkV := s.sreg a } 1)) ∧
    (s.cur.journal ≠ [] → (∀ r ∈ s.cur.journal, r.done = false ∧ r.kind ≠ 2) → s.cur.journal.length < 32 →
      Gives (exec (.jmark a) s) (fun t => Does s t
        { s.cur with jcnt := s.cur.jcnt + 1, journal := s.cur.journal ++ [{ j := s.cur.jcnt.toNat, kind := 2, value := s.sreg a }] } 1)) ∧
    (32 ≤ s.cur.journal.length →
      Gives (exec (.jmark a) s) (fun t => Ends s t s.cur s.cur.pc (.waiting (.stall .journal)))) ∧
    Gives (exec (.mode m) s) (fun t => Ends s t s.cur s.cur.pc (.waiting (.drain (m = 1)))) ∧
    (s.cur.intrap = false → Gives (exec .halt s) (fun t => Ends s t s.cur s.cur.pc .halting))

/-- R334, R336: `pwrl` sets the context's vote and requested level on the issuing die, which then follows its target.

R356: `musts` moves a region within its declared size: its pages are translated with R and pinned, and the old ones unpinned.  The
pin count and the die cache bound it as they bound a dispatch (R197, R216): the model's reading, log entry 25. -/
def Obligations.PowerVoteAndMustSaveTable : Prop :=
  (∀ (s : State) (a : BitVec 5),
     let v := (s.sreg a).toNat
     let d := s.sel / 48
     let i := s.ctxOf s.sel
     let ok := v / 2 ^ 8 % 4 ≠ 3 ∧ v / 2 ^ 4 % 16 = 0 ∧ v / 2 ^ 10 = 0
     (ok → Gives (exec (.pwrl a) s) (fun t =>
       let m := s.modCtx i (fun x => { x with vote := x.vote.set d (v % 16), req := x.req.set d (v / 2 ^ 8 % 4) })
       Does (m.retarget d) t (m.retarget d).cur 1 ∧ (t.die d).target = m.targetOf d ∧
         (t.ctx i).vote.getD d 0 = v % 16 ∧ (t.ctx i).req.getD d 0 = v / 2 ^ 8 % 4)) ∧
     (¬ok → Traps s (.pwrl a) 0x01 0 0)) ∧
  (∀ (s s' : State) (a b : BitVec 5) (id : BitVec 4) (e : Must) (ps : List Pin),
     let i := s.ctxOf s.sel
     let d := s.curCtx.cfg.keeper id.toNat
     let base := (s.sreg a).toNat
     let n := (s.sreg b).toNat
     let r : Acc := { lo := base, hi := base + n, r := true }
     let ok := n ≤ e.declared ∧ base % 64 = 0 ∧ n % 64 = 0
     (s.curCtx.musts.find id.toNat = none → Traps s (.musts a b id) 0x01 0 0) ∧
     (s.curCtx.musts.find id.toNat = some e → ¬ok → Traps s (.musts a b id) 0x01 0 0) ∧
     (s.curCtx.musts.find id.toNat = some e → ok → s.fillRange d i r base [] (granules r) = .ok (ps, s') →
       fullPin ((s'.pinList e.pins false).die d).tlb ps = none →
       cacheHolds ((s'.pinList e.pins false).die d).tlb ps = true →
       Gives (exec (.musts a b id) s) (fun t =>
         let pins := ps.map (fun p => (d, p))
         let m := ((s'.pinList e.pins false).pinList pins true).modCtx i
           (fun x => { x with musts := x.musts.set id.toNat { e with base := base, bytes := n, pins := pins } })
         Does m t m.cur 1)))

/-! ## System registers -/

/-- R9, R136, R166, R266, R281, R312 to R315, R318, R320, R326, R339, R342, R344, R347, R357, R360, R376: what `sysrd` reads.  A read of the
model takes one draw of a free value (log entry 6), which only two registers use: EXACT of MODE, while some write of it is not ordered
before the stream (R313), and VSTAT, while an instruction that may set a flag has not completed (R136).  That CAPS_HEAD names all seven features present, and so its value, is
the model's choice, log entry 11.

R186, R189: BARST_N reads a barrier of the issuing cluster, and one outside the context's allotment raises cause 0x05. -/
def Obligations.SystemRegisterReads : Prop :=
  (∀ (s : State) (d : BitVec 5),
     let t := s.cur
     let x := s.curCtx
     let i := s.ctxOf s.sel
     let cl := s.sel / 4
     let die := s.sel / 48
     let reads := fun (id : BitVec 12) (v : W64) => Gives (exec (.sysrd d id) s) (fun u => Writes s.draw u d v 1)
     reads 0x000 0x0000007F07000001 ∧ reads 0x001 (BitVec.ofNat 64 (s.ctxOf s.sel)) ∧
     reads 0x002 (BitVec.ofNat 64 (x.cfg.part % 256)) ∧ reads 0x004 x.trapVec ∧
     reads 0x005 (BitVec.ofNat 64 (x.cfg.jnl.getD 0xBC000)) ∧ reads 0x006 t.jcnt ∧ reads 0x007 t.jmarkV ∧ reads 0x008 t.hreply ∧
     reads 0x009 (BitVec.ofNat 64 (x.cfg.wdog % 2 ^ 32)) ∧
     reads 0x010 t.fr.cause ∧ reads 0x011 t.fr.ident ∧ reads 0x012 t.fr.pc ∧ reads 0x013 t.fr.jnum ∧ reads 0x014 t.fr.stat ∧
     reads 0x015 t.fr.va ∧ reads 0x016 t.fr.cursor ∧ reads 0x017 t.fr.resume ∧ reads 0x018 t.tscr0 ∧ reads 0x019 t.tscr1 ∧
     reads 0x029 x.keepStat ∧ reads 0x030 (BitVec.ofNat 64 s.now) ∧ reads 0x111 x.cfg.wiring ∧ reads 0x112 t.tok ∧
     reads 0x113 (BitVec.ofNat 64 x.pclose) ∧
     (∀ n < 16, reads (BitVec.ofNat 12 (0x100 + n)) (BitVec.ofInt 64 (t.getA n).wrap.toInt)) ∧
     (∃ exact : Bool, ((∀ e ∈ s.deeds, ∀ w b, e.what ≠ .exact w b) → exact = x.exact) ∧
       reads 0x003 (BitVec.ofNat 64 ((if t.exp then 2 else 0) + (if exact then 1 else 0)))) ∧
     (∃ v : W64, reads 0x00A v ∧ v.toNat < 2 ^ 16 ∧ v.getLsbD 15 = t.intrap ∧
       (∀ e < 6, v.getLsbD (8 + e) = t.faults.any (fun f => f.eng == e) ∧ v.getLsbD e = t.halted.getLsbD e)) ∧
     reads 0x020 (BitVec.ofNat 64 (min (s.cluster cl).alarms 65535 * 2 ^ 24 + s.thrOf cl * 2 ^ 16 + x.thr)) ∧
     reads 0x021 (BitVec.ofNat 64 (s.pointOf die * 2 ^ 28 + (s.die die).target * 2 ^ 24 +
       ((s.cluster cl).norm s.now).pattern.toNat * 2 ^ 8 + s.countedVote i die * 2 ^ 4 + x.req.getD die 0 * 2 ^ 2 + s.levelOf i die)) ∧
     reads 0x022 (BitVec.ofNat 64 (s.accounts.getD (acctOf x.cfg.part) {}).nj) ∧
     reads 0x028 (BitVec.ofNat 64 ((15360 - s.charged die) * 2 ^ 40 + x.cfg.charge die * 2 ^ 24 +
       x.cfg.musts.foldl (fun n m => n ||| 2 ^ m.id) 0)) ∧
     reads 0x031 (BitVec.ofNat 64 ((s.cluster cl).eff s.now)) ∧
     ((∀ w ∈ t.pend, w.dst ≠ .vstat) →
       reads 0x110 (BitVec.ofNat 64 (t.rrb * 2 ^ 8 + t.prb * 2 ^ 4 + (if t.dqmiss then 2 else 0) + (if t.olclamp then 1 else 0)))) ∧
     (∀ n < 16, let g := (s.core (s.homeOf s.sel n)).ring n
       reads (BitVec.ofNat 12 (0x120 + n))
         (BitVec.ofNat 64 (s.homeOf s.sel n % 4 * 2 ^ 48 + g.slots * 2 ^ 36 + (g.size / 16 - 1) * 2 ^ 24 + g.base))) ∧
     reads 0x150 (BitVec.ofNat 64 ((x.coreCfg s.sel).tcount * 2 ^ 12 + (x.coreCfg s.sel).tbase)) ∧
     reads 0x151 (BitVec.ofNat 64 (((s.cluster cl).refresh.filter (fun e => e.2 == s.sel % 4)).length * 2 ^ 16 +
       (s.core s.sel).esc.length)) ∧
     (∀ n < 8, reads (BitVec.ofNat 12 (0x140 + n)) ((s.core s.sel).fsa.getD n 0) ∧
       reads (BitVec.ofNat 12 (0x148 + n)) ((s.core s.sel).fsb.getD n 0)) ∧
     (∀ id : BitVec 12, sysReadable id.toNat = true → (id.toNat < 0x130 ∨ 0x140 ≤ id.toNat) → ∃ v, reads id v) ∧
     (∀ id : BitVec 12, sysReadable id.toNat = false → Traps s (.sysrd d id) 0x01 0 0)) ∧
  (∀ (s : State) (d : BitVec 5) (n : Nat), n < 16 →
     let b := s.bar (s.sel / 4) n
     (s.curCtx.hasBar (s.sel / 4) n = true → Gives (exec (.sysrd d (BitVec.ofNat 12 (0x130 + n))) s) (fun t =>
       Writes s.draw t d (BitVec.ofNat 64 ((if b.phase then 2 ^ 24 else 0) + b.arrival * 2 ^ 12 + b.expected)) 1)) ∧
     (s.curCtx.hasBar (s.sel / 4) n = false → Traps s (.sysrd d (BitVec.ofNat 12 (0x130 + n))) 0x05 0 0))

/-- R78, R136, R178, R209, R312 to R315, R342: writes of the system registers of the stream and its context, and their checks.  The
model remembers the value before a write of MODE.EXACT for the streams of the context that are not ordered after it, log entry 37. -/
def Obligations.SystemRegisterWrites : Prop :=
  ∀ (s : State) (a : BitVec 5) (n : BitVec 4),
    let v := s.sreg a
    let i := s.ctxOf s.sel
    let u := s.cur
    let legal := v.toNat % 4 = 0 ∧ v.toNat < 2 ^ 60
    let stream := fun (j : Instr) (w : Stream) => Gives (exec j s) (fun t => Does s t w 1)
    let ctx := fun (j : Instr) (f : Ctx → Ctx) => Gives (exec j s) (fun t => Does (s.modCtx i f) t u 1)
    stream (.syswr a 0x018) { u with tscr0 := v } ∧ stream (.syswr a 0x019) { u with tscr1 := v } ∧
    ctx (.syswr a 0x113) (fun x => { x with pclose := v.toNat % 2 ^ 32 }) ∧
    Gives (exec (.modeWrite a) s) (fun t =>
      Does ({ s.modCtx i (fun x => { x with exact := v.getLsbD 0 }) with deeds := t.deeds, accesses := t.accesses }) t u 1 ∧
      ∃ d : Deed, t.deeds = s.deeds ++ [d] ∧ d.ctx = i ∧ d.what = .exact (some (s.sel, s.slot)) s.curCtx.exact ∧
        d.known = [.str s.sel s.slot false, .str s.sel s.slot true]) ∧
    (legal → ctx (.trapVecWrite a) (fun x => { x with trapVec := v })) ∧ (¬legal → Traps s (.trapVecWrite a) 0x01 0 0) ∧
    (legal → stream (.frResumeWrite a) { u with fr := { u.fr with resume := v } }) ∧
    (¬legal → Traps s (.frResumeWrite a) 0x01 0 0) ∧
    stream (.wrapAnWrite a n) (u.setA n.toNat { u.getA n.toNat with wrap := BitVec.ofNat 32 v.toNat }) ∧
    stream (.vstatClear a)
      { u with dqmiss := u.dqmiss && !v.getLsbD 1, olclamp := u.olclamp && !v.getLsbD 0 } ∧
    stream (.tokcntWrite a) { u with tok := v } ∧
    (10 ≤ v.toNat % 256 → v.toNat % 256 ≤ 120 → ctx (.droopThrWrite a) (fun x => { x with thr := v.toNat % 256 })) ∧
    (v.toNat % 256 < 10 ∨ 120 < v.toNat % 256 → Traps s (.droopThrWrite a) 0x01 0 0) ∧
    (∀ id : BitVec 12, sysWritable id.toNat = false → Traps s (.syswr a id) 0x01 0 0)

/-- R166, R268: RINGD_N names a home, whose geometry the core's own write sets with the positions at 0; a fold-set register takes a range
within the core's table or a tolerance that is finite and above 0.

R139, R166: a ring that does not lie in the open bytes raises cause 0x0F with the lowest closed byte; R308 puts the journal below 0xC0000.
The address for a ring of no slots is the model's reading, log entry 29. -/
def Obligations.RingAndFoldSetWrites : Prop :=
  ∀ (s : State) (a : BitVec 5) (n : BitVec 4),
    let v := (s.sreg a).toNat
    let home := s.sel / 4 * 4 + v / 2 ^ 48 % 4
    let g : Ring := { slots := v / 2 ^ 36 % 2 ^ 12, size := (v / 2 ^ 24 % 2 ^ 12 + 1) * 16, base := v % 2 ^ 20 }
    let last := g.base + g.slots * g.size
    let repoint := s.modCore s.sel (fun x => { x with homes := x.homes.set n.toNat (v / 2 ^ 48 % 4) })
    let old := (s.core s.sel).ring n.toNat
    let idle := old.fp = old.pp ∧ old.pp = old.tp ∧ old.tp = old.rp
    let k := s.curCtx.coreCfg s.sel
    let lo := v % 2 ^ 12
    let tau := Fmt.fp32.decode (v % 2 ^ 32)
    let writes := fun (i : Instr) (m : State) => Gives (exec i s) (fun t => Does m t s.cur 1)
    (s.curCtx.owns home = false → Traps s (.ringdWrite a n) 0x05 0 0) ∧
    (s.curCtx.owns home = true → home ≠ s.sel → writes (.ringdWrite a n) repoint) ∧
    (s.curCtx.owns home = true → home = s.sel →
      (g.base % 16 ≠ 0 → Traps s (.ringdWrite a n) 0x01 0 0) ∧
      (g.base % 16 = 0 → 0xC0000 < last ∨ (g.slots ≠ 0 ∧ s.jnl < last ∧ g.base < s.jnl + 0x4000) →
        ∃ va, (g.slots ≠ 0 → s.jnl ≤ 0xC0000 → lowestClosed s.jnl g.base last va) ∧ (g.slots = 0 → va = g.base) ∧
          Traps s (.ringdWrite a n) 0x0F 0 va) ∧
      (g.base % 16 = 0 → last ≤ 0xC0000 → (g.slots = 0 ∨ last ≤ s.jnl ∨ s.jnl + 0x4000 ≤ g.base) →
        (idle → writes (.ringdWrite a n) (repoint.setRing s.sel n.toNat g)) ∧ (¬idle → Traps s (.ringdWrite a n) 0x0D 0 0))) ∧
    (n.toNat < 8 → k.tbase ≤ lo → lo + v / 2 ^ 12 % 2 ^ 12 + 1 ≤ k.tbase + k.tcount → writes (.foldSetWrite a n)
      (s.modCore s.sel (fun x => { x with fsa := x.fsa.set n.toNat (BitVec.ofNat 64 (v / 2 ^ 48 * 2 ^ 48 + v % 2 ^ 27)) }))) ∧
    (n.toNat < 8 → lo < k.tbase ∨ k.tbase + k.tcount < lo + v / 2 ^ 12 % 2 ^ 12 + 1 → Traps s (.foldSetWrite a n) 0x01 0 0) ∧
    (8 ≤ n.toNat → tau.isFinite = true → tau.isZero = false → tau.isNeg = false → writes (.foldSetWrite a n)
      (s.modCore s.sel (fun x => { x with fsb := x.fsb.set (n.toNat - 8) (BitVec.ofNat 64 (v % 2 ^ 32)) }))) ∧
    (8 ≤ n.toNat → tau.isFinite = false ∨ tau.isZero = true ∨ tau.isNeg = true → Traps s (.foldSetWrite a n) 0x01 0 0)

/-! ## Traps -/

/-- R60, R316, R321: `trap` takes cause 0x15 with its code and resumes at the next instruction; what decodes to no instruction raises
0x01, 0x02 for engine 6 or 7, or 0x03 for a modifier's check nibble.

R60: an instruction of the control subset or of an engine that breaks an encoding limit raises cause 0x01 at its own address, before
any other effect.  R58, R71: a trap waits while VEC results of an exposed region are in their cycle of issue (log entry 7). -/
def Obligations.TrapInstructions : Prop :=
  (∀ (s : State) (c : BitVec 14) (r : Reject), s.vecFresh s.sel s.slot = false → s.cur.intrap = false → s.curCtx.trapVec ≠ 0 →
     let code := match r with | .opcode => 0x01 | .op7 => 0x01 | .engine => 0x02 | .modifier => 0x03
     Gives (exec (.trap c) s) (fun t =>
       (∀ x, { t.cluster x with counts := [] } = { s.cluster x with counts := [] }) ∧
       t.cur.fr = { preciseRec s 0x15 0 0 c.toNat with resume := s.cur.pc + 4 } ∧ t.cur.intrap = true ∧ t.cur.exp = false ∧
       t.cur.pc = s.curCtx.trapVec ∧ t.cur.s = s.cur.s ∧ t.cur.a = s.cur.a ∧ t.cur.lc = s.cur.lc ∧ t.cur.tok = s.cur.tok ∧
       t.cur.queues = s.cur.queues ∧ ∀ x j, (x, j) ≠ (s.sel, s.slot) → t.stream x j = s.stream x j) ∧
     Traps s (.illegalInstruction r) code 0 0) ∧
  (∀ (s : State) (i : Instr), i.wellFormed = false → Traps s i 0x01 0 0)

/-- R319, R84: `tret` restores the region mode from FR_CAUSE and clears INTRAP and the halted bits of engines without a pending fault; it
resumes at FR_RESUME by a taken transfer, but from cause 0x15 to the address after the `trap` it passes on sequentially.  Outside a
handler it raises cause 0x01.

R319: a `halt` in a handler discards the entries of the halted queues and the commands stopped there, and the stream halts.  That a
sequential `tret` too ends the block, and that such a `halt` drops the pending faults, are the model's readings, log entry 28. -/
def Obligations.LeavingAHandler : Prop :=
  (∀ (s : State),
     let u := s.cur
     let pend := fun e => u.faults.any (fun f => f.eng == e)
     let back := fun (v : Stream) => v.exp = u.fr.cause.getLsbD 15 ∧ v.intrap = false ∧
       (∀ e < 6, v.halted.getLsbD e = (u.halted.getLsbD e && pend e)) ∧ v.s = u.s ∧ v.a = u.a ∧ v.queues = u.queues ∧ v.tok = u.tok
     let sequential := u.fr.cause.toNat % 256 = 0x15 ∧ u.fr.resume = u.fr.pc + 4
     (u.intrap = true → (∀ f ∈ u.faults, f.eng < 6) → ¬sequential →
       Gives (exec .tret s) (fun t => ∃ v, back v ∧ v.lc = u.lc ∧ Ends s t v u.fr.resume .ready)) ∧
     (u.intrap = true → (∀ f ∈ u.faults, f.eng < 6) → sequential → (∀ e ∈ u.lc, e.2.active = true → e.2.last ≠ u.fr.pc) →
       Gives (exec .tret s) (fun t => ∃ v, back v ∧ v.lc = u.lc ∧ Ends s t v (u.fr.pc + 4) .ready)) ∧
     (u.intrap = false → Traps s .tret 0x01 0 0)) ∧
  (∀ (s : State), s.cur.intrap = true →
     Gives (exec .halt s) (fun t => ∃ m : State, t = m.select s.sel ∧ m.cur.st = .halting ∧ m.cur.pc = s.cur.pc ∧ m.cur.halted = 0 ∧
       m.cur.faults = [] ∧ (∀ e, s.cur.halted.getLsbD e = true → m.cur.queue e = []) ∧
       (∀ e, s.cur.halted.getLsbD e = false → m.cur.queue e = s.cur.queue e) ∧
       (∀ f ∈ m.cur.flights, ¬(s.cur.halted.getLsbD f.eng = true ∧ f.failed = true)) ∧ m.cur.s = s.cur.s ∧
       ∀ x j, (x, j) ≠ (s.sel, s.slot) → m.stream x j = s.stream x j))

/-- R315, whole: TRAP_VEC is the handler's address for every stream of its context; a write of an address with a bit of 1:0 or 63:60
raises cause 0x01; with the value 0 the context has no handler, and a trap faults it.  The traps are those of a stream with no VEC result
in its cycle of issue (R58, R71). -/
def Obligations.TrapVector : Prop :=
  ∀ (s : State) (a d : BitVec 5) (r : Reject) (c k : Nat) (f : PFault),
    let v := s.sreg a
    let i := s.ctxOf s.sel
    let legal := v = 0 ∨ (v.toNat % 4 = 0 ∧ v.toNat / 2 ^ 60 = 0)
    (legal → Gives (exec (.trapVecWrite a) s) (fun t => Does (s.modCtx i (fun x => { x with trapVec := v })) t s.cur 1)) ∧
    (¬legal → Traps s (.trapVecWrite a) 0x01 0 0) ∧
    Gives (exec (.sysrd d 0x004) s) (fun t => Writes s.draw t d s.curCtx.trapVec 1) ∧
    (s.runs c = true → s.vecFresh c k = false → s.ctxOf c = i → (s.stream c k).st ≠ .free → (s.stream c k).intrap = false → (s.stream c k).faults = [f] →
      (s.curCtx.trapVec ≠ 0 → Gives (exec (.takeTrap c k) s) (fun t =>
        (t.stream c k).pc = s.curCtx.trapVec ∧ (t.stream c k).intrap = true)) ∧
      (s.curCtx.trapVec = 0 → Gives (exec (.takeTrap c k) s) (fun t => (t.ctx i).faulted = true ∧ (t.stream c k).intrap = false))) ∧
    (s.vecFresh s.sel s.slot = false → s.cur.intrap = false → s.curCtx.trapVec = 0 → Gives (exec (.illegalInstruction r) s) (fun t =>
      (t.ctx i).faulted = true ∧ t.cur.pc = s.cur.pc))

/-- R317, R374: a trap of a stream in its handler, or of one whose context has no handler, makes the context faulted and tells the host, by
an event that waits while the function's event queue is full; the record of the first trap is kept.  That FAULT_REC is written also where there is no handler is the model's reading, log entry 28. -/
def Obligations.TrapsThatFaultTheContext : Prop :=
  ∀ (s : State) (r : Reject), s.vecFresh s.sel s.slot = false →
    let i := s.ctxOf s.sel
    let part := s.curCtx.cfg.part
    let code := match r with | .opcode => 0x01 | .op7 => 0x01 | .engine => 0x02 | .modifier => 0x03
    let rec_ := preciseRec s code 0 0 0
    let posted := fun (t : State) (e : HostEvent) =>
      (s.eventsFull part = false → t.events.getD part [] = s.events.getD part [] ++ [e] ∧ t.lateEvents = s.lateEvents) ∧
      (s.eventsFull part = true → t.lateEvents.getD part [] = s.lateEvents.getD part [] ++ [e] ∧ t.events = s.events) ∧
      ∀ p, p ≠ part → t.events.getD p [] = s.events.getD p []
    let falls := fun (t : State) => (t.ctx i).faulted = true ∧ (∀ j, j ≠ i → t.ctx j = s.ctx j) ∧
      t.cur.pc = s.cur.pc ∧ t.cur.s = s.cur.s ∧ ∀ x j, (x, j) ≠ (s.sel, s.slot) → t.stream x j = s.stream x j
    (s.cur.intrap = true → Gives (exec (.illegalInstruction r) s)
      (fun t => falls t ∧ t.cur.fr = s.cur.fr ∧ posted t (.faulted i s.cur.fr (some rec_)))) ∧
    (s.cur.intrap = false → s.curCtx.trapVec = 0 → Gives (exec (.illegalInstruction r) s)
      (fun t => falls t ∧ t.cur.fr = rec_ ∧ posted t (.faulted i rec_ none)))

/-! ## Fences and host requests -/

/-- R214, R326: a fence appends one marker to the queues of LDE, MXE, STE, IDX and LNK, each with a number and a journal record, or waits
until all of them and the journal have room.  R208: at system scope `fence.full` closes the held lines of the context; that it does so when
it is dispatched is the model's reading, log entry 24; that it waits until five records are free is log entry 48.  R220: what follows an acquire in
program order comes after what the releases that it meets, whose writes the stream has read, pass on: the record is log entry 10. -/
def Obligations.FencesMarkFiveQueues : Prop :=
  ∀ (s : State) (scope : BitVec 3), scope.toNat ≤ 5 →
    let u := s.cur
    let es := [0, 1, 3, 4, 5]
    let room := (∀ e ∈ es, (u.queue e).length < 16) ∧ u.journal.length + 5 ≤ 32
    let marker := fun (kind e n : Nat) =>
      ({ j := (u.jcnt + BitVec.ofNat 64 n).toNat, mark := some (kind, scope.toNat), pc := u.pc, aux := e } : Cmd)
    let marked := fun (kind : Nat) (t : State) =>
      (∀ p ∈ es.zipIdx, t.cur.queue p.1 = u.queue p.1 ++ [marker kind p.1 p.2]) ∧ t.cur.queue 2 = u.queue 2 ∧
      t.cur.jcnt = u.jcnt + 5 ∧
      t.cur.journal = u.journal ++ es.zipIdx.map (fun p =>
        { j := (u.jcnt + BitVec.ofNat 64 p.2).toNat, kind := 1, cmd := marker kind p.1 p.2 }) ∧
      Passed 1 { u with queues := t.cur.queues, jcnt := t.cur.jcnt, journal := t.cur.journal } t.cur ∧
      (kind = 0 → ∀ r ∈ u.gained, r.meets scope.toNat s.sel s.slot = true → ∀ e ∈ t.deeds, e.ctx = s.ctxOf s.sel →
        Knower.rel r.no ∈ e.known → Knower.str s.sel s.slot false ∈ e.known) ∧
      ∀ x j, (x, j) ≠ (s.sel, s.slot) → t.stream x j = s.stream x j
    (room → Gives (exec (.fenceAcq scope) s) (fun t => marked 0 t ∧ t.mem = s.mem) ∧
      Gives (exec (.fenceRel scope) s) (fun t => marked 1 t ∧ t.mem = s.mem) ∧
      Gives (exec (.fenceFull scope) s) (fun t => marked 2 t ∧ (scope ≠ 5 → t.mem = s.mem) ∧
        (scope = 5 → (∀ d < 8, ∀ h ∈ (t.die d).held, ∀ r ∈ h.reds, r.ctx ≠ s.ctxOf s.sel) ∧
          ∃ m : State, m = { s with cores := m.cores, deeds := m.deeds, accesses := m.accesses } ∧ t.mem = (m.closeCtx (s.ctxOf s.sel)).mem))) ∧
    (¬room → ∀ i ∈ [Instr.fenceAcq scope, .fenceRel scope, .fenceFull scope],
      Gives (exec i s) (fun t => Ends s t u u.pc (.waiting (.stall .fenceQueues))))

/-- R320: `hreq` posts sA, CTX_ID, the identity and FAULT_REC to the event queue of the partition's function and waits for the reply;
while that queue is full it waits before posting. -/
def Obligations.HostRequests : Prop :=
  ∀ (s : State) (a : BitVec 5),
    let part := s.curCtx.cfg.part
    let e : HostEvent := .hreq (s.ctxOf s.sel) (identOf s.sel s.slot) (s.sreg a) s.cur.fr
    (s.eventsFull part = false → Gives (exec (.hreq a) s) (fun t =>
      Ends { s with events := t.events } t s.cur s.cur.pc (.waiting .reply) ∧
      t.events.getD part [] = s.events.getD part [] ++ [e] ∧ ∀ p, p ≠ part → t.events.getD p [] = s.events.getD p [])) ∧
    (s.eventsFull part = true → Gives (exec (.hreq a) s) (fun t => Ends s t s.cur s.cur.pc (.waiting (.post (s.sreg a)))))

/-! ## Dispatch of engine instructions -/

/-- R66, R67, R109, R134: the VEC instructions enter the stream's queue for engine 2; their fields keep the limits of R116, their register
names lie in the allotment and their channels are wired to VEC. -/
def Obligations.VectorInstructionsAreDispatched : Prop :=
  ∀ (s : State) (f : VF),
    ∀ i ∈ [Instr.vadd f, .vsub f, .vmul f, .vfma f, .vfms f, .vmin f, .vmax f, .vcmp f, .vsel f, .vcvt f, .vand f, .vor f, .vxor f,
      .vnot f, .vshl f, .vshr f, .vsra f, .vmov f, .vbc f, .vidx f, .vred f, .vscan f, .vperm f, .vbit f, .vbpat f, .vsf f, .vtopk f,
      .vrnd f, .vqnt f, .vdq f, .vrcv f, .vsnd f, .vrot f, .pand f, .por f, .pxor f, .pnot f, .pcnt f, .pset f],
    i.wellFormed = true → s.vecWired i = true → (s.cur.queue 2).length < 16 → s.cur.journal.length < 32 →
    let p : Prep := { cmd := s.cmdOfV i f.md }
    Gives (exec i s) (fun t =>
      Does (s.append 2 p []) t (s.append 2 p []).cur (if f.md.isSome then 3 else 2))

/-- R66, R67, R150 to R157, R183: the dispatch of the LDE instructions. -/
def Obligations.LoadInstructionsAreDispatched : Prop :=
  ∀ (s : State) (f : EF),
    let w := if f.md.isSome then 3 else 2
    ∀ e ∈ [(Instr.cpin f, true, s.prepIn (.cpin f) f), (.cpinCh f, s.curCtx.mayPop 0 f.y.toNat, s.prepCpinCh f),
      (.cpcv f, true, s.prepIn (.cpcv f) f), (.ldch f, s.curCtx.producer f.x.toNat == 0, s.prepLdch f),
      (.ldbc f, s.curCtx.producer f.x.toNat == 0, s.prepLdbc f), (.pfch f, true, s.prepPfch f)],
    e.1.wellFormed = true → e.2.1 = true → dispatches s e.1 w 0 (e.2.2 (s.cmdOf e.1 f))

/-- R66, R67, R183, R233, R242, R250, R276: the dispatch of the MXE instructions; those that pop a format word need one in the queue. -/
def Obligations.MatrixInstructionsAreDispatched : Prop :=
  ∀ (s : State) (f : EF),
    let w := if f.md.isSome then 3 else 2
    ∀ e ∈ [(Instr.lease f, true, s.prepLease f), (.unls f, true, s.prepUnls f), (.wld f, true, s.prepWld f),
      (.mma f, true, s.prepStream (.mma f) f 1), (.mmas f, true, s.prepStream (.mmas f) f 2), (.accz f, true, s.prepAccz f),
      (.drain f, true, s.prepDrain f), (.probe f, true, s.prepStream (.probe f) f 1), (.clsf f, true, s.prepClsf f),
      (.corr f, true, s.prepCorr f), (.tfit f, s.curCtx.producer f.x.toNat == 1, s.prepTfit f), (.tload f, true, s.prepTload f),
      (.tsave f, true, s.prepTsave f), (.tset f, true, s.prepTset f),
      (.escn f, s.curCtx.producer f.x.toNat == 1, s.prepEscn f), (.rlpop f, s.curCtx.producer f.x.toNat == 1, s.prepRlpop f),
      (.refold f, s.curCtx.mayPop 1 (f.imm.toNat % 64), s.prepRefold f)],
    e.1.wellFormed = true → e.2.1 = true → dispatches s e.1 w 1 (e.2.2 (s.cmdOf e.1 f))

/-- R66, R67, R156, R157, R159, R210, R211: the dispatch of the STE instructions.

R66, R67, R291 to R303, R368: the dispatch of the IDX and LNK instructions. -/
def Obligations.StoreIndexAndLinkInstructionsAreDispatched : Prop :=
  (∀ (s : State) (f : EF),
     let w := if f.md.isSome then 3 else 2
     ∀ e ∈ [(Instr.cpout f, true, s.prepCpout f), (.stch f, s.curCtx.mayPop 3 f.x.toNat, s.prepStch f),
       (.stchApp f, s.curCtx.mayPop 3 f.x.toNat, s.prepStchApp f), (.stg f, true, s.prepStg f), (.stat f, true, s.prepStat f)],
     e.1.wellFormed = true → e.2.1 = true → dispatches s e.1 w 3 (e.2.2 (s.cmdOf e.1 f))) ∧
  (∀ (s : State) (f : EF),
     let w := if f.md.isSome then 3 else 2
     ∀ e ∈ [(Instr.gath f, 4, (f.sub == 0 || s.curCtx.producer f.x.toNat == 4), s.prepGath f), (.scat f, 4, true, s.prepScat f),
       (.ixlist f, 4, true, s.prepIxlist f), (.ixpage f, 4, (f.sub == 0 || s.curCtx.producer f.x.toNat == 4), s.prepIxpage f),
       (.ixsum f, 4, true, s.prepIxsum f), (.cpost f, 5, true, s.prepCpost f), (.cjoin f, 5, true, s.prepCjoin f),
       (.cstat f, 5, s.curCtx.producer f.y.toNat == 5, s.prepCstat f)],
     e.1.wellFormed = true → e.2.2.1 = true → dispatches s e.1 w e.2.1 (e.2.2.2 (s.cmdOf e.1 f)))

/-- R67, R326: what appending an entry does: it goes to the end of its queue with the pins and the format word it takes, it has the next
command number's record in the journal, the format word leaves the format queue, and the address register named by P is post-updated.

R66, R177: issuing an entry takes it out of its queue alone, consumes the token of each of its wait bits, and marks its record. -/
def Obligations.QueueEntries : Prop :=
  (∀ (s : State) (eng : Nat) (p : Prep) (pins : List Pin),
     let t := s.append eng p pins
     let m : Cmd := { p.cmd with
       pins := pins, fmt := if p.pop then s.cur.fmtq.head? else none }
     t.cur.queue eng = s.cur.queue eng ++ [m] ∧ (∀ e, e ≠ eng → t.cur.queue e = s.cur.queue e) ∧
     t.cur.journal = s.cur.journal ++ [{ j := s.cur.jcnt.toNat, kind := 0, cmd := m, once := onceOf m.i }] ∧
     t.cur.jcnt = s.cur.jcnt + 1 ∧ t.cur.fmtq = (if p.pop then s.cur.fmtq.tail else s.cur.fmtq) ∧
     (∀ k, t.cur.getA k = if p.post = some k then (s.cur.getA k).postUpdate else s.cur.getA k) ∧
     t.cur.s = s.cur.s ∧ t.cur.pc = s.cur.pc ∧ t.cur.lc = s.cur.lc ∧ t.cur.tok = s.cur.tok ∧ t.cur.v = s.cur.v ∧ t.cur.p = s.cur.p ∧
     t.mem = s.mem ∧ t.clusters = s.clusters ∧ t.ctxs = s.ctxs ∧ (∀ c, (t.core c).spad = (s.core c).spad) ∧
     ∀ x j, (x, j) ≠ (s.sel, s.slot) → t.stream x j = s.stream x j) ∧
  (∀ (u : Stream) (eng now : Nat) (m : Cmd), m.dataOnly = false →
     let t := u.issueCmd eng m now
     (∀ e, e ≠ eng → t.queue e = u.queue e) ∧ (t.queue eng = (u.queue eng).filter (fun x => x.j != m.j)) ∧
     (t.journal.length = u.journal.length) ∧ (∀ r ∈ t.journal, r.j = m.j → r.issued = true) ∧
     (∀ r ∈ u.journal, r.j ≠ m.j → r ∈ t.journal) ∧
     (u.tokensFor eng m = true → ∀ b < 8,
       t.tokAt b + (if b ∈ waitBytes eng (tokOf m.i) then 1 else 0) = u.tokAt b) ∧ t.s = u.s ∧ t.pc = u.pc ∧ t.st = u.st)

/-- R67, R326: a dispatch to a full queue, or with 32 live records, takes no effect and ends the block, whatever else the instruction would do;
so does one whose translation misses the cache; a failed check of the dispatch is a precise trap.  That the records are counted ahead of the
checks of R67's steps 3 and 4 is the model's reading, log entry 48.  Stated of one instruction of each
of five engines: `cpin`, `mma`, `cpout`, `scat` and `cpost`. -/
def Obligations.DispatchStalls : Prop :=
  ∀ (s : State) (f : EF) (m : Instr),
    ∀ e ∈ [(Instr.cpin f, 0, s.prepIn (.cpin f) f), (.mma f, 1, s.prepStream (.mma f) f 1), (.cpout f, 3, s.prepCpout f),
      (.scat f, 4, s.prepScat f), (.cpost f, 5, s.prepCpost f)],
    e.1.wellFormed = true → m = e.1 →
    let waits := fun (w : Wait) => Gives (exec m s) (fun t => Ends s t s.cur s.cur.pc (.waiting w))
    (16 ≤ (s.cur.queue e.2.1).length → waits (.stall (.queue e.2.1))) ∧
    ((s.cur.queue e.2.1).length < 16 → 32 ≤ s.cur.journal.length → waits (.stall .journal)) ∧
    (∀ p va, (s.cur.queue e.2.1).length < 16 → s.cur.journal.length < 32 → e.2.2 (s.cmdOf e.1 f) = .ok p →
      (p.pop = true → s.cur.fmtq ≠ []) →
      xlatAll (s.die (s.sel / 48)).tlb (s.ctxOf s.sel) [] (sortAccs p.accs) = .miss va → waits (.walk va)) ∧
    (∀ tr, (s.cur.queue e.2.1).length < 16 → s.cur.journal.length < 32 → e.2.2 (s.cmdOf e.1 f) = .error tr →
      Gives (exec m s) (fun t => t = s.trap tr))

/-! ## Steps of the device: streams, engines, placement -/

/-- R62, R67, R68, R94, R103, R314, R317, R318: the steps in which a walk ends, the drain of `mode` or of `halt` is complete, a pending fault
is taken, and the watchdog of a waiting stream expires.

R97, R100, R103, R104: at the end of a unit's last iteration its slot is free, what the unit was charged is returned, and its nest has one
unit less running; when all units of the nest have ended, the completion word is stored, here on the launching die's own page, and the nest's records
are free.  That a waiting or halting stream that traps is made ready is the model's reading,
log entry 28. -/
def Obligations.StreamEvents : Prop :=
  ∀ (s : State) (c k : Nat), s.runs c = true →
    let u := s.stream c k
    let w := (s.ctx (s.ctxOf c)).cfg.wdog
    (∀ va e s', u.st = .waiting (.walk va) → s.fill (c / 48) (s.ctxOf c) va = .ok (e, s') →
      Gives (exec (.translationWalkDone c k) s) (fun t =>
        OnlyStream c k s' t ∧ t.stream c k = { s'.stream c k with st := .ready })) ∧
    (∀ b, u.st = .waiting (.drain b) → u.drained = true → u.intrap = true ∨ u.faults = [] → Gives (exec (.modeDrainComplete c k) s) (fun t =>
      OnlyStream c k { s with deeds := t.deeds } t ∧ Passed 1 { u with exp := b, st := .ready } (t.stream c k))) ∧
    (u.st = .halting → u.drained = true → u.faults = [] → u.unit = none → Gives (exec (.haltDrainComplete c k) s) (fun t =>
      (t.stream c k).st = .free ∧ (t.stream c k).tok = 0 ∧ (t.stream c k).lease = .none ∧ (t.stream c k).intrap = false ∧
      ∀ x j, (x, j) ≠ (c, k) → t.stream x j = s.stream x j)) ∧
    (∀ r, u.st = .halting → u.drained = true → u.faults = [] → u.unit = some r → r.iter + 1 < combos (temporalLevels r.levels) →
      Gives (exec (.haltDrainComplete c k) s) (fun t =>
        (t.stream c k).unit = some { r with iter := r.iter + 1 } ∧ (t.stream c k).st = .ready ∧ (t.stream c k).pc = r.entry ∧
        (t.stream c k).tok = 0 ∧ (t.stream c k).lease = .none ∧ ∀ x j, (x, j) ≠ (c, k) → t.stream x j = s.stream x j)) ∧
    (∀ r, u.st = .halting → u.drained = true → u.faults = [] → u.unit = some r → combos (temporalLevels r.levels) ≤ r.iter + 1 →
      let d := c / 48
      let mine := s.nestRecs r.nest
      let left := fun (q : Nat × Nest) => q.2.running - (if q.1 = d then 1 else 0)
      let ended := ∀ q ∈ mine, q.2.units ≤ q.2.next ∧ left q = 0
      let freed := fun (t : State) =>
        (t.stream c k).st = .free ∧ (t.stream c k).unit = none ∧ (t.stream c k).tok = 0 ∧ (t.stream c k).lease = .none ∧
        (t.stream c k).intrap = false ∧
        (t.core c).used = (if k < 5 then demandMinus (s.core c).used r.demand else (s.core c).used) ∧
        ∀ x j, (x, j) ≠ (c, k) → t.stream x j = s.stream x j
      (¬ended → s.overfull = false → Gives (exec (.haltDrainComplete c k) s) (fun t =>
        freed t ∧ t.mem = s.mem ∧ (∀ e, e ≠ d → t.die e = s.die e) ∧
        (t.die d).nests = (s.die d).nests.map (fun z => if z.id = r.nest then { z with running := z.running - 1 } else z) ∧
        (t.die d).waiting = (s.die d).waiting.map (fun z => if z.id = r.nest then { z with running := z.running - 1 } else z))) ∧
      (∀ e x, ended → mine.head? = some (e, x) → (s.ctx x.ctx).faulted = false → s.overfull = false → s.transit = [] → s.root = [] →
        s.races = [] → (∀ e, (s.die e).held = []) →
        let pa := x.donePin.pbase + x.done % 2 ^ x.donePin.size
        x.donePin.cmp = false → x.donePin.vbase = x.done / 2 ^ x.donePin.size * 2 ^ x.donePin.size → pa / 2 ^ 39 = x.home → pa + 8 ≤ 2 ^ 42 →
        Gives (exec (.haltDrainComplete c k) s) (fun t =>
          freed t ∧ (∀ e < 8, ∀ z ∈ (t.die e).nests ++ (t.die e).waiting, z.id ≠ r.nest) ∧
          ∀ a, (t.mem.read a).toNat =
            if pa ≤ a ∧ a < pa + 8 then x.value.toNat / 2 ^ (8 * (a - pa)) % 256 else (s.mem.read a).toNat))) ∧
    (∀ f, u.faults = [f] → s.vecFresh c k = false → u.intrap = false → u.st ≠ .free → (s.ctx (s.ctxOf c)).trapVec ≠ 0 →
      Gives (exec (.takeTrap c k) s) (fun t =>
        let v := t.stream c k
        v.faults = [] ∧ v.intrap = true ∧ v.exp = false ∧ v.pc = (s.ctx (s.ctxOf c)).trapVec ∧
        v.fr.cause = BitVec.ofNat 64 ((if u.exp then 2 ^ 15 else 0) + f.eng * 2 ^ 8 + f.cause) ∧
        v.fr.ident = BitVec.ofNat 64 (identOf c k) ∧ v.fr.cursor = BitVec.ofNat 64 f.cursor ∧ v.fr.pc = f.pc ∧
        v.st = (match u.st with | .waiting _ => .ready | .halting => .ready | x => x) ∧
        v.fr.resume = u.pc ∧ v.fr.stat = f.stat ∧ v.fr.va = f.va ∧ v.fr.jnum = BitVec.ofNat 64 f.j ∧
        (f.halts = true → v.halted = u.halted ||| (1 <<< f.eng)) ∧ v.s = u.s ∧ v.tok = u.tok ∧ v.queues = u.queues ∧
        ∀ x j, (x, j) ≠ (c, k) → t.stream x j = s.stream x j)) ∧
    (∀ b n, u.st = .waiting (.tok b n) → s.condHolds c k (.tok b n) = false → w ≠ 0 → microAfter (u.progress + w * 1000) ≤ s.now → (∀ e < 6, u.queue e = []) →
      s.vecFresh c k = false → u.intrap = false → (s.ctx (s.ctxOf c)).trapVec ≠ 0 →
      Gives (exec (.watchdogExpiry c k) s) (fun t =>
        let v := t.stream c k
        v.fr.cause.toNat % 2 ^ 12 = 0x814 ∧ v.fr.pc = u.pc ∧ v.fr.resume = u.pc ∧ v.fr.jnum = BitVec.ofNat 64 u.jcnt.toNat ∧
        v.pc = (s.ctx (s.ctxOf c)).trapVec ∧ v.st = .ready ∧ v.intrap = true ∧
        ∀ x j, (x, j) ≠ (c, k) → t.stream x j = s.stream x j))

/-- R66, R147, R177, R188, R214, R237, R263, R291, R326: an engine issues the entry that it chooses, or of a list tile with an
uncorrectable error raises cause 0x12 and leaves the entry where it is; a command completes with its signals, its arrival at a barrier, its
tiles released and its record done; and a marker leaves the head of its queue.  That the error of a list tile comes before the check of the
list's capacity, which would raise cause 0x0A, is the model's reading, log entry 49. -/
def Obligations.EngineEvents : Prop :=
  ∀ (s : State) (c k eng j : Nat) (m : Cmd) (f : Flight) (l : List Cmd) (bad : Bool),
    let s' := if eng = 1 then s.askAgain c else s
    (s.runs c = true → s.mayIssue c = true → s'.pickHead c eng = some (k, m) → s'.leaseless c k eng m = false →
      (bad = false ∨ eng ≠ 1 ∨ s'.readsList c k m = false →
        Gives (exec (.engineIssue c ⟨eng, bad⟩) s) (fun t => t = s'.issueAt c k eng m)) ∧
      (bad = true → eng = 1 → s'.readsList c k m = true →
        Gives (exec (.engineIssue c ⟨eng, bad⟩) s) (fun t =>
          (∃ x, (t.stream c k).faults = (s.stream c k).faults ++ [x] ∧ x.cause = 0x12 ∧ x.eng = 1 ∧ x.j = m.j ∧ x.halts = true) ∧
          (t.stream c k).bitHalted 1 = true ∧ (t.stream c k).queues = (s.stream c k).queues ∧
          (t.core c).planes = (s.core c).planes ∧ (t.core c).acc = (s.core c).acc ∧ t.mem = s.mem))) ∧
    (s.alive c = true → (s.stream c k).queue eng = m :: l → m.mark = some (0, 0) → (s.stream c k).bitHalted eng = false →
      (∀ e ∈ [0, 1, 3, 4, 5], (s.stream c k).queue e = [] ∨ e = eng) → l = [] → (s.stream c k).flights = [] →
      Gives (exec (.fenceMarkerRetire c k eng) s) (fun t =>
        (t.stream c k).queue eng = [] ∧ ∀ x n, (x, n) ≠ (c, k) → t.stream x n = s.stream x n)) ∧
    (s.boot = .up → s.alive c = true → (s.stream c k).flight? j = some f → f.eng < 5 → f.done = true → f.failed = false →
      s.transit = [] → s.root = [] → s.overfull = false → f.lands = none → (s.core c).pushing = [] →
      Gives (exec (.commandCompletion c k j) s) (fun t =>
        let u := s.stream c k
        let v := t.stream c k
        let tok := tokOf f.cmd.i
        let sent := fun b => (if tok.su ∧ tokenByte f.eng 1 = b then 1 else 0) + (if tok.sd ∧ tokenByte f.eng 0 = b then 1 else 0)
        let cl := c / 4
        t = s.finish c k f ∧ v.flight? j = none ∧ (∀ r ∈ v.journal, r.j = j → r.done = true) ∧
        (f.cmd.dataOnly = false →
          ((∀ b < 8, u.tokAt b + sent b ≤ 255) → ∀ b < 8, v.tokAt b = u.tokAt b + sent b) ∧
          (f.cmd.tiles.Nodup → ∀ n, (t.tile c n).out = (s.tile c n).out - (if n ∈ f.cmd.tiles then 1 else 0)) ∧
          (∀ e, f.eng = 4 → f.cmd.i ∈ [Instr.gath e, .scat e, .ixlist e, .ixpage e, .ixsum e] → e.y.getLsbD 4 = true →
            let b := e.y.toNat % 16
            let x := s.bar cl b
            x.expected ≠ 0 →
              (t.bar cl b).arrival = (if x.arrival + 1 = x.expected then 0 else x.arrival + 1) ∧
              (t.bar cl b).phase = (if x.arrival + 1 = x.expected then !x.phase else x.phase) ∧
              ∀ y n, (y, n) ≠ (cl, b) → t.bar y n = s.bar y n) ∧
          (f.eng < 4 → ∀ y n, t.bar y n = s.bar y n)) ∧
        (f.cmd.dataOnly = true → v.tok = u.tok ∧ (∀ n, t.tile c n = s.tile c n) ∧ ∀ y n, t.bar y n = s.bar y n) ∧
        v.s = u.s ∧ v.pc = u.pc ∧ v.queues = u.queues ∧ t.mem = s.mem ∧
        ∀ x i, (x, i) ≠ (c, k) → t.stream x i = s.stream x i))

/-- R143, R154, R160, R182, R210, R226: a unit of a command, with nothing that races with it, takes place.  One of `ldbc` from scratchpad pushes a channel entry that holds the word at
the next address in all 64 lanes; the one of a scalar `stg` to a page of the core's own die stores the low bytes of its operand there and
changes no other byte of memory; an uncorrectable error stops a command at its cursor with cause 0x12 (R162). -/
def Obligations.UnitsOfACommand : Prop :=
  ∀ (s : State) (c k j : Nat) (f : Flight) (e : EF),
    s.alive c = true → (s.stream c k).flight? j = some f → f.failed = false → f.done = false → s.chanTurn c f = true →
    s.overfull = false → s.races = [] → s.deeds = [] → s.transit = [] →
    (f.eng = 0 → f.cmd.i = .ldbc e → e.sub.getLsbD 0 = false →
      let ch := e.x.toNat
      let word := leNat (s.spadBytes c (f.cmd.addr.toNat + 4 * f.cursor) 4)
      ((s.chan c ch).length + ((s.core c).toPush ch).length < 8 →
        Gives (exec (.unitCompletion c k j false) s) (fun t =>
          (∃ x, t.chan c ch = s.chan c ch ++ [x] ∧ x.mask = BitVec.allOnes 64 ∧
            ∀ n < 64, x.data.toNat / 2 ^ (32 * n) % 2 ^ 32 = word) ∧
          (∀ y n, (y, n) ≠ (c, ch) → t.chan y n = s.chan y n) ∧
          ((t.stream c k).flight? j).map (·.cursor) = some (f.cursor + 1) ∧ t.mem = s.mem)) ∧
      Gives (exec (.unitCompletion c k j true) s) (fun t =>
        ((t.stream c k).flight? j).map (fun g => (g.cursor, g.failed)) = some (f.cursor, true) ∧
        (∃ x, (t.stream c k).faults = (s.stream c k).faults ++ [x] ∧ x.cause = 0x12 ∧ x.j = f.cmd.j ∧ x.cursor = f.cursor) ∧
        (t.stream c k).bitHalted 0 = true ∧ ∀ y n, (y, n) ≠ (c, k) → t.stream y n = s.stream y n)) ∧
    (∀ p, f.eng = 3 → f.cmd.i = .stg e → e.sub.toNat < 4 → f.cmd.pins = [p] → p.cmp = false → 16 ≤ p.size →
      let va := f.cmd.a.toNat
      let n := 2 ^ e.sub.toNat
      let pa := p.pbase + va % 2 ^ p.size
      p.vbase = va / 2 ^ p.size * 2 ^ p.size → va % n = 0 → p.pbase + 2 ^ p.size ≤ 2 ^ 42 → pa / 2 ^ 39 = c / 48 →
      (∀ d, (s.die d).held = []) →
      Gives (exec (.unitCompletion c k j false) s) (fun t =>
        (∀ x, (t.mem.read x).toNat =
          if pa ≤ x ∧ x < pa + n then f.cmd.b.toNat / 2 ^ (8 * (x - pa)) % 256 else (s.mem.read x).toNat) ∧
        ((t.stream c k).flight? j).map (·.cursor) = some (f.cursor + 1) ∧ (t.stream c k).s = (s.stream c k).s ∧
        ∀ y i, (y, i) ≠ (c, k) → t.stream y i = s.stream y i))

/-- R69, R109, R112 to R119: a VEC instruction on 32-bit lanes without modifiers (`vand`, `vor`, `vxor` and `vmov` with ty at its 0, R116),
issued in a scoreboard region by a stream with nothing
in flight, writes each lane that its predicate turns on and leaves every other lane and every other register. -/
def Obligations.VectorResultsByLane : Prop :=
  ∀ (s : State) (c k : Nat) (m : Cmd) (f : VF) (bad : Bool),
    f.md = none → s.runs c = true → s.mayIssue c = true → s.pickHead c 2 = some (k, m) → m.dataOnly = false →
    (s.stream c k).exp = false → (s.stream c k).pend = [] →
    let u := s.stream c k
    let lane := fun (v : Vec) (l : Nat) => v.toNat / 2 ^ (32 * l) % 2 ^ 32
    let a := lane (u.vecAt (u.physV f.va.toNat))
    let b := lane (u.vecAt (u.physV f.vb.toNat))
    let signed := fun (x : Nat) => if x < 2 ^ 31 then (x : Int) else (x : Int) - 2 ^ 32
    let d := u.physV f.vd.toNat
    ∀ e ∈ ([(Instr.vadd f, 8, fun x y => (x + y) % 2 ^ 32), (.vsub f, 8, fun x y => (x + 2 ^ 32 - y) % 2 ^ 32),
        (.vmul f, 8, fun x y => x * y % 2 ^ 32), (.vmin f, 8, fun x y => if signed x ≤ signed y then x else y),
        (.vmax f, 8, fun x y => if signed x ≤ signed y then y else x), (.vand f, 0, fun x y => x &&& y),
        (.vor f, 0, fun x y => x ||| y), (.vxor f, 0, fun x y => x ^^^ y), (.vmov f, 0, fun x _ => x)] :
        List (Instr × BitVec 5 × (Nat → Nat → Nat))), m.i = e.1 → f.ty = e.2.1 →
      Gives (exec (.engineIssue c ⟨2, bad⟩) s) (fun t =>
        let v := t.stream c k
        (∀ l < 64, lane (v.vecAt d) l =
          if (u.predAt (u.physP f.pg.toNat)).getLsbD l then e.2.2 (a l) (b l) else lane (u.vecAt d) l) ∧
        (∀ r, r ≠ d → v.vecAt r = u.vecAt r) ∧ v.p = u.p ∧ v.s = u.s ∧ v.a = u.a ∧ v.pc = u.pc ∧
        (∀ y i, (y, i) ≠ (c, k) → t.stream y i = s.stream y i) ∧ t.mem = s.mem)

/-- R238, R242: `accz` issued under the lease zeroes its accumulator rows, all 256 from row0 on for a count of 0, and leaves the others;
zeroing all 256 clears the invalid mark.  That the effect falls in the step of the issue is the model's choice, log entry 36. -/
def Obligations.AccumulatorClears : Prop :=
  ∀ (s : State) (c k : Nat) (m : Cmd) (f : EF) (bad : Bool),
    m.i = .accz f → s.runs c = true → s.mayIssue c = true → (s.askAgain c).pickHead c 1 = some (k, m) →
    (s.askAgain c).leaseless c k 1 m = false →
    let r0 := m.a.toNat
    let n := if m.b = 0 then 256 - r0 else m.b.toNat
    Gives (exec (.engineIssue c ⟨1, bad⟩) s) (fun t =>
      (∀ r, (t.core c).acc.getD r 0 = if r0 ≤ r ∧ r < r0 + n then 0 else (s.core c).acc.getD r 0) ∧
      (t.core c).accBad = (if n = 256 then false else (s.core c).accBad) ∧ (t.core c).planes = (s.core c).planes ∧
      (∀ x, x ≠ c → t.core x = s.core x) ∧ t.mem = s.mem)

/-- R93, R94, R96, R97, R99, R102, R374: the walker places the next unit of the first nest that fits, a nest that has placed nothing for
1 ms rises by one step up to 7, and a host launch is accepted with a completion entry.

R96, R97: the place is the lowest slot that fits of the first core that has one, from the core after the last placement on in ascending
order, wrapping round.  That the search starts at the context's first core where nothing has been placed yet is the model's choice, log
entry 15, and that each die's record of a nest ages by that die's placements is log entry 47.

R95, R100: a nest that is accepted stands on each die that it uses behind the others, at its first unit there, and the page of its completion
word is pinned. -/
def Obligations.PlacementEvents : Prop :=
  ∀ (s s' : State) (d n : Nat) (x : Nest) (c k func addr : Nat),
    (s.boot = .up → (s.die d).nests = [x] → x.next < x.units → (s.ctx x.ctx).st = .resident → (s.ctx x.ctx).faulted = false →
      s.place? d x = some (c, k) →
      Gives (exec (.unitPlacement d) s) (fun t =>
        let v := t.stream c k
        v.st = .ready ∧ v.pc = x.entry ∧ v.getS 31 = BitVec.ofNat 64 (identOf c k) ∧ v.tok = 0 ∧ v.exp = false ∧ v.alloc = x.demand.vregs ∧
        ((t.die d).nests.map (·.running) = [x.running + 1]) ∧ ∀ y i, (y, i) ≠ (c, k) → t.stream y i = s.stream y i)) ∧
    (let cores := (s.ctx x.ctx).coreList.filter (fun y => y / 48 = d)
     let later := fun (y : Nat) => match (s.die d).rr.find x.ctx with | some l => decide (l < y) | none => true
     let sooner := fun (y z : Nat) => (later y = true ∧ later z = false) ∨ (later y = later z ∧ y < z)
     let fitsAt := fun (y i : Nat) => i < 8 ∧ (s.stream y i).st = .free ∧
       (if i < 5 then fits (demandPlus (s.core y).used x.demand) (coreShared ((s.ctx x.ctx).coreCfg y)) = true
        else i - 4 ≤ x.depth ∧ fits x.demand (coreReserve ((s.ctx x.ctx).coreCfg y) (i - 4)) = true)
     (s.place? d x = some (c, k) →
       c ∈ cores ∧ fitsAt c k ∧ (∀ i < k, ¬fitsAt c i) ∧ ∀ y ∈ cores, sooner y c → ∀ i, ¬fitsAt y i) ∧
     (s.place? d x = none → ∀ y ∈ cores, ∀ i, ¬fitsAt y i)) ∧
    (s.boot = .up → (s.die d).nests = [x] → x.id = n →
      let due := x.next < x.units ∧ x.since + 1000000 ≤ s.now ∧ x.prio < 7
      Gives (exec (.priorityAgeing d n) s) (fun t =>
        (due → (t.die d).nests = [{ x with prio := x.prio + 1, since := x.since + 1000000 }]) ∧
        (¬due → (t.die d).nests = [x]) ∧ t = { s with dies := t.dies } ∧ ∀ e, e ≠ d → t.die e = s.die e)) ∧
    (∀ ctx, s.boot = .up → s.ownsCtx func ctx = true → (s.ctx ctx).st = .resident →
      s.readNest ctx d (acctOf func) addr 0 = .ok (x, s') → (∀ e ∈ nestDies x.home x.mask, s'.poolFree e x.depth = true) →
      Gives (exec (.launchEntry func ctx d addr) s) (fun t =>
        t.completions = s'.completions ++ [{ func := func, queue := 0, status := 0 }] ∧
        ((s'.ctx x.ctx).st = .resident → Accepted s' t x) ∧
        t = { s'.accept x with completions := t.completions }))

/-- R230 to R232: a free slab with no slab command in flight goes to the next requesting core in turn, and there to the stream whose request
is the oldest; a lease ends after 8,192 effective cycles, its stream lapsed, or requesting again where a renewal is set.  Of equal requests the
lower slot goes first. -/
def Obligations.LeaseEvents : Prop :=
  ∀ (s : State) (cl c k : Nat),
    let x := s.cluster cl
    (s.nextHolder cl = some (c, k) →
      let turn := fun (y : Nat) => (y % 4 + 3 - x.lastCore % 4) % 4
      let asks := fun (y i : Nat) => i < 8 ∧ (s.stream y i).lease = .requested
      c / 4 = cl ∧ s.alive c = true ∧ asks c k ∧
        (∀ i, asks c i → (s.stream c k).reqAt < (s.stream c i).reqAt ∨ (s.stream c k).reqAt = (s.stream c i).reqAt ∧ k ≤ i) ∧
        ∀ y, y / 4 = cl → s.alive y = true → turn y < turn c → ∀ i, ¬asks y i) ∧
    (s.boot = .up → x.holder = none → s.slabIdle cl = true → s.nextHolder cl = some (c, k) → c / 4 = cl →
      Gives (exec (.leaseGrant cl) s) (fun t =>
        (t.cluster cl).holder = some (c, k) ∧ (t.cluster cl).issued = 0 ∧ (t.cluster cl).grantAt = x.eff s.now ∧
        (t.stream c k).lease = .held ∧ (t.stream c k).renew = false ∧ (t.stream c k).s = (s.stream c k).s ∧
        ∀ y i, (y, i) ≠ (c, k) → t.stream y i = s.stream y i)) ∧
    (s.boot = .up → x.holder = some (c, k) → x.grantAt + 8192 ≤ x.eff s.now →
      Gives (exec (.leaseEnd cl) s) (fun t =>
        (t.cluster cl).holder = none ∧
        (t.stream c k).lease = (if (s.stream c k).renew then .requested else .lapsed) ∧
        ∀ y i, (y, i) ≠ (c, k) → t.stream y i = s.stream y i)) ∧
    (x.eff s.now < x.grantAt + 8192 → Gives (exec (.leaseEnd cl) s) (fun t => t = s))

/-! ## Memory -/

/-- R195, R203, R205, R219, R338, R379, R380: a write that the host makes on a module that is up, with no line held, is what memory holds there
afterwards, and every other byte reads as before; it heals a poisoned line that it covers; a host's access touches nothing else but the
accounts that it is charged to and the count of corrected errors (log entries 12, 19), and the model's own notes: that a save area was
written (log entry 17), of code and page-table words as they were (log entries 8, 13), and of what commands in flight may race with (log
entry 10).  A write to a remote home is applied when its home serves it, unless it meets a full spill area (log entry 18),
and the root port applies the oldest write to the host aperture: the two queues are the model's, log entry 9.  A scrub marks a line that it
cannot correct, and counts one that it corrects. -/
def Obligations.MemoryPortEvents : Prop :=
  ∀ (s : State) (func pa : Nat) (bs : List Byte) (w : Transit) (l : List Transit),
    let stored := fun (u : State) (pa : Nat) (bs : List Byte) (t : State) =>
      (∀ a, t.mem.read a = if pa ≤ a ∧ a < pa + bs.length then bs.getD (a - pa) 0 else u.mem.read a) ∧
      t = { u with
        mem := t.mem, poison := t.poison, laid := t.laid, marks := t.marks, stale := t.stale, oldEntries := t.oldEntries, ctxs := t.ctxs
        dies := t.dies, accounts := t.accounts, draws := t.draws, races := t.races, accesses := t.accesses, transit := t.transit
        root := t.root, spill := t.spill } ∧
      (∀ i, { t.ctx i with spoiled := false } = { u.ctx i with spoiled := false }) ∧
      (∀ d, { t.die d with corrected := 0, energy := [], dieEnergy := 0 } = { u.die d with corrected := 0, energy := [], dieEnergy := 0 }) ∧
      (∀ q ∈ t.poison, q ∈ u.poison ∧ ¬(pa ≤ 64 * q ∧ 64 * q + 64 ≤ pa + bs.length))
    ((∀ d, (s.die d).held = []) → s.boot = .up → physOk pa bs.length = true →
      Gives (exec (.portAccess (.hostWrite func pa bs)) s) (fun t => stored s pa bs t ∧
        t.transit = s.transit ∧ t.root = s.root ∧ t.spill = s.spill) ∧
      Gives (exec (.portAccess (.hostRead func pa bs.length)) s) (fun t =>
        t = { s with accounts := t.accounts, dies := t.dies, draws := t.draws, races := t.races, accesses := t.accesses } ∧
        ∀ d, { t.die d with corrected := 0, energy := [], dieEnergy := 0 } = { s.die d with corrected := 0, energy := [], dieEnergy := 0 })) ∧
    ((∀ d, (s.die d).held = []) → s.transit = w :: l → w.reds = [] → isAperture w.pa = false → s.overfull = false → s.races = [] →
      (w.cmp = false →
        Gives (exec (.portAccess (.deliver w.src w.home)) s) (fun t => stored s w.pa w.bytes t ∧
          t.transit = l ∧ t.root = s.root ∧ t.spill = s.spill)) ∧
      (w.cmp = true → w.bytes ≠ [] → s.spillFull w.pa = true →
        Gives (exec (.portAccess (.deliver w.src w.home)) s) (fun t => t = s))) ∧
    (s.root = w :: l → s.races = [] → Gives (exec (.portAccess .rootAccept) s) (fun t =>
      stored s w.pa w.bytes t ∧ t.root = l ∧ t.transit = s.transit ∧ t.spill = s.spill)) ∧
    (s.boot = .up → (∀ d, (s.die d).held = []) → pa < 2 ^ 36 →
      Gives (exec (.patrolScrub pa .uncorrectable) s) (fun t => pa ∈ t.poison ∧ t.mem = s.mem ∧ t.cores = s.cores) ∧
      Gives (exec (.patrolScrub pa .corrected) s) (fun t => t.poison = s.poison ∧ t.mem = s.mem ∧ t.cores = s.cores ∧
        (t.die (homeDie (64 * pa))).corrected = (s.die (homeDie (64 * pa))).corrected + 1)) ∧
    (∀ k, s.spill.getD k 0 ≠ 0 → Gives (exec (.spillSpaceFreed k) s) (fun t =>
      t.spill.getD k 0 < s.spill.getD k 0 ∧ ∀ i, i ≠ k → t.spill.getD i 0 = s.spill.getD i 0))

/-- R207, R208: the reductions of a held line are applied in the order of requester identity, command number and element index, whatever
the order in which they reached the home: the same set gives the same memory. -/
def Obligations.ExactReductionsIgnoreArrivalOrder : Prop :=
  ∀ (s : State) (d line : Nat) (a b : List Red), a.Perm b →
    (a.map (fun r => (r.ident, r.j, r.idx))).Nodup →
    let held := fun (l : List Red) => s.modDie d (fun x => { x with held := [{ line := line, reds := l }] })
    (held a).closeLine d line = (held b).closeLine d line

/-- R205, R207: a die's atomic on a location of HBM4E, outside the save areas that a save has laid down (R309), returns the old value and
leaves the new one: 32-bit integer addition and
compare-and-swap; nothing else of memory changes. -/
def Obligations.AtomicsReadAndReplace : Prop :=
  ∀ (s : State) (c acct pa x v : Nat) (r : Red), (∀ d, (s.die d).held = []) → s.transit = [] → s.root = [] → s.poison = [] →
    s.laid = [] → s.races = [] → isAperture pa = false → r.pa = pa → r.ty = 0 → r.x = x → x < 2 ^ 32 →
    let old := leNat (s.mem.bytes pa 4)
    let after := fun (p : Nat × Bool × State) (new : Nat) =>
      p.1 = old ∧ p.2.1 = false ∧ leNat (p.2.2.mem.bytes pa 4) = new ∧
        ∀ a, a < pa ∨ pa + 4 ≤ a → p.2.2.mem.read a = s.mem.read a
    (r.op = 0 → after (s.portAtomic c acct r none) ((old + x) % 2 ^ 32)) ∧
    (r.op = 6 → after (s.portAtomic c acct r none) x) ∧
    (r.op = 7 → after (s.portAtomic c acct r (some v)) (if old = v then x else old))

/-! ## Contexts, the host, power and links -/

/-- R308, R309, R325, R374, R375: a control entry creates a context on fresh cores or is refused whole; it destroys one, whose cores are
given up.  A refusal tells the host by an event, which waits while the event queue is full; its status is open (log entry 26). -/
def Obligations.ContextCreationAndDestruction : Prop :=
  ∀ (s s' : State) (func i : Nat) (cfg : CtxCfg), s.boot = .up → s.ctxBusy cfg.id = false →
    let x := { cfg with part := func }
    let made := s.create x (declaredMusts x) false
    (made = some s' → Gives (exec (.contextCreate func cfg) s) (fun t =>
      (t.ctx cfg.id).cfg = x ∧ (t.ctx cfg.id).st = .resident ∧ (t.ctx cfg.id).trapVec = cfg.trapVec ∧
      t.completions = s'.completions ++ [{ func := func, queue := 1, status := 0 }] ∧
      ∀ k ∈ cfg.cores, (t.core k.core).resident = some cfg.id ∧ (t.core k.core).streams = [] ∧ (t.core k.core).spad = [] ∧
        (t.core k.core).chans = [])) ∧
    (made = none → Gives (exec (.contextCreate func cfg) s) (fun t =>
      t.ctxs = s.ctxs ∧ t.cores = s.cores ∧ t.clusters = s.clusters ∧ t.dies = s.dies ∧ t.mem = s.mem ∧
      (s.eventsFull func = false → t.events.getD func [] = s.events.getD func [] ++ [.refused cfg.id]) ∧
      (s.eventsFull func = true → t.lateEvents.getD func [] = s.lateEvents.getD func [] ++ [.refused cfg.id]) ∧
      ∃ n, n ≠ 0 ∧ t.completions = s.completions ++ [{ func := func, queue := 1, status := n }])) ∧
    (s.ownsCtx func i = true → s.ctxBusy i = false → Gives (exec (.contextDestroy func i) s) (fun t =>
      t.ctxs = s.ctxs.erase i ∧ t.mem = s.mem ∧
      (∀ k ∈ (s.ctx i).cfg.cores, (s.core k.core).resident = some i → t.core k.core = {}) ∧
      (∀ d < 8, ∀ e ∈ (t.die d).tlb, e.2.ctx ≠ i) ∧ (∀ d < 8, ∀ n ∈ (t.die d).nests ++ (t.die d).waiting, n.ctx ≠ i) ∧
      t.completions = s.completions ++ [{ func := func, queue := 1, status := 0 }]))

/-- R322, R325, R359, R374: a pre-emption entry, or the partition schedule, starts a save, which ends with the context saved or torn; a
saved context is restored onto vacant cores, and one is recovered from a whole keep-store image.  A pre-emption waits for a trap that is being taken, which VEC results hold up (R325, log entry 32); a save waits for VEC results in their cycle
of issue (R71), and where its save area, in compressed pages, finds no room (R203, log entry 18).  That the entry of a save completes when the
save ends, not before, is the model's reading, log entry 32.

R323: of a context with nothing in flight a save keeps every core's streams, tiles, channels, rings and slab state, and the scratchpad of its
live ranges and its journal; a restoration gives them back, but for a lease, which has lapsed (R230), if no byte of the save area has been
written meanwhile and no reduction is held there (R208, R309, log entry 17). -/
def Obligations.PreemptionAndRestoration : Prop :=
  ∀ (s s1 s2 : State) (func i : Nat) (ben : Option Nat) (bad : Bool) (cfg : CtxCfg), s.boot = .up →
    let same := fun (y z : Core) => y.tiles = z.tiles ∧ y.homes = z.homes ∧ y.chans = z.chans ∧ y.planes = z.planes ∧ y.acc = z.acc ∧
      y.accBad = z.accBad ∧ y.stats = z.stats ∧ y.esc = z.esc ∧ y.fsa = z.fsa ∧ y.fsb = z.fsb ∧ y.last = z.last ∧ y.used = z.used
    (s.ownsCtx func i = true → (s.ctx i).st = .resident → s.ctxBusy i = false →
      (s.trapping i = false → Gives (exec (.contextPreempt func i ben) s) (fun t =>
        (t.ctx i).st = .saving ∧ (t.ctx i).entry = some func ∧ t = { s with ctxs := t.ctxs } ∧ ∀ j, j ≠ i → t.ctx j = s.ctx j)) ∧
      (s.trapping i = true → Gives (exec (.contextPreempt func i ben) s) (fun t => t = s))) ∧
    ((s.ctxs.find i).map (·.st) = some .resident →
      (s.trapping i = false → Gives (exec (.partitionSchedulePreempt i) s) (fun t =>
        (t.ctx i).st = .saving ∧ t = { s with ctxs := t.ctxs } ∧ ∀ j, j ≠ i → t.ctx j = s.ctx j)) ∧
      (s.trapping i = true → Gives (exec (.partitionSchedulePreempt i) s) (fun t => t = s))) ∧
    (s.ctxBusy i = true →
      let quiet := ∀ c ∈ (s.ctx i).coreList, ∀ k, (s.stream c k).flights = [] ∧ (s.stream c k).pend = []
      let ends := fun (t : State) => (t.ctx i).st = (if bad then .torn else .saved) ∧ (t.ctx i).entry = none ∧
        (quiet → ∀ c ∈ (s.ctx i).coreList,
          let live := ((s.ctx i).coreCfg c).live
          ∃ y, (c, y) ∈ (t.ctx i).image.cores ∧ (∀ k, y.stream k = s.stream c k) ∧ same y (s.core c) ∧ y.rings = (s.core c).rings ∧
            ∀ a, (live = [] ∨ (∃ r ∈ live, r.1 ≤ a ∧ a < r.1 + r.2) ∨ ((s.ctx i).jnlBase ≤ a ∧ a < (s.ctx i).jnlBase + 0x4000)) →
              y.spad.read a = (s.core c).spad.read a)
      ((∃ c ∈ (s.ctx i).coreList, ∃ k < 8, s.vecFresh c k = true) → Gives (exec (.preemptSaveComplete i bad) s) (fun t => t = s)) ∧
      ((∀ c ∈ (s.ctx i).coreList, ∀ k < 8, s.vecFresh c k = false) →
        Gives (exec (.preemptSaveComplete i bad) s) (fun t => t = s.draw ∨ ends t) ∧
        (quiet → s.overfull = false → s.transit = [] → (∀ d, (s.die d).held = []) → (∀ p ∈ (s.ctx i).savePins, p.2.cmp = false) →
          Gives (exec (.preemptSaveComplete i bad) s) ends))) ∧
    (s.ownsCtx func i = true → (s.ctx i).st = .saved → s.ctxBusy i = false → s.coresVacant (s.ctx i) = true →
      Gives (exec (.contextRestore func i) s) (fun t => (t.ctx i).st = .resident ∧ (t.ctx i).image = {} ∧
        ((s.ctx i).spoiled = false → (∀ d, (s.die d).held = []) → ((s.ctx i).image.cores.map (·.1)).Nodup →
          (∀ e ∈ (s.ctx i).image.cores, ∀ k, (e.2.stream k).flights = []) → ∀ e ∈ (s.ctx i).image.cores,
          (t.core e.1).spad = e.2.spad ∧ same (t.core e.1) e.2 ∧ (t.core e.1).resident = some i ∧
          (∀ n, ((t.core e.1).ring n).fp = (e.2.ring n).fp ∧ ((t.core e.1).ring n).pp = (e.2.ring n).pp ∧
            ((t.core e.1).ring n).tp = (e.2.ring n).tp ∧ ((t.core e.1).ring n).rp = (e.2.ring n).rp ∧
            ((t.core e.1).ring n).slots = (e.2.ring n).slots ∧ ((t.core e.1).ring n).size = (e.2.ring n).size ∧
            ((t.core e.1).ring n).base = (e.2.ring n).base) ∧
          ∀ k, let u := e.2.stream k
            let v := t.stream e.1 k
            u.heldReply = none → v.pc = u.pc ∧ v.s = u.s ∧ v.a = u.a ∧ v.lc = u.lc ∧ v.p = u.p ∧ v.v = u.v ∧ v.pats = u.pats ∧
              v.exp = u.exp ∧ v.tok = u.tok ∧ v.queues = u.queues ∧ v.journal = u.journal ∧ v.jcnt = u.jcnt ∧ v.fmtq = u.fmtq ∧
              v.fr = u.fr ∧ v.intrap = u.intrap ∧ v.unit = u.unit ∧ (u.lease = .held → v.lease = .lapsed) ∧
              (u.st = .running → v.st = .ready)))) ∧
    (s.ctxBusy cfg.id = false → s.ctxs.find cfg.id = none →
      let r := s.keepReport cfg.id
      let x : CtxCfg := { cfg with part := func }
      r.whole = true → ({ cfg := x } : Ctx).coreList = r.cores →
      s.create x (recoveredMusts x r.musts) true = some s1 → s1.recover x r = some s2 → s2.overfull = false →
      Gives (exec (.contextRecover func cfg) s) (fun t =>
        t.completions = s2.completions ++ [{ func := func, queue := 1, status := 0 }] ∧ t.cores = s2.cores ∧ t.mem = s2.mem))

/-- R199, R320, R374, R375: an invalidation retires the cached translations of its range and completes when no command holds one; a reply
answers an open `hreq`, whose stream goes on, and one to what is no identity completes with 0xFE; the host frees event entries, and events that waited for them are posted.  The refusal of an invalidation of guarded pages is the
model's reading, log entry 33. -/
def Obligations.InvalidationsAndReplies : Prop :=
  ∀ (s : State) (func i lo len n : Nat) (v : W64), s.boot = .up → s.ownsCtx func i = true →
    (s.invals.getD func [] = [] → (s.ctx i).guards lo len = false →
      Gives (exec (.invalidationEntry func i lo len) s) (fun t =>
        (∀ d < 8, ∀ e ∈ (t.die d).tlb, e.2.covers i lo len = true → e.2.retiring = true) ∧
        (t.invals.getD func []).length = 1 ∧ t.cores = s.cores ∧ t.mem = s.mem ∧ t.completions = s.completions)) ∧
    ((s.ctx i).guards lo len = true → s.invals.getD func [] = [] →
      Gives (exec (.invalidationEntry func i lo len) s) (fun t => t.dies = s.dies ∧ t.invals = s.invals)) ∧
    (∀ q l, s.invals.getD func [] = q :: l → (∀ e ∈ q.ents, s.unpinned e = true) →
      Gives (exec (.invalidationComplete func) s) (fun t =>
        t.invals.getD func [] = l ∧ t.completions = s.completions ++ [{ func := func, queue := 2, status := 0 }])) ∧
    (let c := identCore n
     let k := identSlot n
     (identOf c k ≠ n → Gives (exec (.replyEntry func i n v) s) (fun t =>
       t = { s with completions := s.completions ++ [{ func := func, queue := 3, status := 0xFE }] })) ∧
     (identOf c k = n → (s.core c).resident = some i → (s.stream c k).asks = true → Gives (exec (.replyEntry func i n v) s) (fun t =>
      (t.stream c k).hreply = v ∧ (t.stream c k).st = .ready ∧
      (NoLoopEnd (s.stream c k) → (t.stream c k).pc = (s.stream c k).pc + 4) ∧
      t.completions = s.completions ++ [{ func := func, queue := 3, status := 0 }] ∧
      ∀ y j, (y, j) ≠ (c, k) → t.stream y j = s.stream y j))) ∧
    (let l := (s.events.getD func []).drop n ++ s.lateEvents.getD func []
     Gives (exec (.eventQueueHeadAdvance func n) s) (fun t =>
      t.events.getD func [] = l.take (s.ringEntries func 11) ∧ t.lateEvents.getD func [] = l.drop (s.ringEntries func 11) ∧
      (∀ p, p ≠ func → t.events.getD p [] = s.events.getD p []) ∧ t = { s with events := t.events, lateEvents := t.lateEvents }))

/-- R337, R363, R376 to R378, R381: assignments, attestation, firmware, override weights, keep-store reports and group handles, each taking
place whole on a module that is up.

R374: an assignment that is refused changes nothing and completes with status 0xFD.  Which assignments are refused, and that a group handle
and a report's release take effect as written, are the model's readings, log entries 26 and 33; the seven capabilities of a report are
log entry 11, and its signatures log entry 20. -/
def Obligations.HostManagement : Prop :=
  ∀ (s : State) (func d g n : Nat) (asg : Assign) (img : FwImage) (w : List (BitVec 12)) (cfg : GroupCfg), s.boot = .up →
    (s.assignOk asg = true → Gives (exec (.partitionAssignment 0 asg) s) (fun t =>
      t.parts.getD asg.func {} = { cores := asg.cores, quota := asg.quota, share := asg.share, ceil := asg.ceil } ∧
      t.cores = s.cores ∧ t.completions = s.completions ++ [{ func := 0, queue := 1, status := 0 }])) ∧
    (func ≠ 0 ∨ s.assignOk asg = false → Gives (exec (.partitionAssignment func asg) s) (fun t =>
      t = { s with completions := s.completions ++ [{ func := func, queue := 1, status := 0xFD }] })) ∧
    (let report := fun (sig : List (Nat × Nat)) => HostEvent.attestation func n s.fw.hash capList (s.parts.getD func {})
       ((s.ctxs.filter (fun x => x.2.cfg.part == func && x.2.st != .torn)).map (·.2.cfg)) sig
     Gives (exec (.attestationRequest func func n) s) (fun t => ∃ sig,
      (s.eventsFull func = false → t.events.getD func [] = s.events.getD func [] ++ [report sig]) ∧
      (s.eventsFull func = true → t.lateEvents.getD func [] = s.lateEvents.getD func [] ++ [report sig]) ∧
      t = { s with events := t.events, lateEvents := t.lateEvents, draws := t.draws })) ∧
    Gives (exec (.firmwareUpdate 0 img) s) (fun t => t = { s with fwNext := some img }) ∧
    Gives (exec (.weightOverrideLoad 0 d w) s) (fun t => (t.die d).weights = w ∧ t = { s with dies := t.dies }) ∧
    (d < 8 → Gives (exec (.keepReportRelease func d) s) (fun t => (t.die d).report = false ∧
      (t.die d).keep0 = (s.die d).keep0 ∧ (t.die d).keep1 = (s.die d).keep1 ∧
      t.completions = s.completions ++ [{ func := func, queue := 1, status := 0 }])) ∧
    (∀ i, s.ownsCtx func i = true → g < 16 → (s.ctx i).cfg.dies.contains d = true → groupOk cfg = true → s.group? i d g = none →
      Gives (exec (.groupHandleSet func i d g cfg) s) (fun t =>
        t.groups = s.groups ++ [{ ctx := i, die := d, g := g, cfg := cfg }] ∧ t = { s with groups := t.groups }))

/-- R1, R316, R348 to R353, R355, R358, R377, R378: a supply loss stops the machine, gives every cluster the pattern 0x8888 and starts a
record on each die; a die that has saved, not before 100 us from the trip and within the greatest draw of 16.62 ms, seals its record; a die
whose reserve is lost, not before 20 ms from the trip, leaves it unsealed; and the module resets with cause 0x13 when the last has ended.
Bring-up verifies the firmware, zeroes HBM4E, keeps the keep store and posts the reports.  That the pattern and the records stand in the very
step of the trip, and that the reserve of a die may fail, are the model's readings, log entry 34; that every die's report stands until its
release, and that a bring-up of a module that is up is a reset first, are log entry 35; what unwritten memory reads is log entry 5. -/
def Obligations.SupplyLossAndBringUp : Prop :=
  ∀ (s : State) (d n : Nat) (r : KRec), d < 8 → n < 2 →
    let slot := fun (x : Die) => if n = 0 then x.keep0 else x.keep1
    let zeroed := fun (t : State) => (∀ a, a < 2 ^ 45 → t.mem.read a = 0) ∧ ∀ a, 2 ^ 45 ≤ a → t.mem.read a = s.mem.read a
    (s.boot = .up → Gives (exec .supplyTrip s) (fun t =>
      t.boot = .saving ∧ t.tripAt = s.now ∧ (∀ e < 8, (t.die e).saving.isSome = true) ∧ (∀ k < 96, (t.cluster k).pattern = 0x8888) ∧
      (∀ e < 8, (t.die e).keep0 = (s.die e).keep0 ∧ (t.die e).keep1 = (s.die e).keep1))) ∧
    (s.boot = .saving → (s.die d).saving = some (r, n) →
      let last := ∀ e < 8, e ≠ d → (s.die e).saving = none
      (s.tripAt + 100000 ≤ s.now → (s.die d).failing = false ∨ s.now ≤ s.tripAt + 16620000 → Gives (exec (.keepSaveComplete d) s) (fun t =>
        slot (t.die d) = some { r with sealed := true } ∧
        (last → t.boot = .off ∧ t.resetCause = 0x13 ∧ zeroed t ∧ t.cores = [] ∧ t.ctxs = []) ∧
        (¬last → t.boot = .saving ∧ (t.die d).saving = none ∧ (∀ e, e ≠ d → t.die e = s.die e) ∧
          s.reserve - t.reserve ≤ 102400000 * min (s.now - s.tripAt) 16620000 ∧ t.reserve ≤ s.reserve))) ∧
      (s.now < s.tripAt + 100000 ∨ ((s.die d).failing = true ∧ s.tripAt + 16620000 < s.now) →
        Gives (exec (.keepSaveComplete d) s) (fun t => t = s)) ∧
      (s.tripAt + 20000000 ≤ s.now → Gives (exec (.reserveLost d) s) (fun t =>
        (∀ q, slot (t.die d) = some q → q.sealed = false) ∧ (last → t.boot = .off ∧ t.resetCause = 0x13))) ∧
      (s.now < s.tripAt + 20000000 → Gives (exec (.reserveLost d) s) (fun t => t = s))) ∧
    (s.boot = .off → fwOk (s.fwNext.getD s.fw) = true → Gives (exec .bringUp s) (fun t =>
      t.boot = .up ∧ t.now = 0 ∧ zeroed t ∧ t.cores = [] ∧ t.ctxs = [] ∧ t.fw = s.fwNext.getD s.fw ∧ t.accounts = [] ∧
      (∀ e < 8, (t.die e).report = true ∧ (t.die e).keep0 = (s.die e).keep0 ∧ (t.die e).keep1 = (s.die e).keep1) ∧
      (s.resetCause = 0x13 → (t.events.getD 0 [] ++ t.lateEvents.getD 0 []).getLast? = some (.resetCause 0x13)))) ∧
    (s.boot ≠ .saving → fwOk (s.fwNext.getD s.fw) = false → Gives (exec .bringUp s) (fun t => t.boot = .recovery))

/-- R335, R337 to R343: the rail moves by 5 mV each 2 µs, windows of 128 effective cycles close, an alarm stretches the clock, and the
controller moves a partition's level at the end of a period of 20 µs. -/
def Obligations.PowerEvents : Prop :=
  ∀ (s : State) (d k sag : Nat), s.boot = .up →
    let x := s.die d
    let y := s.cluster k
    (x.rail = .rise → x.railAt ≤ s.now → Gives (exec (.railStep d) s) (fun t =>
      (t.die d).mv = x.mv + 5 ∧ (x.mv + 5 < 550 + 25 * x.target → (t.die d).rail = .rise ∧ (t.die d).railAt = x.railAt + 2000))) ∧
    (x.rail = .fall → x.railAt ≤ s.now → Gives (exec (.railStep d) s) (fun t =>
      (t.die d).mv = x.mv - 5 ∧ (t.die d).rail = (if x.mv - 5 ≤ 550 + 25 * x.target then .still else .fall))) ∧
    (x.rail = .hold → x.railAt ≤ s.now → Gives (exec (.railHoldEnd d) s) (fun t =>
      (t.die d).rail = .fall ∧ (t.die d).railAt = x.railAt + 2000 ∧ (t.die d).mv = x.mv)) ∧
    (y.winStart + 128 ≤ y.eff s.now → Gives (exec (.estimatorWindowEnd k) s) (fun t =>
      (t.cluster k).winStart = y.winStart + 128 ∧ (t.cluster k).counts = [] ∧ t.cores = s.cores ∧ t.mem = s.mem)) ∧
    (s.thrOf k < sag → y.stretch = false → y.pending = none → Gives (exec (.droopAlarm k sag) s) (fun t =>
      (t.cluster k).alarms = min (y.alarms + 1) 65535 ∧ (t.cluster k).stretch = true ∧ t = { s with clusters := t.clusters })) ∧
    (y.pending = none → y.stretch = true → y.since + 12 ≤ s.now → Gives (exec (.stretchEnd k) s) (fun t =>
      (t.cluster k).stretch = false ∧ (t.cluster k).effBase = y.effBase + 6 ∧ (t.cluster k).halvingAt = some (y.effBase + 6))) ∧
    (∀ h, y.halvingAt = some h → h + 64 ≤ y.eff s.now →
      Gives (exec (.halvingEnd k) s) (fun t => (t.cluster k).halvingAt = none ∧ (t.cluster k).pattern = y.pattern)) ∧
    (x.ctrlAt + 20000 ≤ s.now → (s.parts.map (·.1)).filter (fun p => s.partOn p d) = [] →
      Gives (exec (.controllerEvaluation d) s) (fun t =>
        (t.die d).ctrlAt = x.ctrlAt + 20000 ∧ (t.die d).energy = [] ∧ (t.die d).dieEnergy = 0 ∧ (t.die d).level = [])) ∧
    (∀ p, x.ctrlAt + 20000 ≤ s.now → (s.parts.map (·.1)).filter (fun q => s.partOn q d) = [p] → x.level = [] → x.calm = [] →
      Gives (exec (.controllerEvaluation d) s) (fun t =>
        (t.die d).level.getD p 0 =
          if (s.parts.getD p {}).share.getD d 0 * (64 * 20000000) < x.energy.getD p 0 ∨ 560 * (64 * 20000000) < x.dieEnergy then 1 else 0))

/-- R363 to R371: what the links bring to a handle with one posted round: contributions, the root's deadline, results and losses, early
results, the keys of sessions, and packets that fail authentication, which are counted.  A packet of a member on this module arrives
where that member has sent it, from the handle that the two members' first packet has shown (R370).  The `cjoin` of a round from which no
result has come by 2D finds it lost, and the root still forms its result (R365).  When a round is formed or joined is log entry 42; that rekeying changes nothing a program sees is log
entry 20. -/
def Obligations.CollectiveEvents : Prop :=
  ∀ (s : State) (i d g n j : Nat) (x : Group) (q : Round) (k : Contrib) (r : RResult),
    s.boot = .up → s.groups = [x] → x.ctx = i → x.die = d → x.g = g →
    let now := fun (t : State) (y : Group) (w : List Packet) => t = { s with groups := [y], wire := w }
    let sent : Packet := { members := x.cfg.members, src := j, dst := x.cfg.me, round := n, contrib := some k }
    let told : Packet := { members := x.cfg.members, src := x.cfg.root, dst := x.cfg.me, round := n, result := some r }
    let comes := fun (p : Packet) (y : Group) (w : List Packet) =>
      (x.local? p.src = false ∧ y = x ∧ w = s.wire) ∨
      (x.local? p.src = true ∧ ∃ h, h ≠ x.key ∧ (x.peers.find p.src).all (· == h) = true ∧ { p with sender := h } ∈ s.wire ∧
        (∀ q ∈ s.wire, q = { p with sender := q.sender } → q.sender = h) ∧ y = { x with peers := x.peers.set p.src h } ∧
        w = s.wire.erase { p with sender := h })
    let strays := fun (p : Packet) => x.local? p.src = true ∧
      ∀ q ∈ s.wire, q = { p with sender := q.sender } → (x.peers.find p.src).all (· == q.sender) = false
    (∀ y w, x.cfg.me = x.cfg.root → j ≠ x.cfg.me → j < x.m → j ∈ x.keyed → comes sent y w → x.rounds = [] → x.ahead = [] → x.next ≤ n →
      Gives (exec (.contributionArrival i d g n j k) s) (fun t => now t { y with ahead := [(n, j, k)] } w)) ∧
    (j ≠ x.cfg.me → j < x.m → j ∈ x.keyed → strays sent → Gives (exec (.contributionArrival i d g n j k) s) (fun t => t = s)) ∧
    (j = x.cfg.me ∨ x.m ≤ j ∨ j ∉ x.keyed →
      Gives (exec (.contributionArrival i d g n j k) s) (fun t => now t { x with failed := x.failed + 1 } s.wire)) ∧
    (x.cfg.me = x.cfg.root → x.rounds = [q] → q.r = n → q.own = true → q.result = none → q.at_ + x.cfg.deadline ≤ s.now →
      Gives (exec (.roundDeadline i d g n) s) (fun t =>
        now t { x with rounds := if q.gone then [] else [{ q with result := some (q.form x.m) }] }
          (s.wire ++ x.resultPackets q (q.form x.m)))) ∧
    (x.cfg.me ≠ x.cfg.root → x.cfg.root < x.m → x.cfg.root ∈ x.keyed → r.status = 0 ∨ r.status = 2 →
      (∀ y w, comes told y w → x.rounds = [q] → q.r = n → q.result = none →
        Gives (exec (.resultArrival i d g n r) s) (fun t => now t { y with rounds := [{ q with result := some r }] } w)) ∧
      (∀ y w, comes told y w → x.rounds = [] → x.early = [] → x.next ≤ n →
        Gives (exec (.resultArrival i d g n r) s) (fun t => now t { y with early := [(n, s.now, r)] } w)) ∧
      (strays told → Gives (exec (.resultArrival i d g n r) s) (fun t => t = s))) ∧
    (x.rounds = [q] → q.r ∈ s.joining i d g → q.result = none → q.at_ + 2 * x.cfg.deadline ≤ s.now →
      Gives (exec (.joinDeadline i d g) s) (fun t =>
        now t { x with rounds := [{ q with lost := true }] } s.wire)) ∧
    (∀ a, x.early = [(n, a, r)] → a + 2 * x.cfg.deadline ≤ s.now →
      Gives (exec (.earlyResultExpiry i d g n) s) (fun t => now t { x with early := [] } s.wire)) ∧
    Gives (exec (.sessionRekey i d g j) s) (fun t => now t x s.wire) ∧
    (j < x.m → j ≠ x.cfg.me → j ∉ x.keyed →
      Gives (exec (.sessionKeyed i d g j) s) (fun t => now t { x with keyed := x.keyed ++ [j] } s.wire))

/-! ## The step, decoding and reset -/

/-- R43, R44, R60: in the turn of a sequencer whose stream runs with no fault to take, the words at the program counter are fetched with
X and decoded, and the step is what the instruction does; what is no instruction, or cannot be fetched, traps.  A turn of the device is what
its event does; the host enables queues with the sizes of their rings, it announces entries, and the device serves the queue whose turn it
is (R374); and what the manual dates happens before time passes it (R2, log entry 2).  That the machine goes on by turns of an agenda, and
that a turn leaves the state as it is where an operation of the same cycle with a later place has been done, are the model's choices, log
entry 1; the turns of the host's queues are log entry 15. -/
def Obligations.StepRunsTheDecodedInstruction : Prop :=
  ∀ (s : State) (c dt : Nat) (r : List Turn),
    let a : State := { s with agenda := r }
    let v : State := a.pass dt
    let u : State := { v with sel := c }
    let pc := u.cur.pc.toNat
    let next := fun (who : Who) => s.agenda = ⟨dt, who⟩ :: r ∧ a.dueBefore (s.now + dt) = none
    (next (.sequencer c) → u.runs c = true → u.mayIssue c = true → u.cur.st = .running →
      (u.cur.intrap = true ∨ u.cur.faults = []) →
      (∀ ws s', u.fetch c pc = .ok (ws, s') →
        let words := decodeWords (ws.getD 0 0) (ws.getD 1 0) (ws.getD 2 0) (ws.getD 3 0)
        let i := match words with | .ok i => i | .error e => .illegalInstruction e
        (u.inPlace (u.placeOf c i) = true → step s = exec i (s'.notePlace (u.placeOf c i))) ∧
        (u.placeOf c i = [] → step s = exec i s') ∧ (u.inPlace (u.placeOf c i) = false → step s = .next u)) ∧
      (∀ e s', u.fetch c pc = .error (e, s') → step s = .next (s'.trap e)) ∧
      (∀ e, lookup (u.die (c / 48)).tlb (u.ctxOf c) pc = some e → e.x = true → u.stale = [] → u.transit = [] → u.root = [] →
        u.laid = [] → u.poison = [] → (∀ d, (u.die d).held = []) →
        let w := leNat (u.mem.bytes (e.pin.pbase + pc % 2 ^ e.pin.size) 4)
        lengthOf w = 1 → ∃ s', u.fetch c pc = .ok ([w], s') ∧
          s' = { u with draws := s'.draws, fetched := s'.fetched, accounts := s'.accounts, dies := s'.dies, clusters := s'.clusters } ∧
          ∀ x, { s'.cluster x with counts := [] } = { u.cluster x with counts := [] })) ∧
    (∀ i, next (.event i) → isEvent i = true → v.inPlace (v.placeOf 0 i) = true → step s = exec i (v.notePlace (v.placeOf 0 i))) ∧
    (∀ func queue i, next (.doorbell func queue i) → step s = .next (v.announce func queue i)) ∧
    (∀ func sizes, next (.enable func sizes) → step s = .next (v.enable func sizes)) ∧
    (∀ func sizes, v.boot = .up → func ≤ 128 → v.queues.find func = none → sizes.length = 12 → (∀ n ∈ sizes, 4 ≤ n ∧ n ≤ 12) →
      ∀ q < 12, (v.enable func sizes).ringEntries func q = 2 ^ sizes.getD q 0) ∧
    (∀ func q i, next (.serve func) → v.boot = .up → v.nextEntry func = some (q, i) → step s = exec i (v.pop func q)) ∧
    (∀ at_ i who, s.agenda = ⟨dt, who⟩ :: r → a.dueBefore (s.now + dt) = some (at_, i) → s.now ≤ at_ →
      let w := ({ s with agenda := ⟨s.now + dt - at_, who⟩ :: r } : State).pass (at_ - s.now)
      step s = exec i (w.notePlace (w.placeOf 0 i)))

/-- R62, R64: with no stream running, the sequencer's turn runs the first slot after the one that ran last, in slot order and wrapping
round, that is ready or whose wait condition holds; where there is none, nothing changes. -/
def Obligations.SequencerSelects : Prop :=
  ∀ (s : State) (c dt k : Nat) (r : List Turn), s.agenda = ⟨dt, .sequencer c⟩ :: r →
    let a : State := { s with agenda := r }
    a.dueBefore (s.now + dt) = none →
    let u : State := { a.pass dt with sel := c }
    let last := (u.core c).last
    let at_ := fun n => (last + 1 + n) % 8
    u.runs c = true → u.mayIssue c = true → u.cur.st ≠ .running →
    (k < 8 → u.selectable c (at_ k) = true → (∀ n < k, u.selectable c (at_ n) = false) →
      Gives (step s) (fun t =>
        (t.core c).last = at_ k ∧ (t.stream c (at_ k)).st = .running ∧ t.mem = s.mem ∧ t.ctxs = s.ctxs ∧
        ((u.stream c (at_ k)).st = .ready → t.stream c (at_ k) = { u.stream c (at_ k) with st := .running }) ∧
        (∀ b n, (u.stream c (at_ k)).st = .waiting (.tok b n) → n ≤ (u.stream c (at_ k)).tokAt b ∧
          Passed 1 { (u.stream c (at_ k)).setTok b ((u.stream c (at_ k)).tokAt b - n) with st := .running } (t.stream c (at_ k))) ∧
        (∀ x, (u.stream c (at_ k)).st = .waiting (.drain x) → (u.stream c (at_ k)).drained = true ∧
          Passed 1 { u.stream c (at_ k) with st := .running, exp := x } (t.stream c (at_ k))) ∧
        ∀ y i, (y, i) ≠ (c, at_ k) → t.stream y i = s.stream y i)) ∧
    ((∀ n < 8, u.selectable c (at_ n) = false) → step s = .next u)

/-- R46 to R57: words written out from the encoding tables decode to the instructions they stand for. -/
def Obligations.DecodedWords : Prop :=
  decodeWords 0x14190A00 0 0 0 = .ok (.sel 3 4 5) ∧
  decodeWords 0x1D480000 0x12345678 0 0 = .ok (.li 9 0x12345678) ∧
  decodeWords 0x20190A11 0 0 0 = .ok (.fadd 3 4 5 1 1) ∧
  decodeWords 0x30209008 0 0 0 = .ok (.lds 4 0 2 2 8) ∧
  decodeWords 0x3813FFF4 0 0 0 = .ok (.br 1 7 0x7FF4) ∧
  decodeWords 0x3C520005 0 0 0 = .ok (.loop 1 9 5) ∧
  decodeWords 0x40201002 0 0 0 = .ok (.wtok 2 1 2) ∧
  decodeWords 0x45214003 0 0 0 = .ok (.rclaim 4 5 3) ∧
  decodeWords 0x61100010 0 0 0 = .ok (.sysrd 2 0x010)

/-- R46 to R57: every well-formed instruction of a program, with every operand at every value, is what the decoder reads from its words;
they are as many as its first word says. -/
def Obligations.DecodingUndoesEncoding : Prop :=
  ∀ i : Instr, i.wellFormed = true → ofProgram i = true → (∀ r, i ≠ .illegalInstruction r) →
    let ws := encode i
    decodeWords (ws.getD 0 0) (ws.getD 1 0) (ws.getD 2 0) (ws.getD 3 0) = .ok i ∧ ws.length = lengthOf (ws.getD 0 0) ∧
      ∀ w ∈ ws, w < 2 ^ 32

/-- R195, R205: every step keeps global memory in canonical form: a listed byte differs from what an unlisted one reads as, and no address
is listed twice. -/
def Obligations.MemoryKeepsItsForm : Prop := ∀ (s t : State), MemInv s → step s = .next t → MemInv t

/-- R61, R68: an instruction of a program changes the registers, queues and fault record of no stream but its own, and the scratchpad of no
core but its own.  Commands of other streams stay in flight; they stop only where something that one has sent meets a poisoned line
(R380). -/
def Obligations.OtherStreamsKeepTheirState : Prop :=
  ∀ (s t : State) (i : Instr), ofProgram i = true → exec i s = .next t →
    (∀ x j, (x, j) ≠ (s.sel, s.slot) →
      let u := s.stream x j
      let v := t.stream x j
      v.s = u.s ∧ v.a = u.a ∧ v.v = u.v ∧ v.p = u.p ∧ v.queues = u.queues ∧ (s.poison = [] → v.flights = u.flights) ∧
        v.flights.map (·.cmd) = u.flights.map (·.cmd) ∧ v.fr = u.fr ∧ v.intrap = u.intrap ∧ (v.exp = u.exp ∨ u.st = .waiting (.drain v.exp) ∧ u.drained = true)) ∧
    ∀ x, x ≠ s.sel → (t.core x).spad = (s.core x).spad ∧ (t.core x).tiles = (s.core x).tiles ∧ (t.core x).chans = (s.core x).chans

/-- R141, R358, R378, R381: the state after power-up: nothing is verified, placed, mapped or owned; memory and scratchpads read zero and
have the canonical form.  That the registers of a slot without a stream read zero and that both slots of every keep store are blank is the
model's choice, log entry 4, as is what memory reads before bring-up, log entry 5. -/
def Obligations.ResetState : Prop :=
  let s := State.reset
  MemInv s ∧ s.boot = .off ∧ s.now = 0 ∧ (∀ a, s.mem.read a = 0) ∧ (∀ c, (s.core c).spad.wf = true ∧ ∀ a, (s.core c).spad.read a = 0) ∧
    (∀ c, (s.core c).resident = none) ∧ (∀ c k, (s.stream c k).st = .free ∧ (s.stream c k).tok = 0 ∧ (s.stream c k).exp = false) ∧
    (∀ c k r, (s.stream c k).getS r = 0) ∧ (∀ i, s.ctxs.find i = none) ∧ ∀ d, (s.die d).keep0 = none ∧ (s.die d).keep1 = none
end

