-- ==== Sys2Proof/Laws/State.lean ====
section
/-! SUPPORT. What an update leaves: one lemma for each field of the state, or of a stream, that an update does not write. -/

namespace Sys2Proof.Machine

/-! ## The state -/

@[simp] theorem State.setCore_now (s : State) (c : Nat) (x : Core) : (s.setCore c x).now = s.now := rfl
@[simp] theorem State.setCore_boot (s : State) (c : Nat) (x : Core) : (s.setCore c x).boot = s.boot := rfl
@[simp] theorem State.setCore_resetCause (s : State) (c : Nat) (x : Core) : (s.setCore c x).resetCause = s.resetCause := rfl
@[simp] theorem State.setCore_tripAt (s : State) (c : Nat) (x : Core) : (s.setCore c x).tripAt = s.tripAt := rfl
@[simp] theorem State.setCore_fw (s : State) (c : Nat) (x : Core) : (s.setCore c x).fw = s.fw := rfl
@[simp] theorem State.setCore_fwNext (s : State) (c : Nat) (x : Core) : (s.setCore c x).fwNext = s.fwNext := rfl
@[simp] theorem State.setCore_mem (s : State) (c : Nat) (x : Core) : (s.setCore c x).mem = s.mem := rfl
@[simp] theorem State.setCore_poison (s : State) (c : Nat) (x : Core) : (s.setCore c x).poison = s.poison := rfl
@[simp] theorem State.setCore_laid (s : State) (c : Nat) (x : Core) : (s.setCore c x).laid = s.laid := rfl
@[simp] theorem State.setCore_transit (s : State) (c : Nat) (x : Core) : (s.setCore c x).transit = s.transit := rfl
@[simp] theorem State.setCore_root (s : State) (c : Nat) (x : Core) : (s.setCore c x).root = s.root := rfl
@[simp] theorem State.setCore_oldEntries (s : State) (c : Nat) (x : Core) : (s.setCore c x).oldEntries = s.oldEntries := rfl
@[simp] theorem State.setCore_covers (s : State) (c : Nat) (x : Core) : (s.setCore c x).covers = s.covers := rfl
@[simp] theorem State.setCore_fetched (s : State) (c : Nat) (x : Core) : (s.setCore c x).fetched = s.fetched := rfl
@[simp] theorem State.setCore_stale (s : State) (c : Nat) (x : Core) : (s.setCore c x).stale = s.stale := rfl
@[simp] theorem State.setCore_races (s : State) (c : Nat) (x : Core) : (s.setCore c x).races = s.races := rfl
@[simp] theorem State.setCore_deeds (s : State) (c : Nat) (x : Core) : (s.setCore c x).deeds = s.deeds := rfl
@[simp] theorem State.setCore_clusters (s : State) (c : Nat) (x : Core) : (s.setCore c x).clusters = s.clusters := rfl
@[simp] theorem State.setCore_dies (s : State) (c : Nat) (x : Core) : (s.setCore c x).dies = s.dies := rfl
@[simp] theorem State.setCore_ctxs (s : State) (c : Nat) (x : Core) : (s.setCore c x).ctxs = s.ctxs := rfl
@[simp] theorem State.setCore_parts (s : State) (c : Nat) (x : Core) : (s.setCore c x).parts = s.parts := rfl
@[simp] theorem State.setCore_accounts (s : State) (c : Nat) (x : Core) : (s.setCore c x).accounts = s.accounts := rfl
@[simp] theorem State.setCore_groups (s : State) (c : Nat) (x : Core) : (s.setCore c x).groups = s.groups := rfl
@[simp] theorem State.setCore_wire (s : State) (c : Nat) (x : Core) : (s.setCore c x).wire = s.wire := rfl
@[simp] theorem State.setCore_events (s : State) (c : Nat) (x : Core) : (s.setCore c x).events = s.events := rfl
@[simp] theorem State.setCore_lateEvents (s : State) (c : Nat) (x : Core) : (s.setCore c x).lateEvents = s.lateEvents := rfl
@[simp] theorem State.setCore_subs (s : State) (c : Nat) (x : Core) : (s.setCore c x).subs = s.subs := rfl
@[simp] theorem State.setCore_served (s : State) (c : Nat) (x : Core) : (s.setCore c x).served = s.served := rfl
@[simp] theorem State.setCore_queues (s : State) (c : Nat) (x : Core) : (s.setCore c x).queues = s.queues := rfl
@[simp] theorem State.setCore_reserve (s : State) (c : Nat) (x : Core) : (s.setCore c x).reserve = s.reserve := rfl
@[simp] theorem State.setCore_accesses (s : State) (c : Nat) (x : Core) : (s.setCore c x).accesses = s.accesses := rfl
@[simp] theorem State.setCore_marks (s : State) (c : Nat) (x : Core) : (s.setCore c x).marks = s.marks := rfl
@[simp] theorem State.setCore_completions (s : State) (c : Nat) (x : Core) : (s.setCore c x).completions = s.completions := rfl
@[simp] theorem State.setCore_invals (s : State) (c : Nat) (x : Core) : (s.setCore c x).invals = s.invals := rfl
@[simp] theorem State.setCore_spill (s : State) (c : Nat) (x : Core) : (s.setCore c x).spill = s.spill := rfl
@[simp] theorem State.setCore_nextNest (s : State) (c : Nat) (x : Core) : (s.setCore c x).nextNest = s.nextNest := rfl
@[simp] theorem State.setCore_nextPin (s : State) (c : Nat) (x : Core) : (s.setCore c x).nextPin = s.nextPin := rfl
@[simp] theorem State.setCore_stamp (s : State) (c : Nat) (x : Core) : (s.setCore c x).stamp = s.stamp := rfl
@[simp] theorem State.setCore_agenda (s : State) (c : Nat) (x : Core) : (s.setCore c x).agenda = s.agenda := rfl
@[simp] theorem State.setCore_draws (s : State) (c : Nat) (x : Core) : (s.setCore c x).draws = s.draws := rfl
@[simp] theorem State.setCore_sel (s : State) (c : Nat) (x : Core) : (s.setCore c x).sel = s.sel := rfl
@[simp] theorem State.setCore_cycle (s : State) (c : Nat) (x : Core) : (s.setCore c x).cycle = s.cycle := rfl

@[simp] theorem State.modCore_now (s : State) (c : Nat) (f : Core → Core) : (s.modCore c f).now = s.now := rfl
@[simp] theorem State.modCore_boot (s : State) (c : Nat) (f : Core → Core) : (s.modCore c f).boot = s.boot := rfl
@[simp] theorem State.modCore_resetCause (s : State) (c : Nat) (f : Core → Core) : (s.modCore c f).resetCause = s.resetCause := rfl
@[simp] theorem State.modCore_tripAt (s : State) (c : Nat) (f : Core → Core) : (s.modCore c f).tripAt = s.tripAt := rfl
@[simp] theorem State.modCore_fw (s : State) (c : Nat) (f : Core → Core) : (s.modCore c f).fw = s.fw := rfl
@[simp] theorem State.modCore_fwNext (s : State) (c : Nat) (f : Core → Core) : (s.modCore c f).fwNext = s.fwNext := rfl
@[simp] theorem State.modCore_mem (s : State) (c : Nat) (f : Core → Core) : (s.modCore c f).mem = s.mem := rfl
@[simp] theorem State.modCore_poison (s : State) (c : Nat) (f : Core → Core) : (s.modCore c f).poison = s.poison := rfl
@[simp] theorem State.modCore_laid (s : State) (c : Nat) (f : Core → Core) : (s.modCore c f).laid = s.laid := rfl
@[simp] theorem State.modCore_transit (s : State) (c : Nat) (f : Core → Core) : (s.modCore c f).transit = s.transit := rfl
@[simp] theorem State.modCore_root (s : State) (c : Nat) (f : Core → Core) : (s.modCore c f).root = s.root := rfl
@[simp] theorem State.modCore_oldEntries (s : State) (c : Nat) (f : Core → Core) : (s.modCore c f).oldEntries = s.oldEntries := rfl
@[simp] theorem State.modCore_covers (s : State) (c : Nat) (f : Core → Core) : (s.modCore c f).covers = s.covers := rfl
@[simp] theorem State.modCore_fetched (s : State) (c : Nat) (f : Core → Core) : (s.modCore c f).fetched = s.fetched := rfl
@[simp] theorem State.modCore_stale (s : State) (c : Nat) (f : Core → Core) : (s.modCore c f).stale = s.stale := rfl
@[simp] theorem State.modCore_races (s : State) (c : Nat) (f : Core → Core) : (s.modCore c f).races = s.races := rfl
@[simp] theorem State.modCore_deeds (s : State) (c : Nat) (f : Core → Core) : (s.modCore c f).deeds = s.deeds := rfl
@[simp] theorem State.modCore_clusters (s : State) (c : Nat) (f : Core → Core) : (s.modCore c f).clusters = s.clusters := rfl
@[simp] theorem State.modCore_dies (s : State) (c : Nat) (f : Core → Core) : (s.modCore c f).dies = s.dies := rfl
@[simp] theorem State.modCore_ctxs (s : State) (c : Nat) (f : Core → Core) : (s.modCore c f).ctxs = s.ctxs := rfl
@[simp] theorem State.modCore_parts (s : State) (c : Nat) (f : Core → Core) : (s.modCore c f).parts = s.parts := rfl
@[simp] theorem State.modCore_accounts (s : State) (c : Nat) (f : Core → Core) : (s.modCore c f).accounts = s.accounts := rfl
@[simp] theorem State.modCore_groups (s : State) (c : Nat) (f : Core → Core) : (s.modCore c f).groups = s.groups := rfl
@[simp] theorem State.modCore_wire (s : State) (c : Nat) (f : Core → Core) : (s.modCore c f).wire = s.wire := rfl
@[simp] theorem State.modCore_events (s : State) (c : Nat) (f : Core → Core) : (s.modCore c f).events = s.events := rfl
@[simp] theorem State.modCore_lateEvents (s : State) (c : Nat) (f : Core → Core) : (s.modCore c f).lateEvents = s.lateEvents := rfl
@[simp] theorem State.modCore_subs (s : State) (c : Nat) (f : Core → Core) : (s.modCore c f).subs = s.subs := rfl
@[simp] theorem State.modCore_served (s : State) (c : Nat) (f : Core → Core) : (s.modCore c f).served = s.served := rfl
@[simp] theorem State.modCore_queues (s : State) (c : Nat) (f : Core → Core) : (s.modCore c f).queues = s.queues := rfl
@[simp] theorem State.modCore_reserve (s : State) (c : Nat) (f : Core → Core) : (s.modCore c f).reserve = s.reserve := rfl
@[simp] theorem State.modCore_accesses (s : State) (c : Nat) (f : Core → Core) : (s.modCore c f).accesses = s.accesses := rfl
@[simp] theorem State.modCore_marks (s : State) (c : Nat) (f : Core → Core) : (s.modCore c f).marks = s.marks := rfl
@[simp] theorem State.modCore_completions (s : State) (c : Nat) (f : Core → Core) : (s.modCore c f).completions = s.completions := rfl
@[simp] theorem State.modCore_invals (s : State) (c : Nat) (f : Core → Core) : (s.modCore c f).invals = s.invals := rfl
@[simp] theorem State.modCore_spill (s : State) (c : Nat) (f : Core → Core) : (s.modCore c f).spill = s.spill := rfl
@[simp] theorem State.modCore_nextNest (s : State) (c : Nat) (f : Core → Core) : (s.modCore c f).nextNest = s.nextNest := rfl
@[simp] theorem State.modCore_nextPin (s : State) (c : Nat) (f : Core → Core) : (s.modCore c f).nextPin = s.nextPin := rfl
@[simp] theorem State.modCore_stamp (s : State) (c : Nat) (f : Core → Core) : (s.modCore c f).stamp = s.stamp := rfl
@[simp] theorem State.modCore_agenda (s : State) (c : Nat) (f : Core → Core) : (s.modCore c f).agenda = s.agenda := rfl
@[simp] theorem State.modCore_draws (s : State) (c : Nat) (f : Core → Core) : (s.modCore c f).draws = s.draws := rfl
@[simp] theorem State.modCore_sel (s : State) (c : Nat) (f : Core → Core) : (s.modCore c f).sel = s.sel := rfl
@[simp] theorem State.modCore_cycle (s : State) (c : Nat) (f : Core → Core) : (s.modCore c f).cycle = s.cycle := rfl

@[simp] theorem State.setCluster_now (s : State) (k : Nat) (x : Cluster) : (s.setCluster k x).now = s.now := rfl
@[simp] theorem State.setCluster_boot (s : State) (k : Nat) (x : Cluster) : (s.setCluster k x).boot = s.boot := rfl
@[simp] theorem State.setCluster_resetCause (s : State) (k : Nat) (x : Cluster) : (s.setCluster k x).resetCause = s.resetCause := rfl
@[simp] theorem State.setCluster_tripAt (s : State) (k : Nat) (x : Cluster) : (s.setCluster k x).tripAt = s.tripAt := rfl
@[simp] theorem State.setCluster_fw (s : State) (k : Nat) (x : Cluster) : (s.setCluster k x).fw = s.fw := rfl
@[simp] theorem State.setCluster_fwNext (s : State) (k : Nat) (x : Cluster) : (s.setCluster k x).fwNext = s.fwNext := rfl
@[simp] theorem State.setCluster_mem (s : State) (k : Nat) (x : Cluster) : (s.setCluster k x).mem = s.mem := rfl
@[simp] theorem State.setCluster_poison (s : State) (k : Nat) (x : Cluster) : (s.setCluster k x).poison = s.poison := rfl
@[simp] theorem State.setCluster_laid (s : State) (k : Nat) (x : Cluster) : (s.setCluster k x).laid = s.laid := rfl
@[simp] theorem State.setCluster_transit (s : State) (k : Nat) (x : Cluster) : (s.setCluster k x).transit = s.transit := rfl
@[simp] theorem State.setCluster_root (s : State) (k : Nat) (x : Cluster) : (s.setCluster k x).root = s.root := rfl
@[simp] theorem State.setCluster_oldEntries (s : State) (k : Nat) (x : Cluster) : (s.setCluster k x).oldEntries = s.oldEntries := rfl
@[simp] theorem State.setCluster_covers (s : State) (k : Nat) (x : Cluster) : (s.setCluster k x).covers = s.covers := rfl
@[simp] theorem State.setCluster_fetched (s : State) (k : Nat) (x : Cluster) : (s.setCluster k x).fetched = s.fetched := rfl
@[simp] theorem State.setCluster_stale (s : State) (k : Nat) (x : Cluster) : (s.setCluster k x).stale = s.stale := rfl
@[simp] theorem State.setCluster_races (s : State) (k : Nat) (x : Cluster) : (s.setCluster k x).races = s.races := rfl
@[simp] theorem State.setCluster_deeds (s : State) (k : Nat) (x : Cluster) : (s.setCluster k x).deeds = s.deeds := rfl
@[simp] theorem State.setCluster_cores (s : State) (k : Nat) (x : Cluster) : (s.setCluster k x).cores = s.cores := rfl
@[simp] theorem State.setCluster_dies (s : State) (k : Nat) (x : Cluster) : (s.setCluster k x).dies = s.dies := rfl
@[simp] theorem State.setCluster_ctxs (s : State) (k : Nat) (x : Cluster) : (s.setCluster k x).ctxs = s.ctxs := rfl
@[simp] theorem State.setCluster_parts (s : State) (k : Nat) (x : Cluster) : (s.setCluster k x).parts = s.parts := rfl
@[simp] theorem State.setCluster_accounts (s : State) (k : Nat) (x : Cluster) : (s.setCluster k x).accounts = s.accounts := rfl
@[simp] theorem State.setCluster_groups (s : State) (k : Nat) (x : Cluster) : (s.setCluster k x).groups = s.groups := rfl
@[simp] theorem State.setCluster_wire (s : State) (k : Nat) (x : Cluster) : (s.setCluster k x).wire = s.wire := rfl
@[simp] theorem State.setCluster_events (s : State) (k : Nat) (x : Cluster) : (s.setCluster k x).events = s.events := rfl
@[simp] theorem State.setCluster_lateEvents (s : State) (k : Nat) (x : Cluster) : (s.setCluster k x).lateEvents = s.lateEvents := rfl
@[simp] theorem State.setCluster_subs (s : State) (k : Nat) (x : Cluster) : (s.setCluster k x).subs = s.subs := rfl
@[simp] theorem State.setCluster_served (s : State) (k : Nat) (x : Cluster) : (s.setCluster k x).served = s.served := rfl
@[simp] theorem State.setCluster_queues (s : State) (k : Nat) (x : Cluster) : (s.setCluster k x).queues = s.queues := rfl
@[simp] theorem State.setCluster_reserve (s : State) (k : Nat) (x : Cluster) : (s.setCluster k x).reserve = s.reserve := rfl
@[simp] theorem State.setCluster_accesses (s : State) (k : Nat) (x : Cluster) : (s.setCluster k x).accesses = s.accesses := rfl
@[simp] theorem State.setCluster_marks (s : State) (k : Nat) (x : Cluster) : (s.setCluster k x).marks = s.marks := rfl
@[simp] theorem State.setCluster_completions (s : State) (k : Nat) (x : Cluster) : (s.setCluster k x).completions = s.completions := rfl
@[simp] theorem State.setCluster_invals (s : State) (k : Nat) (x : Cluster) : (s.setCluster k x).invals = s.invals := rfl
@[simp] theorem State.setCluster_spill (s : State) (k : Nat) (x : Cluster) : (s.setCluster k x).spill = s.spill := rfl
@[simp] theorem State.setCluster_nextNest (s : State) (k : Nat) (x : Cluster) : (s.setCluster k x).nextNest = s.nextNest := rfl
@[simp] theorem State.setCluster_nextPin (s : State) (k : Nat) (x : Cluster) : (s.setCluster k x).nextPin = s.nextPin := rfl
@[simp] theorem State.setCluster_stamp (s : State) (k : Nat) (x : Cluster) : (s.setCluster k x).stamp = s.stamp := rfl
@[simp] theorem State.setCluster_agenda (s : State) (k : Nat) (x : Cluster) : (s.setCluster k x).agenda = s.agenda := rfl
@[simp] theorem State.setCluster_draws (s : State) (k : Nat) (x : Cluster) : (s.setCluster k x).draws = s.draws := rfl
@[simp] theorem State.setCluster_sel (s : State) (k : Nat) (x : Cluster) : (s.setCluster k x).sel = s.sel := rfl
@[simp] theorem State.setCluster_cycle (s : State) (k : Nat) (x : Cluster) : (s.setCluster k x).cycle = s.cycle := rfl

@[simp] theorem State.modCluster_now (s : State) (k : Nat) (f : Cluster → Cluster) : (s.modCluster k f).now = s.now := rfl
@[simp] theorem State.modCluster_boot (s : State) (k : Nat) (f : Cluster → Cluster) : (s.modCluster k f).boot = s.boot := rfl
@[simp] theorem State.modCluster_resetCause (s : State) (k : Nat) (f : Cluster → Cluster) : (s.modCluster k f).resetCause = s.resetCause := rfl
@[simp] theorem State.modCluster_tripAt (s : State) (k : Nat) (f : Cluster → Cluster) : (s.modCluster k f).tripAt = s.tripAt := rfl
@[simp] theorem State.modCluster_fw (s : State) (k : Nat) (f : Cluster → Cluster) : (s.modCluster k f).fw = s.fw := rfl
@[simp] theorem State.modCluster_fwNext (s : State) (k : Nat) (f : Cluster → Cluster) : (s.modCluster k f).fwNext = s.fwNext := rfl
@[simp] theorem State.modCluster_mem (s : State) (k : Nat) (f : Cluster → Cluster) : (s.modCluster k f).mem = s.mem := rfl
@[simp] theorem State.modCluster_poison (s : State) (k : Nat) (f : Cluster → Cluster) : (s.modCluster k f).poison = s.poison := rfl
@[simp] theorem State.modCluster_laid (s : State) (k : Nat) (f : Cluster → Cluster) : (s.modCluster k f).laid = s.laid := rfl
@[simp] theorem State.modCluster_transit (s : State) (k : Nat) (f : Cluster → Cluster) : (s.modCluster k f).transit = s.transit := rfl
@[simp] theorem State.modCluster_root (s : State) (k : Nat) (f : Cluster → Cluster) : (s.modCluster k f).root = s.root := rfl
@[simp] theorem State.modCluster_oldEntries (s : State) (k : Nat) (f : Cluster → Cluster) : (s.modCluster k f).oldEntries = s.oldEntries := rfl
@[simp] theorem State.modCluster_covers (s : State) (k : Nat) (f : Cluster → Cluster) : (s.modCluster k f).covers = s.covers := rfl
@[simp] theorem State.modCluster_fetched (s : State) (k : Nat) (f : Cluster → Cluster) : (s.modCluster k f).fetched = s.fetched := rfl
@[simp] theorem State.modCluster_stale (s : State) (k : Nat) (f : Cluster → Cluster) : (s.modCluster k f).stale = s.stale := rfl
@[simp] theorem State.modCluster_races (s : State) (k : Nat) (f : Cluster → Cluster) : (s.modCluster k f).races = s.races := rfl
@[simp] theorem State.modCluster_deeds (s : State) (k : Nat) (f : Cluster → Cluster) : (s.modCluster k f).deeds = s.deeds := rfl
@[simp] theorem State.modCluster_cores (s : State) (k : Nat) (f : Cluster → Cluster) : (s.modCluster k f).cores = s.cores := rfl
@[simp] theorem State.modCluster_dies (s : State) (k : Nat) (f : Cluster → Cluster) : (s.modCluster k f).dies = s.dies := rfl
@[simp] theorem State.modCluster_ctxs (s : State) (k : Nat) (f : Cluster → Cluster) : (s.modCluster k f).ctxs = s.ctxs := rfl
@[simp] theorem State.modCluster_parts (s : State) (k : Nat) (f : Cluster → Cluster) : (s.modCluster k f).parts = s.parts := rfl
@[simp] theorem State.modCluster_accounts (s : State) (k : Nat) (f : Cluster → Cluster) : (s.modCluster k f).accounts = s.accounts := rfl
@[simp] theorem State.modCluster_groups (s : State) (k : Nat) (f : Cluster → Cluster) : (s.modCluster k f).groups = s.groups := rfl
@[simp] theorem State.modCluster_wire (s : State) (k : Nat) (f : Cluster → Cluster) : (s.modCluster k f).wire = s.wire := rfl
@[simp] theorem State.modCluster_events (s : State) (k : Nat) (f : Cluster → Cluster) : (s.modCluster k f).events = s.events := rfl
@[simp] theorem State.modCluster_lateEvents (s : State) (k : Nat) (f : Cluster → Cluster) : (s.modCluster k f).lateEvents = s.lateEvents := rfl
@[simp] theorem State.modCluster_subs (s : State) (k : Nat) (f : Cluster → Cluster) : (s.modCluster k f).subs = s.subs := rfl
@[simp] theorem State.modCluster_served (s : State) (k : Nat) (f : Cluster → Cluster) : (s.modCluster k f).served = s.served := rfl
@[simp] theorem State.modCluster_queues (s : State) (k : Nat) (f : Cluster → Cluster) : (s.modCluster k f).queues = s.queues := rfl
@[simp] theorem State.modCluster_reserve (s : State) (k : Nat) (f : Cluster → Cluster) : (s.modCluster k f).reserve = s.reserve := rfl
@[simp] theorem State.modCluster_accesses (s : State) (k : Nat) (f : Cluster → Cluster) : (s.modCluster k f).accesses = s.accesses := rfl
@[simp] theorem State.modCluster_marks (s : State) (k : Nat) (f : Cluster → Cluster) : (s.modCluster k f).marks = s.marks := rfl
@[simp] theorem State.modCluster_completions (s : State) (k : Nat) (f : Cluster → Cluster) : (s.modCluster k f).completions = s.completions := rfl
@[simp] theorem State.modCluster_invals (s : State) (k : Nat) (f : Cluster → Cluster) : (s.modCluster k f).invals = s.invals := rfl
@[simp] theorem State.modCluster_spill (s : State) (k : Nat) (f : Cluster → Cluster) : (s.modCluster k f).spill = s.spill := rfl
@[simp] theorem State.modCluster_nextNest (s : State) (k : Nat) (f : Cluster → Cluster) : (s.modCluster k f).nextNest = s.nextNest := rfl
@[simp] theorem State.modCluster_nextPin (s : State) (k : Nat) (f : Cluster → Cluster) : (s.modCluster k f).nextPin = s.nextPin := rfl
@[simp] theorem State.modCluster_stamp (s : State) (k : Nat) (f : Cluster → Cluster) : (s.modCluster k f).stamp = s.stamp := rfl
@[simp] theorem State.modCluster_agenda (s : State) (k : Nat) (f : Cluster → Cluster) : (s.modCluster k f).agenda = s.agenda := rfl
@[simp] theorem State.modCluster_draws (s : State) (k : Nat) (f : Cluster → Cluster) : (s.modCluster k f).draws = s.draws := rfl
@[simp] theorem State.modCluster_sel (s : State) (k : Nat) (f : Cluster → Cluster) : (s.modCluster k f).sel = s.sel := rfl
@[simp] theorem State.modCluster_cycle (s : State) (k : Nat) (f : Cluster → Cluster) : (s.modCluster k f).cycle = s.cycle := rfl

@[simp] theorem State.setDie_now (s : State) (d : Nat) (x : Die) : (s.setDie d x).now = s.now := rfl
@[simp] theorem State.setDie_boot (s : State) (d : Nat) (x : Die) : (s.setDie d x).boot = s.boot := rfl
@[simp] theorem State.setDie_resetCause (s : State) (d : Nat) (x : Die) : (s.setDie d x).resetCause = s.resetCause := rfl
@[simp] theorem State.setDie_tripAt (s : State) (d : Nat) (x : Die) : (s.setDie d x).tripAt = s.tripAt := rfl
@[simp] theorem State.setDie_fw (s : State) (d : Nat) (x : Die) : (s.setDie d x).fw = s.fw := rfl
@[simp] theorem State.setDie_fwNext (s : State) (d : Nat) (x : Die) : (s.setDie d x).fwNext = s.fwNext := rfl
@[simp] theorem State.setDie_mem (s : State) (d : Nat) (x : Die) : (s.setDie d x).mem = s.mem := rfl
@[simp] theorem State.setDie_poison (s : State) (d : Nat) (x : Die) : (s.setDie d x).poison = s.poison := rfl
@[simp] theorem State.setDie_laid (s : State) (d : Nat) (x : Die) : (s.setDie d x).laid = s.laid := rfl
@[simp] theorem State.setDie_transit (s : State) (d : Nat) (x : Die) : (s.setDie d x).transit = s.transit := rfl
@[simp] theorem State.setDie_root (s : State) (d : Nat) (x : Die) : (s.setDie d x).root = s.root := rfl
@[simp] theorem State.setDie_oldEntries (s : State) (d : Nat) (x : Die) : (s.setDie d x).oldEntries = s.oldEntries := rfl
@[simp] theorem State.setDie_covers (s : State) (d : Nat) (x : Die) : (s.setDie d x).covers = s.covers := rfl
@[simp] theorem State.setDie_fetched (s : State) (d : Nat) (x : Die) : (s.setDie d x).fetched = s.fetched := rfl
@[simp] theorem State.setDie_stale (s : State) (d : Nat) (x : Die) : (s.setDie d x).stale = s.stale := rfl
@[simp] theorem State.setDie_races (s : State) (d : Nat) (x : Die) : (s.setDie d x).races = s.races := rfl
@[simp] theorem State.setDie_deeds (s : State) (d : Nat) (x : Die) : (s.setDie d x).deeds = s.deeds := rfl
@[simp] theorem State.setDie_cores (s : State) (d : Nat) (x : Die) : (s.setDie d x).cores = s.cores := rfl
@[simp] theorem State.setDie_clusters (s : State) (d : Nat) (x : Die) : (s.setDie d x).clusters = s.clusters := rfl
@[simp] theorem State.setDie_ctxs (s : State) (d : Nat) (x : Die) : (s.setDie d x).ctxs = s.ctxs := rfl
@[simp] theorem State.setDie_parts (s : State) (d : Nat) (x : Die) : (s.setDie d x).parts = s.parts := rfl
@[simp] theorem State.setDie_accounts (s : State) (d : Nat) (x : Die) : (s.setDie d x).accounts = s.accounts := rfl
@[simp] theorem State.setDie_groups (s : State) (d : Nat) (x : Die) : (s.setDie d x).groups = s.groups := rfl
@[simp] theorem State.setDie_wire (s : State) (d : Nat) (x : Die) : (s.setDie d x).wire = s.wire := rfl
@[simp] theorem State.setDie_events (s : State) (d : Nat) (x : Die) : (s.setDie d x).events = s.events := rfl
@[simp] theorem State.setDie_lateEvents (s : State) (d : Nat) (x : Die) : (s.setDie d x).lateEvents = s.lateEvents := rfl
@[simp] theorem State.setDie_subs (s : State) (d : Nat) (x : Die) : (s.setDie d x).subs = s.subs := rfl
@[simp] theorem State.setDie_served (s : State) (d : Nat) (x : Die) : (s.setDie d x).served = s.served := rfl
@[simp] theorem State.setDie_queues (s : State) (d : Nat) (x : Die) : (s.setDie d x).queues = s.queues := rfl
@[simp] theorem State.setDie_reserve (s : State) (d : Nat) (x : Die) : (s.setDie d x).reserve = s.reserve := rfl
@[simp] theorem State.setDie_accesses (s : State) (d : Nat) (x : Die) : (s.setDie d x).accesses = s.accesses := rfl
@[simp] theorem State.setDie_marks (s : State) (d : Nat) (x : Die) : (s.setDie d x).marks = s.marks := rfl
@[simp] theorem State.setDie_completions (s : State) (d : Nat) (x : Die) : (s.setDie d x).completions = s.completions := rfl
@[simp] theorem State.setDie_invals (s : State) (d : Nat) (x : Die) : (s.setDie d x).invals = s.invals := rfl
@[simp] theorem State.setDie_spill (s : State) (d : Nat) (x : Die) : (s.setDie d x).spill = s.spill := rfl
@[simp] theorem State.setDie_nextNest (s : State) (d : Nat) (x : Die) : (s.setDie d x).nextNest = s.nextNest := rfl
@[simp] theorem State.setDie_nextPin (s : State) (d : Nat) (x : Die) : (s.setDie d x).nextPin = s.nextPin := rfl
@[simp] theorem State.setDie_stamp (s : State) (d : Nat) (x : Die) : (s.setDie d x).stamp = s.stamp := rfl
@[simp] theorem State.setDie_agenda (s : State) (d : Nat) (x : Die) : (s.setDie d x).agenda = s.agenda := rfl
@[simp] theorem State.setDie_draws (s : State) (d : Nat) (x : Die) : (s.setDie d x).draws = s.draws := rfl
@[simp] theorem State.setDie_sel (s : State) (d : Nat) (x : Die) : (s.setDie d x).sel = s.sel := rfl
@[simp] theorem State.setDie_cycle (s : State) (d : Nat) (x : Die) : (s.setDie d x).cycle = s.cycle := rfl

@[simp] theorem State.modDie_now (s : State) (d : Nat) (f : Die → Die) : (s.modDie d f).now = s.now := rfl
@[simp] theorem State.modDie_boot (s : State) (d : Nat) (f : Die → Die) : (s.modDie d f).boot = s.boot := rfl
@[simp] theorem State.modDie_resetCause (s : State) (d : Nat) (f : Die → Die) : (s.modDie d f).resetCause = s.resetCause := rfl
@[simp] theorem State.modDie_tripAt (s : State) (d : Nat) (f : Die → Die) : (s.modDie d f).tripAt = s.tripAt := rfl
@[simp] theorem State.modDie_fw (s : State) (d : Nat) (f : Die → Die) : (s.modDie d f).fw = s.fw := rfl
@[simp] theorem State.modDie_fwNext (s : State) (d : Nat) (f : Die → Die) : (s.modDie d f).fwNext = s.fwNext := rfl
@[simp] theorem State.modDie_mem (s : State) (d : Nat) (f : Die → Die) : (s.modDie d f).mem = s.mem := rfl
@[simp] theorem State.modDie_poison (s : State) (d : Nat) (f : Die → Die) : (s.modDie d f).poison = s.poison := rfl
@[simp] theorem State.modDie_laid (s : State) (d : Nat) (f : Die → Die) : (s.modDie d f).laid = s.laid := rfl
@[simp] theorem State.modDie_transit (s : State) (d : Nat) (f : Die → Die) : (s.modDie d f).transit = s.transit := rfl
@[simp] theorem State.modDie_root (s : State) (d : Nat) (f : Die → Die) : (s.modDie d f).root = s.root := rfl
@[simp] theorem State.modDie_oldEntries (s : State) (d : Nat) (f : Die → Die) : (s.modDie d f).oldEntries = s.oldEntries := rfl
@[simp] theorem State.modDie_covers (s : State) (d : Nat) (f : Die → Die) : (s.modDie d f).covers = s.covers := rfl
@[simp] theorem State.modDie_fetched (s : State) (d : Nat) (f : Die → Die) : (s.modDie d f).fetched = s.fetched := rfl
@[simp] theorem State.modDie_stale (s : State) (d : Nat) (f : Die → Die) : (s.modDie d f).stale = s.stale := rfl
@[simp] theorem State.modDie_races (s : State) (d : Nat) (f : Die → Die) : (s.modDie d f).races = s.races := rfl
@[simp] theorem State.modDie_deeds (s : State) (d : Nat) (f : Die → Die) : (s.modDie d f).deeds = s.deeds := rfl
@[simp] theorem State.modDie_cores (s : State) (d : Nat) (f : Die → Die) : (s.modDie d f).cores = s.cores := rfl
@[simp] theorem State.modDie_clusters (s : State) (d : Nat) (f : Die → Die) : (s.modDie d f).clusters = s.clusters := rfl
@[simp] theorem State.modDie_ctxs (s : State) (d : Nat) (f : Die → Die) : (s.modDie d f).ctxs = s.ctxs := rfl
@[simp] theorem State.modDie_parts (s : State) (d : Nat) (f : Die → Die) : (s.modDie d f).parts = s.parts := rfl
@[simp] theorem State.modDie_accounts (s : State) (d : Nat) (f : Die → Die) : (s.modDie d f).accounts = s.accounts := rfl
@[simp] theorem State.modDie_groups (s : State) (d : Nat) (f : Die → Die) : (s.modDie d f).groups = s.groups := rfl
@[simp] theorem State.modDie_wire (s : State) (d : Nat) (f : Die → Die) : (s.modDie d f).wire = s.wire := rfl
@[simp] theorem State.modDie_events (s : State) (d : Nat) (f : Die → Die) : (s.modDie d f).events = s.events := rfl
@[simp] theorem State.modDie_lateEvents (s : State) (d : Nat) (f : Die → Die) : (s.modDie d f).lateEvents = s.lateEvents := rfl
@[simp] theorem State.modDie_subs (s : State) (d : Nat) (f : Die → Die) : (s.modDie d f).subs = s.subs := rfl
@[simp] theorem State.modDie_served (s : State) (d : Nat) (f : Die → Die) : (s.modDie d f).served = s.served := rfl
@[simp] theorem State.modDie_queues (s : State) (d : Nat) (f : Die → Die) : (s.modDie d f).queues = s.queues := rfl
@[simp] theorem State.modDie_reserve (s : State) (d : Nat) (f : Die → Die) : (s.modDie d f).reserve = s.reserve := rfl
@[simp] theorem State.modDie_accesses (s : State) (d : Nat) (f : Die → Die) : (s.modDie d f).accesses = s.accesses := rfl
@[simp] theorem State.modDie_marks (s : State) (d : Nat) (f : Die → Die) : (s.modDie d f).marks = s.marks := rfl
@[simp] theorem State.modDie_completions (s : State) (d : Nat) (f : Die → Die) : (s.modDie d f).completions = s.completions := rfl
@[simp] theorem State.modDie_invals (s : State) (d : Nat) (f : Die → Die) : (s.modDie d f).invals = s.invals := rfl
@[simp] theorem State.modDie_spill (s : State) (d : Nat) (f : Die → Die) : (s.modDie d f).spill = s.spill := rfl
@[simp] theorem State.modDie_nextNest (s : State) (d : Nat) (f : Die → Die) : (s.modDie d f).nextNest = s.nextNest := rfl
@[simp] theorem State.modDie_nextPin (s : State) (d : Nat) (f : Die → Die) : (s.modDie d f).nextPin = s.nextPin := rfl
@[simp] theorem State.modDie_stamp (s : State) (d : Nat) (f : Die → Die) : (s.modDie d f).stamp = s.stamp := rfl
@[simp] theorem State.modDie_agenda (s : State) (d : Nat) (f : Die → Die) : (s.modDie d f).agenda = s.agenda := rfl
@[simp] theorem State.modDie_draws (s : State) (d : Nat) (f : Die → Die) : (s.modDie d f).draws = s.draws := rfl
@[simp] theorem State.modDie_sel (s : State) (d : Nat) (f : Die → Die) : (s.modDie d f).sel = s.sel := rfl
@[simp] theorem State.modDie_cycle (s : State) (d : Nat) (f : Die → Die) : (s.modDie d f).cycle = s.cycle := rfl

@[simp] theorem State.setCtx_now (s : State) (i : Nat) (x : Ctx) : (s.setCtx i x).now = s.now := rfl
@[simp] theorem State.setCtx_boot (s : State) (i : Nat) (x : Ctx) : (s.setCtx i x).boot = s.boot := rfl
@[simp] theorem State.setCtx_resetCause (s : State) (i : Nat) (x : Ctx) : (s.setCtx i x).resetCause = s.resetCause := rfl
@[simp] theorem State.setCtx_tripAt (s : State) (i : Nat) (x : Ctx) : (s.setCtx i x).tripAt = s.tripAt := rfl
@[simp] theorem State.setCtx_fw (s : State) (i : Nat) (x : Ctx) : (s.setCtx i x).fw = s.fw := rfl
@[simp] theorem State.setCtx_fwNext (s : State) (i : Nat) (x : Ctx) : (s.setCtx i x).fwNext = s.fwNext := rfl
@[simp] theorem State.setCtx_mem (s : State) (i : Nat) (x : Ctx) : (s.setCtx i x).mem = s.mem := rfl
@[simp] theorem State.setCtx_poison (s : State) (i : Nat) (x : Ctx) : (s.setCtx i x).poison = s.poison := rfl
@[simp] theorem State.setCtx_laid (s : State) (i : Nat) (x : Ctx) : (s.setCtx i x).laid = s.laid := rfl
@[simp] theorem State.setCtx_transit (s : State) (i : Nat) (x : Ctx) : (s.setCtx i x).transit = s.transit := rfl
@[simp] theorem State.setCtx_root (s : State) (i : Nat) (x : Ctx) : (s.setCtx i x).root = s.root := rfl
@[simp] theorem State.setCtx_oldEntries (s : State) (i : Nat) (x : Ctx) : (s.setCtx i x).oldEntries = s.oldEntries := rfl
@[simp] theorem State.setCtx_covers (s : State) (i : Nat) (x : Ctx) : (s.setCtx i x).covers = s.covers := rfl
@[simp] theorem State.setCtx_fetched (s : State) (i : Nat) (x : Ctx) : (s.setCtx i x).fetched = s.fetched := rfl
@[simp] theorem State.setCtx_stale (s : State) (i : Nat) (x : Ctx) : (s.setCtx i x).stale = s.stale := rfl
@[simp] theorem State.setCtx_races (s : State) (i : Nat) (x : Ctx) : (s.setCtx i x).races = s.races := rfl
@[simp] theorem State.setCtx_deeds (s : State) (i : Nat) (x : Ctx) : (s.setCtx i x).deeds = s.deeds := rfl
@[simp] theorem State.setCtx_cores (s : State) (i : Nat) (x : Ctx) : (s.setCtx i x).cores = s.cores := rfl
@[simp] theorem State.setCtx_clusters (s : State) (i : Nat) (x : Ctx) : (s.setCtx i x).clusters = s.clusters := rfl
@[simp] theorem State.setCtx_dies (s : State) (i : Nat) (x : Ctx) : (s.setCtx i x).dies = s.dies := rfl
@[simp] theorem State.setCtx_parts (s : State) (i : Nat) (x : Ctx) : (s.setCtx i x).parts = s.parts := rfl
@[simp] theorem State.setCtx_accounts (s : State) (i : Nat) (x : Ctx) : (s.setCtx i x).accounts = s.accounts := rfl
@[simp] theorem State.setCtx_groups (s : State) (i : Nat) (x : Ctx) : (s.setCtx i x).groups = s.groups := rfl
@[simp] theorem State.setCtx_wire (s : State) (i : Nat) (x : Ctx) : (s.setCtx i x).wire = s.wire := rfl
@[simp] theorem State.setCtx_events (s : State) (i : Nat) (x : Ctx) : (s.setCtx i x).events = s.events := rfl
@[simp] theorem State.setCtx_lateEvents (s : State) (i : Nat) (x : Ctx) : (s.setCtx i x).lateEvents = s.lateEvents := rfl
@[simp] theorem State.setCtx_subs (s : State) (i : Nat) (x : Ctx) : (s.setCtx i x).subs = s.subs := rfl
@[simp] theorem State.setCtx_served (s : State) (i : Nat) (x : Ctx) : (s.setCtx i x).served = s.served := rfl
@[simp] theorem State.setCtx_queues (s : State) (i : Nat) (x : Ctx) : (s.setCtx i x).queues = s.queues := rfl
@[simp] theorem State.setCtx_reserve (s : State) (i : Nat) (x : Ctx) : (s.setCtx i x).reserve = s.reserve := rfl
@[simp] theorem State.setCtx_accesses (s : State) (i : Nat) (x : Ctx) : (s.setCtx i x).accesses = s.accesses := rfl
@[simp] theorem State.setCtx_marks (s : State) (i : Nat) (x : Ctx) : (s.setCtx i x).marks = s.marks := rfl
@[simp] theorem State.setCtx_completions (s : State) (i : Nat) (x : Ctx) : (s.setCtx i x).completions = s.completions := rfl
@[simp] theorem State.setCtx_invals (s : State) (i : Nat) (x : Ctx) : (s.setCtx i x).invals = s.invals := rfl
@[simp] theorem State.setCtx_spill (s : State) (i : Nat) (x : Ctx) : (s.setCtx i x).spill = s.spill := rfl
@[simp] theorem State.setCtx_nextNest (s : State) (i : Nat) (x : Ctx) : (s.setCtx i x).nextNest = s.nextNest := rfl
@[simp] theorem State.setCtx_nextPin (s : State) (i : Nat) (x : Ctx) : (s.setCtx i x).nextPin = s.nextPin := rfl
@[simp] theorem State.setCtx_stamp (s : State) (i : Nat) (x : Ctx) : (s.setCtx i x).stamp = s.stamp := rfl
@[simp] theorem State.setCtx_agenda (s : State) (i : Nat) (x : Ctx) : (s.setCtx i x).agenda = s.agenda := rfl
@[simp] theorem State.setCtx_draws (s : State) (i : Nat) (x : Ctx) : (s.setCtx i x).draws = s.draws := rfl
@[simp] theorem State.setCtx_sel (s : State) (i : Nat) (x : Ctx) : (s.setCtx i x).sel = s.sel := rfl
@[simp] theorem State.setCtx_cycle (s : State) (i : Nat) (x : Ctx) : (s.setCtx i x).cycle = s.cycle := rfl

@[simp] theorem State.modCtx_now (s : State) (i : Nat) (f : Ctx → Ctx) : (s.modCtx i f).now = s.now := rfl
@[simp] theorem State.modCtx_boot (s : State) (i : Nat) (f : Ctx → Ctx) : (s.modCtx i f).boot = s.boot := rfl
@[simp] theorem State.modCtx_resetCause (s : State) (i : Nat) (f : Ctx → Ctx) : (s.modCtx i f).resetCause = s.resetCause := rfl
@[simp] theorem State.modCtx_tripAt (s : State) (i : Nat) (f : Ctx → Ctx) : (s.modCtx i f).tripAt = s.tripAt := rfl
@[simp] theorem State.modCtx_fw (s : State) (i : Nat) (f : Ctx → Ctx) : (s.modCtx i f).fw = s.fw := rfl
@[simp] theorem State.modCtx_fwNext (s : State) (i : Nat) (f : Ctx → Ctx) : (s.modCtx i f).fwNext = s.fwNext := rfl
@[simp] theorem State.modCtx_mem (s : State) (i : Nat) (f : Ctx → Ctx) : (s.modCtx i f).mem = s.mem := rfl
@[simp] theorem State.modCtx_poison (s : State) (i : Nat) (f : Ctx → Ctx) : (s.modCtx i f).poison = s.poison := rfl
@[simp] theorem State.modCtx_laid (s : State) (i : Nat) (f : Ctx → Ctx) : (s.modCtx i f).laid = s.laid := rfl
@[simp] theorem State.modCtx_transit (s : State) (i : Nat) (f : Ctx → Ctx) : (s.modCtx i f).transit = s.transit := rfl
@[simp] theorem State.modCtx_root (s : State) (i : Nat) (f : Ctx → Ctx) : (s.modCtx i f).root = s.root := rfl
@[simp] theorem State.modCtx_oldEntries (s : State) (i : Nat) (f : Ctx → Ctx) : (s.modCtx i f).oldEntries = s.oldEntries := rfl
@[simp] theorem State.modCtx_covers (s : State) (i : Nat) (f : Ctx → Ctx) : (s.modCtx i f).covers = s.covers := rfl
@[simp] theorem State.modCtx_fetched (s : State) (i : Nat) (f : Ctx → Ctx) : (s.modCtx i f).fetched = s.fetched := rfl
@[simp] theorem State.modCtx_stale (s : State) (i : Nat) (f : Ctx → Ctx) : (s.modCtx i f).stale = s.stale := rfl
@[simp] theorem State.modCtx_races (s : State) (i : Nat) (f : Ctx → Ctx) : (s.modCtx i f).races = s.races := rfl
@[simp] theorem State.modCtx_deeds (s : State) (i : Nat) (f : Ctx → Ctx) : (s.modCtx i f).deeds = s.deeds := rfl
@[simp] theorem State.modCtx_cores (s : State) (i : Nat) (f : Ctx → Ctx) : (s.modCtx i f).cores = s.cores := rfl
@[simp] theorem State.modCtx_clusters (s : State) (i : Nat) (f : Ctx → Ctx) : (s.modCtx i f).clusters = s.clusters := rfl
@[simp] theorem State.modCtx_dies (s : State) (i : Nat) (f : Ctx → Ctx) : (s.modCtx i f).dies = s.dies := rfl
@[simp] theorem State.modCtx_parts (s : State) (i : Nat) (f : Ctx → Ctx) : (s.modCtx i f).parts = s.parts := rfl
@[simp] theorem State.modCtx_accounts (s : State) (i : Nat) (f : Ctx → Ctx) : (s.modCtx i f).accounts = s.accounts := rfl
@[simp] theorem State.modCtx_groups (s : State) (i : Nat) (f : Ctx → Ctx) : (s.modCtx i f).groups = s.groups := rfl
@[simp] theorem State.modCtx_wire (s : State) (i : Nat) (f : Ctx → Ctx) : (s.modCtx i f).wire = s.wire := rfl
@[simp] theorem State.modCtx_events (s : State) (i : Nat) (f : Ctx → Ctx) : (s.modCtx i f).events = s.events := rfl
@[simp] theorem State.modCtx_lateEvents (s : State) (i : Nat) (f : Ctx → Ctx) : (s.modCtx i f).lateEvents = s.lateEvents := rfl
@[simp] theorem State.modCtx_subs (s : State) (i : Nat) (f : Ctx → Ctx) : (s.modCtx i f).subs = s.subs := rfl
@[simp] theorem State.modCtx_served (s : State) (i : Nat) (f : Ctx → Ctx) : (s.modCtx i f).served = s.served := rfl
@[simp] theorem State.modCtx_queues (s : State) (i : Nat) (f : Ctx → Ctx) : (s.modCtx i f).queues = s.queues := rfl
@[simp] theorem State.modCtx_reserve (s : State) (i : Nat) (f : Ctx → Ctx) : (s.modCtx i f).reserve = s.reserve := rfl
@[simp] theorem State.modCtx_accesses (s : State) (i : Nat) (f : Ctx → Ctx) : (s.modCtx i f).accesses = s.accesses := rfl
@[simp] theorem State.modCtx_marks (s : State) (i : Nat) (f : Ctx → Ctx) : (s.modCtx i f).marks = s.marks := rfl
@[simp] theorem State.modCtx_completions (s : State) (i : Nat) (f : Ctx → Ctx) : (s.modCtx i f).completions = s.completions := rfl
@[simp] theorem State.modCtx_invals (s : State) (i : Nat) (f : Ctx → Ctx) : (s.modCtx i f).invals = s.invals := rfl
@[simp] theorem State.modCtx_spill (s : State) (i : Nat) (f : Ctx → Ctx) : (s.modCtx i f).spill = s.spill := rfl
@[simp] theorem State.modCtx_nextNest (s : State) (i : Nat) (f : Ctx → Ctx) : (s.modCtx i f).nextNest = s.nextNest := rfl
@[simp] theorem State.modCtx_nextPin (s : State) (i : Nat) (f : Ctx → Ctx) : (s.modCtx i f).nextPin = s.nextPin := rfl
@[simp] theorem State.modCtx_stamp (s : State) (i : Nat) (f : Ctx → Ctx) : (s.modCtx i f).stamp = s.stamp := rfl
@[simp] theorem State.modCtx_agenda (s : State) (i : Nat) (f : Ctx → Ctx) : (s.modCtx i f).agenda = s.agenda := rfl
@[simp] theorem State.modCtx_draws (s : State) (i : Nat) (f : Ctx → Ctx) : (s.modCtx i f).draws = s.draws := rfl
@[simp] theorem State.modCtx_sel (s : State) (i : Nat) (f : Ctx → Ctx) : (s.modCtx i f).sel = s.sel := rfl
@[simp] theorem State.modCtx_cycle (s : State) (i : Nat) (f : Ctx → Ctx) : (s.modCtx i f).cycle = s.cycle := rfl

@[simp] theorem State.setStream_now (s : State) (c k : Nat) (t : Stream) : (s.setStream c k t).now = s.now := rfl
@[simp] theorem State.setStream_boot (s : State) (c k : Nat) (t : Stream) : (s.setStream c k t).boot = s.boot := rfl
@[simp] theorem State.setStream_resetCause (s : State) (c k : Nat) (t : Stream) : (s.setStream c k t).resetCause = s.resetCause := rfl
@[simp] theorem State.setStream_tripAt (s : State) (c k : Nat) (t : Stream) : (s.setStream c k t).tripAt = s.tripAt := rfl
@[simp] theorem State.setStream_fw (s : State) (c k : Nat) (t : Stream) : (s.setStream c k t).fw = s.fw := rfl
@[simp] theorem State.setStream_fwNext (s : State) (c k : Nat) (t : Stream) : (s.setStream c k t).fwNext = s.fwNext := rfl
@[simp] theorem State.setStream_mem (s : State) (c k : Nat) (t : Stream) : (s.setStream c k t).mem = s.mem := rfl
@[simp] theorem State.setStream_poison (s : State) (c k : Nat) (t : Stream) : (s.setStream c k t).poison = s.poison := rfl
@[simp] theorem State.setStream_laid (s : State) (c k : Nat) (t : Stream) : (s.setStream c k t).laid = s.laid := rfl
@[simp] theorem State.setStream_transit (s : State) (c k : Nat) (t : Stream) : (s.setStream c k t).transit = s.transit := rfl
@[simp] theorem State.setStream_root (s : State) (c k : Nat) (t : Stream) : (s.setStream c k t).root = s.root := rfl
@[simp] theorem State.setStream_oldEntries (s : State) (c k : Nat) (t : Stream) : (s.setStream c k t).oldEntries = s.oldEntries := rfl
@[simp] theorem State.setStream_covers (s : State) (c k : Nat) (t : Stream) : (s.setStream c k t).covers = s.covers := rfl
@[simp] theorem State.setStream_fetched (s : State) (c k : Nat) (t : Stream) : (s.setStream c k t).fetched = s.fetched := rfl
@[simp] theorem State.setStream_stale (s : State) (c k : Nat) (t : Stream) : (s.setStream c k t).stale = s.stale := rfl
@[simp] theorem State.setStream_races (s : State) (c k : Nat) (t : Stream) : (s.setStream c k t).races = s.races := rfl
@[simp] theorem State.setStream_deeds (s : State) (c k : Nat) (t : Stream) : (s.setStream c k t).deeds = s.deeds := rfl
@[simp] theorem State.setStream_clusters (s : State) (c k : Nat) (t : Stream) : (s.setStream c k t).clusters = s.clusters := rfl
@[simp] theorem State.setStream_dies (s : State) (c k : Nat) (t : Stream) : (s.setStream c k t).dies = s.dies := rfl
@[simp] theorem State.setStream_ctxs (s : State) (c k : Nat) (t : Stream) : (s.setStream c k t).ctxs = s.ctxs := rfl
@[simp] theorem State.setStream_parts (s : State) (c k : Nat) (t : Stream) : (s.setStream c k t).parts = s.parts := rfl
@[simp] theorem State.setStream_accounts (s : State) (c k : Nat) (t : Stream) : (s.setStream c k t).accounts = s.accounts := rfl
@[simp] theorem State.setStream_groups (s : State) (c k : Nat) (t : Stream) : (s.setStream c k t).groups = s.groups := rfl
@[simp] theorem State.setStream_wire (s : State) (c k : Nat) (t : Stream) : (s.setStream c k t).wire = s.wire := rfl
@[simp] theorem State.setStream_events (s : State) (c k : Nat) (t : Stream) : (s.setStream c k t).events = s.events := rfl
@[simp] theorem State.setStream_lateEvents (s : State) (c k : Nat) (t : Stream) : (s.setStream c k t).lateEvents = s.lateEvents := rfl
@[simp] theorem State.setStream_subs (s : State) (c k : Nat) (t : Stream) : (s.setStream c k t).subs = s.subs := rfl
@[simp] theorem State.setStream_served (s : State) (c k : Nat) (t : Stream) : (s.setStream c k t).served = s.served := rfl
@[simp] theorem State.setStream_queues (s : State) (c k : Nat) (t : Stream) : (s.setStream c k t).queues = s.queues := rfl
@[simp] theorem State.setStream_reserve (s : State) (c k : Nat) (t : Stream) : (s.setStream c k t).reserve = s.reserve := rfl
@[simp] theorem State.setStream_accesses (s : State) (c k : Nat) (t : Stream) : (s.setStream c k t).accesses = s.accesses := rfl
@[simp] theorem State.setStream_marks (s : State) (c k : Nat) (t : Stream) : (s.setStream c k t).marks = s.marks := rfl
@[simp] theorem State.setStream_completions (s : State) (c k : Nat) (t : Stream) : (s.setStream c k t).completions = s.completions := rfl
@[simp] theorem State.setStream_invals (s : State) (c k : Nat) (t : Stream) : (s.setStream c k t).invals = s.invals := rfl
@[simp] theorem State.setStream_spill (s : State) (c k : Nat) (t : Stream) : (s.setStream c k t).spill = s.spill := rfl
@[simp] theorem State.setStream_nextNest (s : State) (c k : Nat) (t : Stream) : (s.setStream c k t).nextNest = s.nextNest := rfl
@[simp] theorem State.setStream_nextPin (s : State) (c k : Nat) (t : Stream) : (s.setStream c k t).nextPin = s.nextPin := rfl
@[simp] theorem State.setStream_stamp (s : State) (c k : Nat) (t : Stream) : (s.setStream c k t).stamp = s.stamp := rfl
@[simp] theorem State.setStream_agenda (s : State) (c k : Nat) (t : Stream) : (s.setStream c k t).agenda = s.agenda := rfl
@[simp] theorem State.setStream_draws (s : State) (c k : Nat) (t : Stream) : (s.setStream c k t).draws = s.draws := rfl
@[simp] theorem State.setStream_sel (s : State) (c k : Nat) (t : Stream) : (s.setStream c k t).sel = s.sel := rfl
@[simp] theorem State.setStream_cycle (s : State) (c k : Nat) (t : Stream) : (s.setStream c k t).cycle = s.cycle := rfl

@[simp] theorem State.modStream_now (s : State) (c k : Nat) (f : Stream → Stream) : (s.modStream c k f).now = s.now := rfl
@[simp] theorem State.modStream_boot (s : State) (c k : Nat) (f : Stream → Stream) : (s.modStream c k f).boot = s.boot := rfl
@[simp] theorem State.modStream_resetCause (s : State) (c k : Nat) (f : Stream → Stream) : (s.modStream c k f).resetCause = s.resetCause := rfl
@[simp] theorem State.modStream_tripAt (s : State) (c k : Nat) (f : Stream → Stream) : (s.modStream c k f).tripAt = s.tripAt := rfl
@[simp] theorem State.modStream_fw (s : State) (c k : Nat) (f : Stream → Stream) : (s.modStream c k f).fw = s.fw := rfl
@[simp] theorem State.modStream_fwNext (s : State) (c k : Nat) (f : Stream → Stream) : (s.modStream c k f).fwNext = s.fwNext := rfl
@[simp] theorem State.modStream_mem (s : State) (c k : Nat) (f : Stream → Stream) : (s.modStream c k f).mem = s.mem := rfl
@[simp] theorem State.modStream_poison (s : State) (c k : Nat) (f : Stream → Stream) : (s.modStream c k f).poison = s.poison := rfl
@[simp] theorem State.modStream_laid (s : State) (c k : Nat) (f : Stream → Stream) : (s.modStream c k f).laid = s.laid := rfl
@[simp] theorem State.modStream_transit (s : State) (c k : Nat) (f : Stream → Stream) : (s.modStream c k f).transit = s.transit := rfl
@[simp] theorem State.modStream_root (s : State) (c k : Nat) (f : Stream → Stream) : (s.modStream c k f).root = s.root := rfl
@[simp] theorem State.modStream_oldEntries (s : State) (c k : Nat) (f : Stream → Stream) : (s.modStream c k f).oldEntries = s.oldEntries := rfl
@[simp] theorem State.modStream_covers (s : State) (c k : Nat) (f : Stream → Stream) : (s.modStream c k f).covers = s.covers := rfl
@[simp] theorem State.modStream_fetched (s : State) (c k : Nat) (f : Stream → Stream) : (s.modStream c k f).fetched = s.fetched := rfl
@[simp] theorem State.modStream_stale (s : State) (c k : Nat) (f : Stream → Stream) : (s.modStream c k f).stale = s.stale := rfl
@[simp] theorem State.modStream_races (s : State) (c k : Nat) (f : Stream → Stream) : (s.modStream c k f).races = s.races := rfl
@[simp] theorem State.modStream_deeds (s : State) (c k : Nat) (f : Stream → Stream) : (s.modStream c k f).deeds = s.deeds := rfl
@[simp] theorem State.modStream_clusters (s : State) (c k : Nat) (f : Stream → Stream) : (s.modStream c k f).clusters = s.clusters := rfl
@[simp] theorem State.modStream_dies (s : State) (c k : Nat) (f : Stream → Stream) : (s.modStream c k f).dies = s.dies := rfl
@[simp] theorem State.modStream_ctxs (s : State) (c k : Nat) (f : Stream → Stream) : (s.modStream c k f).ctxs = s.ctxs := rfl
@[simp] theorem State.modStream_parts (s : State) (c k : Nat) (f : Stream → Stream) : (s.modStream c k f).parts = s.parts := rfl
@[simp] theorem State.modStream_accounts (s : State) (c k : Nat) (f : Stream → Stream) : (s.modStream c k f).accounts = s.accounts := rfl
@[simp] theorem State.modStream_groups (s : State) (c k : Nat) (f : Stream → Stream) : (s.modStream c k f).groups = s.groups := rfl
@[simp] theorem State.modStream_wire (s : State) (c k : Nat) (f : Stream → Stream) : (s.modStream c k f).wire = s.wire := rfl
@[simp] theorem State.modStream_events (s : State) (c k : Nat) (f : Stream → Stream) : (s.modStream c k f).events = s.events := rfl
@[simp] theorem State.modStream_lateEvents (s : State) (c k : Nat) (f : Stream → Stream) : (s.modStream c k f).lateEvents = s.lateEvents := rfl
@[simp] theorem State.modStream_subs (s : State) (c k : Nat) (f : Stream → Stream) : (s.modStream c k f).subs = s.subs := rfl
@[simp] theorem State.modStream_served (s : State) (c k : Nat) (f : Stream → Stream) : (s.modStream c k f).served = s.served := rfl
@[simp] theorem State.modStream_queues (s : State) (c k : Nat) (f : Stream → Stream) : (s.modStream c k f).queues = s.queues := rfl
@[simp] theorem State.modStream_reserve (s : State) (c k : Nat) (f : Stream → Stream) : (s.modStream c k f).reserve = s.reserve := rfl
@[simp] theorem State.modStream_accesses (s : State) (c k : Nat) (f : Stream → Stream) : (s.modStream c k f).accesses = s.accesses := rfl
@[simp] theorem State.modStream_marks (s : State) (c k : Nat) (f : Stream → Stream) : (s.modStream c k f).marks = s.marks := rfl
@[simp] theorem State.modStream_completions (s : State) (c k : Nat) (f : Stream → Stream) : (s.modStream c k f).completions = s.completions := rfl
@[simp] theorem State.modStream_invals (s : State) (c k : Nat) (f : Stream → Stream) : (s.modStream c k f).invals = s.invals := rfl
@[simp] theorem State.modStream_spill (s : State) (c k : Nat) (f : Stream → Stream) : (s.modStream c k f).spill = s.spill := rfl
@[simp] theorem State.modStream_nextNest (s : State) (c k : Nat) (f : Stream → Stream) : (s.modStream c k f).nextNest = s.nextNest := rfl
@[simp] theorem State.modStream_nextPin (s : State) (c k : Nat) (f : Stream → Stream) : (s.modStream c k f).nextPin = s.nextPin := rfl
@[simp] theorem State.modStream_stamp (s : State) (c k : Nat) (f : Stream → Stream) : (s.modStream c k f).stamp = s.stamp := rfl
@[simp] theorem State.modStream_agenda (s : State) (c k : Nat) (f : Stream → Stream) : (s.modStream c k f).agenda = s.agenda := rfl
@[simp] theorem State.modStream_draws (s : State) (c k : Nat) (f : Stream → Stream) : (s.modStream c k f).draws = s.draws := rfl
@[simp] theorem State.modStream_sel (s : State) (c k : Nat) (f : Stream → Stream) : (s.modStream c k f).sel = s.sel := rfl
@[simp] theorem State.modStream_cycle (s : State) (c k : Nat) (f : Stream → Stream) : (s.modStream c k f).cycle = s.cycle := rfl

@[simp] theorem State.modCur_now (s : State) (f : Stream → Stream) : (s.modCur f).now = s.now := rfl
@[simp] theorem State.modCur_boot (s : State) (f : Stream → Stream) : (s.modCur f).boot = s.boot := rfl
@[simp] theorem State.modCur_resetCause (s : State) (f : Stream → Stream) : (s.modCur f).resetCause = s.resetCause := rfl
@[simp] theorem State.modCur_tripAt (s : State) (f : Stream → Stream) : (s.modCur f).tripAt = s.tripAt := rfl
@[simp] theorem State.modCur_fw (s : State) (f : Stream → Stream) : (s.modCur f).fw = s.fw := rfl
@[simp] theorem State.modCur_fwNext (s : State) (f : Stream → Stream) : (s.modCur f).fwNext = s.fwNext := rfl
@[simp] theorem State.modCur_mem (s : State) (f : Stream → Stream) : (s.modCur f).mem = s.mem := rfl
@[simp] theorem State.modCur_poison (s : State) (f : Stream → Stream) : (s.modCur f).poison = s.poison := rfl
@[simp] theorem State.modCur_laid (s : State) (f : Stream → Stream) : (s.modCur f).laid = s.laid := rfl
@[simp] theorem State.modCur_transit (s : State) (f : Stream → Stream) : (s.modCur f).transit = s.transit := rfl
@[simp] theorem State.modCur_root (s : State) (f : Stream → Stream) : (s.modCur f).root = s.root := rfl
@[simp] theorem State.modCur_oldEntries (s : State) (f : Stream → Stream) : (s.modCur f).oldEntries = s.oldEntries := rfl
@[simp] theorem State.modCur_covers (s : State) (f : Stream → Stream) : (s.modCur f).covers = s.covers := rfl
@[simp] theorem State.modCur_fetched (s : State) (f : Stream → Stream) : (s.modCur f).fetched = s.fetched := rfl
@[simp] theorem State.modCur_stale (s : State) (f : Stream → Stream) : (s.modCur f).stale = s.stale := rfl
@[simp] theorem State.modCur_races (s : State) (f : Stream → Stream) : (s.modCur f).races = s.races := rfl
@[simp] theorem State.modCur_deeds (s : State) (f : Stream → Stream) : (s.modCur f).deeds = s.deeds := rfl
@[simp] theorem State.modCur_clusters (s : State) (f : Stream → Stream) : (s.modCur f).clusters = s.clusters := rfl
@[simp] theorem State.modCur_dies (s : State) (f : Stream → Stream) : (s.modCur f).dies = s.dies := rfl
@[simp] theorem State.modCur_ctxs (s : State) (f : Stream → Stream) : (s.modCur f).ctxs = s.ctxs := rfl
@[simp] theorem State.modCur_parts (s : State) (f : Stream → Stream) : (s.modCur f).parts = s.parts := rfl
@[simp] theorem State.modCur_accounts (s : State) (f : Stream → Stream) : (s.modCur f).accounts = s.accounts := rfl
@[simp] theorem State.modCur_groups (s : State) (f : Stream → Stream) : (s.modCur f).groups = s.groups := rfl
@[simp] theorem State.modCur_wire (s : State) (f : Stream → Stream) : (s.modCur f).wire = s.wire := rfl
@[simp] theorem State.modCur_events (s : State) (f : Stream → Stream) : (s.modCur f).events = s.events := rfl
@[simp] theorem State.modCur_lateEvents (s : State) (f : Stream → Stream) : (s.modCur f).lateEvents = s.lateEvents := rfl
@[simp] theorem State.modCur_subs (s : State) (f : Stream → Stream) : (s.modCur f).subs = s.subs := rfl
@[simp] theorem State.modCur_served (s : State) (f : Stream → Stream) : (s.modCur f).served = s.served := rfl
@[simp] theorem State.modCur_queues (s : State) (f : Stream → Stream) : (s.modCur f).queues = s.queues := rfl
@[simp] theorem State.modCur_reserve (s : State) (f : Stream → Stream) : (s.modCur f).reserve = s.reserve := rfl
@[simp] theorem State.modCur_accesses (s : State) (f : Stream → Stream) : (s.modCur f).accesses = s.accesses := rfl
@[simp] theorem State.modCur_marks (s : State) (f : Stream → Stream) : (s.modCur f).marks = s.marks := rfl
@[simp] theorem State.modCur_completions (s : State) (f : Stream → Stream) : (s.modCur f).completions = s.completions := rfl
@[simp] theorem State.modCur_invals (s : State) (f : Stream → Stream) : (s.modCur f).invals = s.invals := rfl
@[simp] theorem State.modCur_spill (s : State) (f : Stream → Stream) : (s.modCur f).spill = s.spill := rfl
@[simp] theorem State.modCur_nextNest (s : State) (f : Stream → Stream) : (s.modCur f).nextNest = s.nextNest := rfl
@[simp] theorem State.modCur_nextPin (s : State) (f : Stream → Stream) : (s.modCur f).nextPin = s.nextPin := rfl
@[simp] theorem State.modCur_stamp (s : State) (f : Stream → Stream) : (s.modCur f).stamp = s.stamp := rfl
@[simp] theorem State.modCur_agenda (s : State) (f : Stream → Stream) : (s.modCur f).agenda = s.agenda := rfl
@[simp] theorem State.modCur_draws (s : State) (f : Stream → Stream) : (s.modCur f).draws = s.draws := rfl
@[simp] theorem State.modCur_sel (s : State) (f : Stream → Stream) : (s.modCur f).sel = s.sel := rfl
@[simp] theorem State.modCur_cycle (s : State) (f : Stream → Stream) : (s.modCur f).cycle = s.cycle := rfl

@[simp] theorem State.modTile_now (s : State) (c k : Nat) (f : Tile → Tile) : (s.modTile c k f).now = s.now := rfl
@[simp] theorem State.modTile_boot (s : State) (c k : Nat) (f : Tile → Tile) : (s.modTile c k f).boot = s.boot := rfl
@[simp] theorem State.modTile_resetCause (s : State) (c k : Nat) (f : Tile → Tile) : (s.modTile c k f).resetCause = s.resetCause := rfl
@[simp] theorem State.modTile_tripAt (s : State) (c k : Nat) (f : Tile → Tile) : (s.modTile c k f).tripAt = s.tripAt := rfl
@[simp] theorem State.modTile_fw (s : State) (c k : Nat) (f : Tile → Tile) : (s.modTile c k f).fw = s.fw := rfl
@[simp] theorem State.modTile_fwNext (s : State) (c k : Nat) (f : Tile → Tile) : (s.modTile c k f).fwNext = s.fwNext := rfl
@[simp] theorem State.modTile_mem (s : State) (c k : Nat) (f : Tile → Tile) : (s.modTile c k f).mem = s.mem := rfl
@[simp] theorem State.modTile_poison (s : State) (c k : Nat) (f : Tile → Tile) : (s.modTile c k f).poison = s.poison := rfl
@[simp] theorem State.modTile_laid (s : State) (c k : Nat) (f : Tile → Tile) : (s.modTile c k f).laid = s.laid := rfl
@[simp] theorem State.modTile_transit (s : State) (c k : Nat) (f : Tile → Tile) : (s.modTile c k f).transit = s.transit := rfl
@[simp] theorem State.modTile_root (s : State) (c k : Nat) (f : Tile → Tile) : (s.modTile c k f).root = s.root := rfl
@[simp] theorem State.modTile_oldEntries (s : State) (c k : Nat) (f : Tile → Tile) : (s.modTile c k f).oldEntries = s.oldEntries := rfl
@[simp] theorem State.modTile_covers (s : State) (c k : Nat) (f : Tile → Tile) : (s.modTile c k f).covers = s.covers := rfl
@[simp] theorem State.modTile_fetched (s : State) (c k : Nat) (f : Tile → Tile) : (s.modTile c k f).fetched = s.fetched := rfl
@[simp] theorem State.modTile_stale (s : State) (c k : Nat) (f : Tile → Tile) : (s.modTile c k f).stale = s.stale := rfl
@[simp] theorem State.modTile_races (s : State) (c k : Nat) (f : Tile → Tile) : (s.modTile c k f).races = s.races := rfl
@[simp] theorem State.modTile_deeds (s : State) (c k : Nat) (f : Tile → Tile) : (s.modTile c k f).deeds = s.deeds := rfl
@[simp] theorem State.modTile_clusters (s : State) (c k : Nat) (f : Tile → Tile) : (s.modTile c k f).clusters = s.clusters := rfl
@[simp] theorem State.modTile_dies (s : State) (c k : Nat) (f : Tile → Tile) : (s.modTile c k f).dies = s.dies := rfl
@[simp] theorem State.modTile_ctxs (s : State) (c k : Nat) (f : Tile → Tile) : (s.modTile c k f).ctxs = s.ctxs := rfl
@[simp] theorem State.modTile_parts (s : State) (c k : Nat) (f : Tile → Tile) : (s.modTile c k f).parts = s.parts := rfl
@[simp] theorem State.modTile_accounts (s : State) (c k : Nat) (f : Tile → Tile) : (s.modTile c k f).accounts = s.accounts := rfl
@[simp] theorem State.modTile_groups (s : State) (c k : Nat) (f : Tile → Tile) : (s.modTile c k f).groups = s.groups := rfl
@[simp] theorem State.modTile_wire (s : State) (c k : Nat) (f : Tile → Tile) : (s.modTile c k f).wire = s.wire := rfl
@[simp] theorem State.modTile_events (s : State) (c k : Nat) (f : Tile → Tile) : (s.modTile c k f).events = s.events := rfl
@[simp] theorem State.modTile_lateEvents (s : State) (c k : Nat) (f : Tile → Tile) : (s.modTile c k f).lateEvents = s.lateEvents := rfl
@[simp] theorem State.modTile_subs (s : State) (c k : Nat) (f : Tile → Tile) : (s.modTile c k f).subs = s.subs := rfl
@[simp] theorem State.modTile_served (s : State) (c k : Nat) (f : Tile → Tile) : (s.modTile c k f).served = s.served := rfl
@[simp] theorem State.modTile_queues (s : State) (c k : Nat) (f : Tile → Tile) : (s.modTile c k f).queues = s.queues := rfl
@[simp] theorem State.modTile_reserve (s : State) (c k : Nat) (f : Tile → Tile) : (s.modTile c k f).reserve = s.reserve := rfl
@[simp] theorem State.modTile_accesses (s : State) (c k : Nat) (f : Tile → Tile) : (s.modTile c k f).accesses = s.accesses := rfl
@[simp] theorem State.modTile_marks (s : State) (c k : Nat) (f : Tile → Tile) : (s.modTile c k f).marks = s.marks := rfl
@[simp] theorem State.modTile_completions (s : State) (c k : Nat) (f : Tile → Tile) : (s.modTile c k f).completions = s.completions := rfl
@[simp] theorem State.modTile_invals (s : State) (c k : Nat) (f : Tile → Tile) : (s.modTile c k f).invals = s.invals := rfl
@[simp] theorem State.modTile_spill (s : State) (c k : Nat) (f : Tile → Tile) : (s.modTile c k f).spill = s.spill := rfl
@[simp] theorem State.modTile_nextNest (s : State) (c k : Nat) (f : Tile → Tile) : (s.modTile c k f).nextNest = s.nextNest := rfl
@[simp] theorem State.modTile_nextPin (s : State) (c k : Nat) (f : Tile → Tile) : (s.modTile c k f).nextPin = s.nextPin := rfl
@[simp] theorem State.modTile_stamp (s : State) (c k : Nat) (f : Tile → Tile) : (s.modTile c k f).stamp = s.stamp := rfl
@[simp] theorem State.modTile_agenda (s : State) (c k : Nat) (f : Tile → Tile) : (s.modTile c k f).agenda = s.agenda := rfl
@[simp] theorem State.modTile_draws (s : State) (c k : Nat) (f : Tile → Tile) : (s.modTile c k f).draws = s.draws := rfl
@[simp] theorem State.modTile_sel (s : State) (c k : Nat) (f : Tile → Tile) : (s.modTile c k f).sel = s.sel := rfl
@[simp] theorem State.modTile_cycle (s : State) (c k : Nat) (f : Tile → Tile) : (s.modTile c k f).cycle = s.cycle := rfl

@[simp] theorem State.setRing_now (s : State) (h r : Nat) (x : Ring) : (s.setRing h r x).now = s.now := rfl
@[simp] theorem State.setRing_boot (s : State) (h r : Nat) (x : Ring) : (s.setRing h r x).boot = s.boot := rfl
@[simp] theorem State.setRing_resetCause (s : State) (h r : Nat) (x : Ring) : (s.setRing h r x).resetCause = s.resetCause := rfl
@[simp] theorem State.setRing_tripAt (s : State) (h r : Nat) (x : Ring) : (s.setRing h r x).tripAt = s.tripAt := rfl
@[simp] theorem State.setRing_fw (s : State) (h r : Nat) (x : Ring) : (s.setRing h r x).fw = s.fw := rfl
@[simp] theorem State.setRing_fwNext (s : State) (h r : Nat) (x : Ring) : (s.setRing h r x).fwNext = s.fwNext := rfl
@[simp] theorem State.setRing_mem (s : State) (h r : Nat) (x : Ring) : (s.setRing h r x).mem = s.mem := rfl
@[simp] theorem State.setRing_poison (s : State) (h r : Nat) (x : Ring) : (s.setRing h r x).poison = s.poison := rfl
@[simp] theorem State.setRing_laid (s : State) (h r : Nat) (x : Ring) : (s.setRing h r x).laid = s.laid := rfl
@[simp] theorem State.setRing_transit (s : State) (h r : Nat) (x : Ring) : (s.setRing h r x).transit = s.transit := rfl
@[simp] theorem State.setRing_root (s : State) (h r : Nat) (x : Ring) : (s.setRing h r x).root = s.root := rfl
@[simp] theorem State.setRing_oldEntries (s : State) (h r : Nat) (x : Ring) : (s.setRing h r x).oldEntries = s.oldEntries := rfl
@[simp] theorem State.setRing_covers (s : State) (h r : Nat) (x : Ring) : (s.setRing h r x).covers = s.covers := rfl
@[simp] theorem State.setRing_fetched (s : State) (h r : Nat) (x : Ring) : (s.setRing h r x).fetched = s.fetched := rfl
@[simp] theorem State.setRing_stale (s : State) (h r : Nat) (x : Ring) : (s.setRing h r x).stale = s.stale := rfl
@[simp] theorem State.setRing_races (s : State) (h r : Nat) (x : Ring) : (s.setRing h r x).races = s.races := rfl
@[simp] theorem State.setRing_deeds (s : State) (h r : Nat) (x : Ring) : (s.setRing h r x).deeds = s.deeds := rfl
@[simp] theorem State.setRing_clusters (s : State) (h r : Nat) (x : Ring) : (s.setRing h r x).clusters = s.clusters := rfl
@[simp] theorem State.setRing_dies (s : State) (h r : Nat) (x : Ring) : (s.setRing h r x).dies = s.dies := rfl
@[simp] theorem State.setRing_ctxs (s : State) (h r : Nat) (x : Ring) : (s.setRing h r x).ctxs = s.ctxs := rfl
@[simp] theorem State.setRing_parts (s : State) (h r : Nat) (x : Ring) : (s.setRing h r x).parts = s.parts := rfl
@[simp] theorem State.setRing_accounts (s : State) (h r : Nat) (x : Ring) : (s.setRing h r x).accounts = s.accounts := rfl
@[simp] theorem State.setRing_groups (s : State) (h r : Nat) (x : Ring) : (s.setRing h r x).groups = s.groups := rfl
@[simp] theorem State.setRing_wire (s : State) (h r : Nat) (x : Ring) : (s.setRing h r x).wire = s.wire := rfl
@[simp] theorem State.setRing_events (s : State) (h r : Nat) (x : Ring) : (s.setRing h r x).events = s.events := rfl
@[simp] theorem State.setRing_lateEvents (s : State) (h r : Nat) (x : Ring) : (s.setRing h r x).lateEvents = s.lateEvents := rfl
@[simp] theorem State.setRing_subs (s : State) (h r : Nat) (x : Ring) : (s.setRing h r x).subs = s.subs := rfl
@[simp] theorem State.setRing_served (s : State) (h r : Nat) (x : Ring) : (s.setRing h r x).served = s.served := rfl
@[simp] theorem State.setRing_queues (s : State) (h r : Nat) (x : Ring) : (s.setRing h r x).queues = s.queues := rfl
@[simp] theorem State.setRing_reserve (s : State) (h r : Nat) (x : Ring) : (s.setRing h r x).reserve = s.reserve := rfl
@[simp] theorem State.setRing_accesses (s : State) (h r : Nat) (x : Ring) : (s.setRing h r x).accesses = s.accesses := rfl
@[simp] theorem State.setRing_marks (s : State) (h r : Nat) (x : Ring) : (s.setRing h r x).marks = s.marks := rfl
@[simp] theorem State.setRing_completions (s : State) (h r : Nat) (x : Ring) : (s.setRing h r x).completions = s.completions := rfl
@[simp] theorem State.setRing_invals (s : State) (h r : Nat) (x : Ring) : (s.setRing h r x).invals = s.invals := rfl
@[simp] theorem State.setRing_spill (s : State) (h r : Nat) (x : Ring) : (s.setRing h r x).spill = s.spill := rfl
@[simp] theorem State.setRing_nextNest (s : State) (h r : Nat) (x : Ring) : (s.setRing h r x).nextNest = s.nextNest := rfl
@[simp] theorem State.setRing_nextPin (s : State) (h r : Nat) (x : Ring) : (s.setRing h r x).nextPin = s.nextPin := rfl
@[simp] theorem State.setRing_stamp (s : State) (h r : Nat) (x : Ring) : (s.setRing h r x).stamp = s.stamp := rfl
@[simp] theorem State.setRing_agenda (s : State) (h r : Nat) (x : Ring) : (s.setRing h r x).agenda = s.agenda := rfl
@[simp] theorem State.setRing_draws (s : State) (h r : Nat) (x : Ring) : (s.setRing h r x).draws = s.draws := rfl
@[simp] theorem State.setRing_sel (s : State) (h r : Nat) (x : Ring) : (s.setRing h r x).sel = s.sel := rfl
@[simp] theorem State.setRing_cycle (s : State) (h r : Nat) (x : Ring) : (s.setRing h r x).cycle = s.cycle := rfl

@[simp] theorem State.setBar_now (s : State) (k b : Nat) (x : Bar) : (s.setBar k b x).now = s.now := rfl
@[simp] theorem State.setBar_boot (s : State) (k b : Nat) (x : Bar) : (s.setBar k b x).boot = s.boot := rfl
@[simp] theorem State.setBar_resetCause (s : State) (k b : Nat) (x : Bar) : (s.setBar k b x).resetCause = s.resetCause := rfl
@[simp] theorem State.setBar_tripAt (s : State) (k b : Nat) (x : Bar) : (s.setBar k b x).tripAt = s.tripAt := rfl
@[simp] theorem State.setBar_fw (s : State) (k b : Nat) (x : Bar) : (s.setBar k b x).fw = s.fw := rfl
@[simp] theorem State.setBar_fwNext (s : State) (k b : Nat) (x : Bar) : (s.setBar k b x).fwNext = s.fwNext := rfl
@[simp] theorem State.setBar_mem (s : State) (k b : Nat) (x : Bar) : (s.setBar k b x).mem = s.mem := rfl
@[simp] theorem State.setBar_poison (s : State) (k b : Nat) (x : Bar) : (s.setBar k b x).poison = s.poison := rfl
@[simp] theorem State.setBar_laid (s : State) (k b : Nat) (x : Bar) : (s.setBar k b x).laid = s.laid := rfl
@[simp] theorem State.setBar_transit (s : State) (k b : Nat) (x : Bar) : (s.setBar k b x).transit = s.transit := rfl
@[simp] theorem State.setBar_root (s : State) (k b : Nat) (x : Bar) : (s.setBar k b x).root = s.root := rfl
@[simp] theorem State.setBar_oldEntries (s : State) (k b : Nat) (x : Bar) : (s.setBar k b x).oldEntries = s.oldEntries := rfl
@[simp] theorem State.setBar_covers (s : State) (k b : Nat) (x : Bar) : (s.setBar k b x).covers = s.covers := rfl
@[simp] theorem State.setBar_fetched (s : State) (k b : Nat) (x : Bar) : (s.setBar k b x).fetched = s.fetched := rfl
@[simp] theorem State.setBar_stale (s : State) (k b : Nat) (x : Bar) : (s.setBar k b x).stale = s.stale := rfl
@[simp] theorem State.setBar_races (s : State) (k b : Nat) (x : Bar) : (s.setBar k b x).races = s.races := rfl
@[simp] theorem State.setBar_deeds (s : State) (k b : Nat) (x : Bar) : (s.setBar k b x).deeds = s.deeds := rfl
@[simp] theorem State.setBar_cores (s : State) (k b : Nat) (x : Bar) : (s.setBar k b x).cores = s.cores := rfl
@[simp] theorem State.setBar_dies (s : State) (k b : Nat) (x : Bar) : (s.setBar k b x).dies = s.dies := rfl
@[simp] theorem State.setBar_ctxs (s : State) (k b : Nat) (x : Bar) : (s.setBar k b x).ctxs = s.ctxs := rfl
@[simp] theorem State.setBar_parts (s : State) (k b : Nat) (x : Bar) : (s.setBar k b x).parts = s.parts := rfl
@[simp] theorem State.setBar_accounts (s : State) (k b : Nat) (x : Bar) : (s.setBar k b x).accounts = s.accounts := rfl
@[simp] theorem State.setBar_groups (s : State) (k b : Nat) (x : Bar) : (s.setBar k b x).groups = s.groups := rfl
@[simp] theorem State.setBar_wire (s : State) (k b : Nat) (x : Bar) : (s.setBar k b x).wire = s.wire := rfl
@[simp] theorem State.setBar_events (s : State) (k b : Nat) (x : Bar) : (s.setBar k b x).events = s.events := rfl
@[simp] theorem State.setBar_lateEvents (s : State) (k b : Nat) (x : Bar) : (s.setBar k b x).lateEvents = s.lateEvents := rfl
@[simp] theorem State.setBar_subs (s : State) (k b : Nat) (x : Bar) : (s.setBar k b x).subs = s.subs := rfl
@[simp] theorem State.setBar_served (s : State) (k b : Nat) (x : Bar) : (s.setBar k b x).served = s.served := rfl
@[simp] theorem State.setBar_queues (s : State) (k b : Nat) (x : Bar) : (s.setBar k b x).queues = s.queues := rfl
@[simp] theorem State.setBar_reserve (s : State) (k b : Nat) (x : Bar) : (s.setBar k b x).reserve = s.reserve := rfl
@[simp] theorem State.setBar_accesses (s : State) (k b : Nat) (x : Bar) : (s.setBar k b x).accesses = s.accesses := rfl
@[simp] theorem State.setBar_marks (s : State) (k b : Nat) (x : Bar) : (s.setBar k b x).marks = s.marks := rfl
@[simp] theorem State.setBar_completions (s : State) (k b : Nat) (x : Bar) : (s.setBar k b x).completions = s.completions := rfl
@[simp] theorem State.setBar_invals (s : State) (k b : Nat) (x : Bar) : (s.setBar k b x).invals = s.invals := rfl
@[simp] theorem State.setBar_spill (s : State) (k b : Nat) (x : Bar) : (s.setBar k b x).spill = s.spill := rfl
@[simp] theorem State.setBar_nextNest (s : State) (k b : Nat) (x : Bar) : (s.setBar k b x).nextNest = s.nextNest := rfl
@[simp] theorem State.setBar_nextPin (s : State) (k b : Nat) (x : Bar) : (s.setBar k b x).nextPin = s.nextPin := rfl
@[simp] theorem State.setBar_stamp (s : State) (k b : Nat) (x : Bar) : (s.setBar k b x).stamp = s.stamp := rfl
@[simp] theorem State.setBar_agenda (s : State) (k b : Nat) (x : Bar) : (s.setBar k b x).agenda = s.agenda := rfl
@[simp] theorem State.setBar_draws (s : State) (k b : Nat) (x : Bar) : (s.setBar k b x).draws = s.draws := rfl
@[simp] theorem State.setBar_sel (s : State) (k b : Nat) (x : Bar) : (s.setBar k b x).sel = s.sel := rfl
@[simp] theorem State.setBar_cycle (s : State) (k b : Nat) (x : Bar) : (s.setBar k b x).cycle = s.cycle := rfl

@[simp] theorem State.setChan_now (s : State) (c ch : Nat) (l : List ChEntry) : (s.setChan c ch l).now = s.now := rfl
@[simp] theorem State.setChan_boot (s : State) (c ch : Nat) (l : List ChEntry) : (s.setChan c ch l).boot = s.boot := rfl
@[simp] theorem State.setChan_resetCause (s : State) (c ch : Nat) (l : List ChEntry) : (s.setChan c ch l).resetCause = s.resetCause := rfl
@[simp] theorem State.setChan_tripAt (s : State) (c ch : Nat) (l : List ChEntry) : (s.setChan c ch l).tripAt = s.tripAt := rfl
@[simp] theorem State.setChan_fw (s : State) (c ch : Nat) (l : List ChEntry) : (s.setChan c ch l).fw = s.fw := rfl
@[simp] theorem State.setChan_fwNext (s : State) (c ch : Nat) (l : List ChEntry) : (s.setChan c ch l).fwNext = s.fwNext := rfl
@[simp] theorem State.setChan_mem (s : State) (c ch : Nat) (l : List ChEntry) : (s.setChan c ch l).mem = s.mem := rfl
@[simp] theorem State.setChan_poison (s : State) (c ch : Nat) (l : List ChEntry) : (s.setChan c ch l).poison = s.poison := rfl
@[simp] theorem State.setChan_laid (s : State) (c ch : Nat) (l : List ChEntry) : (s.setChan c ch l).laid = s.laid := rfl
@[simp] theorem State.setChan_transit (s : State) (c ch : Nat) (l : List ChEntry) : (s.setChan c ch l).transit = s.transit := rfl
@[simp] theorem State.setChan_root (s : State) (c ch : Nat) (l : List ChEntry) : (s.setChan c ch l).root = s.root := rfl
@[simp] theorem State.setChan_oldEntries (s : State) (c ch : Nat) (l : List ChEntry) : (s.setChan c ch l).oldEntries = s.oldEntries := rfl
@[simp] theorem State.setChan_covers (s : State) (c ch : Nat) (l : List ChEntry) : (s.setChan c ch l).covers = s.covers := rfl
@[simp] theorem State.setChan_fetched (s : State) (c ch : Nat) (l : List ChEntry) : (s.setChan c ch l).fetched = s.fetched := rfl
@[simp] theorem State.setChan_stale (s : State) (c ch : Nat) (l : List ChEntry) : (s.setChan c ch l).stale = s.stale := rfl
@[simp] theorem State.setChan_races (s : State) (c ch : Nat) (l : List ChEntry) : (s.setChan c ch l).races = s.races := rfl
@[simp] theorem State.setChan_deeds (s : State) (c ch : Nat) (l : List ChEntry) : (s.setChan c ch l).deeds = s.deeds := rfl
@[simp] theorem State.setChan_clusters (s : State) (c ch : Nat) (l : List ChEntry) : (s.setChan c ch l).clusters = s.clusters := rfl
@[simp] theorem State.setChan_dies (s : State) (c ch : Nat) (l : List ChEntry) : (s.setChan c ch l).dies = s.dies := rfl
@[simp] theorem State.setChan_ctxs (s : State) (c ch : Nat) (l : List ChEntry) : (s.setChan c ch l).ctxs = s.ctxs := rfl
@[simp] theorem State.setChan_parts (s : State) (c ch : Nat) (l : List ChEntry) : (s.setChan c ch l).parts = s.parts := rfl
@[simp] theorem State.setChan_accounts (s : State) (c ch : Nat) (l : List ChEntry) : (s.setChan c ch l).accounts = s.accounts := rfl
@[simp] theorem State.setChan_groups (s : State) (c ch : Nat) (l : List ChEntry) : (s.setChan c ch l).groups = s.groups := rfl
@[simp] theorem State.setChan_wire (s : State) (c ch : Nat) (l : List ChEntry) : (s.setChan c ch l).wire = s.wire := rfl
@[simp] theorem State.setChan_events (s : State) (c ch : Nat) (l : List ChEntry) : (s.setChan c ch l).events = s.events := rfl
@[simp] theorem State.setChan_lateEvents (s : State) (c ch : Nat) (l : List ChEntry) : (s.setChan c ch l).lateEvents = s.lateEvents := rfl
@[simp] theorem State.setChan_subs (s : State) (c ch : Nat) (l : List ChEntry) : (s.setChan c ch l).subs = s.subs := rfl
@[simp] theorem State.setChan_served (s : State) (c ch : Nat) (l : List ChEntry) : (s.setChan c ch l).served = s.served := rfl
@[simp] theorem State.setChan_queues (s : State) (c ch : Nat) (l : List ChEntry) : (s.setChan c ch l).queues = s.queues := rfl
@[simp] theorem State.setChan_reserve (s : State) (c ch : Nat) (l : List ChEntry) : (s.setChan c ch l).reserve = s.reserve := rfl
@[simp] theorem State.setChan_accesses (s : State) (c ch : Nat) (l : List ChEntry) : (s.setChan c ch l).accesses = s.accesses := rfl
@[simp] theorem State.setChan_marks (s : State) (c ch : Nat) (l : List ChEntry) : (s.setChan c ch l).marks = s.marks := rfl
@[simp] theorem State.setChan_completions (s : State) (c ch : Nat) (l : List ChEntry) : (s.setChan c ch l).completions = s.completions := rfl
@[simp] theorem State.setChan_invals (s : State) (c ch : Nat) (l : List ChEntry) : (s.setChan c ch l).invals = s.invals := rfl
@[simp] theorem State.setChan_spill (s : State) (c ch : Nat) (l : List ChEntry) : (s.setChan c ch l).spill = s.spill := rfl
@[simp] theorem State.setChan_nextNest (s : State) (c ch : Nat) (l : List ChEntry) : (s.setChan c ch l).nextNest = s.nextNest := rfl
@[simp] theorem State.setChan_nextPin (s : State) (c ch : Nat) (l : List ChEntry) : (s.setChan c ch l).nextPin = s.nextPin := rfl
@[simp] theorem State.setChan_stamp (s : State) (c ch : Nat) (l : List ChEntry) : (s.setChan c ch l).stamp = s.stamp := rfl
@[simp] theorem State.setChan_agenda (s : State) (c ch : Nat) (l : List ChEntry) : (s.setChan c ch l).agenda = s.agenda := rfl
@[simp] theorem State.setChan_draws (s : State) (c ch : Nat) (l : List ChEntry) : (s.setChan c ch l).draws = s.draws := rfl
@[simp] theorem State.setChan_sel (s : State) (c ch : Nat) (l : List ChEntry) : (s.setChan c ch l).sel = s.sel := rfl
@[simp] theorem State.setChan_cycle (s : State) (c ch : Nat) (l : List ChEntry) : (s.setChan c ch l).cycle = s.cycle := rfl

@[simp] theorem State.spadStore_now (s : State) (c a : Nat) (bs : List Byte) : (s.spadStore c a bs).now = s.now := rfl
@[simp] theorem State.spadStore_boot (s : State) (c a : Nat) (bs : List Byte) : (s.spadStore c a bs).boot = s.boot := rfl
@[simp] theorem State.spadStore_resetCause (s : State) (c a : Nat) (bs : List Byte) : (s.spadStore c a bs).resetCause = s.resetCause := rfl
@[simp] theorem State.spadStore_tripAt (s : State) (c a : Nat) (bs : List Byte) : (s.spadStore c a bs).tripAt = s.tripAt := rfl
@[simp] theorem State.spadStore_fw (s : State) (c a : Nat) (bs : List Byte) : (s.spadStore c a bs).fw = s.fw := rfl
@[simp] theorem State.spadStore_fwNext (s : State) (c a : Nat) (bs : List Byte) : (s.spadStore c a bs).fwNext = s.fwNext := rfl
@[simp] theorem State.spadStore_mem (s : State) (c a : Nat) (bs : List Byte) : (s.spadStore c a bs).mem = s.mem := rfl
@[simp] theorem State.spadStore_poison (s : State) (c a : Nat) (bs : List Byte) : (s.spadStore c a bs).poison = s.poison := rfl
@[simp] theorem State.spadStore_laid (s : State) (c a : Nat) (bs : List Byte) : (s.spadStore c a bs).laid = s.laid := rfl
@[simp] theorem State.spadStore_transit (s : State) (c a : Nat) (bs : List Byte) : (s.spadStore c a bs).transit = s.transit := rfl
@[simp] theorem State.spadStore_root (s : State) (c a : Nat) (bs : List Byte) : (s.spadStore c a bs).root = s.root := rfl
@[simp] theorem State.spadStore_oldEntries (s : State) (c a : Nat) (bs : List Byte) : (s.spadStore c a bs).oldEntries = s.oldEntries := rfl
@[simp] theorem State.spadStore_covers (s : State) (c a : Nat) (bs : List Byte) : (s.spadStore c a bs).covers = s.covers := rfl
@[simp] theorem State.spadStore_fetched (s : State) (c a : Nat) (bs : List Byte) : (s.spadStore c a bs).fetched = s.fetched := rfl
@[simp] theorem State.spadStore_stale (s : State) (c a : Nat) (bs : List Byte) : (s.spadStore c a bs).stale = s.stale := rfl
@[simp] theorem State.spadStore_races (s : State) (c a : Nat) (bs : List Byte) : (s.spadStore c a bs).races = s.races := rfl
@[simp] theorem State.spadStore_deeds (s : State) (c a : Nat) (bs : List Byte) : (s.spadStore c a bs).deeds = s.deeds := rfl
@[simp] theorem State.spadStore_clusters (s : State) (c a : Nat) (bs : List Byte) : (s.spadStore c a bs).clusters = s.clusters := rfl
@[simp] theorem State.spadStore_dies (s : State) (c a : Nat) (bs : List Byte) : (s.spadStore c a bs).dies = s.dies := rfl
@[simp] theorem State.spadStore_ctxs (s : State) (c a : Nat) (bs : List Byte) : (s.spadStore c a bs).ctxs = s.ctxs := rfl
@[simp] theorem State.spadStore_parts (s : State) (c a : Nat) (bs : List Byte) : (s.spadStore c a bs).parts = s.parts := rfl
@[simp] theorem State.spadStore_accounts (s : State) (c a : Nat) (bs : List Byte) : (s.spadStore c a bs).accounts = s.accounts := rfl
@[simp] theorem State.spadStore_groups (s : State) (c a : Nat) (bs : List Byte) : (s.spadStore c a bs).groups = s.groups := rfl
@[simp] theorem State.spadStore_wire (s : State) (c a : Nat) (bs : List Byte) : (s.spadStore c a bs).wire = s.wire := rfl
@[simp] theorem State.spadStore_events (s : State) (c a : Nat) (bs : List Byte) : (s.spadStore c a bs).events = s.events := rfl
@[simp] theorem State.spadStore_lateEvents (s : State) (c a : Nat) (bs : List Byte) : (s.spadStore c a bs).lateEvents = s.lateEvents := rfl
@[simp] theorem State.spadStore_subs (s : State) (c a : Nat) (bs : List Byte) : (s.spadStore c a bs).subs = s.subs := rfl
@[simp] theorem State.spadStore_served (s : State) (c a : Nat) (bs : List Byte) : (s.spadStore c a bs).served = s.served := rfl
@[simp] theorem State.spadStore_queues (s : State) (c a : Nat) (bs : List Byte) : (s.spadStore c a bs).queues = s.queues := rfl
@[simp] theorem State.spadStore_reserve (s : State) (c a : Nat) (bs : List Byte) : (s.spadStore c a bs).reserve = s.reserve := rfl
@[simp] theorem State.spadStore_accesses (s : State) (c a : Nat) (bs : List Byte) : (s.spadStore c a bs).accesses = s.accesses := rfl
@[simp] theorem State.spadStore_marks (s : State) (c a : Nat) (bs : List Byte) : (s.spadStore c a bs).marks = s.marks := rfl
@[simp] theorem State.spadStore_completions (s : State) (c a : Nat) (bs : List Byte) : (s.spadStore c a bs).completions = s.completions := rfl
@[simp] theorem State.spadStore_invals (s : State) (c a : Nat) (bs : List Byte) : (s.spadStore c a bs).invals = s.invals := rfl
@[simp] theorem State.spadStore_spill (s : State) (c a : Nat) (bs : List Byte) : (s.spadStore c a bs).spill = s.spill := rfl
@[simp] theorem State.spadStore_nextNest (s : State) (c a : Nat) (bs : List Byte) : (s.spadStore c a bs).nextNest = s.nextNest := rfl
@[simp] theorem State.spadStore_nextPin (s : State) (c a : Nat) (bs : List Byte) : (s.spadStore c a bs).nextPin = s.nextPin := rfl
@[simp] theorem State.spadStore_stamp (s : State) (c a : Nat) (bs : List Byte) : (s.spadStore c a bs).stamp = s.stamp := rfl
@[simp] theorem State.spadStore_agenda (s : State) (c a : Nat) (bs : List Byte) : (s.spadStore c a bs).agenda = s.agenda := rfl
@[simp] theorem State.spadStore_draws (s : State) (c a : Nat) (bs : List Byte) : (s.spadStore c a bs).draws = s.draws := rfl
@[simp] theorem State.spadStore_sel (s : State) (c a : Nat) (bs : List Byte) : (s.spadStore c a bs).sel = s.sel := rfl
@[simp] theorem State.spadStore_cycle (s : State) (c a : Nat) (bs : List Byte) : (s.spadStore c a bs).cycle = s.cycle := rfl

@[simp] theorem State.draw_now (s : State) : s.draw.now = s.now := rfl
@[simp] theorem State.draw_boot (s : State) : s.draw.boot = s.boot := rfl
@[simp] theorem State.draw_resetCause (s : State) : s.draw.resetCause = s.resetCause := rfl
@[simp] theorem State.draw_tripAt (s : State) : s.draw.tripAt = s.tripAt := rfl
@[simp] theorem State.draw_fw (s : State) : s.draw.fw = s.fw := rfl
@[simp] theorem State.draw_fwNext (s : State) : s.draw.fwNext = s.fwNext := rfl
@[simp] theorem State.draw_mem (s : State) : s.draw.mem = s.mem := rfl
@[simp] theorem State.draw_poison (s : State) : s.draw.poison = s.poison := rfl
@[simp] theorem State.draw_laid (s : State) : s.draw.laid = s.laid := rfl
@[simp] theorem State.draw_transit (s : State) : s.draw.transit = s.transit := rfl
@[simp] theorem State.draw_root (s : State) : s.draw.root = s.root := rfl
@[simp] theorem State.draw_oldEntries (s : State) : s.draw.oldEntries = s.oldEntries := rfl
@[simp] theorem State.draw_covers (s : State) : s.draw.covers = s.covers := rfl
@[simp] theorem State.draw_fetched (s : State) : s.draw.fetched = s.fetched := rfl
@[simp] theorem State.draw_stale (s : State) : s.draw.stale = s.stale := rfl
@[simp] theorem State.draw_races (s : State) : s.draw.races = s.races := rfl
@[simp] theorem State.draw_deeds (s : State) : s.draw.deeds = s.deeds := rfl
@[simp] theorem State.draw_cores (s : State) : s.draw.cores = s.cores := rfl
@[simp] theorem State.draw_clusters (s : State) : s.draw.clusters = s.clusters := rfl
@[simp] theorem State.draw_dies (s : State) : s.draw.dies = s.dies := rfl
@[simp] theorem State.draw_ctxs (s : State) : s.draw.ctxs = s.ctxs := rfl
@[simp] theorem State.draw_parts (s : State) : s.draw.parts = s.parts := rfl
@[simp] theorem State.draw_accounts (s : State) : s.draw.accounts = s.accounts := rfl
@[simp] theorem State.draw_groups (s : State) : s.draw.groups = s.groups := rfl
@[simp] theorem State.draw_wire (s : State) : s.draw.wire = s.wire := rfl
@[simp] theorem State.draw_events (s : State) : s.draw.events = s.events := rfl
@[simp] theorem State.draw_lateEvents (s : State) : s.draw.lateEvents = s.lateEvents := rfl
@[simp] theorem State.draw_subs (s : State) : s.draw.subs = s.subs := rfl
@[simp] theorem State.draw_served (s : State) : s.draw.served = s.served := rfl
@[simp] theorem State.draw_queues (s : State) : s.draw.queues = s.queues := rfl
@[simp] theorem State.draw_reserve (s : State) : s.draw.reserve = s.reserve := rfl
@[simp] theorem State.draw_accesses (s : State) : s.draw.accesses = s.accesses := rfl
@[simp] theorem State.draw_marks (s : State) : s.draw.marks = s.marks := rfl
@[simp] theorem State.draw_completions (s : State) : s.draw.completions = s.completions := rfl
@[simp] theorem State.draw_invals (s : State) : s.draw.invals = s.invals := rfl
@[simp] theorem State.draw_spill (s : State) : s.draw.spill = s.spill := rfl
@[simp] theorem State.draw_nextNest (s : State) : s.draw.nextNest = s.nextNest := rfl
@[simp] theorem State.draw_nextPin (s : State) : s.draw.nextPin = s.nextPin := rfl
@[simp] theorem State.draw_stamp (s : State) : s.draw.stamp = s.stamp := rfl
@[simp] theorem State.draw_agenda (s : State) : s.draw.agenda = s.agenda := rfl
@[simp] theorem State.draw_sel (s : State) : s.draw.sel = s.sel := rfl
@[simp] theorem State.draw_cycle (s : State) : s.draw.cycle = s.cycle := rfl

@[simp] theorem State.post_now (s : State) (p : Nat) (e : HostEvent) : (s.post p e).now = s.now := by
  unfold State.post; split <;> rfl
@[simp] theorem State.post_boot (s : State) (p : Nat) (e : HostEvent) : (s.post p e).boot = s.boot := by
  unfold State.post; split <;> rfl
@[simp] theorem State.post_resetCause (s : State) (p : Nat) (e : HostEvent) : (s.post p e).resetCause = s.resetCause := by
  unfold State.post; split <;> rfl
@[simp] theorem State.post_tripAt (s : State) (p : Nat) (e : HostEvent) : (s.post p e).tripAt = s.tripAt := by
  unfold State.post; split <;> rfl
@[simp] theorem State.post_fw (s : State) (p : Nat) (e : HostEvent) : (s.post p e).fw = s.fw := by
  unfold State.post; split <;> rfl
@[simp] theorem State.post_fwNext (s : State) (p : Nat) (e : HostEvent) : (s.post p e).fwNext = s.fwNext := by
  unfold State.post; split <;> rfl
@[simp] theorem State.post_mem (s : State) (p : Nat) (e : HostEvent) : (s.post p e).mem = s.mem := by
  unfold State.post; split <;> rfl
@[simp] theorem State.post_poison (s : State) (p : Nat) (e : HostEvent) : (s.post p e).poison = s.poison := by
  unfold State.post; split <;> rfl
@[simp] theorem State.post_laid (s : State) (p : Nat) (e : HostEvent) : (s.post p e).laid = s.laid := by
  unfold State.post; split <;> rfl
@[simp] theorem State.post_transit (s : State) (p : Nat) (e : HostEvent) : (s.post p e).transit = s.transit := by
  unfold State.post; split <;> rfl
@[simp] theorem State.post_root (s : State) (p : Nat) (e : HostEvent) : (s.post p e).root = s.root := by
  unfold State.post; split <;> rfl
@[simp] theorem State.post_oldEntries (s : State) (p : Nat) (e : HostEvent) : (s.post p e).oldEntries = s.oldEntries := by
  unfold State.post; split <;> rfl
@[simp] theorem State.post_covers (s : State) (p : Nat) (e : HostEvent) : (s.post p e).covers = s.covers := by
  unfold State.post; split <;> rfl
@[simp] theorem State.post_fetched (s : State) (p : Nat) (e : HostEvent) : (s.post p e).fetched = s.fetched := by
  unfold State.post; split <;> rfl
@[simp] theorem State.post_stale (s : State) (p : Nat) (e : HostEvent) : (s.post p e).stale = s.stale := by
  unfold State.post; split <;> rfl
@[simp] theorem State.post_races (s : State) (p : Nat) (e : HostEvent) : (s.post p e).races = s.races := by
  unfold State.post; split <;> rfl
@[simp] theorem State.post_deeds (s : State) (p : Nat) (e : HostEvent) : (s.post p e).deeds = s.deeds := by
  unfold State.post; split <;> rfl
@[simp] theorem State.post_cores (s : State) (p : Nat) (e : HostEvent) : (s.post p e).cores = s.cores := by
  unfold State.post; split <;> rfl
@[simp] theorem State.post_clusters (s : State) (p : Nat) (e : HostEvent) : (s.post p e).clusters = s.clusters := by
  unfold State.post; split <;> rfl
@[simp] theorem State.post_dies (s : State) (p : Nat) (e : HostEvent) : (s.post p e).dies = s.dies := by
  unfold State.post; split <;> rfl
@[simp] theorem State.post_ctxs (s : State) (p : Nat) (e : HostEvent) : (s.post p e).ctxs = s.ctxs := by
  unfold State.post; split <;> rfl
@[simp] theorem State.post_parts (s : State) (p : Nat) (e : HostEvent) : (s.post p e).parts = s.parts := by
  unfold State.post; split <;> rfl
@[simp] theorem State.post_accounts (s : State) (p : Nat) (e : HostEvent) : (s.post p e).accounts = s.accounts := by
  unfold State.post; split <;> rfl
@[simp] theorem State.post_groups (s : State) (p : Nat) (e : HostEvent) : (s.post p e).groups = s.groups := by
  unfold State.post; split <;> rfl
@[simp] theorem State.post_wire (s : State) (p : Nat) (e : HostEvent) : (s.post p e).wire = s.wire := by
  unfold State.post; split <;> rfl
@[simp] theorem State.post_subs (s : State) (p : Nat) (e : HostEvent) : (s.post p e).subs = s.subs := by
  unfold State.post; split <;> rfl
@[simp] theorem State.post_served (s : State) (p : Nat) (e : HostEvent) : (s.post p e).served = s.served := by
  unfold State.post; split <;> rfl
@[simp] theorem State.post_queues (s : State) (p : Nat) (e : HostEvent) : (s.post p e).queues = s.queues := by
  unfold State.post; split <;> rfl
@[simp] theorem State.post_reserve (s : State) (p : Nat) (e : HostEvent) : (s.post p e).reserve = s.reserve := by
  unfold State.post; split <;> rfl
@[simp] theorem State.post_accesses (s : State) (p : Nat) (e : HostEvent) : (s.post p e).accesses = s.accesses := by
  unfold State.post; split <;> rfl
@[simp] theorem State.post_marks (s : State) (p : Nat) (e : HostEvent) : (s.post p e).marks = s.marks := by
  unfold State.post; split <;> rfl
@[simp] theorem State.post_completions (s : State) (p : Nat) (e : HostEvent) : (s.post p e).completions = s.completions := by
  unfold State.post; split <;> rfl
@[simp] theorem State.post_invals (s : State) (p : Nat) (e : HostEvent) : (s.post p e).invals = s.invals := by
  unfold State.post; split <;> rfl
@[simp] theorem State.post_spill (s : State) (p : Nat) (e : HostEvent) : (s.post p e).spill = s.spill := by
  unfold State.post; split <;> rfl
@[simp] theorem State.post_nextNest (s : State) (p : Nat) (e : HostEvent) : (s.post p e).nextNest = s.nextNest := by
  unfold State.post; split <;> rfl
@[simp] theorem State.post_nextPin (s : State) (p : Nat) (e : HostEvent) : (s.post p e).nextPin = s.nextPin := by
  unfold State.post; split <;> rfl
@[simp] theorem State.post_stamp (s : State) (p : Nat) (e : HostEvent) : (s.post p e).stamp = s.stamp := by
  unfold State.post; split <;> rfl
@[simp] theorem State.post_agenda (s : State) (p : Nat) (e : HostEvent) : (s.post p e).agenda = s.agenda := by
  unfold State.post; split <;> rfl
@[simp] theorem State.post_draws (s : State) (p : Nat) (e : HostEvent) : (s.post p e).draws = s.draws := by
  unfold State.post; split <;> rfl
@[simp] theorem State.post_sel (s : State) (p : Nat) (e : HostEvent) : (s.post p e).sel = s.sel := by
  unfold State.post; split <;> rfl
@[simp] theorem State.post_cycle (s : State) (p : Nat) (e : HostEvent) : (s.post p e).cycle = s.cycle := by
  unfold State.post; split <;> rfl

@[simp] theorem State.count_now (s : State) (cl acct ev n : Nat) : (s.count cl acct ev n).now = s.now := by
  unfold State.count; split <;> rfl
@[simp] theorem State.count_boot (s : State) (cl acct ev n : Nat) : (s.count cl acct ev n).boot = s.boot := by
  unfold State.count; split <;> rfl
@[simp] theorem State.count_resetCause (s : State) (cl acct ev n : Nat) : (s.count cl acct ev n).resetCause = s.resetCause := by
  unfold State.count; split <;> rfl
@[simp] theorem State.count_tripAt (s : State) (cl acct ev n : Nat) : (s.count cl acct ev n).tripAt = s.tripAt := by
  unfold State.count; split <;> rfl
@[simp] theorem State.count_fw (s : State) (cl acct ev n : Nat) : (s.count cl acct ev n).fw = s.fw := by
  unfold State.count; split <;> rfl
@[simp] theorem State.count_fwNext (s : State) (cl acct ev n : Nat) : (s.count cl acct ev n).fwNext = s.fwNext := by
  unfold State.count; split <;> rfl
@[simp] theorem State.count_mem (s : State) (cl acct ev n : Nat) : (s.count cl acct ev n).mem = s.mem := by
  unfold State.count; split <;> rfl
@[simp] theorem State.count_poison (s : State) (cl acct ev n : Nat) : (s.count cl acct ev n).poison = s.poison := by
  unfold State.count; split <;> rfl
@[simp] theorem State.count_laid (s : State) (cl acct ev n : Nat) : (s.count cl acct ev n).laid = s.laid := by
  unfold State.count; split <;> rfl
@[simp] theorem State.count_transit (s : State) (cl acct ev n : Nat) : (s.count cl acct ev n).transit = s.transit := by
  unfold State.count; split <;> rfl
@[simp] theorem State.count_root (s : State) (cl acct ev n : Nat) : (s.count cl acct ev n).root = s.root := by
  unfold State.count; split <;> rfl
@[simp] theorem State.count_oldEntries (s : State) (cl acct ev n : Nat) : (s.count cl acct ev n).oldEntries = s.oldEntries := by
  unfold State.count; split <;> rfl
@[simp] theorem State.count_covers (s : State) (cl acct ev n : Nat) : (s.count cl acct ev n).covers = s.covers := by
  unfold State.count; split <;> rfl
@[simp] theorem State.count_fetched (s : State) (cl acct ev n : Nat) : (s.count cl acct ev n).fetched = s.fetched := by
  unfold State.count; split <;> rfl
@[simp] theorem State.count_stale (s : State) (cl acct ev n : Nat) : (s.count cl acct ev n).stale = s.stale := by
  unfold State.count; split <;> rfl
@[simp] theorem State.count_races (s : State) (cl acct ev n : Nat) : (s.count cl acct ev n).races = s.races := by
  unfold State.count; split <;> rfl
@[simp] theorem State.count_deeds (s : State) (cl acct ev n : Nat) : (s.count cl acct ev n).deeds = s.deeds := by
  unfold State.count; split <;> rfl
@[simp] theorem State.count_cores (s : State) (cl acct ev n : Nat) : (s.count cl acct ev n).cores = s.cores := by
  unfold State.count; split <;> rfl
@[simp] theorem State.count_dies (s : State) (cl acct ev n : Nat) : (s.count cl acct ev n).dies = s.dies := by
  unfold State.count; split <;> rfl
@[simp] theorem State.count_ctxs (s : State) (cl acct ev n : Nat) : (s.count cl acct ev n).ctxs = s.ctxs := by
  unfold State.count; split <;> rfl
@[simp] theorem State.count_parts (s : State) (cl acct ev n : Nat) : (s.count cl acct ev n).parts = s.parts := by
  unfold State.count; split <;> rfl
@[simp] theorem State.count_accounts (s : State) (cl acct ev n : Nat) : (s.count cl acct ev n).accounts = s.accounts := by
  unfold State.count; split <;> rfl
@[simp] theorem State.count_groups (s : State) (cl acct ev n : Nat) : (s.count cl acct ev n).groups = s.groups := by
  unfold State.count; split <;> rfl
@[simp] theorem State.count_wire (s : State) (cl acct ev n : Nat) : (s.count cl acct ev n).wire = s.wire := by
  unfold State.count; split <;> rfl
@[simp] theorem State.count_events (s : State) (cl acct ev n : Nat) : (s.count cl acct ev n).events = s.events := by
  unfold State.count; split <;> rfl
@[simp] theorem State.count_lateEvents (s : State) (cl acct ev n : Nat) : (s.count cl acct ev n).lateEvents = s.lateEvents := by
  unfold State.count; split <;> rfl
@[simp] theorem State.count_subs (s : State) (cl acct ev n : Nat) : (s.count cl acct ev n).subs = s.subs := by
  unfold State.count; split <;> rfl
@[simp] theorem State.count_served (s : State) (cl acct ev n : Nat) : (s.count cl acct ev n).served = s.served := by
  unfold State.count; split <;> rfl
@[simp] theorem State.count_queues (s : State) (cl acct ev n : Nat) : (s.count cl acct ev n).queues = s.queues := by
  unfold State.count; split <;> rfl
@[simp] theorem State.count_reserve (s : State) (cl acct ev n : Nat) : (s.count cl acct ev n).reserve = s.reserve := by
  unfold State.count; split <;> rfl
@[simp] theorem State.count_accesses (s : State) (cl acct ev n : Nat) : (s.count cl acct ev n).accesses = s.accesses := by
  unfold State.count; split <;> rfl
@[simp] theorem State.count_marks (s : State) (cl acct ev n : Nat) : (s.count cl acct ev n).marks = s.marks := by
  unfold State.count; split <;> rfl
@[simp] theorem State.count_completions (s : State) (cl acct ev n : Nat) : (s.count cl acct ev n).completions = s.completions := by
  unfold State.count; split <;> rfl
@[simp] theorem State.count_invals (s : State) (cl acct ev n : Nat) : (s.count cl acct ev n).invals = s.invals := by
  unfold State.count; split <;> rfl
@[simp] theorem State.count_spill (s : State) (cl acct ev n : Nat) : (s.count cl acct ev n).spill = s.spill := by
  unfold State.count; split <;> rfl
@[simp] theorem State.count_nextNest (s : State) (cl acct ev n : Nat) : (s.count cl acct ev n).nextNest = s.nextNest := by
  unfold State.count; split <;> rfl
@[simp] theorem State.count_nextPin (s : State) (cl acct ev n : Nat) : (s.count cl acct ev n).nextPin = s.nextPin := by
  unfold State.count; split <;> rfl
@[simp] theorem State.count_stamp (s : State) (cl acct ev n : Nat) : (s.count cl acct ev n).stamp = s.stamp := by
  unfold State.count; split <;> rfl
@[simp] theorem State.count_agenda (s : State) (cl acct ev n : Nat) : (s.count cl acct ev n).agenda = s.agenda := by
  unfold State.count; split <;> rfl
@[simp] theorem State.count_draws (s : State) (cl acct ev n : Nat) : (s.count cl acct ev n).draws = s.draws := by
  unfold State.count; split <;> rfl
@[simp] theorem State.count_sel (s : State) (cl acct ev n : Nat) : (s.count cl acct ev n).sel = s.sel := by
  unfold State.count; split <;> rfl
@[simp] theorem State.count_cycle (s : State) (cl acct ev n : Nat) : (s.count cl acct ev n).cycle = s.cycle := by
  unfold State.count; split <;> rfl

@[simp] theorem State.countCore_now (s : State) (c ev n : Nat) : (s.countCore c ev n).now = s.now := State.count_now s _ _ _ _
@[simp] theorem State.countCore_boot (s : State) (c ev n : Nat) : (s.countCore c ev n).boot = s.boot := State.count_boot s _ _ _ _
@[simp] theorem State.countCore_resetCause (s : State) (c ev n : Nat) : (s.countCore c ev n).resetCause = s.resetCause := State.count_resetCause s _ _ _ _
@[simp] theorem State.countCore_tripAt (s : State) (c ev n : Nat) : (s.countCore c ev n).tripAt = s.tripAt := State.count_tripAt s _ _ _ _
@[simp] theorem State.countCore_fw (s : State) (c ev n : Nat) : (s.countCore c ev n).fw = s.fw := State.count_fw s _ _ _ _
@[simp] theorem State.countCore_fwNext (s : State) (c ev n : Nat) : (s.countCore c ev n).fwNext = s.fwNext := State.count_fwNext s _ _ _ _
@[simp] theorem State.countCore_mem (s : State) (c ev n : Nat) : (s.countCore c ev n).mem = s.mem := State.count_mem s _ _ _ _
@[simp] theorem State.countCore_poison (s : State) (c ev n : Nat) : (s.countCore c ev n).poison = s.poison := State.count_poison s _ _ _ _
@[simp] theorem State.countCore_laid (s : State) (c ev n : Nat) : (s.countCore c ev n).laid = s.laid := State.count_laid s _ _ _ _
@[simp] theorem State.countCore_transit (s : State) (c ev n : Nat) : (s.countCore c ev n).transit = s.transit := State.count_transit s _ _ _ _
@[simp] theorem State.countCore_root (s : State) (c ev n : Nat) : (s.countCore c ev n).root = s.root := State.count_root s _ _ _ _
@[simp] theorem State.countCore_oldEntries (s : State) (c ev n : Nat) : (s.countCore c ev n).oldEntries = s.oldEntries := State.count_oldEntries s _ _ _ _
@[simp] theorem State.countCore_covers (s : State) (c ev n : Nat) : (s.countCore c ev n).covers = s.covers := State.count_covers s _ _ _ _
@[simp] theorem State.countCore_fetched (s : State) (c ev n : Nat) : (s.countCore c ev n).fetched = s.fetched := State.count_fetched s _ _ _ _
@[simp] theorem State.countCore_stale (s : State) (c ev n : Nat) : (s.countCore c ev n).stale = s.stale := State.count_stale s _ _ _ _
@[simp] theorem State.countCore_races (s : State) (c ev n : Nat) : (s.countCore c ev n).races = s.races := State.count_races s _ _ _ _
@[simp] theorem State.countCore_deeds (s : State) (c ev n : Nat) : (s.countCore c ev n).deeds = s.deeds := State.count_deeds s _ _ _ _
@[simp] theorem State.countCore_cores (s : State) (c ev n : Nat) : (s.countCore c ev n).cores = s.cores := State.count_cores s _ _ _ _
@[simp] theorem State.countCore_dies (s : State) (c ev n : Nat) : (s.countCore c ev n).dies = s.dies := State.count_dies s _ _ _ _
@[simp] theorem State.countCore_ctxs (s : State) (c ev n : Nat) : (s.countCore c ev n).ctxs = s.ctxs := State.count_ctxs s _ _ _ _
@[simp] theorem State.countCore_parts (s : State) (c ev n : Nat) : (s.countCore c ev n).parts = s.parts := State.count_parts s _ _ _ _
@[simp] theorem State.countCore_accounts (s : State) (c ev n : Nat) : (s.countCore c ev n).accounts = s.accounts := State.count_accounts s _ _ _ _
@[simp] theorem State.countCore_groups (s : State) (c ev n : Nat) : (s.countCore c ev n).groups = s.groups := State.count_groups s _ _ _ _
@[simp] theorem State.countCore_wire (s : State) (c ev n : Nat) : (s.countCore c ev n).wire = s.wire := State.count_wire s _ _ _ _
@[simp] theorem State.countCore_events (s : State) (c ev n : Nat) : (s.countCore c ev n).events = s.events := State.count_events s _ _ _ _
@[simp] theorem State.countCore_lateEvents (s : State) (c ev n : Nat) : (s.countCore c ev n).lateEvents = s.lateEvents := State.count_lateEvents s _ _ _ _
@[simp] theorem State.countCore_subs (s : State) (c ev n : Nat) : (s.countCore c ev n).subs = s.subs := State.count_subs s _ _ _ _
@[simp] theorem State.countCore_served (s : State) (c ev n : Nat) : (s.countCore c ev n).served = s.served := State.count_served s _ _ _ _
@[simp] theorem State.countCore_queues (s : State) (c ev n : Nat) : (s.countCore c ev n).queues = s.queues := State.count_queues s _ _ _ _
@[simp] theorem State.countCore_reserve (s : State) (c ev n : Nat) : (s.countCore c ev n).reserve = s.reserve := State.count_reserve s _ _ _ _
@[simp] theorem State.countCore_accesses (s : State) (c ev n : Nat) : (s.countCore c ev n).accesses = s.accesses := State.count_accesses s _ _ _ _
@[simp] theorem State.countCore_marks (s : State) (c ev n : Nat) : (s.countCore c ev n).marks = s.marks := State.count_marks s _ _ _ _
@[simp] theorem State.countCore_completions (s : State) (c ev n : Nat) : (s.countCore c ev n).completions = s.completions := State.count_completions s _ _ _ _
@[simp] theorem State.countCore_invals (s : State) (c ev n : Nat) : (s.countCore c ev n).invals = s.invals := State.count_invals s _ _ _ _
@[simp] theorem State.countCore_spill (s : State) (c ev n : Nat) : (s.countCore c ev n).spill = s.spill := State.count_spill s _ _ _ _
@[simp] theorem State.countCore_nextNest (s : State) (c ev n : Nat) : (s.countCore c ev n).nextNest = s.nextNest := State.count_nextNest s _ _ _ _
@[simp] theorem State.countCore_nextPin (s : State) (c ev n : Nat) : (s.countCore c ev n).nextPin = s.nextPin := State.count_nextPin s _ _ _ _
@[simp] theorem State.countCore_stamp (s : State) (c ev n : Nat) : (s.countCore c ev n).stamp = s.stamp := State.count_stamp s _ _ _ _
@[simp] theorem State.countCore_agenda (s : State) (c ev n : Nat) : (s.countCore c ev n).agenda = s.agenda := State.count_agenda s _ _ _ _
@[simp] theorem State.countCore_draws (s : State) (c ev n : Nat) : (s.countCore c ev n).draws = s.draws := State.count_draws s _ _ _ _
@[simp] theorem State.countCore_sel (s : State) (c ev n : Nat) : (s.countCore c ev n).sel = s.sel := State.count_sel s _ _ _ _
@[simp] theorem State.countCore_cycle (s : State) (c ev n : Nat) : (s.countCore c ev n).cycle = s.cycle := State.count_cycle s _ _ _ _

/-! ## A stream -/

@[simp] theorem Stream.setS_st (t : Stream) (r : Nat) (x : W64) : (t.setS r x).st = t.st := by
  unfold Stream.setS; split <;> rfl
@[simp] theorem Stream.setS_pc (t : Stream) (r : Nat) (x : W64) : (t.setS r x).pc = t.pc := by
  unfold Stream.setS; split <;> rfl
@[simp] theorem Stream.setS_a (t : Stream) (r : Nat) (x : W64) : (t.setS r x).a = t.a := by
  unfold Stream.setS; split <;> rfl
@[simp] theorem Stream.setS_lc (t : Stream) (r : Nat) (x : W64) : (t.setS r x).lc = t.lc := by
  unfold Stream.setS; split <;> rfl
@[simp] theorem Stream.setS_p (t : Stream) (r : Nat) (x : W64) : (t.setS r x).p = t.p := by
  unfold Stream.setS; split <;> rfl
@[simp] theorem Stream.setS_alloc (t : Stream) (r : Nat) (x : W64) : (t.setS r x).alloc = t.alloc := by
  unfold Stream.setS; split <;> rfl
@[simp] theorem Stream.setS_v (t : Stream) (r : Nat) (x : W64) : (t.setS r x).v = t.v := by
  unfold Stream.setS; split <;> rfl
@[simp] theorem Stream.setS_rrb (t : Stream) (r : Nat) (x : W64) : (t.setS r x).rrb = t.rrb := by
  unfold Stream.setS; split <;> rfl
@[simp] theorem Stream.setS_prb (t : Stream) (r : Nat) (x : W64) : (t.setS r x).prb = t.prb := by
  unfold Stream.setS; split <;> rfl
@[simp] theorem Stream.setS_pats (t : Stream) (r : Nat) (x : W64) : (t.setS r x).pats = t.pats := by
  unfold Stream.setS; split <;> rfl
@[simp] theorem Stream.setS_dqmiss (t : Stream) (r : Nat) (x : W64) : (t.setS r x).dqmiss = t.dqmiss := by
  unfold Stream.setS; split <;> rfl
@[simp] theorem Stream.setS_olclamp (t : Stream) (r : Nat) (x : W64) : (t.setS r x).olclamp = t.olclamp := by
  unfold Stream.setS; split <;> rfl
@[simp] theorem Stream.setS_exp (t : Stream) (r : Nat) (x : W64) : (t.setS r x).exp = t.exp := by
  unfold Stream.setS; split <;> rfl
@[simp] theorem Stream.setS_tok (t : Stream) (r : Nat) (x : W64) : (t.setS r x).tok = t.tok := by
  unfold Stream.setS; split <;> rfl
@[simp] theorem Stream.setS_queues (t : Stream) (r : Nat) (x : W64) : (t.setS r x).queues = t.queues := by
  unfold Stream.setS; split <;> rfl
@[simp] theorem Stream.setS_flights (t : Stream) (r : Nat) (x : W64) : (t.setS r x).flights = t.flights := by
  unfold Stream.setS; split <;> rfl
@[simp] theorem Stream.setS_pend (t : Stream) (r : Nat) (x : W64) : (t.setS r x).pend = t.pend := by
  unfold Stream.setS; split <;> rfl
@[simp] theorem Stream.setS_rctr (t : Stream) (r : Nat) (x : W64) : (t.setS r x).rctr = t.rctr := by
  unfold Stream.setS; split <;> rfl
@[simp] theorem Stream.setS_fmtq (t : Stream) (r : Nat) (x : W64) : (t.setS r x).fmtq = t.fmtq := by
  unfold Stream.setS; split <;> rfl
@[simp] theorem Stream.setS_lease (t : Stream) (r : Nat) (x : W64) : (t.setS r x).lease = t.lease := by
  unfold Stream.setS; split <;> rfl
@[simp] theorem Stream.setS_renew (t : Stream) (r : Nat) (x : W64) : (t.setS r x).renew = t.renew := by
  unfold Stream.setS; split <;> rfl
@[simp] theorem Stream.setS_reqAt (t : Stream) (r : Nat) (x : W64) : (t.setS r x).reqAt = t.reqAt := by
  unfold Stream.setS; split <;> rfl
@[simp] theorem Stream.setS_win (t : Stream) (r : Nat) (x : W64) : (t.setS r x).win = t.win := by
  unfold Stream.setS; split <;> rfl
@[simp] theorem Stream.setS_rels (t : Stream) (r : Nat) (x : W64) : (t.setS r x).rels = t.rels := by
  unfold Stream.setS; split <;> rfl
@[simp] theorem Stream.setS_gained (t : Stream) (r : Nat) (x : W64) : (t.setS r x).gained = t.gained := by
  unfold Stream.setS; split <;> rfl
@[simp] theorem Stream.setS_acqs (t : Stream) (r : Nat) (x : W64) : (t.setS r x).acqs = t.acqs := by
  unfold Stream.setS; split <;> rfl
@[simp] theorem Stream.setS_fr (t : Stream) (r : Nat) (x : W64) : (t.setS r x).fr = t.fr := by
  unfold Stream.setS; split <;> rfl
@[simp] theorem Stream.setS_intrap (t : Stream) (r : Nat) (x : W64) : (t.setS r x).intrap = t.intrap := by
  unfold Stream.setS; split <;> rfl
@[simp] theorem Stream.setS_faults (t : Stream) (r : Nat) (x : W64) : (t.setS r x).faults = t.faults := by
  unfold Stream.setS; split <;> rfl
@[simp] theorem Stream.setS_heldAt (t : Stream) (r : Nat) (x : W64) : (t.setS r x).heldAt = t.heldAt := by
  unfold Stream.setS; split <;> rfl
@[simp] theorem Stream.setS_halted (t : Stream) (r : Nat) (x : W64) : (t.setS r x).halted = t.halted := by
  unfold Stream.setS; split <;> rfl
@[simp] theorem Stream.setS_tscr0 (t : Stream) (r : Nat) (x : W64) : (t.setS r x).tscr0 = t.tscr0 := by
  unfold Stream.setS; split <;> rfl
@[simp] theorem Stream.setS_tscr1 (t : Stream) (r : Nat) (x : W64) : (t.setS r x).tscr1 = t.tscr1 := by
  unfold Stream.setS; split <;> rfl
@[simp] theorem Stream.setS_jcnt (t : Stream) (r : Nat) (x : W64) : (t.setS r x).jcnt = t.jcnt := by
  unfold Stream.setS; split <;> rfl
@[simp] theorem Stream.setS_journal (t : Stream) (r : Nat) (x : W64) : (t.setS r x).journal = t.journal := by
  unfold Stream.setS; split <;> rfl
@[simp] theorem Stream.setS_jmarkV (t : Stream) (r : Nat) (x : W64) : (t.setS r x).jmarkV = t.jmarkV := by
  unfold Stream.setS; split <;> rfl
@[simp] theorem Stream.setS_hreply (t : Stream) (r : Nat) (x : W64) : (t.setS r x).hreply = t.hreply := by
  unfold Stream.setS; split <;> rfl
@[simp] theorem Stream.setS_heldReply (t : Stream) (r : Nat) (x : W64) : (t.setS r x).heldReply = t.heldReply := by
  unfold Stream.setS; split <;> rfl
@[simp] theorem Stream.setS_progress (t : Stream) (r : Nat) (x : W64) : (t.setS r x).progress = t.progress := by
  unfold Stream.setS; split <;> rfl
@[simp] theorem Stream.setS_unit (t : Stream) (r : Nat) (x : W64) : (t.setS r x).unit = t.unit := by
  unfold Stream.setS; split <;> rfl

@[simp] theorem Stream.setA_st (t : Stream) (k : Nat) (x : AddrReg) : (t.setA k x).st = t.st := rfl
@[simp] theorem Stream.setA_pc (t : Stream) (k : Nat) (x : AddrReg) : (t.setA k x).pc = t.pc := rfl
@[simp] theorem Stream.setA_s (t : Stream) (k : Nat) (x : AddrReg) : (t.setA k x).s = t.s := rfl
@[simp] theorem Stream.setA_lc (t : Stream) (k : Nat) (x : AddrReg) : (t.setA k x).lc = t.lc := rfl
@[simp] theorem Stream.setA_p (t : Stream) (k : Nat) (x : AddrReg) : (t.setA k x).p = t.p := rfl
@[simp] theorem Stream.setA_alloc (t : Stream) (k : Nat) (x : AddrReg) : (t.setA k x).alloc = t.alloc := rfl
@[simp] theorem Stream.setA_v (t : Stream) (k : Nat) (x : AddrReg) : (t.setA k x).v = t.v := rfl
@[simp] theorem Stream.setA_rrb (t : Stream) (k : Nat) (x : AddrReg) : (t.setA k x).rrb = t.rrb := rfl
@[simp] theorem Stream.setA_prb (t : Stream) (k : Nat) (x : AddrReg) : (t.setA k x).prb = t.prb := rfl
@[simp] theorem Stream.setA_pats (t : Stream) (k : Nat) (x : AddrReg) : (t.setA k x).pats = t.pats := rfl
@[simp] theorem Stream.setA_dqmiss (t : Stream) (k : Nat) (x : AddrReg) : (t.setA k x).dqmiss = t.dqmiss := rfl
@[simp] theorem Stream.setA_olclamp (t : Stream) (k : Nat) (x : AddrReg) : (t.setA k x).olclamp = t.olclamp := rfl
@[simp] theorem Stream.setA_exp (t : Stream) (k : Nat) (x : AddrReg) : (t.setA k x).exp = t.exp := rfl
@[simp] theorem Stream.setA_tok (t : Stream) (k : Nat) (x : AddrReg) : (t.setA k x).tok = t.tok := rfl
@[simp] theorem Stream.setA_queues (t : Stream) (k : Nat) (x : AddrReg) : (t.setA k x).queues = t.queues := rfl
@[simp] theorem Stream.setA_flights (t : Stream) (k : Nat) (x : AddrReg) : (t.setA k x).flights = t.flights := rfl
@[simp] theorem Stream.setA_pend (t : Stream) (k : Nat) (x : AddrReg) : (t.setA k x).pend = t.pend := rfl
@[simp] theorem Stream.setA_rctr (t : Stream) (k : Nat) (x : AddrReg) : (t.setA k x).rctr = t.rctr := rfl
@[simp] theorem Stream.setA_fmtq (t : Stream) (k : Nat) (x : AddrReg) : (t.setA k x).fmtq = t.fmtq := rfl
@[simp] theorem Stream.setA_lease (t : Stream) (k : Nat) (x : AddrReg) : (t.setA k x).lease = t.lease := rfl
@[simp] theorem Stream.setA_renew (t : Stream) (k : Nat) (x : AddrReg) : (t.setA k x).renew = t.renew := rfl
@[simp] theorem Stream.setA_reqAt (t : Stream) (k : Nat) (x : AddrReg) : (t.setA k x).reqAt = t.reqAt := rfl
@[simp] theorem Stream.setA_win (t : Stream) (k : Nat) (x : AddrReg) : (t.setA k x).win = t.win := rfl
@[simp] theorem Stream.setA_rels (t : Stream) (k : Nat) (x : AddrReg) : (t.setA k x).rels = t.rels := rfl
@[simp] theorem Stream.setA_gained (t : Stream) (k : Nat) (x : AddrReg) : (t.setA k x).gained = t.gained := rfl
@[simp] theorem Stream.setA_acqs (t : Stream) (k : Nat) (x : AddrReg) : (t.setA k x).acqs = t.acqs := rfl
@[simp] theorem Stream.setA_fr (t : Stream) (k : Nat) (x : AddrReg) : (t.setA k x).fr = t.fr := rfl
@[simp] theorem Stream.setA_intrap (t : Stream) (k : Nat) (x : AddrReg) : (t.setA k x).intrap = t.intrap := rfl
@[simp] theorem Stream.setA_faults (t : Stream) (k : Nat) (x : AddrReg) : (t.setA k x).faults = t.faults := rfl
@[simp] theorem Stream.setA_heldAt (t : Stream) (k : Nat) (x : AddrReg) : (t.setA k x).heldAt = t.heldAt := rfl
@[simp] theorem Stream.setA_halted (t : Stream) (k : Nat) (x : AddrReg) : (t.setA k x).halted = t.halted := rfl
@[simp] theorem Stream.setA_tscr0 (t : Stream) (k : Nat) (x : AddrReg) : (t.setA k x).tscr0 = t.tscr0 := rfl
@[simp] theorem Stream.setA_tscr1 (t : Stream) (k : Nat) (x : AddrReg) : (t.setA k x).tscr1 = t.tscr1 := rfl
@[simp] theorem Stream.setA_jcnt (t : Stream) (k : Nat) (x : AddrReg) : (t.setA k x).jcnt = t.jcnt := rfl
@[simp] theorem Stream.setA_journal (t : Stream) (k : Nat) (x : AddrReg) : (t.setA k x).journal = t.journal := rfl
@[simp] theorem Stream.setA_jmarkV (t : Stream) (k : Nat) (x : AddrReg) : (t.setA k x).jmarkV = t.jmarkV := rfl
@[simp] theorem Stream.setA_hreply (t : Stream) (k : Nat) (x : AddrReg) : (t.setA k x).hreply = t.hreply := rfl
@[simp] theorem Stream.setA_heldReply (t : Stream) (k : Nat) (x : AddrReg) : (t.setA k x).heldReply = t.heldReply := rfl
@[simp] theorem Stream.setA_progress (t : Stream) (k : Nat) (x : AddrReg) : (t.setA k x).progress = t.progress := rfl
@[simp] theorem Stream.setA_unit (t : Stream) (k : Nat) (x : AddrReg) : (t.setA k x).unit = t.unit := rfl

@[simp] theorem Stream.setL_st (t : Stream) (k : Nat) (x : LoopCtr) : (t.setL k x).st = t.st := rfl
@[simp] theorem Stream.setL_pc (t : Stream) (k : Nat) (x : LoopCtr) : (t.setL k x).pc = t.pc := rfl
@[simp] theorem Stream.setL_s (t : Stream) (k : Nat) (x : LoopCtr) : (t.setL k x).s = t.s := rfl
@[simp] theorem Stream.setL_a (t : Stream) (k : Nat) (x : LoopCtr) : (t.setL k x).a = t.a := rfl
@[simp] theorem Stream.setL_p (t : Stream) (k : Nat) (x : LoopCtr) : (t.setL k x).p = t.p := rfl
@[simp] theorem Stream.setL_alloc (t : Stream) (k : Nat) (x : LoopCtr) : (t.setL k x).alloc = t.alloc := rfl
@[simp] theorem Stream.setL_v (t : Stream) (k : Nat) (x : LoopCtr) : (t.setL k x).v = t.v := rfl
@[simp] theorem Stream.setL_rrb (t : Stream) (k : Nat) (x : LoopCtr) : (t.setL k x).rrb = t.rrb := rfl
@[simp] theorem Stream.setL_prb (t : Stream) (k : Nat) (x : LoopCtr) : (t.setL k x).prb = t.prb := rfl
@[simp] theorem Stream.setL_pats (t : Stream) (k : Nat) (x : LoopCtr) : (t.setL k x).pats = t.pats := rfl
@[simp] theorem Stream.setL_dqmiss (t : Stream) (k : Nat) (x : LoopCtr) : (t.setL k x).dqmiss = t.dqmiss := rfl
@[simp] theorem Stream.setL_olclamp (t : Stream) (k : Nat) (x : LoopCtr) : (t.setL k x).olclamp = t.olclamp := rfl
@[simp] theorem Stream.setL_exp (t : Stream) (k : Nat) (x : LoopCtr) : (t.setL k x).exp = t.exp := rfl
@[simp] theorem Stream.setL_tok (t : Stream) (k : Nat) (x : LoopCtr) : (t.setL k x).tok = t.tok := rfl
@[simp] theorem Stream.setL_queues (t : Stream) (k : Nat) (x : LoopCtr) : (t.setL k x).queues = t.queues := rfl
@[simp] theorem Stream.setL_flights (t : Stream) (k : Nat) (x : LoopCtr) : (t.setL k x).flights = t.flights := rfl
@[simp] theorem Stream.setL_pend (t : Stream) (k : Nat) (x : LoopCtr) : (t.setL k x).pend = t.pend := rfl
@[simp] theorem Stream.setL_rctr (t : Stream) (k : Nat) (x : LoopCtr) : (t.setL k x).rctr = t.rctr := rfl
@[simp] theorem Stream.setL_fmtq (t : Stream) (k : Nat) (x : LoopCtr) : (t.setL k x).fmtq = t.fmtq := rfl
@[simp] theorem Stream.setL_lease (t : Stream) (k : Nat) (x : LoopCtr) : (t.setL k x).lease = t.lease := rfl
@[simp] theorem Stream.setL_renew (t : Stream) (k : Nat) (x : LoopCtr) : (t.setL k x).renew = t.renew := rfl
@[simp] theorem Stream.setL_reqAt (t : Stream) (k : Nat) (x : LoopCtr) : (t.setL k x).reqAt = t.reqAt := rfl
@[simp] theorem Stream.setL_win (t : Stream) (k : Nat) (x : LoopCtr) : (t.setL k x).win = t.win := rfl
@[simp] theorem Stream.setL_rels (t : Stream) (k : Nat) (x : LoopCtr) : (t.setL k x).rels = t.rels := rfl
@[simp] theorem Stream.setL_gained (t : Stream) (k : Nat) (x : LoopCtr) : (t.setL k x).gained = t.gained := rfl
@[simp] theorem Stream.setL_acqs (t : Stream) (k : Nat) (x : LoopCtr) : (t.setL k x).acqs = t.acqs := rfl
@[simp] theorem Stream.setL_fr (t : Stream) (k : Nat) (x : LoopCtr) : (t.setL k x).fr = t.fr := rfl
@[simp] theorem Stream.setL_intrap (t : Stream) (k : Nat) (x : LoopCtr) : (t.setL k x).intrap = t.intrap := rfl
@[simp] theorem Stream.setL_faults (t : Stream) (k : Nat) (x : LoopCtr) : (t.setL k x).faults = t.faults := rfl
@[simp] theorem Stream.setL_heldAt (t : Stream) (k : Nat) (x : LoopCtr) : (t.setL k x).heldAt = t.heldAt := rfl
@[simp] theorem Stream.setL_halted (t : Stream) (k : Nat) (x : LoopCtr) : (t.setL k x).halted = t.halted := rfl
@[simp] theorem Stream.setL_tscr0 (t : Stream) (k : Nat) (x : LoopCtr) : (t.setL k x).tscr0 = t.tscr0 := rfl
@[simp] theorem Stream.setL_tscr1 (t : Stream) (k : Nat) (x : LoopCtr) : (t.setL k x).tscr1 = t.tscr1 := rfl
@[simp] theorem Stream.setL_jcnt (t : Stream) (k : Nat) (x : LoopCtr) : (t.setL k x).jcnt = t.jcnt := rfl
@[simp] theorem Stream.setL_journal (t : Stream) (k : Nat) (x : LoopCtr) : (t.setL k x).journal = t.journal := rfl
@[simp] theorem Stream.setL_jmarkV (t : Stream) (k : Nat) (x : LoopCtr) : (t.setL k x).jmarkV = t.jmarkV := rfl
@[simp] theorem Stream.setL_hreply (t : Stream) (k : Nat) (x : LoopCtr) : (t.setL k x).hreply = t.hreply := rfl
@[simp] theorem Stream.setL_heldReply (t : Stream) (k : Nat) (x : LoopCtr) : (t.setL k x).heldReply = t.heldReply := rfl
@[simp] theorem Stream.setL_progress (t : Stream) (k : Nat) (x : LoopCtr) : (t.setL k x).progress = t.progress := rfl
@[simp] theorem Stream.setL_unit (t : Stream) (k : Nat) (x : LoopCtr) : (t.setL k x).unit = t.unit := rfl

@[simp] theorem Stream.setQueue_st (t : Stream) (e : Nat) (q : List Cmd) : (t.setQueue e q).st = t.st := rfl
@[simp] theorem Stream.setQueue_pc (t : Stream) (e : Nat) (q : List Cmd) : (t.setQueue e q).pc = t.pc := rfl
@[simp] theorem Stream.setQueue_s (t : Stream) (e : Nat) (q : List Cmd) : (t.setQueue e q).s = t.s := rfl
@[simp] theorem Stream.setQueue_a (t : Stream) (e : Nat) (q : List Cmd) : (t.setQueue e q).a = t.a := rfl
@[simp] theorem Stream.setQueue_lc (t : Stream) (e : Nat) (q : List Cmd) : (t.setQueue e q).lc = t.lc := rfl
@[simp] theorem Stream.setQueue_p (t : Stream) (e : Nat) (q : List Cmd) : (t.setQueue e q).p = t.p := rfl
@[simp] theorem Stream.setQueue_alloc (t : Stream) (e : Nat) (q : List Cmd) : (t.setQueue e q).alloc = t.alloc := rfl
@[simp] theorem Stream.setQueue_v (t : Stream) (e : Nat) (q : List Cmd) : (t.setQueue e q).v = t.v := rfl
@[simp] theorem Stream.setQueue_rrb (t : Stream) (e : Nat) (q : List Cmd) : (t.setQueue e q).rrb = t.rrb := rfl
@[simp] theorem Stream.setQueue_prb (t : Stream) (e : Nat) (q : List Cmd) : (t.setQueue e q).prb = t.prb := rfl
@[simp] theorem Stream.setQueue_pats (t : Stream) (e : Nat) (q : List Cmd) : (t.setQueue e q).pats = t.pats := rfl
@[simp] theorem Stream.setQueue_dqmiss (t : Stream) (e : Nat) (q : List Cmd) : (t.setQueue e q).dqmiss = t.dqmiss := rfl
@[simp] theorem Stream.setQueue_olclamp (t : Stream) (e : Nat) (q : List Cmd) : (t.setQueue e q).olclamp = t.olclamp := rfl
@[simp] theorem Stream.setQueue_exp (t : Stream) (e : Nat) (q : List Cmd) : (t.setQueue e q).exp = t.exp := rfl
@[simp] theorem Stream.setQueue_tok (t : Stream) (e : Nat) (q : List Cmd) : (t.setQueue e q).tok = t.tok := rfl
@[simp] theorem Stream.setQueue_flights (t : Stream) (e : Nat) (q : List Cmd) : (t.setQueue e q).flights = t.flights := rfl
@[simp] theorem Stream.setQueue_pend (t : Stream) (e : Nat) (q : List Cmd) : (t.setQueue e q).pend = t.pend := rfl
@[simp] theorem Stream.setQueue_rctr (t : Stream) (e : Nat) (q : List Cmd) : (t.setQueue e q).rctr = t.rctr := rfl
@[simp] theorem Stream.setQueue_fmtq (t : Stream) (e : Nat) (q : List Cmd) : (t.setQueue e q).fmtq = t.fmtq := rfl
@[simp] theorem Stream.setQueue_lease (t : Stream) (e : Nat) (q : List Cmd) : (t.setQueue e q).lease = t.lease := rfl
@[simp] theorem Stream.setQueue_renew (t : Stream) (e : Nat) (q : List Cmd) : (t.setQueue e q).renew = t.renew := rfl
@[simp] theorem Stream.setQueue_reqAt (t : Stream) (e : Nat) (q : List Cmd) : (t.setQueue e q).reqAt = t.reqAt := rfl
@[simp] theorem Stream.setQueue_win (t : Stream) (e : Nat) (q : List Cmd) : (t.setQueue e q).win = t.win := rfl
@[simp] theorem Stream.setQueue_rels (t : Stream) (e : Nat) (q : List Cmd) : (t.setQueue e q).rels = t.rels := rfl
@[simp] theorem Stream.setQueue_gained (t : Stream) (e : Nat) (q : List Cmd) : (t.setQueue e q).gained = t.gained := rfl
@[simp] theorem Stream.setQueue_acqs (t : Stream) (e : Nat) (q : List Cmd) : (t.setQueue e q).acqs = t.acqs := rfl
@[simp] theorem Stream.setQueue_fr (t : Stream) (e : Nat) (q : List Cmd) : (t.setQueue e q).fr = t.fr := rfl
@[simp] theorem Stream.setQueue_intrap (t : Stream) (e : Nat) (q : List Cmd) : (t.setQueue e q).intrap = t.intrap := rfl
@[simp] theorem Stream.setQueue_faults (t : Stream) (e : Nat) (q : List Cmd) : (t.setQueue e q).faults = t.faults := rfl
@[simp] theorem Stream.setQueue_heldAt (t : Stream) (e : Nat) (q : List Cmd) : (t.setQueue e q).heldAt = t.heldAt := rfl
@[simp] theorem Stream.setQueue_halted (t : Stream) (e : Nat) (q : List Cmd) : (t.setQueue e q).halted = t.halted := rfl
@[simp] theorem Stream.setQueue_tscr0 (t : Stream) (e : Nat) (q : List Cmd) : (t.setQueue e q).tscr0 = t.tscr0 := rfl
@[simp] theorem Stream.setQueue_tscr1 (t : Stream) (e : Nat) (q : List Cmd) : (t.setQueue e q).tscr1 = t.tscr1 := rfl
@[simp] theorem Stream.setQueue_jcnt (t : Stream) (e : Nat) (q : List Cmd) : (t.setQueue e q).jcnt = t.jcnt := rfl
@[simp] theorem Stream.setQueue_journal (t : Stream) (e : Nat) (q : List Cmd) : (t.setQueue e q).journal = t.journal := rfl
@[simp] theorem Stream.setQueue_jmarkV (t : Stream) (e : Nat) (q : List Cmd) : (t.setQueue e q).jmarkV = t.jmarkV := rfl
@[simp] theorem Stream.setQueue_hreply (t : Stream) (e : Nat) (q : List Cmd) : (t.setQueue e q).hreply = t.hreply := rfl
@[simp] theorem Stream.setQueue_heldReply (t : Stream) (e : Nat) (q : List Cmd) : (t.setQueue e q).heldReply = t.heldReply := rfl
@[simp] theorem Stream.setQueue_progress (t : Stream) (e : Nat) (q : List Cmd) : (t.setQueue e q).progress = t.progress := rfl
@[simp] theorem Stream.setQueue_unit (t : Stream) (e : Nat) (q : List Cmd) : (t.setQueue e q).unit = t.unit := rfl

@[simp] theorem Stream.setTok_st (t : Stream) (i n : Nat) : (t.setTok i n).st = t.st := rfl
@[simp] theorem Stream.setTok_pc (t : Stream) (i n : Nat) : (t.setTok i n).pc = t.pc := rfl
@[simp] theorem Stream.setTok_s (t : Stream) (i n : Nat) : (t.setTok i n).s = t.s := rfl
@[simp] theorem Stream.setTok_a (t : Stream) (i n : Nat) : (t.setTok i n).a = t.a := rfl
@[simp] theorem Stream.setTok_lc (t : Stream) (i n : Nat) : (t.setTok i n).lc = t.lc := rfl
@[simp] theorem Stream.setTok_p (t : Stream) (i n : Nat) : (t.setTok i n).p = t.p := rfl
@[simp] theorem Stream.setTok_alloc (t : Stream) (i n : Nat) : (t.setTok i n).alloc = t.alloc := rfl
@[simp] theorem Stream.setTok_v (t : Stream) (i n : Nat) : (t.setTok i n).v = t.v := rfl
@[simp] theorem Stream.setTok_rrb (t : Stream) (i n : Nat) : (t.setTok i n).rrb = t.rrb := rfl
@[simp] theorem Stream.setTok_prb (t : Stream) (i n : Nat) : (t.setTok i n).prb = t.prb := rfl
@[simp] theorem Stream.setTok_pats (t : Stream) (i n : Nat) : (t.setTok i n).pats = t.pats := rfl
@[simp] theorem Stream.setTok_dqmiss (t : Stream) (i n : Nat) : (t.setTok i n).dqmiss = t.dqmiss := rfl
@[simp] theorem Stream.setTok_olclamp (t : Stream) (i n : Nat) : (t.setTok i n).olclamp = t.olclamp := rfl
@[simp] theorem Stream.setTok_exp (t : Stream) (i n : Nat) : (t.setTok i n).exp = t.exp := rfl
@[simp] theorem Stream.setTok_queues (t : Stream) (i n : Nat) : (t.setTok i n).queues = t.queues := rfl
@[simp] theorem Stream.setTok_flights (t : Stream) (i n : Nat) : (t.setTok i n).flights = t.flights := rfl
@[simp] theorem Stream.setTok_pend (t : Stream) (i n : Nat) : (t.setTok i n).pend = t.pend := rfl
@[simp] theorem Stream.setTok_rctr (t : Stream) (i n : Nat) : (t.setTok i n).rctr = t.rctr := rfl
@[simp] theorem Stream.setTok_fmtq (t : Stream) (i n : Nat) : (t.setTok i n).fmtq = t.fmtq := rfl
@[simp] theorem Stream.setTok_lease (t : Stream) (i n : Nat) : (t.setTok i n).lease = t.lease := rfl
@[simp] theorem Stream.setTok_renew (t : Stream) (i n : Nat) : (t.setTok i n).renew = t.renew := rfl
@[simp] theorem Stream.setTok_reqAt (t : Stream) (i n : Nat) : (t.setTok i n).reqAt = t.reqAt := rfl
@[simp] theorem Stream.setTok_win (t : Stream) (i n : Nat) : (t.setTok i n).win = t.win := rfl
@[simp] theorem Stream.setTok_rels (t : Stream) (i n : Nat) : (t.setTok i n).rels = t.rels := rfl
@[simp] theorem Stream.setTok_gained (t : Stream) (i n : Nat) : (t.setTok i n).gained = t.gained := rfl
@[simp] theorem Stream.setTok_acqs (t : Stream) (i n : Nat) : (t.setTok i n).acqs = t.acqs := rfl
@[simp] theorem Stream.setTok_fr (t : Stream) (i n : Nat) : (t.setTok i n).fr = t.fr := rfl
@[simp] theorem Stream.setTok_intrap (t : Stream) (i n : Nat) : (t.setTok i n).intrap = t.intrap := rfl
@[simp] theorem Stream.setTok_faults (t : Stream) (i n : Nat) : (t.setTok i n).faults = t.faults := rfl
@[simp] theorem Stream.setTok_heldAt (t : Stream) (i n : Nat) : (t.setTok i n).heldAt = t.heldAt := rfl
@[simp] theorem Stream.setTok_halted (t : Stream) (i n : Nat) : (t.setTok i n).halted = t.halted := rfl
@[simp] theorem Stream.setTok_tscr0 (t : Stream) (i n : Nat) : (t.setTok i n).tscr0 = t.tscr0 := rfl
@[simp] theorem Stream.setTok_tscr1 (t : Stream) (i n : Nat) : (t.setTok i n).tscr1 = t.tscr1 := rfl
@[simp] theorem Stream.setTok_jcnt (t : Stream) (i n : Nat) : (t.setTok i n).jcnt = t.jcnt := rfl
@[simp] theorem Stream.setTok_journal (t : Stream) (i n : Nat) : (t.setTok i n).journal = t.journal := rfl
@[simp] theorem Stream.setTok_jmarkV (t : Stream) (i n : Nat) : (t.setTok i n).jmarkV = t.jmarkV := rfl
@[simp] theorem Stream.setTok_hreply (t : Stream) (i n : Nat) : (t.setTok i n).hreply = t.hreply := rfl
@[simp] theorem Stream.setTok_heldReply (t : Stream) (i n : Nat) : (t.setTok i n).heldReply = t.heldReply := rfl
@[simp] theorem Stream.setTok_progress (t : Stream) (i n : Nat) : (t.setTok i n).progress = t.progress := rfl
@[simp] theorem Stream.setTok_unit (t : Stream) (i n : Nat) : (t.setTok i n).unit = t.unit := rfl

@[simp] theorem Stream.journalPush_st (t : Stream) (r : JRec) : (t.journalPush r).st = t.st := rfl
@[simp] theorem Stream.journalPush_pc (t : Stream) (r : JRec) : (t.journalPush r).pc = t.pc := rfl
@[simp] theorem Stream.journalPush_s (t : Stream) (r : JRec) : (t.journalPush r).s = t.s := rfl
@[simp] theorem Stream.journalPush_a (t : Stream) (r : JRec) : (t.journalPush r).a = t.a := rfl
@[simp] theorem Stream.journalPush_lc (t : Stream) (r : JRec) : (t.journalPush r).lc = t.lc := rfl
@[simp] theorem Stream.journalPush_p (t : Stream) (r : JRec) : (t.journalPush r).p = t.p := rfl
@[simp] theorem Stream.journalPush_alloc (t : Stream) (r : JRec) : (t.journalPush r).alloc = t.alloc := rfl
@[simp] theorem Stream.journalPush_v (t : Stream) (r : JRec) : (t.journalPush r).v = t.v := rfl
@[simp] theorem Stream.journalPush_rrb (t : Stream) (r : JRec) : (t.journalPush r).rrb = t.rrb := rfl
@[simp] theorem Stream.journalPush_prb (t : Stream) (r : JRec) : (t.journalPush r).prb = t.prb := rfl
@[simp] theorem Stream.journalPush_pats (t : Stream) (r : JRec) : (t.journalPush r).pats = t.pats := rfl
@[simp] theorem Stream.journalPush_dqmiss (t : Stream) (r : JRec) : (t.journalPush r).dqmiss = t.dqmiss := rfl
@[simp] theorem Stream.journalPush_olclamp (t : Stream) (r : JRec) : (t.journalPush r).olclamp = t.olclamp := rfl
@[simp] theorem Stream.journalPush_exp (t : Stream) (r : JRec) : (t.journalPush r).exp = t.exp := rfl
@[simp] theorem Stream.journalPush_tok (t : Stream) (r : JRec) : (t.journalPush r).tok = t.tok := rfl
@[simp] theorem Stream.journalPush_queues (t : Stream) (r : JRec) : (t.journalPush r).queues = t.queues := rfl
@[simp] theorem Stream.journalPush_flights (t : Stream) (r : JRec) : (t.journalPush r).flights = t.flights := rfl
@[simp] theorem Stream.journalPush_pend (t : Stream) (r : JRec) : (t.journalPush r).pend = t.pend := rfl
@[simp] theorem Stream.journalPush_rctr (t : Stream) (r : JRec) : (t.journalPush r).rctr = t.rctr := rfl
@[simp] theorem Stream.journalPush_fmtq (t : Stream) (r : JRec) : (t.journalPush r).fmtq = t.fmtq := rfl
@[simp] theorem Stream.journalPush_lease (t : Stream) (r : JRec) : (t.journalPush r).lease = t.lease := rfl
@[simp] theorem Stream.journalPush_renew (t : Stream) (r : JRec) : (t.journalPush r).renew = t.renew := rfl
@[simp] theorem Stream.journalPush_reqAt (t : Stream) (r : JRec) : (t.journalPush r).reqAt = t.reqAt := rfl
@[simp] theorem Stream.journalPush_win (t : Stream) (r : JRec) : (t.journalPush r).win = t.win := rfl
@[simp] theorem Stream.journalPush_rels (t : Stream) (r : JRec) : (t.journalPush r).rels = t.rels := rfl
@[simp] theorem Stream.journalPush_gained (t : Stream) (r : JRec) : (t.journalPush r).gained = t.gained := rfl
@[simp] theorem Stream.journalPush_acqs (t : Stream) (r : JRec) : (t.journalPush r).acqs = t.acqs := rfl
@[simp] theorem Stream.journalPush_fr (t : Stream) (r : JRec) : (t.journalPush r).fr = t.fr := rfl
@[simp] theorem Stream.journalPush_intrap (t : Stream) (r : JRec) : (t.journalPush r).intrap = t.intrap := rfl
@[simp] theorem Stream.journalPush_faults (t : Stream) (r : JRec) : (t.journalPush r).faults = t.faults := rfl
@[simp] theorem Stream.journalPush_heldAt (t : Stream) (r : JRec) : (t.journalPush r).heldAt = t.heldAt := rfl
@[simp] theorem Stream.journalPush_halted (t : Stream) (r : JRec) : (t.journalPush r).halted = t.halted := rfl
@[simp] theorem Stream.journalPush_tscr0 (t : Stream) (r : JRec) : (t.journalPush r).tscr0 = t.tscr0 := rfl
@[simp] theorem Stream.journalPush_tscr1 (t : Stream) (r : JRec) : (t.journalPush r).tscr1 = t.tscr1 := rfl
@[simp] theorem Stream.journalPush_jmarkV (t : Stream) (r : JRec) : (t.journalPush r).jmarkV = t.jmarkV := rfl
@[simp] theorem Stream.journalPush_hreply (t : Stream) (r : JRec) : (t.journalPush r).hreply = t.hreply := rfl
@[simp] theorem Stream.journalPush_heldReply (t : Stream) (r : JRec) : (t.journalPush r).heldReply = t.heldReply := rfl
@[simp] theorem Stream.journalPush_progress (t : Stream) (r : JRec) : (t.journalPush r).progress = t.progress := rfl
@[simp] theorem Stream.journalPush_unit (t : Stream) (r : JRec) : (t.journalPush r).unit = t.unit := rfl

@[simp] theorem Stream.modJrec_st (t : Stream) (j : Nat) (f : JRec → JRec) : (t.modJrec j f).st = t.st := rfl
@[simp] theorem Stream.modJrec_pc (t : Stream) (j : Nat) (f : JRec → JRec) : (t.modJrec j f).pc = t.pc := rfl
@[simp] theorem Stream.modJrec_s (t : Stream) (j : Nat) (f : JRec → JRec) : (t.modJrec j f).s = t.s := rfl
@[simp] theorem Stream.modJrec_a (t : Stream) (j : Nat) (f : JRec → JRec) : (t.modJrec j f).a = t.a := rfl
@[simp] theorem Stream.modJrec_lc (t : Stream) (j : Nat) (f : JRec → JRec) : (t.modJrec j f).lc = t.lc := rfl
@[simp] theorem Stream.modJrec_p (t : Stream) (j : Nat) (f : JRec → JRec) : (t.modJrec j f).p = t.p := rfl
@[simp] theorem Stream.modJrec_alloc (t : Stream) (j : Nat) (f : JRec → JRec) : (t.modJrec j f).alloc = t.alloc := rfl
@[simp] theorem Stream.modJrec_v (t : Stream) (j : Nat) (f : JRec → JRec) : (t.modJrec j f).v = t.v := rfl
@[simp] theorem Stream.modJrec_rrb (t : Stream) (j : Nat) (f : JRec → JRec) : (t.modJrec j f).rrb = t.rrb := rfl
@[simp] theorem Stream.modJrec_prb (t : Stream) (j : Nat) (f : JRec → JRec) : (t.modJrec j f).prb = t.prb := rfl
@[simp] theorem Stream.modJrec_pats (t : Stream) (j : Nat) (f : JRec → JRec) : (t.modJrec j f).pats = t.pats := rfl
@[simp] theorem Stream.modJrec_dqmiss (t : Stream) (j : Nat) (f : JRec → JRec) : (t.modJrec j f).dqmiss = t.dqmiss := rfl
@[simp] theorem Stream.modJrec_olclamp (t : Stream) (j : Nat) (f : JRec → JRec) : (t.modJrec j f).olclamp = t.olclamp := rfl
@[simp] theorem Stream.modJrec_exp (t : Stream) (j : Nat) (f : JRec → JRec) : (t.modJrec j f).exp = t.exp := rfl
@[simp] theorem Stream.modJrec_tok (t : Stream) (j : Nat) (f : JRec → JRec) : (t.modJrec j f).tok = t.tok := rfl
@[simp] theorem Stream.modJrec_queues (t : Stream) (j : Nat) (f : JRec → JRec) : (t.modJrec j f).queues = t.queues := rfl
@[simp] theorem Stream.modJrec_flights (t : Stream) (j : Nat) (f : JRec → JRec) : (t.modJrec j f).flights = t.flights := rfl
@[simp] theorem Stream.modJrec_pend (t : Stream) (j : Nat) (f : JRec → JRec) : (t.modJrec j f).pend = t.pend := rfl
@[simp] theorem Stream.modJrec_rctr (t : Stream) (j : Nat) (f : JRec → JRec) : (t.modJrec j f).rctr = t.rctr := rfl
@[simp] theorem Stream.modJrec_fmtq (t : Stream) (j : Nat) (f : JRec → JRec) : (t.modJrec j f).fmtq = t.fmtq := rfl
@[simp] theorem Stream.modJrec_lease (t : Stream) (j : Nat) (f : JRec → JRec) : (t.modJrec j f).lease = t.lease := rfl
@[simp] theorem Stream.modJrec_renew (t : Stream) (j : Nat) (f : JRec → JRec) : (t.modJrec j f).renew = t.renew := rfl
@[simp] theorem Stream.modJrec_reqAt (t : Stream) (j : Nat) (f : JRec → JRec) : (t.modJrec j f).reqAt = t.reqAt := rfl
@[simp] theorem Stream.modJrec_win (t : Stream) (j : Nat) (f : JRec → JRec) : (t.modJrec j f).win = t.win := rfl
@[simp] theorem Stream.modJrec_rels (t : Stream) (j : Nat) (f : JRec → JRec) : (t.modJrec j f).rels = t.rels := rfl
@[simp] theorem Stream.modJrec_gained (t : Stream) (j : Nat) (f : JRec → JRec) : (t.modJrec j f).gained = t.gained := rfl
@[simp] theorem Stream.modJrec_acqs (t : Stream) (j : Nat) (f : JRec → JRec) : (t.modJrec j f).acqs = t.acqs := rfl
@[simp] theorem Stream.modJrec_fr (t : Stream) (j : Nat) (f : JRec → JRec) : (t.modJrec j f).fr = t.fr := rfl
@[simp] theorem Stream.modJrec_intrap (t : Stream) (j : Nat) (f : JRec → JRec) : (t.modJrec j f).intrap = t.intrap := rfl
@[simp] theorem Stream.modJrec_faults (t : Stream) (j : Nat) (f : JRec → JRec) : (t.modJrec j f).faults = t.faults := rfl
@[simp] theorem Stream.modJrec_heldAt (t : Stream) (j : Nat) (f : JRec → JRec) : (t.modJrec j f).heldAt = t.heldAt := rfl
@[simp] theorem Stream.modJrec_halted (t : Stream) (j : Nat) (f : JRec → JRec) : (t.modJrec j f).halted = t.halted := rfl
@[simp] theorem Stream.modJrec_tscr0 (t : Stream) (j : Nat) (f : JRec → JRec) : (t.modJrec j f).tscr0 = t.tscr0 := rfl
@[simp] theorem Stream.modJrec_tscr1 (t : Stream) (j : Nat) (f : JRec → JRec) : (t.modJrec j f).tscr1 = t.tscr1 := rfl
@[simp] theorem Stream.modJrec_jcnt (t : Stream) (j : Nat) (f : JRec → JRec) : (t.modJrec j f).jcnt = t.jcnt := rfl
@[simp] theorem Stream.modJrec_jmarkV (t : Stream) (j : Nat) (f : JRec → JRec) : (t.modJrec j f).jmarkV = t.jmarkV := rfl
@[simp] theorem Stream.modJrec_hreply (t : Stream) (j : Nat) (f : JRec → JRec) : (t.modJrec j f).hreply = t.hreply := rfl
@[simp] theorem Stream.modJrec_heldReply (t : Stream) (j : Nat) (f : JRec → JRec) : (t.modJrec j f).heldReply = t.heldReply := rfl
@[simp] theorem Stream.modJrec_progress (t : Stream) (j : Nat) (f : JRec → JRec) : (t.modJrec j f).progress = t.progress := rfl
@[simp] theorem Stream.modJrec_unit (t : Stream) (j : Nat) (f : JRec → JRec) : (t.modJrec j f).unit = t.unit := rfl

end Sys2Proof.Machine
end

