-- ==== Sys2Proof/Laws/Store.lean ====
section
/-! SUPPORT. Sparse maps and byte memories: what a read gives after an update, and that every update of a memory keeps its canonical
form. -/

namespace Sys2Proof.Machine

/-! ## Maps -/

theorem Map.find_set {α : Type} (m : Map α) (k : Nat) (x : α) (j : Nat) :
    Map.find (Map.set m k x) j = if k = j then some x else Map.find m j := by
  induction m with
  | nil => simp [Map.set, Map.find]
  | cons e r ih =>
    obtain ⟨i, y⟩ := e
    unfold Map.set
    split
    · by_cases hj : k = j <;> simp [Map.find, hj]
    · split
      · rename_i h; simp only [beq_iff_eq] at h; subst h
        by_cases hj : i = j <;> simp [Map.find, hj]
      · rename_i h1 h2
        by_cases hj : i = j
        · subst hj
          have : ¬ k = i := fun h => h2 (by simp [h])
          simp [Map.find, this]
        · simp [Map.find, hj, ih]

@[simp] theorem Map.getD_set_self {α : Type} (m : Map α) (k : Nat) (x d : α) : Map.getD (Map.set m k x) k d = x := by
  simp [Map.getD, Map.find_set]

theorem Map.getD_set_ne {α : Type} (m : Map α) {k j : Nat} (x d : α) (h : k ≠ j) :
    Map.getD (Map.set m k x) j d = Map.getD m j d := by
  simp [Map.getD, Map.find_set, h]

theorem Map.getD_set {α : Type} (m : Map α) (k j : Nat) (x d : α) :
    Map.getD (Map.set m k x) j d = if k = j then x else Map.getD m j d := by
  unfold Map.getD; rw [Map.find_set]; split <;> rfl

/-! ## Memories -/

theorem Memory.read_drop (m : Memory) (a j : Nat) :
    Memory.read (Memory.drop m a) j = if a = j then Memory.unlisted else Memory.read m j := by
  induction m with
  | nil => simp [Memory.drop, Memory.read]
  | cons e r ih =>
    obtain ⟨i, c⟩ := e
    unfold Memory.drop
    split
    · rename_i h; simp only [beq_iff_eq] at h; subst h
      rw [ih]; by_cases hj : i = j <;> simp [Memory.read, hj]
    · rename_i h
      by_cases hj : i = j
      · subst hj
        have : ¬ a = i := fun e => h (by simp [e])
        simp [Memory.read, this]
      · simp [Memory.read, hj, ih]

theorem Memory.read_put (m : Memory) (a : Nat) (b : Byte) (j : Nat) :
    Memory.read (Memory.put m a b) j = if a = j then b else Memory.read m j := by
  induction m with
  | nil => simp [Memory.put, Memory.read]
  | cons e r ih =>
    obtain ⟨i, c⟩ := e
    unfold Memory.put
    split
    · by_cases hj : a = j <;> simp [Memory.read, hj]
    · split
      · rename_i h; simp only [beq_iff_eq] at h; subst h
        by_cases hj : i = j <;> simp [Memory.read, hj]
      · rename_i h1 h2
        by_cases hj : i = j
        · subst hj
          have : ¬ a = i := fun h => h2 (by simp [h])
          simp [Memory.read, this]
        · simp [Memory.read, hj, ih]

/-- A byte read after a byte write. -/
theorem Memory.read_write (m : Memory) (a : Nat) (b : Byte) (j : Nat) :
    Memory.read (Memory.write m a b) j = if a = j then b else Memory.read m j := by
  unfold Memory.write
  split
  · rename_i h; simp only [beq_iff_eq] at h; rw [Memory.read_drop, h]
  · exact Memory.read_put m a b j

/-- A byte outside the stored bytes reads as before. -/
theorem Memory.read_store_out (m : Memory) (a : Nat) (bs : List Byte) (j : Nat) (h : j < a ∨ a + bs.length ≤ j) :
    Memory.read (Memory.store m a bs) j = Memory.read m j := by
  induction bs generalizing m a with
  | nil => rfl
  | cons b bs ih =>
    simp only [List.length_cons] at h
    rw [Memory.store, ih _ _ (by omega), Memory.read_write, if_neg (by omega)]

/-- A stored byte reads as what was stored. -/
theorem Memory.read_store_in (m : Memory) (a : Nat) (bs : List Byte) (i : Nat) (h : i < bs.length) :
    Memory.read (Memory.store m a bs) (a + i) = bs[i] := by
  induction bs generalizing m a i with
  | nil => simp at h
  | cons b bs ih =>
    rw [Memory.store]
    cases i with
    | zero =>
      show Memory.read (Memory.store (Memory.write m a b) (a + 1) bs) a = b
      rw [Memory.read_store_out _ _ _ _ (Or.inl (Nat.lt_succ_self a)), Memory.read_write, if_pos rfl]
    | succ i =>
      have := ih (Memory.write m a b) (a + 1) i (by simpa using h)
      simpa [Nat.add_assoc, Nat.add_comm 1 i] using this

@[simp] theorem Memory.bytes_length (m : Memory) (a n : Nat) : (Memory.bytes m a n).length = n := by
  induction n generalizing a with
  | zero => rfl
  | succ n ih => simp [Memory.bytes, ih]

theorem Memory.bytes_eq (m m' : Memory) (a n : Nat) (h : ∀ i, i < n → Memory.read m (a + i) = Memory.read m' (a + i)) :
    Memory.bytes m a n = Memory.bytes m' a n := by
  induction n generalizing a with
  | zero => rfl
  | succ n ih =>
    simp only [Memory.bytes]
    rw [show Memory.read m a = Memory.read m' a from h 0 (Nat.succ_pos n)]
    rw [ih (a + 1) (fun i hi => by have := h (i + 1) (by omega); simpa [Nat.add_assoc, Nat.add_comm 1 i] using this)]

/-- Stored bytes read back. -/
theorem Memory.bytes_store (m : Memory) (a : Nat) (bs : List Byte) :
    Memory.bytes (Memory.store m a bs) a bs.length = bs := by
  induction bs generalizing m a with
  | nil => rfl
  | cons b bs ih =>
    simp only [Memory.store, List.length_cons, Memory.bytes]
    rw [ih, Memory.read_store_out _ _ _ _ (Or.inl (Nat.lt_succ_self a)), Memory.read_write]
    simp

/-! ## The canonical form -/

theorem Memory.wfFrom_mono {m : Memory} {lo hi : Nat} (h : lo ≤ hi) (w : Memory.wfFrom hi m = true) :
    Memory.wfFrom lo m = true := by
  cases m with
  | nil => rfl
  | cons e r =>
    obtain ⟨i, c⟩ := e
    simp only [Memory.wfFrom, Bool.and_eq_true, decide_eq_true_eq] at w ⊢
    exact ⟨⟨Nat.le_trans h w.1.1, w.1.2⟩, w.2⟩

theorem Memory.wfFrom_drop {m : Memory} {lo : Nat} (a : Nat) (w : Memory.wfFrom lo m = true) :
    Memory.wfFrom lo (Memory.drop m a) = true := by
  induction m generalizing lo with
  | nil => rfl
  | cons e r ih =>
    obtain ⟨i, c⟩ := e
    simp only [Memory.wfFrom, Bool.and_eq_true, decide_eq_true_eq] at w
    unfold Memory.drop
    split
    · exact Memory.wfFrom_mono (Nat.le_succ_of_le w.1.1) (ih w.2)
    · simp only [Memory.wfFrom, Bool.and_eq_true, decide_eq_true_eq]
      exact ⟨w.1, ih w.2⟩

theorem Memory.wfFrom_put {m : Memory} {lo : Nat} (a : Nat) (b : Byte) (hb : (b != Memory.unlisted) = true) (ha : lo ≤ a)
    (w : Memory.wfFrom lo m = true) : Memory.wfFrom lo (Memory.put m a b) = true := by
  induction m generalizing lo with
  | nil => simp [Memory.put, Memory.wfFrom, ha, hb]
  | cons e r ih =>
    obtain ⟨i, c⟩ := e
    simp only [Memory.wfFrom, Bool.and_eq_true, decide_eq_true_eq] at w
    unfold Memory.put
    split
    · rename_i h
      simp only [Memory.wfFrom, Bool.and_eq_true, decide_eq_true_eq]
      exact ⟨⟨ha, hb⟩, ⟨h, w.1.2⟩, w.2⟩
    · split
      · rename_i h; simp only [beq_iff_eq] at h; subst h
        simp only [Memory.wfFrom, Bool.and_eq_true, decide_eq_true_eq]
        exact ⟨⟨ha, hb⟩, w.2⟩
      · rename_i h1 h2
        simp only [Memory.wfFrom, Bool.and_eq_true, decide_eq_true_eq]
        have : i ≠ a := fun h => h2 (by simp [h])
        exact ⟨w.1, ih (by omega) w.2⟩

/-- A byte write keeps the canonical form. -/
theorem Memory.wf_write {m : Memory} (a : Nat) (b : Byte) (w : m.wf = true) : (Memory.write m a b).wf = true := by
  unfold Memory.write
  split
  · exact Memory.wfFrom_drop a w
  · rename_i h
    exact Memory.wfFrom_put a b (by simpa [bne] using h) (Nat.zero_le a) w

/-- A store keeps the canonical form. -/
theorem Memory.wf_store {m : Memory} (a : Nat) (bs : List Byte) (w : m.wf = true) : (Memory.store m a bs).wf = true := by
  induction bs generalizing m a with
  | nil => exact w
  | cons b bs ih => exact ih (a + 1) (Memory.wf_write a b w)

theorem Memory.wfFrom_filter {m : Memory} {lo : Nat} (p : Host.Cell → Bool) (w : Memory.wfFrom lo m = true) :
    Memory.wfFrom lo (m.filter p) = true := by
  induction m generalizing lo with
  | nil => rfl
  | cons e r ih =>
    obtain ⟨i, c⟩ := e
    simp only [Memory.wfFrom, Bool.and_eq_true, decide_eq_true_eq] at w
    simp only [List.filter]
    split
    · simp only [Memory.wfFrom, Bool.and_eq_true, decide_eq_true_eq]
      exact ⟨w.1, ih w.2⟩
    · exact Memory.wfFrom_mono (Nat.le_succ_of_le w.1.1) (ih w.2)

/-- Keeping a range keeps the canonical form. -/
theorem Memory.wf_within {m : Memory} (lo hi : Nat) (w : m.wf = true) : (m.within lo hi).wf = true :=
  Memory.wfFrom_filter _ w

/-- Removing a range keeps the canonical form. -/
theorem Memory.wf_without {m : Memory} (lo hi : Nat) (w : m.wf = true) : (m.without lo hi).wf = true :=
  Memory.wfFrom_filter _ w

end Sys2Proof.Machine
end

