-- ==== Sys2Proof/Laws/Access.lean ====
section
/-! SUPPORT. What a part of the state reads as after an update of that part or of another. -/

namespace Sys2Proof.Machine

/-! ## Cores, clusters, dies, contexts -/

theorem State.core_setCore (s : State) (c x : Nat) (y : Core) : (s.setCore c y).core x = if c = x then y else s.core x :=
  Map.getD_set _ _ _ _ _

theorem State.core_modCore (s : State) (c x : Nat) (f : Core → Core) :
    (s.modCore c f).core x = if c = x then f (s.core x) else s.core x := by
  unfold State.modCore; rw [State.core_setCore]; split
  · rename_i h; rw [h]
  · rfl

theorem State.cluster_setCluster (s : State) (k x : Nat) (y : Cluster) :
    (s.setCluster k y).cluster x = if k = x then y else s.cluster x := Map.getD_set _ _ _ _ _

theorem State.cluster_modCluster (s : State) (k x : Nat) (f : Cluster → Cluster) :
    (s.modCluster k f).cluster x = if k = x then f (s.cluster x) else s.cluster x := by
  unfold State.modCluster; rw [State.cluster_setCluster]; split
  · rename_i h; rw [h]
  · rfl

theorem State.die_modDie (s : State) (d x : Nat) (f : Die → Die) :
    (s.modDie d f).die x = if d = x then f (s.die x) else s.die x := by
  unfold State.modDie State.setDie State.die; simp only []; rw [Map.getD_set]; split
  · rename_i h; rw [h]
  · rfl

theorem State.ctx_modCtx (s : State) (i x : Nat) (f : Ctx → Ctx) :
    (s.modCtx i f).ctx x = if i = x then f (s.ctx x) else s.ctx x := by
  unfold State.modCtx State.setCtx State.ctx; simp only []; rw [Map.getD_set]; split
  · rename_i h; rw [h]
  · rfl

/-- A part that reads a field of the state is not changed where the field is not. -/
theorem State.core_congr {s t : State} (h : t.cores = s.cores) (x : Nat) : t.core x = s.core x := by unfold State.core; rw [h]
theorem State.cluster_congr {s t : State} (h : t.clusters = s.clusters) (x : Nat) : t.cluster x = s.cluster x := by
  unfold State.cluster; rw [h]
theorem State.die_congr {s t : State} (h : t.dies = s.dies) (x : Nat) : t.die x = s.die x := by unfold State.die; rw [h]
theorem State.ctx_congr {s t : State} (h : t.ctxs = s.ctxs) (x : Nat) : t.ctx x = s.ctx x := by unfold State.ctx; rw [h]

/-! ## Streams -/

theorem Core.stream_setStream (x : Core) (k j : Nat) (t : Stream) :
    (x.setStream k t).stream j = if k = j then t else x.stream j := Map.getD_set _ _ _ _ _

theorem State.stream_setStream (s : State) (c k x j : Nat) (t : Stream) :
    (s.setStream c k t).stream x j = if c = x ∧ k = j then t else s.stream x j := by
  unfold State.setStream State.stream; rw [State.core_modCore]
  by_cases h : c = x
  · subst h
    rw [if_pos rfl, Core.stream_setStream]
    by_cases h : k = j <;> simp [h]
  · rw [if_neg h, if_neg (fun e => h e.1)]

theorem State.stream_modStream (s : State) (c k x j : Nat) (f : Stream → Stream) :
    (s.modStream c k f).stream x j = if c = x ∧ k = j then f (s.stream x j) else s.stream x j := by
  unfold State.modStream; rw [State.stream_setStream]; split
  · rename_i h; rw [h.1, h.2]
  · rfl

theorem State.core_setStream (s : State) (c k x : Nat) (t : Stream) :
    (s.setStream c k t).core x = if c = x then (s.core x).setStream k t else s.core x := State.core_modCore _ _ _ _

/-- A stream's change leaves every other part of its core. -/
theorem State.coreRest_setStream (s : State) (c k x : Nat) (t : Stream) :
    { (s.setStream c k t).core x with streams := [] } = { s.core x with streams := [] } := by
  rw [State.core_setStream]; split <;> rfl

theorem State.last_setStream (s : State) (c k x : Nat) (t : Stream) : ((s.setStream c k t).core x).last = (s.core x).last := by
  rw [State.core_setStream]; split <;> rfl

@[simp] theorem State.slot_modCur (s : State) (f : Stream → Stream) : (s.modCur f).slot = s.slot :=
  State.last_setStream _ _ _ _ _

@[simp] theorem State.cur_modCur (s : State) (f : Stream → Stream) : (s.modCur f).cur = f s.cur := by
  unfold State.cur
  rw [State.slot_modCur, State.modCur_sel]
  unfold State.modCur
  rw [State.stream_modStream, if_pos ⟨rfl, rfl⟩]

/-! ## Estimator counts -/

theorem State.clusterRest_count (s : State) (cl a e n x : Nat) :
    { (s.count cl a e n).cluster x with counts := [] } = { s.cluster x with counts := [] } := by
  unfold State.count State.addCount; split
  · rfl
  · rw [State.cluster_modCluster]; split <;> rfl

/-! ## Registers of a stream -/

theorem Stream.getS_setS (t : Stream) (d r : Nat) (v : W64) :
    (t.setS d v).getS r = if r = 0 then 0 else if r = d then v else t.getS r := by
  unfold Stream.getS
  by_cases hr : r = 0
  · simp [hr]
  · simp only [hr, if_false]
    unfold Stream.setS
    by_cases hd : d = 0
    · simp only [hd, if_true]
      rw [if_neg hr]
    · simp only [hd, if_false]
      rw [Map.getD_set]
      by_cases h : r = d
      · simp [h]
      · rw [if_neg (fun e => h e.symm), if_neg h]

@[simp] theorem Stream.getS_zero (t : Stream) : t.getS 0 = 0 := rfl

theorem Stream.getA_setA (t : Stream) (k r : Nat) (x : AddrReg) : (t.setA k x).getA r = if k = r then x else t.getA r :=
  Map.getD_set _ _ _ _ _

theorem Stream.getL_setL (t : Stream) (k r : Nat) (x : LoopCtr) : (t.setL k x).getL r = if k = r then x else t.getL r :=
  Map.getD_set _ _ _ _ _

theorem Stream.queue_setQueue (t : Stream) (e r : Nat) (q : List Cmd) : (t.setQueue e q).queue r = if e = r then q else t.queue r :=
  Map.getD_set _ _ _ _ _

end Sys2Proof.Machine
end

