-- ==== Sys2Proof/Laws/Ops.lean ====
section
/-! SUPPORT. What the shared operations do, each said once: passing an instruction on, writing a register, ending a block, trapping. -/

namespace Sys2Proof.Laws

open Machine

/-! ## Passing on (R84) -/

theorem newestLoop_none {l : Map LoopCtr} {x : W64} (h : ∀ e ∈ l, e.2.active = true → e.2.last ≠ x) : newestLoop l x = none := by
  induction l with
  | nil => rfl
  | cons e r ih =>
    obtain ⟨n, c⟩ := e
    unfold newestLoop
    rw [ih (fun e he => h e (List.mem_cons_of_mem _ he))]
    have := h (n, c) (List.mem_cons_self ..)
    simp only at this ⊢
    by_cases ha : c.active = true
    · simp [ha, this ha]
    · simp [ha]

theorem backEdge_core (t : Stream) (x nxt : W64) (n : Nat) : streamCore (t.backEdge x nxt n) = streamCore t := by
  induction n generalizing t with
  | zero => rfl
  | succ n ih =>
    unfold Stream.backEdge
    split
    · rfl
    · split
      · rfl
      · rw [ih]; rfl

theorem backEdge_none (t : Stream) (nxt : W64) (n : Nat) (h : NoLoopEnd t) : t.backEdge t.pc nxt n = { t with pc := nxt } := by
  cases n with
  | zero => rfl
  | succ n => unfold Stream.backEdge; rw [newestLoop_none h]

theorem passed_seqNext (t : Stream) (n : Nat) : Passed n t (t.seqNext n) where
  rest := backEdge_core _ _ _ _
  seq h := by unfold Stream.seqNext; rw [backEdge_none _ _ _ h]; exact ⟨rfl, rfl⟩

theorem passed_progress {n : Nat} {u t : Stream} (x : Nat) (h : Passed n { u with progress := x } t) : Passed n u t where
  rest := h.rest
  seq := h.seq

/-! ## One stream changes -/

theorem onlyStream_refl (c k : Nat) (s : State) : OnlyStream c k s s where
  rest := rfl
  core _ := rfl
  others _ _ _ := rfl
  clus _ := rfl

theorem onlyStream_trans {c k : Nat} {s t u : State} (h : OnlyStream c k s t) (g : OnlyStream c k t u) : OnlyStream c k s u where
  rest := by rw [g.rest, h.rest]
  core x := (g.core x).trans (h.core x)
  others x j e := (g.others x j e).trans (h.others x j e)
  clus x := (g.clus x).trans (h.clus x)

theorem onlyStream_setStream (s : State) (c k : Nat) (t : Stream) : OnlyStream c k s (s.setStream c k t) where
  rest := rfl
  core x := State.coreRest_setStream _ _ _ _ _
  others x j e := by
    rw [State.stream_setStream, if_neg]
    rintro ⟨rfl, rfl⟩; exact e rfl
  clus x := rfl

theorem onlyStream_modCur (s : State) (f : Stream → Stream) : OnlyStream s.sel s.slot s (s.modCur f) := onlyStream_setStream _ _ _ _

theorem onlyStream_count (s : State) (c k cl a e n : Nat) : OnlyStream c k s (s.count cl a e n) where
  rest := by unfold State.count; split <;> rfl
  core x := by rw [State.core_congr (State.count_cores s cl a e n)]
  others x j _ := by unfold State.stream; rw [State.core_congr (State.count_cores s cl a e n)]
  clus x := State.clusterRest_count _ _ _ _ _ _

@[simp] theorem slot_countCore (s : State) (c e n : Nat) : (s.countCore c e n).slot = s.slot := by
  unfold State.slot; rw [State.core_congr (State.countCore_cores s c e n), State.countCore_sel]

@[simp] theorem cur_countCore (s : State) (c e n : Nat) : (s.countCore c e n).cur = s.cur := by
  unfold State.cur; rw [slot_countCore, State.countCore_sel]; unfold State.stream; rw [State.core_congr (State.countCore_cores s c e n)]

@[simp] theorem sel_issued (s : State) : s.issued.sel = s.sel := by simp [State.issued]
@[simp] theorem slot_issued (s : State) : s.issued.slot = s.slot := by simp [State.issued]
@[simp] theorem cur_issued (s : State) : s.issued.cur = { s.cur with progress := s.now } := by simp [State.issued]

theorem only_issued (s : State) : OnlyStream s.sel s.slot s s.issued :=
  onlyStream_trans (onlyStream_modCur s (fun t => { t with progress := s.now }))
    (onlyStream_count (s.modCur (fun t => { t with progress := s.now })) _ _ (clusterOf s.sel)
      ((s.modCur (fun t => { t with progress := s.now })).acct s.sel) (8 * (s.sel % 4) + 0) 1)

@[simp] theorem sel_retire (s : State) (n : Nat) : (s.retire n).sel = s.sel := by simp [State.retire]
@[simp] theorem slot_retire (s : State) (n : Nat) : (s.retire n).slot = s.slot := by simp [State.retire]

theorem cur_retire (s : State) (n : Nat) : (s.retire n).cur = ({ s.cur with progress := s.now } : Stream).seqNext n := by
  simp [State.retire]

theorem only_retire (s : State) (n : Nat) : OnlyStream s.sel s.slot s (s.retire n) := by
  have h := only_issued s
  have g := onlyStream_modCur s.issued (·.seqNext n)
  rw [sel_issued, slot_issued] at g
  exact onlyStream_trans h g

/-- The selected stream changes by `f` and passes on. -/
theorem does_retire (s : State) (f : Stream → Stream) (n : Nat) : Does s ((s.modCur f).retire n) (f s.cur) n where
  only := by
    have g := only_retire (s.modCur f) n
    rw [State.modCur_sel, State.slot_modCur] at g
    exact onlyStream_trans (onlyStream_modCur s f) g
  passed := by
    rw [cur_retire, State.cur_modCur]
    exact passed_progress _ (passed_seqNext _ n)

/-- What passing on does after any change of the selected stream. -/
theorem does_of {s m : State} (h : OnlyStream s.sel s.slot s m) (hs : m.sel = s.sel) (hk : m.slot = s.slot) (n : Nat) :
    Does s (m.retire n) m.cur n where
  only := by
    have g := only_retire m n
    rw [hs, hk] at g
    exact onlyStream_trans h g
  passed := by rw [cur_retire]; exact passed_progress _ (passed_seqNext _ n)

theorem only_modCur2 (s : State) (f g : Stream → Stream) : OnlyStream s.sel s.slot s ((s.modCur f).modCur g) := by
  have h := onlyStream_modCur (s.modCur f) g
  rw [State.modCur_sel, State.slot_modCur] at h
  exact onlyStream_trans (onlyStream_modCur s f) h

/-- The selected stream changes by `f` and then by `g`, and passes on. -/
theorem does_retire2 (s : State) (f g : Stream → Stream) (n : Nat) :
    Does s (((s.modCur f).modCur g).retire n) (g (f s.cur)) n := by
  have h := does_of (only_modCur2 s f g) (by simp) (by simp) n
  rw [State.cur_modCur, State.cur_modCur] at h
  exact h

/-- An instruction with no effect of its own. -/
theorem does_nothing (s : State) (n : Nat) : Does s (s.retire n) s.cur n where
  only := only_retire s n
  passed := by rw [cur_retire]; exact passed_progress _ (passed_seqNext _ n)

theorem passed_s {n : Nat} {u t : Stream} (h : Passed n u t) : Passed n { u with s := [] } { t with s := [] } where
  rest := by have := congrArg (fun x : Stream => ({ x with s := [] } : Stream)) h.rest; exact this
  seq := h.seq

/-- Everything that writing a scalar register does. -/
theorem writes_writeS (s : State) (d : BitVec 5) (v : W64) (n : Nat) : Gives (s.writeS d v n) (fun t => Writes s t d v n) := by
  refine ⟨_, rfl, ?_⟩
  have h := does_retire s (·.setS d.toNat v) n
  refine ⟨h.only, fun r => ?_, ?_⟩
  · have : ((s.modCur (·.setS d.toNat v)).retire n).cur.getS r = (s.cur.setS d.toNat v).getS r := by
      have e := congrArg (fun x : Stream => x.s) h.passed.rest
      have e' : ((s.modCur (·.setS d.toNat v)).retire n).cur.s = (s.cur.setS d.toNat v).s := e
      unfold Stream.getS; rw [e']
    rw [this, Stream.getS_setS]
  · have g := passed_s h.passed
    have e : ({ s.cur.setS d.toNat v with s := [] } : Stream) = { s.cur with s := [] } := by
      unfold Stream.setS; split <;> rfl
    rw [e] at g; exact g

/-! ## Blocks (R63, R64) -/

theorem ends_endBlock {s m : State} (h : OnlyStream s.sel s.slot s m) (hs : m.sel = s.sel) (hk : m.slot = s.slot) (x : SState) :
    OnlyStream s.sel s.slot s (m.modCur (fun t => { t with st := x })) := by
  have g := onlyStream_modCur m (fun t => { t with st := x })
  rw [hs, hk] at g
  exact onlyStream_trans h g

/-- Everything that a taken transfer does, after a change of the stream. -/
theorem ends_jump (s : State) (f : Stream → Stream) (pc : W64) : Ends s ((s.modCur f).jump pc) (f s.cur) pc .ready := by
  have h1 := onlyStream_modCur s f
  have h2 := only_issued (s.modCur f)
  rw [State.modCur_sel, State.slot_modCur] at h2
  have h3 := onlyStream_modCur (s.modCur f).issued (fun t => { t with pc := pc })
  rw [sel_issued, slot_issued, State.modCur_sel, State.slot_modCur] at h3
  have h := onlyStream_trans (onlyStream_trans h1 h2) h3
  refine ⟨_, ends_endBlock h (by simp) (by simp) .ready, ?_, ?_⟩
  · simp
  · simp [State.jump, State.endBlock]

/-- Everything that a wait does. -/
theorem ends_wait (s : State) (f : Stream → Stream) (w : Wait) :
    Ends s (((s.modCur f).issued).wait w) (f s.cur) (f s.cur).pc (.waiting w) := by
  have h1 := onlyStream_modCur s f
  have h2 := only_issued (s.modCur f)
  rw [State.modCur_sel, State.slot_modCur] at h2
  have h := onlyStream_trans h1 h2
  refine ⟨_, ends_endBlock h (by simp) (by simp) (.waiting w), ?_, ?_⟩
  · simp
  · simp [State.wait, State.endBlock]

/-! ## Traps (R60, R314, R317) -/

theorem land_keeps (t : Stream) (w : PWrite) :
    (t.land w).s = t.s ∧ (t.land w).a = t.a ∧ (t.land w).lc = t.lc ∧ (t.land w).queues = t.queues ∧ (t.land w).tok = t.tok ∧
      (t.land w).exp = t.exp ∧ (t.land w).intrap = t.intrap ∧ (t.land w).halted = t.halted := by
  unfold Stream.land
  split
  · exact ⟨rfl, rfl, rfl, rfl, rfl, rfl, rfl, rfl⟩
  · split <;> exact ⟨rfl, rfl, rfl, rfl, rfl, rfl, rfl, rfl⟩
  · exact ⟨rfl, rfl, rfl, rfl, rfl, rfl, rfl, rfl⟩
  · exact ⟨rfl, rfl, rfl, rfl, rfl, rfl, rfl, rfl⟩

theorem landWhere_keeps (f : PWrite → Bool) (n : Nat) (t : Stream) :
    (t.landWhere f n).s = t.s ∧ (t.landWhere f n).a = t.a ∧ (t.landWhere f n).lc = t.lc ∧
      (t.landWhere f n).queues = t.queues ∧ (t.landWhere f n).tok = t.tok ∧ (t.landWhere f n).exp = t.exp ∧
      (t.landWhere f n).intrap = t.intrap ∧ (t.landWhere f n).halted = t.halted := by
  induction n generalizing t with
  | zero => exact ⟨rfl, rfl, rfl, rfl, rfl, rfl, rfl, rfl⟩
  | succ n ih =>
    unfold Stream.landWhere
    split
    · rename_i w _
      have h := ih (t.landOne w)
      have g := land_keeps t w
      exact ⟨h.1.trans g.1, h.2.1.trans g.2.1, h.2.2.1.trans g.2.2.1, h.2.2.2.1.trans g.2.2.2.1,
        h.2.2.2.2.1.trans g.2.2.2.2.1, h.2.2.2.2.2.1.trans g.2.2.2.2.2.1, h.2.2.2.2.2.2.1.trans g.2.2.2.2.2.2.1,
        h.2.2.2.2.2.2.2.trans g.2.2.2.2.2.2.2⟩
    · exact ⟨rfl, rfl, rfl, rfl, rfl, rfl, rfl, rfl⟩

/-- Entries that enter their channels change nothing else of a core, and nothing at all where none is to be pushed. -/
theorem landPushes_cases (x : Core) (fs : List Flight) :
    (∃ l q, x.landPushes fs = { x with chans := l, pushing := q }) ∧ (x.pushing = [] → x.landPushes fs = x) := by
  unfold Core.landPushes
  induction fs generalizing x with
  | nil => exact ⟨⟨x.chans, x.pushing, rfl⟩, fun _ => rfl⟩
  | cons f fs ih =>
    simp only [List.foldl_cons]
    split
    · rename_i p hp
      obtain ⟨⟨l, q, e⟩, -⟩ := ih (x.landPush p.2.1 f.order)
      exact ⟨⟨l, q, e⟩, fun h => by rw [h] at hp; simp at hp⟩
    · exact ih x

/-- The part of a trap that comes before the handler is entered. -/
theorem landed_state (s : State) (c : Nat) (fs : List Flight) :
    ∃ p : State, s.modCore c (fun x => x.landPushes fs) = p ∧ p = { s with cores := p.cores } ∧ (∀ x j, p.stream x j = s.stream x j) ∧
      (∀ x, p.ctxOf x = s.ctxOf x) ∧ (∀ x, (p.core x).last = (s.core x).last) ∧
      (∀ x, { p.core x with streams := [], chans := [], pushing := [] } = { s.core x with streams := [], chans := [], pushing := [] }) ∧
      ∀ x, x ≠ c ∨ (s.core c).pushing = [] → p.core x = s.core x := by
  refine ⟨_, rfl, rfl, ?_⟩
  have h := fun x => State.core_modCore s c x (fun x => x.landPushes fs)
  have k := fun x => landPushes_cases (s.core x) fs
  refine ⟨fun x j => ?_, fun x => ?_, fun x => ?_, fun x => ?_, fun x hx => ?_⟩
  · unfold State.stream; rw [h]; split
    · obtain ⟨⟨l, q, e⟩, -⟩ := k x; rw [e]; rfl
    · rfl
  · unfold State.ctxOf; rw [h]; split
    · obtain ⟨⟨l, q, e⟩, -⟩ := k x; rw [e]
    · rfl
  · rw [h]; split
    · obtain ⟨⟨l, q, e⟩, -⟩ := k x; rw [e]
    · rfl
  · rw [h]; split
    · obtain ⟨⟨l, q, e⟩, -⟩ := k x; rw [e]
    · rfl
  · rw [h]; split
    · rename_i e; subst e
      exact (k c).2 (hx.resolve_left (fun n => n rfl))
    · rfl

/-- Everything that a precise trap does when the stream is not in its handler and a handler is set. -/
theorem handler_trap (s : State) (t : Trap) (hw : s.vecFresh s.sel s.slot = false) (hi : s.cur.intrap = false) (hv : s.curCtx.trapVec ≠ 0) :
    Handler s (s.trap t) (preciseRec s t.cause t.stat t.va t.code) := by
  have k := landWhere_keeps (fun _ => true) s.cur.pend.length s.cur
  have hi' : ((s.stream s.sel s.slot).landAll).intrap = false := by
    show (s.cur.landWhere (fun _ => true) s.cur.pend.length).intrap = false
    rw [k.2.2.2.2.2.2.1]; exact hi
  have hexp : ((s.stream s.sel s.slot).landAll).exp = s.cur.exp := k.2.2.2.2.2.1
  obtain ⟨p, hp, pr, ps, pc, pl, pk, pq⟩ := landed_state s s.sel s.cur.flights
  have hctx : ∀ i, p.ctx i = s.ctx i := fun i => by rw [pr]; rfl
  have e : ∃ u : Stream, s.trap t = p.setStream s.sel s.slot u ∧ u.fr = preciseRec s t.cause t.stat t.va t.code ∧ u.intrap = true ∧
      u.exp = false ∧ u.pc = s.curCtx.trapVec ∧ u.s = s.cur.s ∧ u.a = s.cur.a ∧ u.lc = s.cur.lc ∧ u.queues = s.cur.queues ∧
      u.tok = s.cur.tok := by
    have hv' : ¬ (s.ctx (s.ctxOf s.sel)).trapVec = 0 := hv
    have hf : s.modCore s.sel (fun x => x.landPushes (x.stream s.slot).flights) = p := hp
    unfold State.trap State.takeTrap
    dsimp only
    rw [if_neg (by rw [hw]; simp), hf, ps, pc, hctx, if_neg (by rw [hi']; simp), if_neg hv']
    refine ⟨_, rfl, ?_, rfl, rfl, rfl, k.1, k.2.1, k.2.2.1, k.2.2.2.1, k.2.2.2.2.1⟩
    simp only [TrapRec.record, preciseRec, hexp]
    rfl
  obtain ⟨u, eq, h1, h2, h3, h4, h5, h6, h7, h8, h9⟩ := e
  have hs : (s.trap t).sel = s.sel := by rw [eq, pr]; rfl
  have hk : (s.trap t).slot = s.slot := by
    unfold State.slot; rw [hs, eq, State.last_setStream, pl]
  have hc : (s.trap t).cur = u := by
    unfold State.cur; rw [hs, hk, eq, State.stream_setStream, if_pos ⟨rfl, rfl⟩]
  have hr := fun x => State.coreRest_setStream p s.sel s.slot x u
  exact
    { rest := by rw [eq, pr]; rfl
      fr := by rw [hc]; exact h1
      intrap := by rw [hc]; exact h2
      exp := by rw [hc]; exact h3
      pc := by rw [hc]; exact h4
      regs := by rw [hc]; exact ⟨h5, h6, h7, h8, h9⟩
      core := fun x => by
        rw [eq, ← pk]
        exact congrArg (fun y : Core => { y with chans := [], pushing := [] }) (hr x)
      chans := fun x hx => by
        rw [eq, ← pq x hx]
        exact ⟨congrArg (fun y : Core => { y with streams := [] }.chans) (hr x),
          congrArg (fun y : Core => { y with streams := [] }.pushing) (hr x)⟩
      others := fun x j e => by
        rw [eq, State.stream_setStream, if_neg]
        · exact ps x j
        · rintro ⟨rfl, rfl⟩; exact e rfl }

/-! ## What comes after what (log entry 10) -/

/-- Passing deeds on changes nothing else, and nothing at all where nothing is remembered. -/
theorem learnIf_spec (s : State) (i : Nat) (q : Deed → Bool) (p : Knower → Bool) (ks : List Knower) :
    (∃ ds, s.learnIf i q p ks = { s with deeds := ds } ∧ ds.length = s.deeds.length) ∧ (s.deeds = [] → s.learnIf i q p ks = s) := by
  refine ⟨⟨_, rfl, List.length_map _⟩, fun h => ?_⟩
  unfold State.learnIf; rw [h]; obtain ⟨⟩ := s; subst h; rfl

/-- A deed that others come after is the same deed, known to no fewer. -/
theorem reach_spec (d : Deed) (ks : List Knower) :
    d.reach ks = { d with known := (d.reach ks).known } ∧ (∀ x ∈ d.known, x ∈ (d.reach ks).known) ∧ ∀ x ∈ ks, x ∈ (d.reach ks).known := by
  refine ⟨rfl, fun x h => List.mem_append_left _ h, fun x h => ?_⟩
  by_cases k : x ∈ d.known
  · exact List.mem_append_left _ k
  · exact List.mem_append_right _ (List.mem_filter.mpr ⟨h, by simpa using k⟩)

/-- An acquire and a release of a slot's stream change nothing but what is remembered, and nothing at all where nothing is. -/
theorem acquires_spec (s : State) (c k : Nat) (p : Knower → Bool) :
    (∃ ds, s.acquires c k p = { s with deeds := ds }) ∧ (s.deeds = [] → s.acquires c k p = s) := by
  obtain ⟨⟨ds, e, -⟩, h⟩ := learnIf_spec s (s.ctxOf c) (fun _ => true) p (bothStr c k)
  exact ⟨⟨ds, e⟩, h⟩

theorem releases_spec (s : State) (c k : Nat) (ks : List Knower) :
    (∃ ds, s.releases c k ks = { s with deeds := ds }) ∧ (s.deeds = [] → s.releases c k ks = s) := by
  obtain ⟨⟨ds, e, -⟩, h⟩ := learnIf_spec s (s.ctxOf c) (fun _ => true) (Knower.isStr c k) ks
  exact ⟨⟨ds, e⟩, h⟩

/-- Synchronising with releases changes nothing but what is remembered, and nothing at all where nothing is. -/
theorem meetReleases_spec (l : List Release) (s : State) (c k j : Nat) (full : Bool) :
    (∃ ds, l.foldl (fun s r => s.meetRelease c k j full r) s = { s with deeds := ds }) ∧
      (s.deeds = [] → l.foldl (fun s r => s.meetRelease c k j full r) s = s) := by
  induction l generalizing s with
  | nil => exact ⟨⟨s.deeds, rfl⟩, fun _ => rfl⟩
  | cons r l ih =>
    obtain ⟨⟨ds, e⟩, h⟩ : (∃ ds, s.meetRelease c k j full r = { s with deeds := ds }) ∧
        (s.deeds = [] → s.meetRelease c k j full r = s) := by
      obtain ⟨⟨ds, e, -⟩, h⟩ := learnIf_spec s (s.ctxOf c) (fun _ => true) (· == .rel r.no) _
      exact ⟨⟨ds, e⟩, h⟩
    simp only [List.foldl_cons]
    obtain ⟨⟨es, g⟩, h'⟩ := ih (s.meetRelease c k j full r)
    refine ⟨⟨es, by rw [g, e]⟩, fun n => ?_⟩
    rw [h n] at h' ⊢; exact h' n

/-- A stream's own records of releases and acquires change, and nothing else of the state but what is remembered and the number of
accesses. -/
def Records (c k : Nat) (s t : State) : Prop :=
  OnlyStream c k { s with deeds := t.deeds, accesses := t.accesses } t ∧
    ∃ rs gs qs, t.stream c k = { s.stream c k with rels := rs, gained := gs, acqs := qs }

theorem records_trans {c k : Nat} {s t u : State} (h : Records c k s t) (g : Records c k t u) : Records c k s u := by
  obtain ⟨h, rs, gs, qs, e⟩ := h
  obtain ⟨g, rs', gs', qs', e'⟩ := g
  refine ⟨⟨?_, fun x => (g.core x).trans (h.core x), fun x j n => (g.others x j n).trans (h.others x j n),
    fun x => (g.clus x).trans (h.clus x)⟩, rs', gs', qs', by rw [e', e]⟩
  rw [g.rest, h.rest]

theorem records_deeds (c k : Nat) (s : State) (ds : List Deed) (n : Nat) : Records c k s { s with deeds := ds, accesses := n } :=
  ⟨onlyStream_refl _ _ _, (s.stream c k).rels, (s.stream c k).gained, (s.stream c k).acqs, rfl⟩

theorem records_set (c k : Nat) (s : State) (rs : List Release) (gs : List Release) (qs : List (Nat × Nat)) :
    Records c k s (s.modStream c k (fun t => { t with rels := rs, gained := gs, acqs := qs })) := by
  refine ⟨onlyStream_setStream s c k _, rs, gs, qs, ?_⟩
  show (s.setStream c k _).stream c k = _
  rw [State.stream_setStream, if_pos ⟨rfl, rfl⟩]

/-- Finding deeds passes them on, and changes nothing where nothing is remembered. -/
theorem gain_spec (s : State) (c k j : Nat) (l : List Release) :
    Records c k s (s.gain c k j l) ∧ (s.deeds = [] → s.gain c k j l = s) := by
  have meet : ∀ (l : List Release) (q : List (Nat × Nat)) (f : Nat × Nat → Release → Bool) (s : State),
      ∃ ds, l.foldl (fun s r => q.foldl (fun s a => if f a r then s.meetRelease c k a.2 (decide (8 ≤ a.1)) r else s) s) s =
        { s with deeds := ds } := by
    intro l q f
    have one : ∀ (r : Release) (q : List (Nat × Nat)) (s : State),
        ∃ ds, q.foldl (fun s a => if f a r then s.meetRelease c k a.2 (decide (8 ≤ a.1)) r else s) s = { s with deeds := ds } := by
      intro r q
      induction q with
      | nil => exact fun s => ⟨s.deeds, rfl⟩
      | cons a q ih =>
        intro s
        simp only [List.foldl_cons]
        split
        · obtain ⟨⟨ds, e, -⟩, -⟩ := learnIf_spec s (s.ctxOf c) (fun _ => true) (· == .rel r.no) _
          obtain ⟨es, g⟩ := ih (s.meetRelease c k a.2 (decide (8 ≤ a.1)) r)
          exact ⟨es, by rw [g, State.meetRelease, State.learn, e]⟩
        · exact ih s
    induction l with
    | nil => exact fun s => ⟨s.deeds, rfl⟩
    | cons r l ih =>
      intro s
      obtain ⟨ds, e⟩ := one r q s
      obtain ⟨es, g⟩ := ih { s with deeds := ds }
      exact ⟨es, by rw [List.foldl_cons, e, g]⟩
  constructor
  · unfold State.gain
    dsimp only
    split
    · exact records_deeds c k s s.deeds s.accesses
    · obtain ⟨ds, e⟩ := meet _ (s.stream c k).acqs _ _
      rw [e]
      exact records_trans (records_set c k s (s.stream c k).rels _ (s.stream c k).acqs) (records_deeds c k _ ds _)
  · intro h
    have dead : ∀ r, s.live r = false := fun r => by unfold State.live; rw [h]; rfl
    unfold State.gain
    simp [dead]

/-- A load of the sequencer takes one draw, and what it finds is held there where nothing is remembered. -/
theorem spadLooked_spec (s : State) (c k a n : Nat) :
    (∃ t, Records c k s t ∧ s.spadLooked c k a n = t.draw) ∧
      (s.deeds = [] → s.spadLooked c k a n = s.draw ∧ s.spadSeen c k a n = s.spadBytes c a n) := by
  refine ⟨⟨_, ?_, rfl⟩, fun h => ?_⟩
  · unfold State.found
    exact records_trans (records_deeds c k s _ s.accesses) (gain_spec _ _ _ _ _).1
  · have none : s.spadLoad c k a n s.draws = [] := by
      unfold State.spadLoad State.raced
      simp [h]
    unfold State.spadLooked State.spadSeen State.found
    rw [none]
    refine ⟨congrArg State.draw ?_, rfl⟩
    exact ((gain_spec s _ _ _ _).2 h)

/-- What a fence does. -/
theorem records_fenced (s : State) (kind c k j scope : Nat) : Records c k s (s.fenced kind c k j scope) := by
  have acq : ∀ (s : State) (full : Bool), Records c k s (s.acquireMem c k j scope full) := by
    intro s full
    unfold State.acquireMem
    obtain ⟨⟨ds, e⟩, -⟩ := meetReleases_spec ((s.stream c k).gained.filter (·.meets scope c k)) s c k j full
    dsimp only
    rw [e]
    exact records_trans (records_deeds c k s ds s.accesses) (records_set c k _ _ _ _)
  have lrn : ∀ (s : State) i p ks, Records c k s (s.learn i p ks) := fun s i p ks => by
    obtain ⟨⟨ds, e, -⟩, -⟩ := learnIf_spec s i (fun _ => true) p ks
    unfold State.learn; rw [e]
    exact records_deeds c k s ds s.accesses
  have rel : ∀ s : State, Records c k s (s.releaseMem c k j scope) := by
    intro s
    unfold State.releaseMem
    dsimp only
    split
    · exact records_deeds c k s s.deeds s.accesses
    · refine records_trans (records_deeds c k s s.deeds (s.accesses + 1)) (records_trans (lrn _ _ _ _) (records_set c k _ _ _ _))
  have first : Records c k s (if kind = 1 then s else s.acquireMem c k j scope (kind == 2)) := by
    split
    · exact records_deeds c k s s.deeds s.accesses
    · exact acq s _
  unfold State.fenced
  dsimp only
  refine records_trans first ?_
  generalize (if kind = 1 then s else s.acquireMem c k j scope (kind == 2)) = s'
  have mid : ∀ m : State, Records c k s' m → Records c k s' (if kind = 0 then m else m.releaseMem c k j scope) := by
    intro m h
    split
    · exact h
    · exact records_trans h (rel m)
  refine mid _ ?_
  split <;> exact lrn _ _ _ _

/-! ## Acceptance (R95, R100) -/

/-- Records that dies take one by one: each die takes its own, in order, and nothing else of it changes. -/
theorem enlist_die (l : List (Nat × Nest)) (s : State) (d : Nat) :
    (l.foldl (fun s r => s.modDie r.1 (fun y => { y with nests := y.nests ++ [r.2] })) s).die d =
      { s.die d with nests := (s.die d).nests ++ (l.filter (·.1 == d)).map (·.2) } := by
  induction l generalizing s with
  | nil => simp
  | cons r l ih =>
    rw [List.foldl_cons, ih, State.die_modDie]
    by_cases h : r.1 = d
    · simp [h]
    · simp [h]

theorem filter_once {l : List Nat} (h : l.Nodup) (f : Nat → Nest) (d : Nat) :
    ((l.map (fun e => (e, f e))).filter (·.1 == d)).map (·.2) = if d ∈ l then [f d] else [] := by
  induction l with
  | nil => rfl
  | cons a l ih =>
    obtain ⟨na, nl⟩ := List.nodup_cons.mp h
    simp only [List.map_cons, List.filter_cons]
    by_cases e : a = d
    · subst e
      simp [ih nl, na]
    · simp [e, ih nl, Ne.symm e]

theorem nestDies_nodup (home mask : Nat) : (nestDies home mask).Nodup := by
  unfold nestDies
  split
  · simp
  · exact List.nodup_range.filter _

/-- What acceptance does to the dies of a resident context's nest. -/
theorem accept_spec (s : State) (x : Nest) (h : (s.ctx x.ctx).st = .resident) : Accepted s (s.accept x) x := by
  have e : ∀ d, (s.accept x).die d =
      { (if x.home = d then { s.die d with tlb := addPins (s.die d).tlb [x.donePin] true } else s.die d) with
        nests := (s.die d).nests ++ (if d ∈ nestDies x.home x.mask then [{ x with next := x.seek d 0, turn := s.stamp + 1 }] else []) } := by
    intro d
    have r : (({ s with nextNest := s.nextNest + 1, stamp := s.stamp + 1 } : State).pinPages x.home [x.donePin] true).ctx x.ctx = s.ctx x.ctx := rfl
    unfold State.accept
    dsimp only
    rw [r, h]
    simp only [beq_self_eq_true, if_true]
    rw [enlist_die]
    have q := filter_once (nestDies_nodup x.home x.mask) (fun d => { x with next := x.seek d 0, turn := s.stamp + 1 }) d
    refine (congrArg (fun l => { (({ s with nextNest := s.nextNest + 1, stamp := s.stamp + 1 } : State).pinPages x.home [x.donePin] true).die d with nests := ((({ s with nextNest := s.nextNest + 1, stamp := s.stamp + 1 } : State).pinPages x.home [x.donePin] true).die d).nests ++ l }) q).trans ?_
    dsimp only
    have p : (({ s with nextNest := s.nextNest + 1, stamp := s.stamp + 1 } : State).pinPages x.home [x.donePin] true).die d =
        if x.home = d then { s.die d with tlb := addPins (s.die d).tlb [x.donePin] true } else s.die d := by
      unfold State.pinPages
      rw [if_neg (by simp), State.die_modDie]; rfl
    rw [p]
    split <;> rfl
  have pin : ∀ (m : Map TlbE) n, (addPins m [x.donePin] true).find n =
      if x.donePin.id = n then (m.find n).map (fun e => { e with count := e.count + 1 }) else m.find n := by
    intro m n
    unfold addPins
    simp only [List.foldl_cons, List.foldl_nil, if_true]
    split
    · rename_i y hy
      rw [Map.find_set]
      split
      · rename_i q; subst q; rw [hy]; rfl
      · rfl
    · rename_i hy
      split
      · rename_i q; subst q; rw [hy]; rfl
      · rfl
  refine ⟨fun d => by rw [e], fun d => ?_, fun y hy => ?_, fun d n hn => ?_⟩
  · rw [e]; dsimp only; split <;> rfl
  · rw [e]; simp only [if_true]; rw [pin, if_pos rfl, hy]; rfl
  · rw [e]; dsimp only
    split
    · rename_i q; subst q
      dsimp only
      rw [pin, if_neg]
      rintro rfl; exact hn rfl
    · rfl

end Sys2Proof.Laws
end

