-- ==== Sys2Proof/Tests/Slice0.lean ====
section
/-! SUPPORT. Tests on fixed values, and a witness for the hypotheses of every statement and clause. -/

namespace Sys2Proof.Tests

open Sys2Proof Sys2Proof.Machine

/-! ## Decoding: every constructor from a word written out from R46, R49, R50, R52, R53, R55, R56 and R57 -/

/-- Each list of words decodes to the instruction beside it, which is well formed. -/
def decodesAll (l : List (List Nat × Instr)) : Bool :=
  l.all (fun e => (match decodeWords (e.1.getD 0 0) (e.1.getD 1 0) (e.1.getD 2 0) (e.1.getD 3 0) with
    | .ok i => decide (i = e.2)
    | .error _ => false) && e.2.wellFormed)

theorem test_decode_integer : (decodesAll [
    ([0x01187C00, 0x00000000, 0x00000000, 0x00000000], .add 3 1 30),
    ([0x02519200, 0x00000000, 0x00000000, 0x00000000], .sub 10 6 9),
    ([0x038AE800, 0x00000000, 0x00000000, 0x00000000], .mul 17 11 20),
    ([0x04C43E00, 0x00000000, 0x00000000, 0x00000000], .mulh 24 16 31),
    ([0x05FD5400, 0x00000000, 0x00000000, 0x00000000], .div 31 21 10),
    ([0x0636AA00, 0x00000000, 0x00000000, 0x00000000], .rem 6 26 21),
    ([0x076FC000, 0x00000000, 0x00000000, 0x00000000], .and 13 31 0),
    ([0x08A11600, 0x00000000, 0x00000000, 0x00000000], .or 20 4 11),
    ([0x09DA6C00, 0x00000000, 0x00000000, 0x00000000], .xor 27 9 22),
    ([0x0A138200, 0x00000000, 0x00000000, 0x00000000], .shl 2 14 1),
    ([0x0B4CD800, 0x00000000, 0x00000000, 0x00000000], .shr 9 19 12),
    ([0x0C862E00, 0x00000000, 0x00000000, 0x00000000], .sra 16 24 23),
    ([0x0DBF4400, 0x00000000, 0x00000000, 0x00000000], .slt 23 29 2),
    ([0x0EF09A00, 0x00000000, 0x00000000, 0x00000000], .sltu 30 2 13),
    ([0x0F29F000, 0x00000000, 0x00000000, 0x00000000], .min 5 7 24),
    ([0x10630600, 0x00000000, 0x00000000, 0x00000000], .max 12 12 3),
    ([0x119C5C00, 0x00000000, 0x00000000, 0x00000000], .minu 19 17 14),
    ([0x12D5B200, 0x00000000, 0x00000000, 0x00000000], .maxu 26 22 25)]) = true := by decide

theorem test_decode_integerImmediate : (decodesAll [
    ([0x134F8000, 0x00000000, 0x00000000, 0x00000000], .clz 9 30),
    ([0x13574001, 0x00000000, 0x00000000, 0x00000000], .ctz 10 29),
    ([0x135F0002, 0x00000000, 0x00000000, 0x00000000], .popc 11 28),
    ([0x14190A00, 0x00000000, 0x00000000, 0x00000000], .sel 3 4 5),
    ([0x153D7FFB, 0x00000000, 0x00000000, 0x00000000], .addi 7 21 16379),
    ([0x16453FFE, 0x00000000, 0x00000000, 0x00000000], .andi 8 20 16382),
    ([0x174CC001, 0x00000000, 0x00000000, 0x00000000], .ori 9 19 1),
    ([0x18548004, 0x00000000, 0x00000000, 0x00000000], .xori 10 18 4),
    ([0x1944403F, 0x00000000, 0x00000000, 0x00000000], .shli 8 17 63),
    ([0x1A44403E, 0x00000000, 0x00000000, 0x00000000], .shri 8 17 62),
    ([0x1B44403D, 0x00000000, 0x00000000, 0x00000000], .srai 8 17 61),
    ([0x1C176000, 0x00000000, 0x00000000, 0x00000000], .slti 2 29 8192),
    ([0x1D480000, 0x12345678, 0x00000000, 0x00000000], .li 9 0x12345678),
    ([0x1E480000, 0x0000ABCD, 0x00000000, 0x00000000], .lih 9 0xABCD),
    ([0x1FF84000, 0x00000000, 0x00000000, 0x00000000], .mov 31 1)]) = true := by decide

theorem test_decode_float : (decodesAll [
    ([0x20190A01, 0x00000000, 0x00000000, 0x00000000], .fadd 3 4 5 0 1),
    ([0x21190A12, 0x00000000, 0x00000000, 0x00000000], .fsub 3 4 5 1 2),
    ([0x22190A23, 0x00000000, 0x00000000, 0x00000000], .fmul 3 4 5 2 3),
    ([0x23190A04, 0x00000000, 0x00000000, 0x00000000], .ffma 3 4 5 0 4),
    ([0x24190A20, 0x00000000, 0x00000000, 0x00000000], .fmin 3 4 5 2),
    ([0x25190A10, 0x00000000, 0x00000000, 0x00000000], .fmax 3 4 5 1),
    ([0x26190A23, 0x00000000, 0x00000000, 0x00000000], .fcmp 3 4 5 2 3),
    ([0x27191A95, 0x00000000, 0x00000000, 0x00000000], .fcvt 3 4 13 9 5)]) = true := by decide

theorem test_decode_addressAndTile : (decodesAll [
    ([0x28790A03, 0x00000000, 0x00000000, 0x00000000], .acfg 15 4 5 3),
    ([0x29710000, 0x00000000, 0x00000000, 0x00000000], .aset 14 4),
    ([0x2AA34000, 0x00000000, 0x00000000, 0x00000000], .aget 20 13),
    ([0x2B603FF0, 0x00000000, 0x00000000, 0x00000000], .aadd 12 0x3FF0),
    ([0x2C580000, 0x00000000, 0x00000000, 0x00000000], .apost 11),
    ([0x30209008, 0x00000000, 0x00000000, 0x00000000], .lds 4 0 2 2 8),
    ([0x312FD800, 0x00000000, 0x00000000, 0x00000000], .sts 5 1 15 3 0),
    ([0x32010A03, 0x00000000, 0x00000000, 0x00000000], .tdef 4 5 3),
    ([0x3300003F, 0x00000000, 0x00000000, 0x00000000], .tfill 63),
    ([0x3400003E, 0x00000000, 0x00000000, 0x00000000], .tfree 62),
    ([0x3530003D, 0x00000000, 0x00000000, 0x00000000], .tstat 6 61)]) = true := by decide

theorem test_decode_flow : (decodesAll [
    ([0x3813FFF4, 0x00000000, 0x00000000, 0x00000000], .br 1 7 0x7FF4),
    ([0x38607FFF, 0x00000000, 0x00000000, 0x00000000], .brAlways 0x7FFF),
    ([0x39000064, 0x00000000, 0x00000000, 0x00000000], .jmp 100),
    ([0x39100000, 0xFFFFFFF0, 0x00000000, 0x00000000], .jmpFar 0xFFFFFFF0),
    ([0x3A007FFE, 0x00000000, 0x00000000, 0x00000000], .call 0x7FFE),
    ([0x3A100000, 0x00010000, 0x00000000, 0x00000000], .callFar 0x10000),
    ([0x3B044000, 0x00000000, 0x00000000, 0x00000000], .jmpr 17),
    ([0x3B004001, 0x00000000, 0x00000000, 0x00000000], .ret),
    ([0x3C520005, 0x00000000, 0x00000000, 0x00000000], .loop 1 9 5),
    ([0x3DBEFFFF, 0x00000000, 0x00000000, 0x00000000], .loopn 2 31 65535),
    ([0x3EDE0001, 0x00000000, 0x00000000, 0x00000000], .loopp 3 15 1),
    ([0x3F800000, 0x00000000, 0x00000000, 0x00000000], .lbrk 2),
    ([0x40201002, 0x00000000, 0x00000000, 0x00000000], .wtok 2 1 2),
    ([0x41002001, 0x00000000, 0x00000000, 0x00000000], .wfil 2 1),
    ([0x4200FFFF, 0x00000000, 0x00000000, 0x00000000], .wfre 15 4095),
    ([0x43003001, 0x00000000, 0x00000000, 0x00000000], .wbar 3 1),
    ([0x44000000, 0x00000000, 0x00000000, 0x00000000], .wlse)]) = true := by decide

theorem test_decode_ringAndBarrier : (decodesAll [
    ([0x45214003, 0x00000000, 0x00000000, 0x00000000], .rclaim 4 5 3),
    ([0x46298004, 0x00000000, 0x00000000, 0x00000000], .rpub 5 6 4),
    ([0x4731C005, 0x00000000, 0x00000000, 0x00000000], .rtake 6 7 5),
    ([0x483A0006, 0x00000000, 0x00000000, 0x00000000], .rfree 7 8 6),
    ([0x49424007, 0x00000000, 0x00000000, 0x00000000], .rback 8 9 7),
    ([0x4A4A8008, 0x00000000, 0x00000000, 0x00000000], .rsteal 9 10 8),
    ([0x4B388000, 0x00000000, 0x00000000, 0x00000000], .rstat 7 2),
    ([0x4C003008, 0x00000000, 0x00000000, 0x00000000], .barinit 3 8),
    ([0x4D003000, 0x00000000, 0x00000000, 0x00000000], .barv 3),
    ([0x4E001004, 0x00000000, 0x00000000, 0x00000000], .tsig 0 1 4),
    ([0x4F280039, 0x00000000, 0x00000000, 0x00000000], .chrd 5 57)]) = true := by decide

theorem test_decode_system : (decodesAll [
    ([0x5000C000, 0x00000000, 0x00000000, 0x00000000], .lnch 3),
    ([0x5110C000, 0x00000000, 0x00000000, 0x00000000], .lnchn 2 3),
    ([0x5200C000, 0x00000000, 0x00000000, 0x00000000], .fmtp 3),
    ([0x53001000, 0x00000000, 0x00000000, 0x00000000], .mode 1),
    ([0x540C8000, 0x00000001, 0x00000002, 0xFFFFFFFF], .swpt 200 1 2 0xFFFFFFFF),
    ([0x5500C000, 0x00000000, 0x00000000, 0x00000000], .pwrl 3),
    ([0x58021203, 0x00000000, 0x00000000, 0x00000000], .musts 8 9 3),
    ([0x59024000, 0x00000000, 0x00000000, 0x00000000], .jmark 9),
    ([0x60000000, 0x00000000, 0x00000000, 0x00000000], .nop),
    ([0x61100010, 0x00000000, 0x00000000, 0x00000000], .sysrd 2 0x10),
    ([0x63003FFF, 0x00000000, 0x00000000, 0x00000000], .trap 16383),
    ([0x64000000, 0x00000000, 0x00000000, 0x00000000], .tret),
    ([0x65000000, 0x00000000, 0x00000000, 0x00000000], .halt),
    ([0x66000000, 0x00000000, 0x00000000, 0x00000000], .yield),
    ([0x67200000, 0x00000000, 0x00000000, 0x00000000], .tstamp 4 0),
    ([0x67280001, 0x00000000, 0x00000000, 0x00000000], .tstamp 5 1),
    ([0x68003000, 0x00000000, 0x00000000, 0x00000000], .fenceAcq 3),
    ([0x68104000, 0x00000000, 0x00000000, 0x00000000], .fenceRel 4),
    ([0x68205000, 0x00000000, 0x00000000, 0x00000000], .fenceFull 5),
    ([0x6900C000, 0x00000000, 0x00000000, 0x00000000], .hreq 3)]) = true := by decide

theorem test_decode_systemWrite : (decodesAll [
    ([0x62008018, 0x00000000, 0x00000000, 0x00000000], .syswr 2 0x018),
    ([0x62008003, 0x00000000, 0x00000000, 0x00000000], .modeWrite 2),
    ([0x62008004, 0x00000000, 0x00000000, 0x00000000], .trapVecWrite 2),
    ([0x62008017, 0x00000000, 0x00000000, 0x00000000], .frResumeWrite 2),
    ([0x62008105, 0x00000000, 0x00000000, 0x00000000], .wrapAnWrite 2 5),
    ([0x62008110, 0x00000000, 0x00000000, 0x00000000], .vstatClear 2),
    ([0x62008112, 0x00000000, 0x00000000, 0x00000000], .tokcntWrite 2),
    ([0x6200812F, 0x00000000, 0x00000000, 0x00000000], .ringdWrite 2 15),
    ([0x6200814F, 0x00000000, 0x00000000, 0x00000000], .foldSetWrite 2 15),
    ([0x62008020, 0x00000000, 0x00000000, 0x00000000], .droopThrWrite 2)]) = true := by decide

theorem test_decode_lde : (decodesAll [
    ([0x8901FC04, 0x42540180, 0x00000000, 0x00000000], .cpin { tok := { wu := true, sd := true }, x := 63, al := 1, sa := 8, sb := 9, sc := 10, sub := 3 }),
    ([0x80011610, 0x40000221, 0x00000000, 0x00000000], .cpinCh { x := 5, y := 33, sa := 8, sub := 4, imm := 33 }),
    ([0x80851408, 0x4254008C, 0xAAFE0028, 0x00000000], .cpcv { x := 5, al := 2, sa := 8, sb := 9, sc := 10, sub := 1, imm := 12, md := some { sat := true, neg := true, scale := 0xFE, round := 5 } }),
    ([0x8602A000, 0x0087F000, 0x00000000, 0x00000000], .ldch { tok := { wd := true, su := true }, x := 40, sb := 2, sc := 3, ad := 15, p := true, imm := 0 }),
    ([0x8003A400, 0xF8000080, 0x00000000, 0x00000000], .ldbc { x := 41, sa := 31, sub := 1 }),
    ([0x8004000C, 0x31C00000, 0x00000000, 0x00000000], .pfch { al := 3, sa := 6, sb := 7 })]) = true := by decide

theorem test_decode_mxe : (decodesAll [
    ([0x90010000, 0x00000000, 0x00000000, 0x00000000], .lease {  }),
    ([0x92020000, 0x00000000, 0x00000000, 0x00000000], .unls { tok := { su := true } }),
    ([0x90031C14, 0x200060BF, 0x00000000, 0x00000000], .wld { x := 7, y := 1, al := 1, sa := 4, ad := 3, sub := 1, imm := 63 }),
    ([0x9F041C10, 0x214C003E, 0x00000000, 0x00000000], .mma { tok := { wu := true, wd := true, su := true, sd := true }, x := 7, y := 1, sa := 4, sb := 5, sc := 6, imm := 62 }),
    ([0x90052000, 0x214C0001, 0x00000000, 0x00000000], .mmas { x := 8, sa := 4, sb := 5, sc := 6, imm := 1 }),
    ([0x90060000, 0x4A800000, 0x00000000, 0x00000000], .accz { sa := 9, sb := 10 }),
    ([0x90070424, 0x190A0380, 0x00000000, 0x00000000], .drain { x := 1, y := 2, al := 1, sa := 3, sb := 4, sc := 5, sub := 7 }),
    ([0x90080810, 0x190A0083, 0x00000000, 0x00000000], .probe { x := 2, y := 1, sa := 3, sb := 4, sc := 5, sub := 1, imm := 3 }),
    ([0x90090000, 0x190A0007, 0x00000000, 0x00000000], .clsf { sa := 3, sb := 4, sc := 5, imm := 7 }),
    ([0x900A0430, 0x190A0086, 0x00000000, 0x00000000], .corr { x := 1, y := 3, sa := 3, sb := 4, sc := 5, sub := 1, imm := 6 }),
    ([0x900B2400, 0x18000005, 0x00000000, 0x00000000], .tfit { x := 9, sa := 3, imm := 5 }),
    ([0x900C2404, 0x18000000, 0x00000000, 0x00000000], .tload { x := 9, al := 1, sa := 3 }),
    ([0x900D2400, 0x18000080, 0x00000000, 0x00000000], .tsave { x := 9, sa := 3, sub := 1 }),
    ([0x900E0000, 0x190A0009, 0x00000000, 0x00000000], .tset { sa := 3, sb := 4, sc := 5, imm := 9 }),
    ([0x900F2400, 0x19000000, 0x00000000, 0x00000000], .escn { x := 9, sa := 3, sb := 4 }),
    ([0x90102400, 0x18000000, 0x00000000, 0x00000000], .rlpop { x := 9, sa := 3 }),
    ([0x90110420, 0x190A01BF, 0x00000000, 0x00000000], .refold { x := 1, y := 2, sa := 3, sb := 4, sc := 5, sub := 3, imm := 63 })]) = true := by decide

theorem test_decode_vecArithmetic : (decodesAll [
    ([0xA801FC1F, 0x08040000, 0x00000000, 0x00000000], .vadd { tok := { wu := true }, vd := 63, va := 1, pg := 15, vb := 2, ty := 8 }),
    ([0xA0020C40, 0x14008000, 0x00000000, 0x00000000], .vsub { vd := 3, va := 4, vb := 5, ty := 1 }),
    ([0xA0830C40, 0x14010000, 0xA5001900, 0x00000000], .vmul { vd := 3, va := 4, vb := 5, ty := 2, md := some { clamp := true, abs := true, clo := 3, chi := 4 } }),
    ([0xA0040C40, 0x14600000, 0x00000000, 0x00000000], .vfma { vd := 3, va := 4, vb := 5, vc := 6 }),
    ([0xA0050C40, 0x17E00000, 0x00000000, 0x00000000], .vfms { vd := 3, va := 4, vb := 5, vc := 62 }),
    ([0xA0060C40, 0x14048000, 0x00000000, 0x00000000], .vmin { vd := 3, va := 4, vb := 5, ty := 9 }),
    ([0xA0070C40, 0x14050000, 0x00000000, 0x00000000], .vmax { vd := 3, va := 4, vb := 5, ty := 10 }),
    ([0xA0083C40, 0x14042400, 0x00000000, 0x00000000], .vcmp { vd := 15, va := 4, vb := 5, ty := 8, sub := 9 }),
    ([0xA0090C42, 0x14000000, 0x00000000, 0x00000000], .vsel { vd := 3, va := 4, pg := 2, vb := 5 }),
    ([0xA00A0C40, 0x00018003, 0x00000000, 0x00000000], .vcvt { vd := 3, va := 4, ty := 3, sub := 0, imm := 3 }),
    ([0xA00B0C40, 0x14000000, 0x00000000, 0x00000000], .vand { vd := 3, va := 4, vb := 5 }),
    ([0xA00C1040, 0x14000000, 0x00000000, 0x00000000], .vor { vd := 4, va := 4, vb := 5 }),
    ([0xA00D1440, 0x14000000, 0x00000000, 0x00000000], .vxor { vd := 5, va := 4, vb := 5 }),
    ([0xA00E0C40, 0x00000000, 0x00000000, 0x00000000], .vnot { vd := 3, va := 4 }),
    ([0xA00F0C40, 0x0004041F, 0x00000000, 0x00000000], .vshl { vd := 3, va := 4, ty := 8, sub := 1, imm := 31 }),
    ([0xA0100C40, 0x0004041E, 0x00000000, 0x00000000], .vshr { vd := 3, va := 4, ty := 8, sub := 1, imm := 30 }),
    ([0xA0110C40, 0x0004041D, 0x00000000, 0x00000000], .vsra { vd := 3, va := 4, ty := 8, sub := 1, imm := 29 }),
    ([0xA0120C40, 0x00000000, 0x00000000, 0x00000000], .vmov { vd := 3, va := 4 }),
    ([0xA0130C40, 0x0000003F, 0x00000000, 0x00000000], .vbc { vd := 3, va := 4, imm := 63 })]) = true := by decide

theorem test_decode_vecPermute : (decodesAll [
    ([0xA0140C00, 0x000403FF, 0x00000000, 0x00000000], .vidx { vd := 3, ty := 8, imm := 1023 }),
    ([0xA0150C40, 0x00041400, 0x00000000, 0x00000000], .vred { vd := 3, va := 4, ty := 8, sub := 5 }),
    ([0xA0160C40, 0x00000C00, 0x00000000, 0x00000000], .vscan { vd := 3, va := 4, sub := 3 }),
    ([0xA0170C40, 0x14600000, 0x00000000, 0x00000000], .vperm { vd := 3, va := 4, vb := 5, vc := 6 }),
    ([0xA0180C40, 0x14000007, 0x00000000, 0x00000000], .vbit { vd := 3, va := 4, vb := 5, imm := 7 }),
    ([0xA0190040, 0x00000006, 0x00000000, 0x00000000], .vbpat { va := 4, imm := 6 }),
    ([0xA01A0C40, 0x00009C00, 0x00000000, 0x00000000], .vsf { vd := 3, va := 4, ty := 1, sub := 7 }),
    ([0xA01B0C40, 0x14040440, 0x00000000, 0x00000000], .vtopk { vd := 3, va := 4, vb := 5, ty := 8, sub := 1, imm := 64 }),
    ([0xA01C0C40, 0x14000000, 0x00000000, 0x00000000], .vrnd { vd := 3, va := 4, vb := 5 }),
    ([0xA01D0C40, 0x14031C05, 0x00000000, 0x00000000], .vqnt { vd := 3, va := 4, vb := 5, ty := 6, sub := 7, imm := 5 }),
    ([0xA01E0C40, 0x00618C01, 0x00000000, 0x00000000], .vdq { vd := 3, va := 4, vb := 0, vc := 6, ty := 3, sub := 3, imm := 1 }),
    ([0xA01F0C00, 0x0090043F, 0x00000000, 0x00000000], .vrcv { vd := 3, vc := 9, sub := 1, imm := 63 }),
    ([0xA0200040, 0x0000003E, 0x00000000, 0x00000000], .vsnd { va := 4, imm := 62 }),
    ([0xA0210000, 0x00000000, 0x00000000, 0x00000000], .vrot { va := 0 }),
    ([0xA0220440, 0x14000000, 0x00000000, 0x00000000], .pand { vd := 1, va := 4, vb := 5 }),
    ([0xA0230840, 0x14000000, 0x00000000, 0x00000000], .por { vd := 2, va := 4, vb := 5 }),
    ([0xA0240C40, 0x14000000, 0x00000000, 0x00000000], .pxor { vd := 3, va := 4, vb := 5 }),
    ([0xA0252090, 0x00000000, 0x00000000, 0x00000000], .pnot { vd := 8, va := 9 }),
    ([0xA026F090, 0x00000000, 0x00000000, 0x00000000], .pcnt { vd := 60, va := 9 }),
    ([0xA0272000, 0x00000040, 0x00000000, 0x00000000], .pset { vd := 8, imm := 64 })]) = true := by decide

theorem test_decode_storeIndexLink : (decodesAll [
    ([0xB5810C06, 0x214C0308, 0xAAFE0028, 0x00000000], .cpout { tok := { wd := true, sd := true }, x := 3, al := 1, once := true, sa := 4, sb := 5, sc := 6, sub := 6, imm := 8, md := some { sat := true, neg := true, scale := 0xFE, round := 5 } }),
    ([0xB002A290, 0x20000200, 0x00000000, 0x00000000], .stch { x := 40, y := 41, sa := 4, sub := 4 }),
    ([0xB002A020, 0x00000180, 0x00000000, 0x00000000], .stchApp { x := 40, y := 2, sub := 3 }),
    ([0xB0030000, 0x21400180, 0x00000000, 0x00000000], .stg { sa := 4, sb := 5, sub := 3 }),
    ([0xB0040002, 0x21400008, 0x00000000, 0x00000000], .stat { once := true, sa := 4, sb := 5, sub := 0, imm := 8 }),
    ([0xCA01A110, 0x214C0080, 0x00000000, 0x00000000], .gath { tok := { wu := true, su := true }, x := 40, y := 17, sa := 4, sb := 5, sc := 6, sub := 1 }),
    ([0xC0020000, 0x214C5000, 0x00000000, 0x00000000], .scat { sa := 4, sb := 5, sc := 6, ad := 2, p := true }),
    ([0xC0033C00, 0x200C0000, 0x00000000, 0x00000000], .ixlist { x := 15, sa := 4, sc := 6 }),
    ([0xC0040008, 0x214C6000, 0x00000000, 0x00000000], .ixpage { al := 2, sa := 4, sb := 5, sc := 6, ad := 3 }),
    ([0xC00501F0, 0x214C6008, 0x00000000, 0x00000000], .ixsum { y := 31, sa := 4, sb := 5, sc := 6, ad := 3, imm := 8 }),
    ([0xD0013D00, 0x200C0280, 0x00000000, 0x00000000], .cpost { x := 15, y := 16, sa := 4, sc := 6, sub := 5 }),
    ([0xD0023800, 0x214C0000, 0x00000000, 0x00000000], .cjoin { x := 14, sa := 4, sb := 5, sc := 6 }),
    ([0xD0033400, 0x00000000, 0x00000000, 0x00000000], .cstat { x := 13, y := 0 })]) = true := by decide


/-! ## Encoding limits: an ill-formed term for each check -/

/-- None of the instructions is well formed. -/
def refusesAll (l : List Instr) : Bool := l.all (fun i => !i.wellFormed)

theorem test_illFormed_control : (refusesAll [
    .fadd 1 2 3 3 0,
    .fadd 1 2 3 0 6,
    .fsub 1 2 3 4 0,
    .fmul 1 2 3 0 7,
    .ffma 1 2 3 3 0,
    .fmin 1 2 3 3,
    .fmax 1 2 3 8,
    .fcmp 1 2 3 3 0,
    .fcmp 1 2 3 0 4,
    .fcvt 1 2 6 0 0,
    .fcvt 1 2 0 12 0,
    .fcvt 1 2 0 1 6,
    .acfg 16 1 2 0,
    .aset 16 1,
    .aget 1 16,
    .aadd 31 0,
    .apost 16,
    .lds 1 0 2 7 0,
    .lds 1 1 2 0 1,
    .sts 1 0 2 4 0,
    .sts 1 1 2 0 1,
    .br 7 1 0,
    .loop 0 1 0,
    .loopn 0 1 0,
    .loopp 0 1 0,
    .wtok 3 1 1,
    .wtok 4 0 1,
    .wtok 5 0 1,
    .wtok 6 0 1,
    .wtok 0 0 0,
    .wtok 0 0 256,
    .tsig 3 1 1,
    .tsig 0 0 256,
    .wfil 16 1,
    .wfil 0 0,
    .wfre 16 1,
    .wfre 0 0,
    .wbar 16 0,
    .rclaim 1 16 1,
    .rclaim 1 0 0,
    .rpub 1 16 1,
    .rtake 1 0 0,
    .rfree 1 16 1,
    .rback 1 0 0,
    .rsteal 1 16 1,
    .rstat 1 16,
    .barinit 16 1,
    .barinit 0 0,
    .barv 16,
    .chrd 1 55,
    .chrd 1 64,
    .sysrd 1 0x00B,
    .sysrd 1 0x152,
    .syswr 1 0x000,
    .syswr 1 0x010,
    .syswr 1 0x111,
    .syswr 1 0x130,
    .fenceAcq 6,
    .fenceRel 7,
    .fenceFull 6]) = true := by decide

theorem test_illFormed_load : (refusesAll [
    .cpin { zero := true },
    .cpin { once := true },
    .cpin { md := some {} },
    .cpin { y := 1 },
    .cpin { ad := 1 },
    .cpin { p := true },
    .cpin { imm := 64 },
    .cpin { sub := 4 },
    .cpin { sub := 8 },
    .cpinCh { sub := 4, zero := true },
    .cpinCh { sub := 4, once := true },
    .cpinCh { sub := 4, md := some {} },
    .cpinCh { sub := 4, sb := 1 },
    .cpinCh { sub := 4, sc := 1 },
    .cpinCh { sub := 4, ad := 1 },
    .cpinCh { sub := 4, p := true },
    .cpinCh { sub := 0 },
    .cpinCh { sub := 6 },
    .cpcv { zero := true },
    .cpcv { once := true },
    .cpcv { md := some { zero := 1 } },
    .cpcv { md := some { round := 6 } },
    .cpcv { md := some { clo := 1 } },
    .cpcv { y := 1 },
    .cpcv { ad := 1 },
    .cpcv { p := true },
    .cpcv { sub := 16 },
    .cpcv { imm := 7 },
    .cpcv { imm := 13 },
    .cpcv { sub := 2, imm := 6 },
    .ldch { zero := true },
    .ldch { once := true },
    .ldch { md := some {} },
    .ldch { y := 1 },
    .ldch { sa := 1 },
    .ldch { sub := 2 },
    .ldch { sub := 1, ad := 1 },
    .ldbc { zero := true },
    .ldbc { once := true },
    .ldbc { md := some {} },
    .ldbc { y := 1 },
    .ldbc { sb := 1 },
    .ldbc { sc := 1 },
    .ldbc { sa := 1 },
    .ldbc { sub := 2 },
    .ldbc { sub := 1, p := true },
    .pfch { zero := true },
    .pfch { once := true },
    .pfch { md := some {} },
    .pfch { x := 1 },
    .pfch { y := 1 },
    .pfch { sc := 1 },
    .pfch { ad := 1 },
    .pfch { p := true },
    .pfch { sub := 16 },
    .pfch { imm := 64 }]) = true := by decide

theorem test_illFormed_matrix : (refusesAll [
    .lease { zero := true },
    .lease { once := true },
    .lease { md := some {} },
    .lease { x := 1 },
    .lease { y := 1 },
    .lease { al := 1 },
    .lease { sa := 1 },
    .lease { sb := 1 },
    .lease { sc := 1 },
    .lease { ad := 1 },
    .lease { p := true },
    .lease { sub := 16 },
    .lease { imm := 64 },
    .unls { zero := true },
    .unls { once := true },
    .unls { md := some {} },
    .unls { x := 1 },
    .unls { y := 1 },
    .unls { al := 1 },
    .unls { sa := 1 },
    .unls { sb := 1 },
    .unls { sc := 1 },
    .unls { ad := 1 },
    .unls { p := true },
    .unls { sub := 16 },
    .unls { imm := 64 },
    .wld { zero := true },
    .wld { once := true },
    .wld { md := some {} },
    .wld { sb := 1 },
    .wld { sc := 1 },
    .wld { ad := 1 },
    .wld { p := true },
    .wld { imm := 64 },
    .wld { y := 2 },
    .wld { sub := 2 },
    .mma { zero := true },
    .mma { once := true },
    .mma { md := some {} },
    .mma { ad := 1 },
    .mma { p := true },
    .mma { sub := 16 },
    .mma { imm := 64 },
    .mma { y := 2 },
    .mmas { zero := true },
    .mmas { once := true },
    .mmas { md := some {} },
    .mmas { ad := 1 },
    .mmas { p := true },
    .mmas { sub := 16 },
    .mmas { imm := 64 },
    .mmas { y := 2 },
    .accz { zero := true },
    .accz { once := true },
    .accz { md := some {} },
    .accz { x := 1 },
    .accz { y := 1 },
    .accz { al := 1 },
    .accz { sc := 1 },
    .accz { ad := 1 },
    .accz { p := true },
    .accz { sub := 16 },
    .accz { imm := 64 },
    .drain { zero := true },
    .drain { once := true },
    .drain { md := some {} },
    .drain { ad := 1 },
    .drain { p := true },
    .drain { imm := 64 },
    .drain { sub := 16 },
    .drain { sub := 8 },
    .probe { zero := true },
    .probe { once := true },
    .probe { md := some {} },
    .probe { ad := 1 },
    .probe { p := true },
    .probe { imm := 64 },
    .probe { sub := 16 },
    .probe { y := 2 },
    .clsf { zero := true },
    .clsf { once := true },
    .clsf { md := some {} },
    .clsf { x := 1 },
    .clsf { y := 1 },
    .clsf { ad := 1 },
    .clsf { p := true },
    .clsf { sub := 16 },
    .clsf { imm := 8 }]) = true := by decide

theorem test_illFormed_fold : (refusesAll [
    .corr { zero := true },
    .corr { once := true },
    .corr { md := some {} },
    .corr { ad := 1 },
    .corr { p := true },
    .corr { sub := 16 },
    .corr { imm := 8 },
    .corr { sub := 2, y := 1 },
    .tfit { zero := true },
    .tfit { once := true },
    .tfit { md := some {} },
    .tfit { y := 1 },
    .tfit { al := 1 },
    .tfit { sb := 1 },
    .tfit { sc := 1 },
    .tfit { ad := 1 },
    .tfit { p := true },
    .tfit { sub := 16 },
    .tfit { imm := 8 },
    .tload { zero := true },
    .tload { once := true },
    .tload { md := some {} },
    .tload { y := 1 },
    .tload { sb := 1 },
    .tload { sc := 1 },
    .tload { ad := 1 },
    .tload { p := true },
    .tload { sub := 16 },
    .tload { imm := 64 },
    .tsave { zero := true },
    .tsave { once := true },
    .tsave { md := some {} },
    .tsave { y := 1 },
    .tsave { sb := 1 },
    .tsave { sc := 1 },
    .tsave { ad := 1 },
    .tsave { p := true },
    .tsave { imm := 64 },
    .tsave { sub := 2 },
    .tset { zero := true },
    .tset { once := true },
    .tset { md := some {} },
    .tset { x := 1 },
    .tset { y := 1 },
    .tset { al := 1 },
    .tset { ad := 1 },
    .tset { p := true },
    .tset { sub := 16 },
    .tset { imm := 10 },
    .escn { zero := true },
    .escn { once := true },
    .escn { md := some {} },
    .escn { y := 1 },
    .escn { al := 1 },
    .escn { sc := 1 },
    .escn { ad := 1 },
    .escn { p := true },
    .escn { sub := 16 },
    .escn { imm := 64 },
    .rlpop { zero := true },
    .rlpop { once := true },
    .rlpop { md := some {} },
    .rlpop { y := 1 },
    .rlpop { al := 1 },
    .rlpop { sb := 1 },
    .rlpop { sc := 1 },
    .rlpop { ad := 1 },
    .rlpop { p := true },
    .rlpop { sub := 16 },
    .rlpop { imm := 64 },
    .refold { zero := true },
    .refold { once := true },
    .refold { md := some {} },
    .refold { ad := 1 },
    .refold { p := true },
    .refold { imm := 64 },
    .refold { sub := 4 }]) = true := by decide

theorem test_illFormed_storeIndexLink : (refusesAll [
    .cpout { zero := true },
    .cpout { once := true },
    .cpout { md := some {} },
    .cpout { y := 1 },
    .cpout { ad := 1 },
    .cpout { p := true },
    .cpout { imm := 64 },
    .cpout { tok := { wu := true } },
    .cpout { tok := { su := true } },
    .cpout { sub := 8 },
    .cpout { sub := 2, imm := 7 },
    .cpout { sub := 6, imm := 2 },
    .cpout { sub := 3, imm := 6 },
    .cpout { sub := 2, md := some { round := 7 } },
    .stch { zero := true },
    .stch { once := true },
    .stch { md := some {} },
    .stch { sb := 1 },
    .stch { sc := 1 },
    .stch { ad := 1 },
    .stch { p := true },
    .stch { tok := { wu := true } },
    .stch { sub := 8 },
    .stch { sub := 1, y := 1 },
    .stch { sub := 1, sa := 1 },
    .stch { sub := 2, y := 1 },
    .stch { sub := 2, ad := 1 },
    .stchApp { sub := 3, zero := true },
    .stchApp { sub := 3, once := true },
    .stchApp { sub := 3, md := some {} },
    .stchApp { sub := 3, sa := 1 },
    .stchApp { sub := 3, sb := 1 },
    .stchApp { sub := 3, sc := 1 },
    .stchApp { sub := 3, ad := 1 },
    .stchApp { sub := 3, p := true },
    .stchApp { sub := 3, tok := { su := true } },
    .stchApp { sub := 7 },
    .stg { zero := true },
    .stg { once := true },
    .stg { md := some {} },
    .stg { x := 1 },
    .stg { y := 1 },
    .stg { imm := 64 },
    .stg { sc := 1 },
    .stg { ad := 1 },
    .stg { p := true },
    .stg { tok := { wu := true } },
    .stg { sub := 5 },
    .stg { sub := 4, sb := 1 },
    .stat { zero := true },
    .stat { md := some {} },
    .stat { x := 1 },
    .stat { y := 1 },
    .stat { ad := 1 },
    .stat { p := true },
    .stat { imm := 64 },
    .stat { sc := 1 },
    .stat { tok := { su := true } },
    .stat { sub := 8 },
    .stat { sub := 3, imm := 16 },
    .stat { imm := 6 },
    .stat { imm := 32, sb := 1 },
    .stat { sub := 7, imm := 32 },
    .gath { zero := true },
    .gath { once := true },
    .gath { md := some {} },
    .gath { x := 1 },
    .gath { imm := 64 },
    .gath { tok := { wd := true } },
    .gath { tok := { sd := true } },
    .gath { sub := 2 },
    .gath { y := 1 },
    .gath { y := 32 },
    .gath { sub := 1, ad := 1 },
    .scat { zero := true },
    .scat { once := true },
    .scat { md := some {} },
    .scat { x := 1 },
    .scat { imm := 64 },
    .scat { sub := 16 },
    .scat { tok := { wd := true } },
    .scat { y := 1 },
    .ixlist { zero := true },
    .ixlist { once := true },
    .ixlist { md := some {} },
    .ixlist { sb := 1 },
    .ixlist { ad := 1 },
    .ixlist { p := true },
    .ixlist { sub := 16 },
    .ixlist { imm := 64 },
    .ixlist { tok := { sd := true } },
    .ixlist { x := 16 },
    .ixlist { y := 15 },
    .ixpage { zero := true },
    .ixpage { once := true },
    .ixpage { md := some {} },
    .ixpage { x := 1 },
    .ixpage { imm := 64 },
    .ixpage { tok := { wd := true } },
    .ixpage { sub := 2 },
    .ixpage { sub := 1, p := true },
    .ixsum { zero := true },
    .ixsum { once := true },
    .ixsum { md := some {} },
    .ixsum { x := 1 },
    .ixsum { sub := 16 },
    .ixsum { tok := { sd := true } },
    .ixsum { imm := 2 },
    .ixsum { y := 33 },
    .cpost { zero := true },
    .cpost { once := true },
    .cpost { md := some {} },
    .cpost { sb := 1 },
    .cpost { ad := 1 },
    .cpost { p := true },
    .cpost { imm := 64 },
    .cpost { sub := 16 },
    .cpost { tok := { wu := true } },
    .cpost { x := 16 },
    .cpost { y := 1 },
    .cpost { sub := 3 },
    .cpost { sub := 6 },
    .cjoin { zero := true },
    .cjoin { once := true },
    .cjoin { md := some {} },
    .cjoin { ad := 1 },
    .cjoin { p := true },
    .cjoin { sub := 16 },
    .cjoin { imm := 64 },
    .cjoin { tok := { sd := true } },
    .cjoin { x := 16 },
    .cjoin { y := 32 },
    .cstat { zero := true },
    .cstat { once := true },
    .cstat { md := some {} },
    .cstat { al := 1 },
    .cstat { sa := 1 },
    .cstat { sb := 1 },
    .cstat { sc := 1 },
    .cstat { ad := 1 },
    .cstat { p := true },
    .cstat { sub := 16 },
    .cstat { imm := 64 },
    .cstat { tok := { wd := true } },
    .cstat { x := 16 }]) = true := by decide

theorem test_illFormed_vecLanes : (refusesAll [
    .vadd { vc := 1 },
    .vadd { ty := 3 },
    .vadd { sub := 1 },
    .vadd { imm := 1 },
    .vadd { md := some { zero := 4 } },
    .vsub { vc := 1 },
    .vsub { ty := 3 },
    .vsub { sub := 1 },
    .vsub { imm := 1 },
    .vsub { md := some { zero := 4 } },
    .vmul { vc := 1 },
    .vmul { ty := 3 },
    .vmul { sub := 1 },
    .vmul { imm := 1 },
    .vmul { md := some { zero := 4 } },
    .vmin { vc := 1 },
    .vmin { ty := 3 },
    .vmin { sub := 1 },
    .vmin { imm := 1 },
    .vmin { md := some { zero := 4 } },
    .vmax { vc := 1 },
    .vmax { ty := 3 },
    .vmax { sub := 1 },
    .vmax { imm := 1 },
    .vmax { md := some { zero := 4 } },
    .vfma { ty := 11 },
    .vfma { sub := 1 },
    .vfma { imm := 1 },
    .vfma { md := some { zero := 4 } },
    .vfms { ty := 11 },
    .vfms { sub := 1 },
    .vfms { imm := 1 },
    .vfms { md := some { zero := 4 } },
    .vcmp { vd := 0 },
    .vcmp { vd := 16 },
    .vcmp { vd := 1, vc := 1 },
    .vcmp { vd := 1, ty := 1 },
    .vcmp { vd := 1, imm := 1 },
    .vcmp { vd := 1, md := some {} },
    .vcmp { vd := 1, sub := 6 },
    .vcmp { vd := 1, sub := 10, ty := 8 },
    .vcmp { vd := 1, sub := 11 },
    .vsel { vc := 1 },
    .vsel { ty := 1 },
    .vsel { sub := 1 },
    .vsel { imm := 1 },
    .vsel { md := some {} },
    .vcvt { vb := 1 },
    .vcvt { vc := 1 },
    .vcvt { ty := 6 },
    .vcvt { sub := 7 },
    .vcvt { imm := 1 },
    .vcvt { md := some { zero := 4 } },
    .vand { vc := 1 },
    .vand { ty := 1 },
    .vand { md := some {} },
    .vor { vc := 1 },
    .vor { ty := 1 },
    .vor { md := some {} },
    .vxor { vc := 1 },
    .vxor { ty := 1 },
    .vxor { md := some {} },
    .vnot { vb := 1 },
    .vnot { vc := 1 },
    .vnot { imm := 1 },
    .vnot { md := some {} },
    .vmov { vb := 1 },
    .vmov { vc := 1 },
    .vmov { imm := 1 },
    .vmov { md := some {} },
    .vshl { ty := 8, vc := 1 },
    .vshl { ty := 0 },
    .vshl { ty := 8, md := some {} },
    .vshl { ty := 8, imm := 1 },
    .vshl { ty := 8, sub := 1, vb := 1 },
    .vshl { ty := 8, sub := 1, imm := 32 },
    .vshl { ty := 8, sub := 2 },
    .vshr { ty := 8, vc := 1 },
    .vshr { ty := 0 },
    .vshr { ty := 8, md := some {} },
    .vshr { ty := 8, imm := 1 },
    .vshr { ty := 8, sub := 1, vb := 1 },
    .vshr { ty := 8, sub := 1, imm := 32 },
    .vshr { ty := 8, sub := 2 }]) = true := by decide

theorem test_illFormed_vecOther : (refusesAll [
    .vsra { ty := 8, vc := 1 },
    .vsra { ty := 0 },
    .vsra { ty := 8, md := some {} },
    .vsra { ty := 8, imm := 1 },
    .vsra { ty := 8, sub := 1, vb := 1 },
    .vsra { ty := 8, sub := 1, imm := 32 },
    .vsra { ty := 8, sub := 2 },
    .vbc { vb := 1 },
    .vbc { vc := 1 },
    .vbc { md := some {} },
    .vbc { ty := 1 },
    .vbc { imm := 64 },
    .vbc { sub := 1, va := 1 },
    .vbc { sub := 1, ty := 3 },
    .vbc { sub := 2 },
    .vidx { ty := 8, va := 1 },
    .vidx { ty := 8, vb := 1 },
    .vidx { ty := 8, vc := 1 },
    .vidx { ty := 0 },
    .vidx { ty := 8, sub := 1 },
    .vidx { ty := 8, md := some {} },
    .vred { ty := 8, vb := 1 },
    .vred { ty := 8, vc := 1 },
    .vred { ty := 3 },
    .vred { ty := 8, imm := 1 },
    .vred { ty := 8, sub := 6 },
    .vred { ty := 0, sub := 3 },
    .vred { ty := 8, md := some { zero := 4 } },
    .vred { ty := 8, md := some {}, sub := 1 },
    .vscan { vb := 1 },
    .vscan { vc := 1 },
    .vscan { ty := 3 },
    .vscan { imm := 1 },
    .vscan { sub := 4 },
    .vscan { md := some { zero := 4 } },
    .vperm { ty := 1 },
    .vperm { sub := 1 },
    .vperm { imm := 1 },
    .vperm { md := some {} },
    .vbit { vc := 1 },
    .vbit { ty := 1 },
    .vbit { sub := 1 },
    .vbit { imm := 8 },
    .vbit { md := some {} },
    .vbpat { vd := 1 },
    .vbpat { vb := 1 },
    .vbpat { vc := 1 },
    .vbpat { imm := 8 },
    .vbpat { md := some {} },
    .vsf { vb := 1 },
    .vsf { vc := 1 },
    .vsf { ty := 3 },
    .vsf { sub := 8 },
    .vsf { imm := 1 },
    .vsf { md := some { zero := 4 } },
    .vtopk { vd := 1, imm := 1, vc := 1 },
    .vtopk { vd := 1, imm := 1, ty := 1 },
    .vtopk { vd := 1, imm := 1, sub := 2 },
    .vtopk { vd := 1, imm := 0 },
    .vtopk { vd := 1, imm := 65 },
    .vtopk { vd := 1, imm := 1, vb := 1 },
    .vtopk { vd := 1, imm := 1, md := some {} },
    .vrnd { vc := 1 },
    .vrnd { ty := 1 },
    .vrnd { sub := 1 },
    .vrnd { imm := 1 },
    .vrnd { md := some {} },
    .vqnt { ty := 0 },
    .vqnt { ty := 3, vb := 1 },
    .vqnt { ty := 3, sub := 4 },
    .vqnt { ty := 3, imm := 6 },
    .vqnt { ty := 3, md := some { zero := 4 } },
    .vqnt { ty := 3, md := some { sat := true } },
    .vdq { ty := 0 },
    .vdq { ty := 3, vb := 1 },
    .vdq { ty := 3, sub := 4 },
    .vdq { ty := 3, imm := 2 },
    .vdq { ty := 3, vc := 1 },
    .vdq { ty := 3, md := some {} },
    .vrcv { va := 1 },
    .vrcv { vb := 1 },
    .vrcv { ty := 1 },
    .vrcv { imm := 64 },
    .vrcv { md := some {} },
    .vrcv { vc := 1 },
    .vrcv { sub := 1, vc := 0 },
    .vrcv { sub := 2 },
    .vsnd { vd := 1 },
    .vsnd { vb := 1 },
    .vsnd { vc := 1 },
    .vsnd { ty := 1 },
    .vsnd { sub := 1 },
    .vsnd { imm := 64 },
    .vsnd { md := some {} },
    .vrot { va := 16 },
    .vrot { vd := 1 },
    .vrot { pg := 1 },
    .vrot { vb := 1 },
    .vrot { vc := 1 },
    .vrot { imm := 1 },
    .vrot { md := some {} },
    .pand { vd := 0 },
    .pand { vd := 1, va := 16 },
    .pand { vd := 1, vb := 16 },
    .pand { vd := 1, vc := 1 },
    .pand { vd := 1, imm := 1 },
    .pand { vd := 1, md := some {} },
    .por { vd := 0 },
    .por { vd := 1, va := 16 },
    .por { vd := 1, vb := 16 },
    .por { vd := 1, vc := 1 },
    .por { vd := 1, imm := 1 },
    .por { vd := 1, md := some {} },
    .pxor { vd := 0 },
    .pxor { vd := 1, va := 16 },
    .pxor { vd := 1, vb := 16 },
    .pxor { vd := 1, vc := 1 },
    .pxor { vd := 1, imm := 1 },
    .pxor { vd := 1, md := some {} },
    .pnot { vd := 16 },
    .pnot { vd := 1, va := 16 },
    .pnot { vd := 1, vb := 1 },
    .pnot { vd := 1, vc := 1 },
    .pnot { vd := 1, md := some {} },
    .pcnt { va := 16 },
    .pcnt { vb := 1 },
    .pcnt { vc := 1 },
    .pcnt { sub := 1 },
    .pcnt { md := some {} },
    .pset { vd := 0 },
    .pset { vd := 1, vb := 1 },
    .pset { vd := 1, vc := 1 },
    .pset { vd := 1, ty := 1 },
    .pset { vd := 1, md := some {} },
    .pset { vd := 1, va := 1 },
    .pset { vd := 1, imm := 65 },
    .pset { vd := 1, sub := 1, imm := 1 },
    .pset { vd := 1, sub := 3 }]) = true := by decide


/-! ## Small states -/

/-- Context 1 on core 0 of a module that is up: one stream runs, in slot 0; barrier 0 and 16 table entries are allotted, and function 0's
queues have 16 entries each. -/
def one (u : Stream) (x : Ctx := {}) (c : Core := {}) : State :=
  { boot := .up
    cores := [(0, { c with resident := some 1, streams := [(0, { u with st := .running })] })]
    clusters := [(0, { pattern := 0xFFFF })]
    queues := [(0, List.replicate 12 4)]
    ctxs := [(1, { x with trapVec := 0x2000, cfg := { x.cfg with id := 1, cores := [{ core := 0, tcount := 16 }], bars := [(0, 1)] } })] }

/-- Two scalar registers, s1 and s2. -/
def two (x y : W64) : State := one { s := [(1, x), (2, y)] }

/-- Core 0 of context 0 fetches with X from 0 on, through a table that maps the low 256 GiB (log entry 3). -/
def mapped (code : List Byte) : State := State.reset.readyAt code

/-- Whether a result is a value. -/
def isOk {α β : Type} : Except α β → Bool
  | .ok _ => true
  | .error _ => false

/-! ## Witnesses: integers and scalar floating point -/

theorem test_meets_DivisionCorners : (two 5 0).sreg 2 = 0 ∧
    (two 0x8000000000000000 (-1)).sreg 1 = BitVec.ofInt 64 (-2 ^ 63) ∧ (two 0x8000000000000000 (-1)).sreg 2 = -1 := by decide

theorem test_meets_ScalarFloatingPointResults : (2 : BitVec 5).toNat ≤ 2 ∧ (5 : BitVec 3).toNat ≤ 5 ∧
    fcvtFmt (13 : BitVec 5).toNat = true ∧ fcvtFmt (0 : BitVec 5).toNat = true ∧ (Fmt.ofCode 13).isSome = true ∧
    (Fmt.ofCode 0).isSome = true ∧ (Fmt.ofCode 11).isSome = true := by decide

/-- Each clause, in FP32 on s1 and s2: a NaN and 1, 1 and 2, the two zeros, 1 twice and +0 twice. -/
theorem test_meets_ScalarFloatingPointComparisons :
    let v := fun (s : State) (r : BitVec 5) => Fmt.fp32.decode ((s.sreg r).toNat % 2 ^ 32)
    let nan := two 0x7FC00000 0x3F800000
    let both := two 0x7FC00000 0xFFC00000
    let lt := two 0x3F800000 0x40000000
    let zero := two 0x80000000 0
    let one1 := two 0x3F800000 0x3F800000
    (0 : BitVec 5).toNat ≤ 2 ∧ v nan 1 = .nan ∧ v nan 2 ≠ .nan ∧ v both 1 = .nan ∧ v both 2 = .nan ∧
      (v lt 1).cmp (v lt 2) = some .lt ∧ (v lt 2).cmp (v lt 1) = some .gt ∧
      ((v zero 1).cmp (v zero 2) = some .eq ∧ (v zero 1).isNeg = true ∧ (v zero 2).isNeg = false) ∧
      ((v one1 1).cmp (v one1 2) = some .eq ∧ (v one1 1).isNeg = (v one1 2).isNeg) ∧
      (v (two 0 0) 1).cmp (v (two 0 0) 2) = some .eq ∧ (v (two 0 0) 1).isNeg = (v (two 0 0) 2).isNeg := by decide

/-! ## Witnesses: address registers, scratchpad, tiles -/

theorem test_meets_AddressRegisterInstructions_ok : (15 : BitVec 5).toNat ≤ 15 ∧
    (let s := two 0xFFFFFFFF 0xFFFFFFFF80000000
     (s.sreg 1).toNat < 2 ^ 32 ∧ -2 ^ 31 ≤ (s.sreg 2).toInt ∧ (s.sreg 2).toInt < 2 ^ 31 ∧ (s.sreg 1).toNat ≠ 0) := by decide

/-- Mode 2 with the length 2 ^ 31. -/
theorem test_meets_AddressRegisterInstructions_reversed : let s := two 0x80000000 1
    (s.sreg 1).toNat < 2 ^ 32 ∧ ∃ n, 1 ≤ n ∧ n ≤ 31 ∧ (s.sreg 1).toNat = 2 ^ n := ⟨by decide, 31, by decide⟩

theorem test_meets_AddressRegisterInstructions_bad :
    ¬(((two 0x100000000 0).sreg 1).toNat < 2 ^ 32) ∧ ¬(((two 4 0x80000000).sreg 2).toInt < 2 ^ 31) ∧ ((two 0 0).sreg 1).toNat = 0 := by
  decide

/-- The reversal of n bits that the statement asks of `rev`. -/
theorem test_meets_PostUpdateByMode_rev : ∃ rev : Nat → Nat → Nat,
    ∀ n x, rev n x < 2 ^ n ∧ ∀ i < n, (rev n x).testBit i = x.testBit (n - 1 - i) := by
  refine ⟨fun n x => (BitVec.ofNat n x).reverse.toNat, fun n x => ⟨BitVec.isLt _, fun i hi => ?_⟩⟩
  have h : (BitVec.ofNat n x).reverse.getLsbD i = (BitVec.ofNat n x).getMsbD i := BitVec.getLsbD_reverse
  rw [BitVec.testBit_toNat, h, BitVec.getMsbD_eq_getLsbD, BitVec.getLsbD_ofNat]
  have hj : n - 1 - i < n := by omega
  simp [hi, hj]

theorem test_meets_PostUpdateByMode :
    let s := one { a := [(1, { mode := 1, length := 8, step := 3 }), (2, { mode := 2, length := 2 }), (3, { mode := 2, length := 0x80000000 }), (15, { mode := 3, length := 5 })] }
    (s.areg 0).mode = 0 ∧ (s.areg 1).mode = 1 ∧ (s.areg 1).length.toNat ≠ 0 ∧ (s.areg 2).mode = 2 ∧ (s.areg 2).length.toNat = 2 ^ 1 ∧
      (s.areg 3).mode = 2 ∧ (s.areg 3).length.toNat = 2 ^ 31 ∧ (s.areg 15).mode = 3 ∧ (s.areg 15).length.toNat ≠ 0 := by decide

/-- An open access of the largest size just below the journal, in a window of its own bytes, with and without post-update. -/
theorem test_meets_ScalarLoadAndStore_open :
    let s := one { a := [(1, { value := 0xBBFF8, base := 0xBBFF8, length := 8, step := 8 })] }
    (3 : BitVec 3).toNat ≤ 3 ∧ (6 : BitVec 3).toNat ≤ 6 ∧
      (s.areg 1).base.toNat ≤ scalarAddr s 1 1 0 ∧ scalarAddr s 1 1 0 + 8 ≤ (s.areg 1).base.toNat + (s.areg 1).length.toNat ∧
      scalarAddr s 0 1 0 % 8 = 0 ∧ scalarAddr s 0 1 0 + 8 ≤ 0xC0000 ∧ scalarAddr s 0 1 0 + 8 ≤ s.jnl := by decide

/-- Outside a window, misaligned, in the journal, and past the end. -/
theorem test_meets_ScalarLoadAndStore_closed :
    let s := one { a := [(1, { value := 8, base := 0, length := 8 }), (2, { value := 2 }), (3, { value := 0xBC000 }), (4, { value := 0xC0000 })] }
    s.jnl % 0x4000 = 0 ∧ s.jnl < 0xC0000 ∧ ¬openTo s 1 (scalarAddr s 0 1 0) 4 ∧ ¬openTo s 2 (scalarAddr s 0 2 0) 4 ∧
      ¬openTo s 3 (scalarAddr s 0 3 0) 4 ∧ ¬openTo s 4 (scalarAddr s 0 4 0) 4 := by
  refine ⟨by decide, by decide, ?_, ?_, ?_, ?_⟩ <;> (unfold openTo; decide)

/-- Descriptor words: rows 2, columns 8, FP32, pitch 32; and one byte past what is open. -/
theorem test_meets_TileTableInstructions_tdef :
    let s := two 0x20000000 0x000080002
    let t := two 0x200BFFE0 0x000080002
    (s.tile s.sel 63).st = .empty ∧ (s.tile s.sel 63).out = 0 ∧ (s.sreg 1).toNat / 2 ^ 20 % 2 ^ 4 = 0 ∧ (s.sreg 1).toNat / 2 ^ 44 = 0 ∧
      (s.sreg 2).toNat / 2 ^ 37 = 0 ∧ (s.sreg 2).toNat % 2 ^ 16 = 2 ∧ (s.sreg 2).toNat / 2 ^ 16 % 2 ^ 16 = 8 ∧
      Fmt.ofCode 0 = some .fp32 ∧ (8 * Fmt.fp32.width + 7) / 8 ≤ (s.sreg 1).toNat / 2 ^ 24 % 2 ^ 20 ∧
      0 + 2 * 32 ≤ s.jnl ∧ t.jnl ≤ 0xC0000 ∧ 0xC0000 < (t.sreg 1).toNat % 2 ^ 20 + 2 * 32 := by decide

theorem test_meets_TileTableInstructions_bad : let s := two 1 0
    (s.tile s.sel 0).st = .empty ∧ (s.sreg 1).toNat % 2 ^ 20 % 16 ≠ 0 ∧ (s.sreg 2).toNat % 2 ^ 16 = 0 := by decide

theorem test_meets_TileTableInstructions_states :
    let s := one {} {} { tiles := [(1, { d1 := 1 }), (2, { st := .ready, out := 1 })] }
    (s.tile s.sel 1).st = .empty ∧ (s.tile s.sel 1).d1.toNat % 2 ^ 16 ≠ 0 ∧ (s.tile s.sel 1).out = 0 ∧ (s.tile s.sel 2).st ≠ .empty ∧
      (s.tile s.sel 2).out ≠ 0 ∧ (s.tile s.sel 0).d1.toNat % 2 ^ 16 = 0 := by decide

/-! ## Witnesses: branches, loops and waits -/

/-- Each condition holds of one of -1, 0 and 1 and not of another; a legal target and the two kinds of illegal one. -/
theorem test_meets_Branches :
    let m := (two (-1) 0).sreg 1
    let p := (two 1 0).sreg 1
    let z := (two 1 0).sreg 2
    (5 : BitVec 4).toNat ≤ 5 ∧ m.toInt < 0 ∧ 0 < p.toInt ∧ z.toInt = 0 ∧ ((two 0x1000 2).sreg 1).toNat % 4 = 0 ∧
      ((two 0x1000 2).sreg 1).toNat < 2 ^ 60 ∧ ((two 0x1000 2).sreg 2).toNat % 4 ≠ 0 ∧
      ¬((two 0x1000000000000000 0).sreg 1).toNat < 2 ^ 60 := by decide

theorem test_meets_Branches_swpt : (∀ e ∈ (one {}).cur.lc, e.2.active = false) ∧
    (∃ e ∈ (one { lc := [(3, { active := true })] }).cur.lc, e.2.active = true) := by decide

/-- The instruction after a body of one word, and a page that is not mapped; loop counts 0, 1 and 2 ^ 32. -/
theorem test_meets_HardwareLoops :
    let s := mapped [0, 0, 0, 0x60, 0, 0, 0, 0x60]
    (1 : BitVec 16) ≠ 0 ∧ isOk (s.afterInstr (s.cur.pc + BitVec.ofNat 64 (4 * 1))) = true ∧
      isOk ((one {}).afterInstr ((one {}).cur.pc + BitVec.ofNat 64 (4 * 1))) = false ∧
      (s.sreg 1).toNat = 0 ∧ ¬(2 ^ 32 ≤ ((two 1 0).sreg 1).toNat) ∧ 2 ^ 32 ≤ ((two 0x100000000 0).sreg 1).toNat := by decide +kernel

theorem test_meets_HardwareLoops_loopp : let s := one { a := [(15, { value := 0x10 })] }
    openTo s 15 (s.areg 15).value.toNat 4 ∧ openTo s 15 ((s.areg 15).value + 4).toNat 4 := by
  refine ⟨?_, ?_⟩ <;> (unfold openTo; decide)

theorem test_meets_HardwareLoops_lbrk : let s := one { lc := [(3, { active := true })] }
    (s.cur.getL 3).active = true ∧ (s.cur.getL 0).active = false := by decide

/-- Any count. -/
theorem test_meets_BackEdge (n : BitVec 32) :
    let c : LoopCtr := { count := n, start := 0x800, last := 0x1000, active := true }
    let s := one { pc := 0x1000, lc := [(3, c)] }
    s.cur.lc.Pairwise (fun a b => a.1 < b.1) ∧ (3, c) ∈ s.cur.lc ∧ c.active = true ∧ c.last = s.cur.pc ∧
      (∀ e ∈ s.cur.lc, e.2.active = true → e.2.last = s.cur.pc → e = (3, c)) :=
  ⟨List.pairwise_singleton _ _, List.mem_singleton.2 rfl, rfl, rfl, fun _ he _ _ => List.mem_singleton.1 he⟩

theorem test_meets_WaitInstructions_tokens : tokDir (4 : BitVec 4).toNat (1 : BitVec 1).toNat = true ∧
    tokDir (3 : BitVec 4).toNat (0 : BitVec 1).toNat = true ∧ (255 : BitVec 12).toNat ≤ 255 := by decide

/-- A ring of 4,095 slots at n = 4,095; an unconfigured one; a home that is not the context's; a barrier that is, one that is not. -/
theorem test_meets_WaitInstructions_rings :
    let s := one {} {} { rings := [(15, { slots := 4095 })], homes := [(1, 3)] }
    s.curCtx.owns (s.homeOf s.sel 15) = true ∧ (4095 : BitVec 12).toNat ≤ ((s.core (s.homeOf s.sel 15)).ring 15).slots ∧
      ((s.core (s.homeOf s.sel 0)).ring 0).slots < (1 : BitVec 12).toNat ∧ s.curCtx.owns (s.homeOf s.sel 1) = false ∧
      s.curCtx.hasBar (clusterOf s.sel) 0 = true ∧ s.curCtx.hasBar (clusterOf s.sel) 15 = false := by decide

theorem test_meets_WaitInstructions_lease :
    (one { lease := .held }).cur.lease = .held ∧ (one { lease := .lapsed }).cur.lease = .lapsed ∧
      (one {}).cur.lease = .none ∧ (∀ m ∈ (one {}).cur.queue 1, m.isLease = false) ∧
      (∃ m ∈ (one { queues := [(1, [{ i := .lease {} }])] }).cur.queue 1, m.isLease = true) := by decide

/-- A stream of core 0 that waits. -/
def waiter (w : Wait) (c : Core := {}) (tok : BitVec 64 := 0) : State :=
  let s := one {} {} c
  s.modStream 0 0 (fun u => { u with st := .waiting w, tok := tok })

/-- Every kind of wait whose end the statement covers. -/
theorem test_meets_WaitsEnd :
    let ring : Core := { rings := [(0, { slots := 2, pp := 1, fp := 1 })] }
    (∀ e ∈ [(waiter (.tok 7 255) {} 0xFF00000000000000, Wait.tok 7 255), (waiter (.fil 0 1) ring, .fil 0 1), (waiter (.fre 0 1) ring, .fre 0 1),
        (waiter (.bar 0 0), .bar 0 0), (waiter (.stall (.queue 2)), .stall (.queue 2)), (waiter (.stall .journal), .stall .journal),
        (waiter (.chan 63) { chans := [(63, [{}])] }, .chan 63), (waiter (.pool [0] 0), .pool [0] 0),
        (waiter (.drain true), .drain true)],
      e.1.runs 0 = true ∧ (e.1.stream 0 0).st = .waiting e.2 ∧ e.1.condHolds 0 0 e.2 = true ∧ (e.1.stream 0 0).faults = []) ∧
    (let s := (waiter .lse).modStream 0 0 (fun u => { u with lease := .held })
     (s.stream 0 0).st = .waiting .lse ∧ s.condHolds 0 0 .lse = true) := by decide

/-! ## Witnesses: rings, barriers, tokens and channels -/

/-- A core whose ring 15 has `slots` slots and these positions. -/
def ringCore (slots : Nat) (rp tp pp fp : BitVec 32) : Core :=
  { rings := [(15, { slots := slots, rp := rp, tp := tp, pp := pp, fp := fp })], homes := [(1, 3)] }

/-- n = 1 on a ring with one slot of each kind; on one with none claimed, and none filled; n = 2 on a ring of one slot. -/
theorem test_meets_RingInstructions :
    let g := fun (s : State) => (s.core (s.homeOf s.sel 15)).ring 15
    let a := one {} {} (ringCore 4 0xFFFFFFFF 0 1 2)
    let b := one {} {} (ringCore 1 0 0 1 1)
    let c := one {} {} (ringCore 1 0 1 1 1)
    a.curCtx.owns (a.homeOf a.sel 15) = true ∧ 1 ≤ (g a).slots ∧ ((g a).fp - (g a).pp).toNat = 1 ∧ ((g a).pp - (g a).tp).toNat = 1 ∧
      ((g a).tp - (g a).rp).toNat = 1 ∧ 1 ≤ (g a).slots - ((g a).fp - (g a).rp).toNat ∧
      ((g b).fp - (g b).pp).toNat = 0 ∧ 1 ≤ ((g b).pp - (g b).tp).toNat ∧ (g b).slots - ((g b).fp - (g b).rp).toNat < 1 ∧
      ((g c).pp - (g c).tp).toNat < 1 ∧ ((g c).fp - (g c).pp).toNat = 0 := by decide

theorem test_meets_RingInstructions_misuse :
    let g := fun (s : State) => (s.core (s.homeOf s.sel 15)).ring 15
    let a := one {} {} (ringCore 4 0xFFFFFFFF 0 1 2)
    let b := one {} {} (ringCore 1 0 0 1 1)
    (2 : BitVec 12) ≠ 0 ∧ b.curCtx.owns (b.homeOf b.sel 15) = true ∧ (g b).slots < (2 : BitVec 12).toNat ∧
      ((g b).fp - (g b).pp).toNat < 1 ∧ ((g b).tp - (g b).rp).toNat < 1 ∧ ((g a).fp - (g a).pp).toNat ≠ 0 ∧
      a.curCtx.owns (a.homeOf a.sel 1) = false := by decide

/-- Every ring of a reset machine is ordered, and a ring instruction answers a next state there. -/
theorem test_meets_RingPositionsStayOrdered :
    (∀ c r, ringOrdered ((State.reset.core c).ring r)) ∧ ∃ t, exec (.rstat 1 0) State.reset = .next t :=
  ⟨fun _ _ => (show ringOrdered ({} : Ring) by unfold ringOrdered; decide), _, rfl⟩

theorem test_meets_Barriers :
    let s := fun (e a : Nat) => (one {}).setBar 0 0 { expected := e, arrival := a }
    let x := fun (e a : Nat) => (s e a).bar ((s e a).sel / 4) 0
    (s 2 1).curCtx.hasBar ((s 2 1).sel / 4) 0 = true ∧ (x 4095 0).arrival = 0 ∧ (x 2 1).arrival ≠ 0 ∧ (x 2 0).arrival + 1 ≠ (x 2 0).expected ∧
      (x 2 1).arrival + 1 = (x 2 1).expected ∧ (x 0 0).expected = 0 ∧ (s 2 1).curCtx.hasBar ((s 2 1).sel / 4) 15 = false := by decide

/-- 255 and 256; an entry, none, and a channel wired to another consumer. -/
theorem test_meets_TokenSignalsAndChannelReads :
    let b := tokenByte (3 : BitVec 4).toNat (0 : BitVec 1).toNat
    let byte := fun (s : State) => s.cur.tok.toNat / 2 ^ (8 * b) % 256
    let s := one { tok := 0xFE00000000000000 } {} { chans := [(56, [{ mask := 3 }])] }
    let t := one {} { cfg := { wiring := 0 } }
    tokDir (3 : BitVec 4).toNat (0 : BitVec 1).toNat = true ∧ byte s + (1 : BitVec 12).toNat ≤ 255 ∧ 255 < byte s + (2 : BitVec 12).toNat ∧
      (56 : BitVec 14).toNat = 56 ∧ s.curCtx.consumer 56 = 6 ∧ s.chan s.sel 56 ≠ [] ∧ s.curCtx.consumer 63 = 6 ∧ s.chan s.sel 63 = [] ∧
      t.curCtx.consumer 63 ≠ 6 := by decide

/-! ## Witnesses: launches and control -/

/-- A nest record of depth 1, one temporal level and 8 vector registers, at address 0x80 of a mapped page; s1 holds its address. -/
def launcher (nests : List Nest) : State :=
  let s := mapped (List.replicate 136 0 ++ leBytes 8 (0x4E + 2 ^ 21 + 2 ^ 16) ++ leBytes 8 (2 ^ 40))
  let s := s.modCtx 0 (fun x => { x with trapVec := 0x2000, cfg := { x.cfg with cores := [{ core := 0, r1 := { vregs := 8 } }] } })
  (s.modCur (fun u => { u with s := [(1, 0x80)] })).modDie 0 (fun x => { x with nests := nests })

/-- What the launch checks give, in short: 1 for a free record on every die, 0 for none, and 100 plus the status of a refusal. -/
def launchSays (s : State) (a : BitVec 5) : Nat :=
  match s.readNest (s.ctxOf s.sel) (dieOf s.sel) (s.acct s.sel) (s.sreg a).toNat (0 + 1) with
  | .ok (x, s') => if ∀ e ∈ nestDies x.home x.mask,
      ((s'.die e).nests.filter (·.depth == x.depth)).length < (if x.depth = 0 then 512 else if x.depth = 1 then 256 else 128) then
        (if (s'.ctx x.ctx).st = .resident then 1 else 97) else 0
  | .error (.status n, s') => if s'.vecFresh s'.sel s'.slot = false ∧ s'.cur.intrap = false ∧ s'.curCtx.trapVec ≠ 0 then 100 + n else 98
  | .error _ => 99

/-- One record taken of 256, all of them taken, and a record of zeros. -/
theorem test_meets_Launches : launchSays (launcher [{ depth := 1 }]) 1 = 1 ∧
    launchSays (launcher (List.replicate 256 { depth := 1 })) 1 = 0 ∧ launchSays (launcher []) 0 = 102 := by decide +kernel

theorem test_meets_PlainControlInstructions :
    let r : JRec := { kind := 0 }
    let s := one { fmtq := List.replicate 15 0, journal := List.replicate 31 r }
    let t := one { fmtq := List.replicate 16 0, journal := List.replicate 32 r }
    (one {}).cur.journal = [] ∧ s.cur.fmtq.length < 16 ∧ 16 ≤ t.cur.fmtq.length ∧ s.cur.journal ≠ [] ∧
      (∀ r ∈ s.cur.journal, r.done = false ∧ r.kind ≠ 2) ∧ s.cur.journal.length < 32 ∧ 32 ≤ t.cur.journal.length ∧
      s.cur.intrap = false := by decide

theorem test_meets_PowerVoteAndMustSaveTable_pwrl :
    let v := fun (s : State) (r : BitVec 5) => (s.sreg r).toNat
    let s := two 0x20F 0x300
    (v s 1 / 2 ^ 8 % 4 ≠ 3 ∧ v s 1 / 2 ^ 4 % 16 = 0 ∧ v s 1 / 2 ^ 10 = 0) ∧ v s 2 / 2 ^ 8 % 4 = 3 := by decide

/-- Context 0 with region 3 of 64 declared bytes. -/
def musty : State :=
  (mapped []).modCtx 0 (fun x => { x with cfg := { x.cfg with musts := [{ id := 3, size := 64 }] }, musts := [(3, { declared := 64 })] })

/-- Bytes 0 to 63 for region 3, which is open; 65 bytes; and region 4, which is not declared. -/
theorem test_meets_PowerVoteAndMustSaveTable_musts :
    let r : Acc := { lo := 0, hi := 0 + 64, r := true }
    (match musty.curCtx.musts.find 3, musty.fillRange (musty.curCtx.cfg.keeper 3) (musty.ctxOf musty.sel) r 0 [] (granules r) with
     | some e, .ok (ps, s') =>
       let t := s'.pinList e.pins false
       let d := musty.curCtx.cfg.keeper 3
       decide (64 ≤ e.declared) && (fullPin (t.die d).tlb ps).isNone && cacheHolds (t.die d).tlb ps && !decide (128 ≤ e.declared)
     | _, _ => false) = true ∧ musty.curCtx.musts.find 4 = none := by decide +kernel

/-! ## Witnesses: system registers -/

theorem test_meets_SystemRegisterReads : sysReadable (0x151 : BitVec 12).toNat = true ∧ sysReadable (0 : BitVec 12).toNat = true ∧
    sysReadable (0x00B : BitVec 12).toNat = false ∧ sysReadable (0xFFF : BitVec 12).toNat = false ∧
    (one {}).curCtx.hasBar ((one {}).sel / 4) 0 = true ∧ (one {}).curCtx.hasBar ((one {}).sel / 4) 15 = false := by decide

theorem test_meets_SystemRegisterWrites :
    let v := fun (s : State) => (s.sreg 1).toNat
    (v (two 0xFFFFFFFFFFFFFFC 0) % 4 = 0 ∧ v (two 0xFFFFFFFFFFFFFFC 0) < 2 ^ 60) ∧ v (two 2 0) % 4 ≠ 0 ∧
      ¬v (two 0x1000000000000000 0) < 2 ^ 60 ∧ 10 ≤ v (two 10 0) % 256 ∧ v (two 120 0) % 256 ≤ 120 ∧ v (two 9 0) % 256 < 10 ∧
      120 < v (two 121 0) % 256 ∧ sysWritable (0x000 : BitVec 12).toNat = false := by decide

/-- Slots that end at 0xC0000 with the journal moved below; one past; base 8; another core's home, which is not owned. -/
theorem test_meets_RingAndFoldSetWrites_ring :
    let x : Ctx := { cfg := { jnl := some 0 } }
    let set := fun (s : State) => (s.sreg 1).toNat
    let home := fun (s : State) => s.sel / 4 * 4 + set s / 2 ^ 48 % 4
    let last := fun (s : State) => set s % 2 ^ 20 + set s / 2 ^ 36 % 2 ^ 12 * ((set s / 2 ^ 24 % 2 ^ 12 + 1) * 16)
    let a := one { s := [(1, 0x00000010000BFFF0)] } x
    let b := one { s := [(1, 0x00000020000BFFF0)] } x
    let c := one { s := [(1, 0x0000001000000008)] } x
    let d := one { s := [(1, 0x0001000000000000)] } x
    let old := (a.core a.sel).ring 15
    a.curCtx.owns (home a) = true ∧ home a = a.sel ∧ last a = 0xC0000 ∧ a.jnl + 0x4000 ≤ set a % 2 ^ 20 ∧ 0xC0000 < last b ∧
      set c % 2 ^ 20 % 16 ≠ 0 ∧ d.curCtx.owns (home d) = false ∧ (old.fp = old.pp ∧ old.pp = old.tp ∧ old.tp = old.rp) := by decide

/-- A busy ring, and a home that is owned and not the core's own. -/
theorem test_meets_RingAndFoldSetWrites_homes :
    let s := one {} {} (ringCore 1 0 0 0 1)
    let t := (one { s := [(1, 0x0001000000000000)] }).modCtx 1 (fun x => { x with cfg := { x.cfg with cores := [{ core := 0 }, { core := 1 }] } })
    let home := t.sel / 4 * 4 + (t.sreg 1).toNat / 2 ^ 48 % 4
    ((s.core s.sel).ring 15).fp ≠ ((s.core s.sel).ring 15).pp ∧ t.curCtx.owns home = true ∧ home ≠ t.sel := by decide

/-- All 16 entries of the core's range, 17 entries; the tolerances 1, 0, a negative one and a NaN. -/
theorem test_meets_RingAndFoldSetWrites_folds :
    let k := (one {}).curCtx.coreCfg 0
    let tau := fun x => Fmt.fp32.decode x
    k.tbase ≤ 0 ∧ 0 + 15 + 1 ≤ k.tbase + k.tcount ∧ k.tbase + k.tcount < 0 + 16 + 1 ∧
      ((tau 0x3F800000).isFinite = true ∧ (tau 0x3F800000).isZero = false ∧ (tau 0x3F800000).isNeg = false) ∧
      (tau 0).isZero = true ∧ (tau 0xBF800000).isNeg = true ∧ (tau 0x7FC00000).isFinite = false := by decide

/-! ## Witnesses: traps, fences and host requests -/

/-- The event queue of function 0 with 16 entries. -/
def crowded (s : State) : State := { s with events := [(0, List.replicate 16 (.saved 0))] }

/-- The premises of every trap clause: outside a handler, with a handler; and an instruction over a limit. -/
theorem test_meets_Traps : (one {}).vecFresh (one {}).sel (one {}).slot = false ∧ (one {}).cur.intrap = false ∧ (one {}).curCtx.trapVec ≠ 0 ∧ Instr.wellFormed (.chrd 0 55) = false := by decide

theorem test_meets_LeavingAHandler :
    let s := one { intrap := true, fr := { cause := 0x15, pc := 0x100, resume := 0x104 }, faults := [{ eng := 5 }] }
    let t := one { intrap := true, fr := { cause := 0x15, pc := 0x100, resume := 0x108 } }
    s.cur.intrap = true ∧ (∀ f ∈ s.cur.faults, f.eng < 6) ∧
      (s.cur.fr.cause.toNat % 256 = 0x15 ∧ s.cur.fr.resume = s.cur.fr.pc + 4) ∧ (∀ e ∈ s.cur.lc, e.2.active = true → e.2.last ≠ s.cur.fr.pc) ∧
      t.cur.fr.resume ≠ t.cur.fr.pc + 4 ∧ (one {}).cur.intrap = false := by decide

/-- The state without a handler. -/
def unhandled (u : Stream) : State := (one u).modCtx 1 (fun x => { x with trapVec := 0 })

theorem test_meets_TrapVector :
    let f : PFault := { eng := 1, cause := 0x0E }
    let s := one { faults := [f] }
    let t := unhandled { faults := [f] }
    (((two 0 0).sreg 1 = 0) ∧ ((two 0xFFFFFFFFFFFFFFC 0).sreg 1).toNat % 4 = 0 ∧ ((two 0xFFFFFFFFFFFFFFC 0).sreg 1).toNat / 2 ^ 60 = 0) ∧
      ((two 1 0).sreg 1).toNat % 4 ≠ 0 ∧ (s.vecFresh 0 0 = false ∧ t.vecFresh t.sel t.slot = false) ∧ s.runs 0 = true ∧ s.ctxOf 0 = s.ctxOf s.sel ∧ (s.stream 0 0).st ≠ .free ∧
      (s.stream 0 0).intrap = false ∧ (s.stream 0 0).faults = [f] ∧ s.curCtx.trapVec ≠ 0 ∧ t.runs 0 = true ∧
      (t.stream 0 0).faults = [f] ∧ t.curCtx.trapVec = 0 := by decide

/-- With room for the event and without is as for HostRequests. -/
theorem test_meets_TrapsThatFaultTheContext : (one { intrap := true }).vecFresh 0 0 = false ∧
    (unhandled {}).vecFresh (unhandled {}).sel (unhandled {}).slot = false ∧ (one { intrap := true }).cur.intrap = true ∧ (unhandled {}).cur.intrap = false ∧
    (unhandled {}).curCtx.trapVec = 0 ∧ (crowded (unhandled {})).curCtx.trapVec = 0 ∧ (unhandled {}).curCtx.cfg.part = 0 := by decide

/-- Room for the last time, and a queue that is full. -/
theorem test_meets_FencesMarkFiveQueues :
    let s := one { queues := [(0, List.replicate 15 {})], journal := List.replicate 27 {} }
    let t := one { queues := [(5, List.replicate 16 {})] }
    let r : Release := { core := 48, ctx := 1, scope := 4, no := 3 }
    let g := { one { gained := [r] } with deeds := [{ ctx := 1, known := [.rel 3] }] }
    (r ∈ g.cur.gained ∧ r.meets (4 : BitVec 3).toNat g.sel g.slot = true ∧ (∃ e ∈ g.deeds, e.ctx = g.ctxOf g.sel ∧ Knower.rel r.no ∈ e.known)) ∧
    (5 : BitVec 3).toNat ≤ 5 ∧ (∀ e ∈ [0, 1, 3, 4, 5], (s.cur.queue e).length < 16) ∧ s.cur.journal.length + 5 ≤ 32 ∧
      ¬((t.cur.queue 5).length < 16) := by decide

/-- R218, R220, R221: a release of package scope by a slot of another die, whose write a command has read, is acquired at package scope and
not at die scope; one of die scope is never gained there, and a completion write wants an acquire of system scope. -/
theorem test_releases_by_scope :
    let s := { one {} with deeds := [{ ctx := 1, what := .bytes 0 0 [1], known := [.rel 3] }] }
    let r := fun (scope need : Nat) => ({ core := 48, ctx := 1, scope := scope, need := need, no := 3 } : Release)
    let knows := fun (t : State) => t.deeds.all (·.after 0 0)
    let got := fun (l : Release) (scope : Nat) => knows ((s.gain 0 0 7 [l]).acquireMem 0 0 8 scope true)
    got (r 4 0) 4 = true ∧ got (r 4 0) 3 = false ∧ got (r 3 0) 5 = false ∧ got (r 5 5) 4 = false ∧ got (r 5 5) 5 = true ∧
      knows ((s.acquireMem 0 0 8 4 true).gain 0 0 7 [r 4 0]) = true ∧ knows ((s.acquireMem 0 0 8 4 true).gain 0 0 9 [r 4 0]) = false := by decide

/-- R143, R220, R222: a load that finds what was written behind a release finds the release; one that finds the byte before finds none. -/
theorem test_scratchpad_flag_and_its_release :
    let r : Release := { core := 0, slot := 1, ctx := 1, scope := 1, no := 3 }
    let f : Deed := { no := 2, ctx := 1, what := .bytes 0 0x10 [0], rels := [r] }
    let load := fun (p : Nat) => findByte (fun d => d.known.contains (.str 0 0 false)) [f] 1 0 0x10 p 7
    load 0 = (7, some 2, [r]) ∧ load 1 = (0, none, []) := by decide

/-- A write behind a release leaves it where the write stands; a later one without a release takes it away. -/
theorem test_marks_follow_the_last_write :
    let s := (one {}).storeSent { pa := 0x40, bytes := [1, 2], rels := [{ no := 3 }] }
    (marksIn s.marks 0x41 8).map (·.no) = [3] ∧ marksIn s.marks 0x42 8 = [] ∧
      marksIn (s.storeMem 0x41 [5] false).marks 0x41 8 = [] := by decide

/-- An empty event queue has room; one that holds as many entries as the ring, and one that the host has not enabled, have none. -/
theorem test_meets_HostRequests : (one {}).eventsFull 0 = false ∧ (crowded (one {})).eventsFull 0 = true ∧
    ({ one {} with queues := [] } : State).eventsFull 0 = true := by decide

/-! ## Witnesses: dispatch -/

/-- A tile of `rows` rows and `cols` columns. -/
def tileOf (base pitch rows cols fmt : Nat) (st : TState) : Tile :=
  { d0 := BitVec.ofNat 64 (base + pitch * 2 ^ 24), d1 := BitVec.ofNat 64 (rows + cols * 2 ^ 16 + fmt * 2 ^ 32), st := st }

/-- A stream with operands for every engine: addresses, counts, shape words, tiles, a ring, a format word for BF16 operands, a group
handle, a channel of every engine, and one cached page. -/
def desk : State :=
  let u : Stream :=
    { s := [(1, 0x10000), (2, 256), (3, 0x100000040), (4, 0x1000100000040), (5, 1)], fmtq := [0x21], alloc := 64 }
  let c : Core :=
    { tiles := [(1, tileOf 0x1000 64 32 32 1 .ready), (2, tileOf 0x4000 1024 3 256 0 .filling), (3, tileOf 0x8000 1024 3 256 0 .ready),
        (4, tileOf 0xC000 32 1 8 8 .ready), (5, tileOf 0xD000 32 1 8 8 .filling), (6, tileOf 0x10000 128 32 32 0 .filling)]
      rings := [(0, { slots := 4, size := 128, base := 0x20000 })] }
  let s := one u { cfg := { wiring := 0x16270A1113132A02 } } c
  { s with
    dies := [(0, { tlb := [(0, { ctx := 1, pin := { size := 38 }, r := true, w := true, x := true })] })]
    groups := [{ ctx := 1 }] }

/-- All that the dispatch statements ask of an instruction, on `desk`. -/
def meets (mk : EF → Instr) (eng : Nat) (wired : Bool) (prep : EF → Cmd → Except Trap Prep) (f : EF) : Bool :=
  (mk f).wellFormed && wired && decide ((desk.cur.queue eng).length < 16) && decide (desk.cur.journal.length < 32) &&
    (match prep f (desk.cmdOf (mk f) f) with
     | .error _ => false
     | .ok p => (!p.pop || !desk.cur.fmtq.isEmpty) &&
       (match xlatAll (desk.die (desk.sel / 48)).tlb (desk.ctxOf desk.sel) [] (sortAccs p.accs) with
        | .ok pins => cacheHolds (desk.die (desk.sel / 48)).tlb pins
        | _ => false))

theorem test_meets_LoadInstructionsAreDispatched :
    meets .cpin 0 true (fun f => desk.prepIn (.cpin f) f) { x := 6, sa := 1, sb := 2 } = true ∧
    meets .cpinCh 0 (desk.curCtx.mayPop 0 48) desk.prepCpinCh { x := 6, y := 48, sub := 4 } = true ∧
    meets .cpcv 0 true (fun f => desk.prepIn (.cpcv f) f) { x := 6, sa := 1, sb := 2, imm := 1 } = true ∧
    meets .ldch 0 (desk.curCtx.producer 7 == 0) desk.prepLdch { x := 7 } = true ∧
    meets .ldbc 0 (desk.curCtx.producer 7 == 0) desk.prepLdbc { x := 7, sub := 1, sa := 1 } = true ∧
    meets .pfch 0 true desk.prepPfch { sa := 1, sb := 2 } = true := by decide +kernel

theorem test_meets_MatrixInstructionsAreDispatched :
    meets .lease 1 true desk.prepLease {} = true ∧ meets .unls 1 true desk.prepUnls {} = true ∧
    meets .wld 1 true desk.prepWld { x := 1, y := 1 } = true ∧
    meets .mma 1 true (fun f => desk.prepStream (.mma f) f 1) { x := 1 } = true ∧
    meets .mmas 1 true (fun f => desk.prepStream (.mmas f) f 2) { x := 1 } = true ∧
    meets .accz 1 true desk.prepAccz {} = true ∧ meets .drain 1 true desk.prepDrain { x := 2, sb := 5 } = true ∧
    meets .probe 1 true (fun f => desk.prepStream (.probe f) f 1) { x := 1 } = true ∧ meets .clsf 1 true desk.prepClsf {} = true ∧
    meets .corr 1 true desk.prepCorr { x := 1, y := 3 } = true ∧
    meets .tfit 1 (desk.curCtx.producer 40 == 1) desk.prepTfit { x := 40 } = true ∧
    meets .tload 1 true desk.prepTload { x := 4 } = true ∧ meets .tsave 1 true desk.prepTsave { x := 5 } = true ∧
    meets .tset 1 true desk.prepTset {} = true ∧
    meets .escn 1 (desk.curCtx.producer 40 == 1) desk.prepEscn { x := 40, sb := 5 } = true ∧
    meets .rlpop 1 (desk.curCtx.producer 40 == 1) desk.prepRlpop { x := 40 } = true ∧
    meets .refold 1 (desk.curCtx.mayPop 1 32) desk.prepRefold { x := 1, y := 3, imm := 32 } = true := by decide +kernel

theorem test_meets_StoreIndexAndLinkInstructionsAreDispatched :
    meets .cpout 3 true desk.prepCpout { x := 1, sa := 1, sb := 2 } = true ∧
    meets .stch 3 (desk.curCtx.mayPop 3 16) desk.prepStch { x := 16, y := 6 } = true ∧
    meets .stchApp 3 (desk.curCtx.mayPop 3 16) desk.prepStchApp { x := 16, y := 6, sub := 3 } = true ∧
    meets .stg 3 true desk.prepStg { sa := 1, sb := 2, sub := 3 } = true ∧ meets .stat 3 true desk.prepStat { sa := 1, sb := 2 } = true ∧
    meets .gath 4 true desk.prepGath { sa := 1, sc := 3 } = true ∧
    meets .gath 4 (desk.curCtx.producer 48 == 4) desk.prepGath { x := 48, sa := 1, sc := 3, sub := 1 } = true ∧
    meets .scat 4 true desk.prepScat { sa := 1, sc := 3 } = true ∧ meets .ixlist 4 true desk.prepIxlist { sa := 1, sc := 3 } = true ∧
    meets .ixpage 4 true desk.prepIxpage { sa := 1, sc := 3 } = true ∧
    meets .ixsum 4 true desk.prepIxsum { sa := 1, sb := 2, sc := 4 } = true ∧
    meets .cpost 5 true desk.prepCpost { sa := 1, sc := 5 } = true ∧ meets .cjoin 5 true desk.prepCjoin { sa := 1, sb := 1, sc := 5 } = true ∧
    meets .cstat 5 (desk.curCtx.producer 8 == 5) desk.prepCstat { y := 8 } = true := by decide +kernel

theorem test_meets_VectorInstructionsAreDispatched : (desk.cur.queue 2).length < 16 ∧ desk.cur.journal.length < 32 ∧
    ∀ i ∈ [Instr.vadd { vd := 63, ty := 8 }, .vsub {}, .vmul {}, .vfma {}, .vfms {}, .vmin {}, .vmax {}, .vcmp { vd := 1 }, .vsel {}, .vcvt {},
      .vand {}, .vor {}, .vxor {}, .vnot {}, .vshl { ty := 8 }, .vshr { ty := 8 }, .vsra { ty := 8 }, .vmov {}, .vbc {}, .vidx { ty := 8 },
      .vred {}, .vscan {}, .vperm {}, .vbit {}, .vbpat {}, .vsf {}, .vtopk { vd := 1, imm := 1 }, .vrnd {}, .vqnt { ty := 3, imm := 256 },
      .vdq { ty := 3 }, .vrcv {}, .vsnd { imm := 16 }, .vrot {}, .pand { vd := 1 }, .por { vd := 1 }, .pxor { vd := 1 },
      .pnot { vd := 15 }, .pcnt {}, .pset { vd := 8 }], i.wellFormed = true ∧ desk.vecWired i = true := by decide +kernel

/-- An entry that waits on the counter of its up neighbour, which holds 1. -/
theorem test_meets_QueueEntries : let m : Cmd := { i := .mma { tok := { wu := true } } }
    m.dataOnly = false ∧ (one { tok := 0x10000000000 }).cur.tokensFor 1 m = true := by decide

/-- A full queue, a full journal, a page that is not cached, and a tile that is not being filled. -/
theorem test_meets_DispatchStalls :
    let i := Instr.cpin { x := 6, sa := 1, sb := 2 }
    let p := fun (s : State) => s.prepIn i { x := 6, sa := 1, sb := 2 } (s.cmdOf i { x := 6, sa := 1, sb := 2 })
    let s := desk.modDie 0 (fun x => { x with tlb := [] })
    let t := one { queues := [(0, List.replicate 16 {})], journal := List.replicate 32 {} }
    i.wellFormed = true ∧ 16 ≤ (t.cur.queue 0).length ∧ 32 ≤ t.cur.journal.length ∧ (t.cur.queue 1).length < 16 ∧
      (match p s with
       | .ok q => (match xlatAll (s.die (s.sel / 48)).tlb (s.ctxOf s.sel) [] (sortAccs q.accs) with | .miss _ => !q.pop | _ => false)
       | .error _ => false) = true ∧
      isOk (p t) = false := by decide +kernel

/-! ## Witnesses: streams and engines -/

/-- Slot 0 of core 0 with a stream in any state. -/
def slot0 (u : Stream) : State := (one {}).setStream 0 0 u

theorem test_meets_StreamEvents_waits :
    let m := (mapped []).modStream 0 0 (fun u => { u with st := .waiting (.walk 0x10) })
    let d := slot0 { st := .waiting (.drain true) }
    m.runs 0 = true ∧ (m.stream 0 0).st = .waiting (.walk 0x10) ∧ isOk (m.fill (0 / 48) (m.ctxOf 0) 0x10) = true ∧
      (d.stream 0 0).st = .waiting (.drain true) ∧ (d.stream 0 0).drained = true ∧ (d.stream 0 0).faults = [] := by decide +kernel

/-- A last iteration, and one of two. -/
theorem test_meets_StreamEvents_halts :
    let r : UnitRec := { levels := [(2, 0, 0)] }
    let a := slot0 { st := .halting }
    let b := slot0 { st := .halting, unit := some r }
    a.runs 0 = true ∧ (a.stream 0 0).drained = true ∧ (a.stream 0 0).faults = [] ∧ (a.stream 0 0).unit = none ∧
      (b.stream 0 0).unit = some r ∧ r.iter + 1 < combos (temporalLevels r.levels) := by decide

/-- The last iteration of a nest's last unit, with its completion word at the end of a page of die 0, and of a unit before it. -/
theorem test_meets_StreamEvents_lastIteration :
    let x : Nest := { id := 5, ctx := 1, levels := [(1, 0, 0)], next := 1, running := 1, done := 0xFFF8, donePin := { size := 16, pbase := 0x20000 } }
    let r : UnitRec := { nest := 5, levels := [(2, 1, 0)], iter := 1 }
    let on := fun (x : Nest) => (slot0 { st := .halting, unit := some r }).modDie 0 (fun y => { y with nests := [x] })
    let s := on x
    let t := on { x with running := 2 }
    let pa := x.donePin.pbase + x.done % 2 ^ x.donePin.size
    s.runs 0 = true ∧ (s.stream 0 0).st = .halting ∧ (s.stream 0 0).drained = true ∧ (s.stream 0 0).faults = [] ∧
      (s.stream 0 0).unit = some r ∧ combos (temporalLevels r.levels) ≤ r.iter + 1 ∧ (s.nestRecs 5).head? = some (0, x) ∧
      (∀ q ∈ s.nestRecs 5, q.2.units ≤ q.2.next ∧ q.2.running - (if q.1 = 0 / 48 then 1 else 0) = 0) ∧
      ¬(∀ q ∈ t.nestRecs 5, q.2.units ≤ q.2.next ∧ q.2.running - (if q.1 = 0 / 48 then 1 else 0) = 0) ∧ (s.ctx x.ctx).faulted = false ∧
      s.overfull = false ∧ t.overfull = false ∧ s.transit = [] ∧ s.root = [] ∧ s.races = [] ∧ (∀ e < 8, (s.die e).held = []) ∧
      x.donePin.cmp = false ∧ x.donePin.vbase = x.done / 2 ^ x.donePin.size * 2 ^ x.donePin.size ∧ pa / 2 ^ 39 = x.home ∧ pa + 8 ≤ 2 ^ 42 := by
  decide +kernel

theorem test_meets_StreamEvents_faults :
    let f : PFault := { eng := 3, cause := 0x12 }
    let a := slot0 { st := .waiting .lse, faults := [f] }
    let b := ((slot0 { st := .waiting (.tok 1 1) }).modCtx 1 (fun x => { x with cfg := { x.cfg with wdog := 1 } }))
    a.vecFresh 0 0 = false ∧ b.vecFresh 0 0 = false ∧ (a.stream 0 0).faults = [f] ∧ (a.stream 0 0).intrap = false ∧ (a.stream 0 0).st ≠ .free ∧ (a.ctx (a.ctxOf 0)).trapVec ≠ 0 ∧
      (b.ctx (b.ctxOf 0)).cfg.wdog ≠ 0 ∧ (b.stream 0 0).st = .waiting (.tok 1 1) ∧ b.condHolds 0 0 (.tok 1 1) = false ∧ (∀ e < 6, (b.stream 0 0).queue e = []) ∧
      microAfter ((b.stream 0 0).progress + 1000) ≤ ({ b with now := 2000 } : State).now := by decide

/-- An entry that may issue, a marker alone, and a command that is done. -/
theorem test_meets_EngineEvents :
    let m : Cmd := { i := .accz {} }
    let a := slot0 { queues := [(1, [m])], lease := .held }
    let k : Cmd := { mark := some (0, 0) }
    let b := slot0 { queues := [(5, [k])] }
    let f : Flight := { eng := 3, done := true, cmd := { j := 7, i := .stg {} } }
    let c := slot0 { flights := [f] }
    let r : Cmd := { i := .wld { x := 1, imm := 2 }, fmt := some 0x50080060, tiles := [1, 2] }
    let tiles := [(1, tileOf 0x1000 32 1 16 3 .ready), (2, tileOf 0x2000 16 1 4 8 .ready)]
    let h := (slot0 { queues := [(1, [r])], lease := .held }).modCore 0 (fun x => { x with tiles := tiles })
    let e : EF := { y := 16 }
    let g : Flight := { eng := 4, done := true, cmd := { j := 9, i := .scat e, tiles := [1, 2] } }
    let y := (slot0 { flights := [g] }).setBar 0 0 { expected := 2, arrival := 1 }
    (a.runs 0 = true ∧ a.mayIssue 0 = true ∧ (a.askAgain 0).pickHead 0 1 = some (0, m) ∧ (a.askAgain 0).leaseless 0 0 1 m = false) ∧
      (b.alive 0 = true ∧ (b.stream 0 0).queue 5 = k :: [] ∧ (b.stream 0 0).bitHalted 5 = false ∧
        (∀ e ∈ [0, 1, 3, 4, 5], (b.stream 0 0).queue e = [] ∨ e = 5) ∧ (b.stream 0 0).flights = []) ∧
      (c.boot = .up ∧ c.alive 0 = true ∧ (c.stream 0 0).flight? 7 = some f ∧ f.eng < 5 ∧ f.done = true ∧ f.failed = false ∧ c.transit = [] ∧
        c.root = [] ∧ c.overfull = false ∧ f.lands = none ∧ (c.core 0).pushing = [] ∧ f.cmd.dataOnly = false ∧ (c.stream 0 0).tokAt 7 + 0 ≤ 255 ∧ f.cmd.tiles.Nodup ∧
        ({ f with cmd := { f.cmd with dataOnly := true } } : Flight).cmd.dataOnly = true) ∧
      (h.runs 0 = true ∧ h.mayIssue 0 = true ∧ (h.askAgain 0).pickHead 0 1 = some (0, r) ∧ (h.askAgain 0).leaseless 0 0 1 r = false ∧
        (h.askAgain 0).readsList 0 0 r = true ∧ (a.askAgain 0).readsList 0 0 m = false) ∧
      (y.alive 0 = true ∧ (y.stream 0 0).flight? 9 = some g ∧ g.eng = 4 ∧ g.cmd.tiles.Nodup ∧ e.y.getLsbD 4 = true ∧
        (y.bar (0 / 4) (e.y.toNat % 16)).expected ≠ 0) := by
  decide

theorem test_meets_UnitsOfACommand_ldbc :
    let e : EF := { x := 7 }
    let f : Flight := { eng := 0, cmd := { j := 3, i := .ldbc e }, units := 1 }
    let s := slot0 { flights := [f] }
    s.alive 0 = true ∧ (s.stream 0 0).flight? 3 = some f ∧ f.failed = false ∧ f.done = false ∧ s.chanTurn 0 f = true ∧
      e.sub.getLsbD 0 = false ∧ (s.chan 0 7).length + ((s.core 0).toPush 7).length < 8 ∧ s.overfull = false ∧ s.races = [] ∧
      s.deeds = [] ∧ s.transit = [] := by decide

theorem test_meets_UnitsOfACommand_stg :
    let e : EF := { sub := 3 }
    let p : Pin := { size := 16, vbase := 0x10000, pbase := 0x20000 }
    let f : Flight := { eng := 3, cmd := { j := 3, i := .stg e, a := 0x1FFF8, pins := [p] }, units := 1 }
    let s := slot0 { flights := [f] }
    let pa := p.pbase + 0x1FFF8 % 2 ^ p.size
    s.alive 0 = true ∧ (s.stream 0 0).flight? 3 = some f ∧ s.chanTurn 0 f = true ∧ e.sub.toNat < 4 ∧ s.overfull = false ∧ (s.races = [] ∧ s.deeds = [] ∧ s.transit = []) ∧
      p.vbase = 0x1FFF8 / 2 ^ p.size * 2 ^ p.size ∧ 0x1FFF8 % 8 = 0 ∧ p.pbase + 2 ^ p.size ≤ 2 ^ 42 ∧ pa / 2 ^ 39 = 0 / 48 ∧
      (∀ d, (s.die d).held = []) := by
  refine ⟨by decide, by decide, by decide, by decide, by decide, by decide, by decide, by decide, by decide, by decide, fun _ => rfl⟩

/-- An addition of int32 lanes, and a move, whose `ty` is 0. -/
theorem test_meets_VectorResultsByLane :
    ∀ i ∈ [Instr.vadd { vd := 1, va := 2, vb := 3, ty := 8 }, .vmov { vd := 1, va := 2 }],
      let m : Cmd := { i := i }
      let s := slot0 { queues := [(2, [m])] }
      i.wellFormed = true ∧ s.runs 0 = true ∧ s.mayIssue 0 = true ∧ s.pickHead 0 2 = some (0, m) ∧ m.dataOnly = false ∧
        (s.stream 0 0).exp = false ∧ (s.stream 0 0).pend = [] := by decide

theorem test_meets_AccumulatorClears :
    let m : Cmd := { i := .accz {} }
    let s := slot0 { queues := [(1, [m])], lease := .held }
    s.runs 0 = true ∧ s.mayIssue 0 = true ∧ (s.askAgain 0).pickHead 0 1 = some (0, m) ∧
      (s.askAgain 0).leaseless 0 0 1 m = false := by decide

/-! ## Witnesses: placement, leases, memory -/

theorem test_meets_PlacementEvents_unit :
    let x : Nest := { ctx := 1, demand := { vregs := 8 }, levels := [(1, 0, 0)] }
    let s := ((one {}).setStream 0 0 {}).modDie 0 (fun y => { y with nests := [x] })
    let s := s.modCtx 1 (fun y => { y with cfg := { y.cfg with cores := [{ core := 0, total := { vregs := 8 } }] } })
    s.boot = .up ∧ (s.die 0).nests = [x] ∧ x.next < x.units ∧ (s.ctx x.ctx).st = .resident ∧ (s.ctx x.ctx).faulted = false ∧
      s.place? 0 x = some (0, 0) ∧ ((one {}).modDie 0 (fun y => { y with nests := [x] })).place? 0 x = none := by decide +kernel

theorem test_meets_PlacementEvents_ageing :
    let x : Nest := { id := 4, levels := [(1, 0, 0)], prio := 6 }
    let s := { (one {}).modDie 0 (fun y => { y with nests := [x] }) with now := 1000000 }
    s.boot = .up ∧ (s.die 0).nests = [x] ∧ x.id = 4 ∧ x.next < x.units ∧ x.since + 1000000 ≤ s.now ∧ x.prio < 7 ∧
      ¬(x.since + 1000000 ≤ ({ s with now := 999999 } : State).now) := by decide

/-- A record of depth 0 at address 0, in context 0 of function 0. -/
theorem test_meets_PlacementEvents_launch :
    let s := mapped (List.replicate 8 0 ++ leBytes 8 (0x4E + 2 ^ 21) ++ leBytes 8 (2 ^ 40))
    s.boot = .up ∧ s.ownsCtx 0 0 = true ∧ (s.ctx 0).st = .resident ∧
      (match s.readNest 0 0 (acctOf 0) 0 0 with
       | .ok (x, s') => (nestDies x.home x.mask).all (fun e => s'.poolFree e x.depth) && (s'.ctx x.ctx).st == .resident
       | .error _ => false) = true := by decide +kernel

theorem test_meets_LeaseEvents :
    let a := slot0 { st := .ready, lease := .requested }
    let b := (slot0 { lease := .held }).modCluster 0 (fun x => { x with holder := some (0, 0) })
    let c := { b with now := 8192 }
    (a.boot = .up ∧ c.boot = .up ∧ (a.cluster 0).holder = none ∧ a.slabIdle 0 = true ∧ a.nextHolder 0 = some (0, 0) ∧ 0 / 4 = 0) ∧
      (c.cluster 0).holder = some (0, 0) ∧ (c.cluster 0).grantAt + 8192 ≤ (c.cluster 0).eff c.now ∧
      (b.cluster 0).eff b.now < (b.cluster 0).grantAt + 8192 := by decide

theorem test_meets_MemoryPortEvents :
    let w : Transit := { src := 1, home := 0, pa := 0x40, bytes := [1] }
    let s := { one {} with transit := [w], root := [{ w with pa := 2 ^ 45 }], spill := [(31, 1)] }
    (∀ d, (s.die d).held = []) ∧ s.boot = .up ∧ physOk (2 ^ 42 - 1) [(1 : Byte)].length = true ∧ s.transit = w :: [] ∧ (w.reds = [] ∧ s.races = []) ∧
      isAperture w.pa = false ∧ s.overfull = false ∧ w.cmp = false ∧ s.root ≠ [] ∧ 2 ^ 36 - 1 < 2 ^ 36 ∧ s.spill.getD 31 0 ≠ 0 :=
  ⟨fun _ => rfl, rfl, by decide, rfl, ⟨rfl, rfl⟩, by decide, by decide, rfl, by decide, by decide, by decide⟩

/-- A write to a compressed page of a stack whose spill area is full. -/
theorem test_meets_MemoryPortEvents_spill :
    let w : Transit := { src := 1, home := 0, pa := 0x40, cmp := true, bytes := [1] }
    let s := { one {} with transit := [w], spill := [(0, spillMax)] }
    s.transit = w :: [] ∧ w.reds = [] ∧ isAperture w.pa = false ∧ s.overfull = false ∧ w.cmp = true ∧ w.bytes ≠ [] ∧ s.spillFull w.pa = true := by
  decide

/-- Two reductions of one stream that differ in the element index, in both orders. -/
theorem test_meets_ExactReductionsIgnoreArrivalOrder :
    let a : Red := { idx := 0 }
    let b : Red := { idx := 1 }
    [a, b].Perm [b, a] ∧ (([a, b] : List Red).map (fun r => (r.ident, r.j, r.idx))).Nodup :=
  ⟨.swap _ _ _, by decide⟩

theorem test_meets_AtomicsReadAndReplace : ∀ op ∈ [0, 6, 7], let r : Red := { pa := 0x100, op := op, x := 0xFFFFFFFF }
    (∀ d, ((one {}).die d).held = []) ∧ (one {}).transit = [] ∧ (one {}).root = [] ∧ (one {}).poison = [] ∧ (one {}).laid = [] ∧ (one {}).races = [] ∧
      isAperture 0x100 = false ∧ r.pa = 0x100 ∧ r.ty = 0 ∧
      r.x < 2 ^ 32 ∧ r.op = op := fun _ _ => ⟨fun _ => rfl, rfl, rfl, rfl, rfl, rfl, by decide, rfl, rfl, (show 0xFFFFFFFF < 2 ^ 32 by decide), rfl⟩

/-! ## Witnesses: contexts and the host -/

/-- A module that is up, whose function 5 owns core 0; memory maps the low 256 GiB. -/
def vacant : State := { boot := .up, mem := (mapped []).mem, parts := [(5, { cores := [0] })] }

/-- A configuration of context 7 on core 0, with its save area at address 0. -/
def cfg7 : CtxCfg := { id := 7, cores := [{ core := 0 }], root := readyRoot, saveLen := 0x210000 }

/-- Created; refused, since core 1 is not owned, with room for the event and, as for HostRequests, without; and a context to destroy. -/
theorem test_meets_ContextCreationAndDestruction :
    let made := fun (c : CtxCfg) => (vacant.create { c with part := 5 } (declaredMusts { c with part := 5 }) false).isSome
    vacant.boot = .up ∧ vacant.ctxBusy 7 = false ∧ made cfg7 = true ∧ made { cfg7 with cores := [{ core := 1 }] } = false ∧
      (one {}).ownsCtx 0 1 = true ∧ (one {}).ctxBusy 1 = false := by decide +kernel

/-- Context 1 in a given standing. -/
def standing (st : CtxSt) : State := (one {}).modCtx 1 (fun x => { x with st := st })

theorem test_meets_PreemptionAndRestoration :
    let s := { standing .saved with cores := [] }
    let fresh := (standing .saving).modStream 0 0 (fun t => { t with flights := [{ eng := 2, lands := some (0, 4) }] })
    let held := { slot0 { st := .running, heldAt := 1 } with now := 0 }
    let y : Core := { streams := [(0, { st := .running })], spad := [(0, 1)] }
    let t := s.modCtx 1 (fun x => { x with image := { cores := [(0, y)] } })
    ((one {}).boot = .up ∧ (one {}).ownsCtx 0 1 = true ∧ ((one {}).ctx 1).st = .resident ∧ (one {}).ctxBusy 1 = false) ∧
      ((one {}).trapping 1 = false ∧ held.trapping 1 = true ∧ held.ownsCtx 0 1 = true ∧ (held.ctx 1).st = .resident ∧ held.ctxBusy 1 = false) ∧
      t.dies = [] ∧ ((one {}).ctxs.find 1).map (·.st) = some .resident ∧ (standing .saving).ctxBusy 1 = true ∧
      (∀ c ∈ ((standing .saving).ctx 1).coreList, ∀ k < 8, (standing .saving).vecFresh c k = false ∧
        ((standing .saving).stream c k).flights = [] ∧ ((standing .saving).stream c k).pend = []) ∧ (standing .saving).boot = .up ∧
      (fresh.ctxBusy 1 = true ∧ (∃ c ∈ (fresh.ctx 1).coreList, ∃ k < 8, fresh.vecFresh c k = true)) ∧
      ((standing .saving).overfull = false ∧ (standing .saving).transit = [] ∧ (standing .saving).dies = [] ∧
        ∀ p ∈ ((standing .saving).ctx 1).savePins, p.2.cmp = false) ∧
      s.ownsCtx 0 1 = true ∧ (s.ctx 1).st = .saved ∧ s.ctxBusy 1 = false ∧ s.coresVacant (s.ctx 1) = true ∧
      t.ownsCtx 0 1 = true ∧ (t.ctx 1).st = .saved ∧ t.ctxBusy 1 = false ∧ t.coresVacant (t.ctx 1) = true ∧ (t.ctx 1).spoiled = false ∧
      (0, y) ∈ (t.ctx 1).image.cores ∧ ((t.ctx 1).image.cores.map (·.1)).Nodup ∧ (y.stream 0).flights = [] ∧ (y.stream 1).flights = [] ∧
      (y.stream 0).heldReply = none := by decide

/-- A sealed record of context 7, whole, with one idle core. -/
def kept : State :=
  let k : KCtx := { id := 7, part := 5, cores := [0], allCores := [0], whole := true, image := { cores := [(0, {})] } }
  vacant.modDie 0 (fun x => { x with keep0 := some { seq := 1, sealed := true, ctxs := [k] } })

theorem test_meets_PreemptionAndRestoration_recovery :
    let r := kept.keepReport 7
    let x := { cfg7 with part := 5 }
    kept.ctxBusy 7 = false ∧ kept.ctxs.find 7 = none ∧ r.whole = true ∧ ({ cfg := x } : Ctx).coreList = r.cores ∧
      ((kept.create x (recoveredMusts x r.musts) true).bind (fun s => s.recover x r)).map State.overfull = some false := by
  decide +kernel

theorem test_meets_InvalidationsAndReplies :
    let s := one {}
    let g := s.modCtx 1 (fun x => { x with savePins := [(0, { size := 16 })] })
    let q := { s with invals := [(0, [{ ctx := 1 }])] }
    let w := slot0 { st := .waiting .reply }
    s.boot = .up ∧ s.ownsCtx 0 1 = true ∧ s.invals.getD 0 [] = [] ∧ (s.ctx 1).guards 0 1 = false ∧ (g.ctx 1).guards 0 1 = true ∧
      q.invals.getD 0 [] = [{ ctx := 1 }] ∧ (∀ e ∈ ([] : List (Nat × Nat)), q.unpinned e = true) ∧
      identOf (identCore 0) (identSlot 0) = 0 ∧ identOf (identCore 0x300) (identSlot 0x300) ≠ 0x300 ∧
      (w.core (identCore 0)).resident = some 1 ∧ (w.stream (identCore 0) (identSlot 0)).asks = true := by decide

theorem test_meets_HostManagement :
    let s := one {}
    let c : GroupCfg := { members := [(0, 0, 0)], deadline := 1000000 }
    s.boot = .up ∧ vacant.assignOk { func := 128, cores := [383] } = true ∧ vacant.assignOk { func := 1, cores := [0] } = false ∧
      (7 : Nat) < 8 ∧ s.ownsCtx 0 1 = true ∧ (15 : Nat) < 16 ∧ (s.ctx 1).cfg.dies.contains 0 = true ∧ groupOk c = true ∧
      s.group? 1 0 15 = none := by decide

/-- A save with one die left, and firmware at the fused minimum version. -/
theorem test_meets_SupplyLossAndBringUp :
    let s := { (one {}).modDie 7 (fun x => { x with saving := some ({}, 1), keep1 := some {} }) with boot := .saving }
    let t := s.modDie 0 (fun x => { x with saving := some ({}, 0) })
    let late := { s with now := 20000000 }
    (7 : Nat) < 8 ∧ (1 : Nat) < 2 ∧ s.boot = .saving ∧ (s.die 7).saving = some ({}, 1) ∧ (∀ e < 8, e ≠ 7 → (s.die e).saving = none) ∧
      ¬(∀ e < 8, e ≠ 7 → (t.die e).saving = none) ∧ late.boot = .saving ∧ (late.die 7).saving = some ({}, 1) ∧
      ((late.die 7).failing = false ∧ late.tripAt + 100000 ≤ late.now) ∧
      (let x := late.modDie 7 (fun x => { x with failing := true })
       (x.die 7).saving = some ({}, 1) ∧ (x.die 7).failing = true ∧ x.tripAt + 16620000 < x.now) ∧ s.now < s.tripAt + 100000 ∧ late.tripAt + 20000000 ≤ late.now ∧ s.now < s.tripAt + 20000000 ∧ (one {}).boot = .up ∧ State.reset.boot = .off ∧ State.reset.boot ≠ .saving := by decide

theorem test_meets_SupplyLossAndBringUp_firmware : fwOk { secver := Config.minSecver } = true ∧
    fwOk { secver := Config.minSecver, sigOk := false } = false := by simp [fwOk]

theorem test_meets_PowerEvents_rail :
    let s := fun (r : Rail) => (one {}).modDie 0 (fun x => { x with rail := r })
    ∀ r ∈ [Rail.rise, .fall, .hold], (s r).boot = .up ∧ ((s r).die 0).rail = r ∧ ((s r).die 0).railAt ≤ (s r).now := by decide

theorem test_meets_PowerEvents_clocks :
    let s := { one {} with now := 128 }
    let a := s.modCluster 0 (fun x => { x with stretch := true })
    let b := s.modCluster 0 (fun x => { x with halvingAt := some 0 })
    let y := s.cluster 0
    (y.winStart + 128 ≤ y.eff s.now) ∧ (s.boot = .up ∧ s.thrOf 0 < 41 ∧ y.stretch = false ∧ y.pending = none) ∧
      ((a.cluster 0).pending = none ∧ (a.cluster 0).stretch = true ∧ (a.cluster 0).since + 12 ≤ a.now) ∧
      (b.cluster 0).halvingAt = some 0 ∧ 0 + 64 ≤ (b.cluster 0).eff b.now := by decide

/-- A die without a partition, and one with function 0's. -/
theorem test_meets_PowerEvents_controller :
    let s := { one {} with now := 20000 }
    let t := { s with parts := [(0, { cores := [0] })] }
    (s.boot = .up ∧ (s.die 0).ctrlAt + 20000 ≤ s.now ∧ (s.parts.map (·.1)).filter (fun p => s.partOn p 0) = []) ∧
      (t.parts.map (·.1)).filter (fun q => t.partOn q 0) = [0] ∧ (t.die 0).level = [] ∧ (t.die 0).calm = [] := by decide

/-- A root and a member that is not, with a round posted and without. -/
theorem test_meets_CollectiveEvents :
    let c : GroupCfg := { members := [(0, 0, 0), (1, 0, 0)], deadline := 1000000 }
    let root : Group := { ctx := 1, cfg := c, keyed := [1] }
    let leaf : Group := { ctx := 1, cfg := { c with me := 1 }, keyed := [0] }
    let q : Round := { own := true }
    let res : RResult := {}
    let sent : Packet := { members := c.members, src := 1, dst := 0, round := 0, contrib := some {} }
    let told : Packet := { members := c.members, src := 0, dst := 1, round := 0, result := some res }
    let on := { one {} with groups := [root] }
    (on.boot = .up ∧ on.groups = [root] ∧ leaf.cfg.root < leaf.m ∧ sent.src = 1 ∧ told.src = 0) ∧
      (root.cfg.me = root.cfg.root ∧ (1 : Nat) ≠ root.cfg.me ∧ 1 < root.m ∧ 1 ∈ root.keyed ∧ root.rounds = [] ∧ root.ahead = [] ∧ root.next ≤ 0) ∧
      (q.r = 0 ∧ q.own = true ∧ q.result = none ∧ q.at_ + c.deadline ≤ ({ one {} with now := 1000000 } : State).now) ∧
      (leaf.cfg.me ≠ leaf.cfg.root ∧ leaf.cfg.root ∈ leaf.keyed ∧ res.status = 0 ∧ leaf.early = [] ∧ leaf.next ≤ 0) ∧
      (0 : Nat) ∉ ({ root with cfg := { c with me := 1 }, keyed := [] } : Group).keyed := by decide

/-- A packet of another module; one of this module, from a handle that goes with this one; and one from a handle that does not. -/
theorem test_meets_CollectiveEvents_pairs :
    let c : GroupCfg := { members := [(Config.device, 0, 0), (Config.device, 0, 1), (Config.device + 1, 0, 0)], deadline := 1000000 }
    let x : Group := { ctx := 1, cfg := c, keyed := [1, 2], peers := [(1, (2, 1, 0))] }
    let p : Packet := { members := c.members, src := 1, dst := 0, contrib := some {} }
    let w : List Packet := [{ p with sender := (2, 1, 0) }]
    let u : List Packet := [{ p with sender := (3, 1, 0) }]
    x.local? 1 = true ∧ x.local? 2 = false ∧ (2, 1, 0) ≠ x.key ∧ (x.peers.find p.src).all (· == (2, 1, 0)) = true ∧
      { p with sender := (2, 1, 0) } ∈ w ∧ (∀ q ∈ w, q = { p with sender := q.sender } → q.sender = (2, 1, 0)) ∧
      (∀ q ∈ u, q = { p with sender := q.sender } → (x.peers.find p.src).all (· == q.sender) = false) := by
  refine ⟨by simp [Group.local?], by simp [Group.local?], by simp [Group.key], by decide, by simp, ?_, ?_⟩
  · intro q h _; simp only [List.mem_singleton] at h; rw [h]
  · intro q h _; simp only [List.mem_singleton] at h; rw [h]; decide

/-- A round that a `cjoin` in flight waits for, past twice the deadline. -/
theorem test_meets_CollectiveEvents_join :
    let s := { slot0 { flights := [{ eng := 5, cmd := { i := .cjoin {} }, round := some 0 }] } with now := 2000000 }
    (0 : Nat) ∈ s.joining 1 0 0 ∧ ({} : Round).result = none ∧ ({} : Round).at_ + 2 * 1000000 ≤ s.now := by decide

/-! ## Witnesses: the step -/

/-- A word at the program counter that is an instruction, one that is none, and a page that is not mapped. -/
theorem test_meets_StepRunsTheDecodedInstruction :
    let s := mapped (leBytes 4 0x60000000)
    let t := mapped (leBytes 4 0x7F000000)
    let reads := fun (s : State) => match s.fetch 0 s.cur.pc.toNat with
      | .ok (ws, _) => some (isOk (decodeWords (ws.getD 0 0) (ws.getD 1 0) (ws.getD 2 0) (ws.getD 3 0)))
      | .error _ => none
    s.agenda = [⟨0, .sequencer 0⟩] ∧ ({ s with agenda := [] } : State).dueBefore (s.now + 0) = none ∧ s.runs 0 = true ∧ s.mayIssue 0 = true ∧ s.cur.st = .running ∧ s.cur.faults = [] ∧
      reads s = some true ∧ reads t = some false ∧ reads (one {}) = none := by decide +kernel

/-- In the same cycle at ring 15: a publication comes before a claim, and not after it; an instruction without a place; an event. -/
theorem test_meets_StepRunsTheDecodedInstruction_order :
    let s := one {} {} (ringCore 4 0 0 0 0)
    let i := Instr.rclaim 1 15 1
    let j := Instr.rpub 1 15 1
    let t := s.notePlace (s.placeOf 0 i)
    s.inPlace (s.placeOf 0 i) = true ∧ t.inPlace (t.placeOf 0 j) = false ∧ s.placeOf 0 .nop = [] ∧ isEvent .supplyTrip = true ∧
      s.inPlace (s.placeOf 0 .supplyTrip) = true := by decide

/-- Queues to enable, a doorbell's entry at the head of its queue, and a window of the estimator that ends before time passes it. -/
theorem test_meets_StepRunsTheDecodedInstruction_host :
    let i := Instr.contextDestroy 0 1
    let s := { one {} with subs := [(queueKey 0 0, [i])] }
    let t : State := { one {} with agenda := [⟨200, .event .supplyTrip⟩] }
    (s.boot = .up ∧ 128 ≤ 128 ∧ s.queues.find 128 = none ∧ (List.replicate 12 12).length = 12 ∧ ∀ n ∈ List.replicate 12 12, 4 ≤ n ∧ n ≤ 12) ∧
      s.nextEntry 0 = some (0, i) ∧
      ((t.dueBefore (t.now + 200)).any (fun e => decide (t.now ≤ e.1))) = true := by decide +kernel

/-- A cached page with X, and a word of an instruction of one word. -/
theorem test_meets_StepRunsTheDecodedInstruction_cached :
    let s := { mapped (leBytes 4 0x60000000) with agenda := [⟨0, .event .supplyTrip⟩] }
    let e : TlbE := { pin := { size := 38 }, x := true }
    let u := s.modDie 0 (fun x => { x with tlb := [(0, e)] })
    lookup (u.die (0 / 48)).tlb (u.ctxOf 0) u.cur.pc.toNat = some e ∧ u.stale = [] ∧
      lengthOf (leNat (u.mem.bytes (e.pin.pbase + u.cur.pc.toNat % 2 ^ e.pin.size) 4)) = 1 ∧ isEvent .supplyTrip = true := by decide +kernel

/-- Slot 7 after slot 0, whose block has ended; slot 0 itself again; and no slot at all. -/
theorem test_meets_SequencerSelects :
    let a := (slot0 {}).setStream 0 7 { st := .waiting (.tok 1 1), tok := 0x100 }
    let b := slot0 { st := .ready }
    let d := slot0 { st := .waiting (.drain true) }
    let at_ := fun (n : Nat) => (0 + 1 + n) % 8
    (d.selectable 0 (at_ 7) = true ∧ a.dueBefore (a.now + 0) = none) ∧ (a.runs 0 = true ∧ a.mayIssue 0 = true ∧ a.cur.st ≠ .running) ∧
      (a.selectable 0 (at_ 6) = true ∧ ∀ n < 6, a.selectable 0 (at_ n) = false) ∧
      (b.selectable 0 (at_ 7) = true ∧ ∀ n < 7, b.selectable 0 (at_ n) = false) ∧
      ∀ n < 8, (slot0 {}).selectable 0 (at_ n) = false := by decide

theorem test_meets_DecodingUndoesEncoding : Instr.wellFormed (.vadd { vd := 63, ty := 8 }) = true ∧
    ofProgram (.vadd { vd := 63, ty := 8 }) = true ∧ ofProgram .supplyTrip = false ∧ ∀ r, Instr.vadd { vd := 63, ty := 8 } ≠ .illegalInstruction r :=
  ⟨by decide, by decide, by decide, by intro r h; cases h⟩

theorem test_meets_MemoryKeepsItsForm : MemInv (mapped [1]) ∧ ∃ t, step (mapped (leBytes 4 0x60000000)) = .next t :=
  ⟨by unfold MemInv; decide, _, rfl⟩

theorem test_meets_OtherStreamsKeepTheirState : ofProgram .nop = true ∧ ∃ t, exec .nop (one {}) = .next t := ⟨rfl, _, rfl⟩

/-! ## One step, with results from the manual's examples -/

/-- What holds of the next state. -/
def after (o : Out) (p : State → Bool) : Bool :=
  match o with
  | .next t => p t
  | _ => false

/-- R74: after `li s9, 0x12345678`, `lih s9, 0x0000ABCD` leaves 0x0000ABCD12345678. -/
theorem test_lih_keeps_low_half : after (exec (.lih 9 0xABCD) (one { s := [(9, 0x12345678)] }))
    (fun t => t.cur.getS 9 == 0x0000ABCD12345678 && t.cur.pc == 8) = true := by decide

/-- R76: 0.3 in FP32 is 0x19 in MK8. -/
theorem test_fcvt_mk8 : after (exec (.fcvt 2 7 0 3 0) (one { s := [(7, 0x3E99999A)] })) (fun t => t.cur.getS 2 == 0x19) = true := by
  decide +kernel

/-- R8: a write to s0 is discarded. -/
theorem test_s0_reads_zero : after (exec (.addi 0 0 5) (one {})) (fun t => t.cur.getS 0 == 0 && t.cur.pc == 4) = true := by decide

/-- R60: the trap of an unassigned opcode leaves the address of the word, and the step of a `nop` placed at reset passes it. -/
theorem test_step_traps_and_passes :
    after (exec (.illegalInstruction .opcode) (one { pc := 0x40 })) (fun t => t.cur.fr.pc == 0x40 && t.cur.pc == 0x2000) = true ∧
      after (step (State.reset.withFetchWord 32 0x60000000)) (fun t => t.cur.pc == 4) = true ∧
      decodeTableWord 32 0x01000000 = some (.add 0 0 0) := by decide +kernel

/-- R83: `loop` with a count of 1 on a body of one word, and the back edge of that word leaves the loop. -/
theorem test_loop_of_one_trip :
    after (exec (.loopn 0 1 1) (mapped [0, 0, 0x40, 0x3D, 0, 0, 0, 0x60])) (fun t => (t.cur.getL 0).active && t.cur.pc == 4 &&
      after (exec .nop t) (fun u => !(u.cur.getL 0).active && u.cur.pc == 8)) = true := by decide +kernel

/-- R130: the worked example of `vqnt.clamp.mk8 v10, v2, v3, ch16, 1, 0`. -/
theorem test_vqnt_example :
    let put := fun (l : List (Nat × Nat)) => (BitVec.ofNat 2048 (l.foldl (fun x e => x + e.2 * 2 ^ (32 * e.1)) 0) : Vec)
    let m : Cmd := { i := .vqnt { vd := 10, va := 2, vc := 3, ty := 3, imm := 0x109 } }
    let v2 := put [(0, 0x3E99999A), (5, 0x453B8000), (9, 0xC4BB8000)]
    let v3 := put [(0, 0x43800000), (1, 0x43800000), (2, 7), (3, 64)]
    let s := slot0 { v := [(2, v2), (3, v3)], alloc := 64, queues := [(2, [m])] }
    after (exec (.engineIssue 0 ⟨2, false⟩) s) (fun t =>
      let v := ((t.stream 0 0).vecAt 10).toNat
      let e := (t.chan 0 16).getD 0 {}
      v % 256 == 0x19 && v / 2 ^ 40 % 256 == 0x80 && v / 2 ^ 72 % 256 == 0x82 && e.data.toNat % 2 ^ 64 == 0x00070045453B8000 &&
        e.mask == 3) = true := by decide +kernel

end Sys2Proof.Tests
end

section
/-! SUPPORT. Folds over the state, and what the work that a supply loss settles leaves alone: the time, the module's boot state and the keep
stores (R349 to R351). -/

namespace Sys2Proof.Proofs

open Sys2Proof Sys2Proof.Machine

/-! ## Folds over the state -/

/-- What no single operation of a fold changes, the fold does not change. -/
theorem foldl_view {σ α β : Type} (v : σ → β) {f : σ → α → σ} (h : ∀ s x, v (f s x) = v s) (l : List α) (s : σ) :
    v (l.foldl f s) = v s := by
  induction l generalizing s with
  | nil => rfl
  | cons x l ih => exact (ih (f s x)).trans (h s x)

/-- What each operation of a fold brings about for its own element and the others leave, holds of every element at the end. -/
theorem foldl_reaches {σ α : Type} {P : α → σ → Prop} {f : σ → α → σ} (own : ∀ s x, P x (f s x))
    (others : ∀ s x y, P x s → P x (f s y)) {l : List α} {x : α} (hx : x ∈ l) (s : σ) : P x (l.foldl f s) := by
  have keep : ∀ (l : List α) (s : σ), P x s → P x (l.foldl f s) := by
    intro l
    induction l with
    | nil => exact fun _ h => h
    | cons y l ih => exact fun s h => ih (f s y) (others s x y h)
  induction l generalizing s with
  | nil => cases hx
  | cons y l ih =>
    rcases List.mem_cons.mp hx with rfl | hx
    · exact keep l _ (own s x)
    · exact ih hx (f s y)

theorem gives_next {P : State → Prop} {t : State} (h : P t) : Gives (.next t) P := ⟨t, rfl, h⟩

/-! ## What the work that a supply loss settles leaves alone -/

/-- The part of the state that is the module's own record of a supply loss: the time, whether the module is up, when the supply tripped, and
both slots of every keep store. -/
def supplyView (s : State) : Nat × Boot × Nat × (Nat → Option KRec × Option KRec) :=
  (s.now, s.boot, s.tripAt, fun d => ((s.die d).keep0, (s.die d).keep1))

theorem supplyView_eq {s t : State} (h : supplyView t = supplyView s) :
    t.now = s.now ∧ t.boot = s.boot ∧ t.tripAt = s.tripAt ∧ ∀ d, (t.die d).keep0 = (s.die d).keep0 ∧ (t.die d).keep1 = (s.die d).keep1 := by
  simp only [supplyView, Prod.mk.injEq] at h
  obtain ⟨hn, hb, ht, hk⟩ := h
  exact ⟨hn, hb, ht, fun d => Prod.mk.inj (congrFun hk d)⟩

/-- A change of a die that leaves its keep store leaves the view. -/
theorem supplyView_modDie (s : State) (d : Nat) {f : Die → Die} (h : ∀ x, (f x).keep0 = x.keep0 ∧ (f x).keep1 = x.keep1) :
    supplyView (s.modDie d f) = supplyView s := by
  have e : ∀ x, (((s.modDie d f).die x).keep0, ((s.modDie d f).die x).keep1) = ((s.die x).keep0, (s.die x).keep1) := by
    intro x
    rw [State.die_modDie]
    split
    · rw [(h _).1, (h _).2]
    · rfl
  simp only [supplyView, e]; rfl

theorem supplyView_groups (s : State) (l : List Group) : supplyView { s with groups := l } = supplyView s := rfl
@[simp] theorem supplyView_draw (s : State) : supplyView s.draw = supplyView s := rfl
@[simp] theorem supplyView_modCore (s : State) (c : Nat) (f : Core → Core) : supplyView (s.modCore c f) = supplyView s := rfl
@[simp] theorem supplyView_modStream (s : State) (c k : Nat) (f : Stream → Stream) : supplyView (s.modStream c k f) = supplyView s := rfl
@[simp] theorem supplyView_modTile (s : State) (c k : Nat) (f : Tile → Tile) : supplyView (s.modTile c k f) = supplyView s := rfl

@[simp] theorem supplyView_count (s : State) (cl a e n : Nat) : supplyView (s.count cl a e n) = supplyView s := by
  unfold State.count; split <;> rfl

@[simp] theorem supplyView_post (s : State) (p : Nat) (e : HostEvent) : supplyView (s.post p e) = supplyView s := by
  unfold State.post; split <;> rfl

/-! ### The memory ports -/

@[simp] theorem supplyView_noteEntries (s : State) (pa n : Nat) : supplyView (s.noteEntries pa n) = supplyView s := by
  unfold State.noteEntries; split <;> rfl

@[simp] theorem supplyView_noteStale (s : State) (pa n : Nat) : supplyView (s.noteStale pa n) = supplyView s := by
  unfold State.noteStale; split <;> rfl

@[simp] theorem supplyView_noteSpoiled (s : State) (pa n : Nat) : supplyView (s.noteSpoiled pa n) = supplyView s := by
  unfold State.noteSpoiled; split <;> rfl

@[simp] theorem supplyView_storeMem (s : State) (pa : Nat) (bs : List Byte) (host : Bool) :
    supplyView (s.storeMem pa bs host) = supplyView s := by
  have noted : ∀ u : State, supplyView ((u.noteStale pa bs.length).noteSpoiled pa bs.length) = supplyView u := fun u => by simp
  cases host with
  | true => exact noted (s.forgetEntries pa bs.length)
  | false => exact (noted (s.noteEntries pa bs.length)).trans (supplyView_noteEntries s pa bs.length)

@[simp] theorem supplyView_noteRaces (s : State) (w : Option (Nat × Nat × Nat)) (n : Nat) (l : List (Nat × Byte)) :
    supplyView (s.noteRaces w n l) = supplyView s := by
  unfold State.noteRaces; split <;> rfl

@[simp] theorem supplyView_storeSent (s : State) (t : Transit) : supplyView (s.storeSent t) = supplyView s := by
  have h := supplyView_storeMem s t.pa t.bytes false
  unfold State.storeSent; dsimp only; split
  · exact h
  · exact h

@[simp] theorem supplyView_storePlaced (s : State) (t : Transit) (l : List Race) (now : List Byte) :
    supplyView (s.storePlaced t l now) = supplyView s :=
  supplyView_storeMem { s with races := l, accesses := s.accesses + 1, draws := s.draws + 1 } _ _ false

@[simp] theorem supplyView_landHome (s : State) (t : Transit) : supplyView (s.landHome t) = supplyView s := by
  unfold State.landHome; dsimp only
  split
  · simp
  · split
    · simp
    · split <;> simp

@[simp] theorem supplyView_drainRoot (s : State) : supplyView s.drainRoot = supplyView s :=
  foldl_view supplyView supplyView_landHome s.root { s with root := [] }

@[simp] theorem supplyView_recompress (s : State) (st most n : Nat) : supplyView (s.recompress st most n) = supplyView s := by
  induction n generalizing s with
  | zero => rfl
  | succ n ih =>
    unfold State.recompress; dsimp only
    rw [ih]
    split
    · rfl
    · split
      · exact supplyView_post _ _ _
      · rfl

@[simp] theorem supplyView_spills (s : State) (held cmp : Bool) (pa n : Nat) : supplyView (s.spills held cmp pa n) = supplyView s := by
  unfold State.spills; dsimp only
  split
  · rfl
  · split
    · exact supplyView_recompress s _ _ _
    · split
      · rfl
      · simp

@[simp] theorem supplyView_putHome (s : State) (held : Bool) (t : Transit) : supplyView (s.putHome held t) = supplyView s := by
  unfold State.putHome; split
  · rfl
  · simp

@[simp] theorem supplyView_rmwHome (s : State) (t : Transit) (n : Nat) (f : List Byte → List Byte) :
    supplyView (s.rmwHome t n f).2 = supplyView s := by
  unfold State.rmwHome; dsimp only; split <;> simp

@[simp] theorem supplyView_applyRed (s : State) (held : Bool) (r : Red) : supplyView (s.applyRed held r) = supplyView s := by
  unfold State.applyRed State.putRed; dsimp only; split <;> simp

@[simp] theorem supplyView_closeLine (s : State) (d line : Nat) : supplyView (s.closeLine d line) = supplyView s := by
  unfold State.closeLine; split
  · rfl
  · exact (foldl_view supplyView (fun s r => supplyView_applyRed s true r) _ _).trans (supplyView_modDie s d (fun _ => ⟨rfl, rfl⟩))

@[simp] theorem supplyView_closeTouched (s : State) (pa n : Nat) : supplyView (s.closeTouched pa n) = supplyView s := by
  unfold State.closeTouched; dsimp only; split
  · rfl
  · exact foldl_view supplyView (fun s l => supplyView_closeLine s _ l) _ s

@[simp] theorem supplyView_reduceAtHome (s : State) (held : Bool) (r : Red) : supplyView (s.reduceAtHome held r) = supplyView s := by
  unfold State.reduceAtHome; dsimp only
  split
  · split
    · rfl
    · exact supplyView_modDie s _ (fun x => by split <;> exact ⟨rfl, rfl⟩)
  · simp

@[simp] theorem supplyView_redFault (s : State) (t : Transit) (r : Red) : supplyView (s.redFault t r) = supplyView s := by
  unfold State.redFault; split
  · rfl
  · split <;> rfl

@[simp] theorem supplyView_writeAtHome (s : State) (held : Bool) (t : Transit) : supplyView (s.writeAtHome held t) = supplyView s := by
  unfold State.writeAtHome; split
  · simp
  · dsimp only; split
    · exact supplyView_redFault _ t _
    · exact foldl_view supplyView (fun s r => supplyView_reduceAtHome s held r) _ s

theorem supplyView_settleQueue (s : State) (src home : Nat) : supplyView (s.settleQueue src home) = supplyView s := by
  unfold State.settleQueue; dsimp only; split
  · rfl
  · exact foldl_view supplyView (fun s t => supplyView_writeAtHome s true t) _ _

theorem supplyView_closeAll (s : State) : supplyView s.closeAll = supplyView s :=
  foldl_view supplyView (fun s d => foldl_view supplyView (fun s l => supplyView_closeLine s d l) _ s) _ s

theorem supplyView_settlePorts (s : State) : supplyView s.settlePorts = supplyView s := by
  unfold State.settlePorts
  rw [supplyView_drainRoot, supplyView_closeAll, supplyView_drainRoot]
  exact foldl_view supplyView (fun s a => foldl_view supplyView (fun s h => supplyView_settleQueue s a h) _ s) _ s

/-! ### Commands in flight -/

@[simp] theorem supplyView_learnIf (s : State) (i : Nat) (q : Deed → Bool) (p : Knower → Bool) (ks : List Knower) :
    supplyView (s.learnIf i q p ks) = supplyView s := rfl

@[simp] theorem supplyView_passOn (s : State) (c k : Nat) (f : Flight) : supplyView (s.passOn c k f) = supplyView s := by
  unfold State.passOn; dsimp only
  split
  · rw [supplyView_learnIf]
    split
    · rfl
    · split <;> rfl
  · split
    · rfl
    · split <;> rfl

@[simp] theorem supplyView_settleSlab (s : State) (c : Nat) (f : Flight) : supplyView (s.settleSlab c f) = supplyView s := by
  unfold State.settleSlab; split <;> rfl

@[simp] theorem supplyView_arrive (s : State) (c k eng : Nat) (m : Cmd) : supplyView (s.arrive c k eng m) = supplyView s := by
  unfold State.arrive; split
  · rfl
  · dsimp only; split
    · rfl
    · rw [supplyView_count]; unfold State.arriveAt; dsimp only; split <;> rfl

@[simp] theorem supplyView_endDrain (s : State) (c : Nat) (m : Cmd) : supplyView (s.endDrain c m) = supplyView s := by
  unfold State.endDrain; split <;> rfl

@[simp] theorem supplyView_tilesOf (s : State) (c : Nat) (m : Cmd) (f : Tile → Option Bool → Tile) :
    supplyView (s.tilesOf c m f) = supplyView s := by
  unfold State.tilesOf; exact foldl_view supplyView (fun s n => supplyView_modTile s c n _) _ s

@[simp] theorem supplyView_tileReady (s : State) (c : Nat) (m : Cmd) : supplyView (s.tileReady c m) = supplyView s := by
  unfold State.tileReady; split
  · split <;> rfl
  · rfl

@[simp] theorem supplyView_pinPages (s : State) (d : Nat) (l : List Pin) (up : Bool) : supplyView (s.pinPages d l up) = supplyView s := by
  unfold State.pinPages; split
  · rfl
  · exact supplyView_modDie s d (fun _ => ⟨rfl, rfl⟩)

@[simp] theorem supplyView_pruneRaces (s : State) : supplyView s.pruneRaces = supplyView s := by
  unfold State.pruneRaces; split <;> rfl

@[simp] theorem supplyView_forgetCmd (s : State) (c k j : Nat) : supplyView (s.forgetCmd c k j) = supplyView s := rfl

theorem supplyView_finish (s : State) (c k : Nat) (f : Flight) : supplyView (s.finish c k f) = supplyView s := by
  unfold State.finish; dsimp only
  split <;> split <;> simp

theorem supplyView_finishCommitted (s : State) (c k : Nat) : supplyView (s.finishCommitted c k) = supplyView s := by
  unfold State.finishCommitted
  refine foldl_view supplyView (fun s f => ?_) _ s
  split
  · exact supplyView_finish s c k f
  · rfl

/-! ### Commands abandoned -/

theorem supplyView_unslab (s : State) (c : Nat) (u : SlabSide) : supplyView (s.unslab c u) = supplyView s := rfl

theorem supplyView_unslabAll (s : State) : supplyView s.unslabAll = supplyView s := by
  unfold State.unslabAll
  exact foldl_view supplyView (fun s (e : Nat × Nat × SlabSide) => supplyView_unslab s e.2.1 e.2.2) _ s

theorem supplyView_unwriteSpad (s : State) (p : Option (Nat × Nat × Nat) → Bool) (c : Nat) :
    supplyView (s.unwriteSpad p c) = supplyView s := rfl

theorem supplyView_unwrite (s : State) : supplyView s.unwrite = supplyView s := by
  unfold State.unwrite
  exact foldl_view supplyView (fun s (e : Nat × Core) => supplyView_unwriteSpad s _ e.1) _ _

theorem supplyView_landDue (s : State) (c k : Nat) : supplyView (s.landDue c k) = supplyView s := rfl

theorem supplyView_mixCore (s t : State) (c : Nat) : supplyView (s.mixCore t c) = supplyView s := rfl

theorem supplyView_abandon (s : State) : supplyView s.abandon = supplyView s := by
  unfold State.abandon
  extract_lets landed ran p drawn mixed kept undone settled
  have hlanded : supplyView landed = supplyView s := foldl_view supplyView (fun s (p : Nat × Nat) => supplyView_landDue s p.1 p.2) _ s
  have hmixed : supplyView mixed = supplyView drawn := by
    refine foldl_view supplyView (fun s (e : Nat × Core) => ?_) _ drawn
    split
    · exact supplyView_mixCore s ran e.1
    · rfl
  have hundone : supplyView undone = supplyView kept := (supplyView_unwrite _).trans (supplyView_unslabAll kept)
  calc _ = supplyView settled := by refine foldl_view supplyView (fun s p => ?_) _ settled; rfl
    _ = supplyView undone := rfl
    _ = supplyView kept := hundone
    _ = supplyView mixed := rfl
    _ = supplyView drawn := hmixed
    _ = supplyView landed := rfl
    _ = supplyView s := hlanded

end Sys2Proof.Proofs
end

section
/-! PROOF. The trip of the supply monitor, what a module reset leaves, and what the end of a die's save does to its keep store and the reserve
(R348 to R355). -/

namespace Sys2Proof.Proofs

open Sys2Proof Sys2Proof.Machine

/-! ## The steps of a supply loss -/

theorem exec_supplyTrip (s : State) : exec .supplyTrip s = execSupplyTrip s := rfl
theorem exec_keepSaveComplete (d : Nat) (s : State) : exec (.keepSaveComplete d) s = execKeepSaveComplete d s := rfl
theorem exec_reserveLost (d : Nat) (s : State) : exec (.reserveLost d) s = execReserveLost d s := rfl
theorem exec_bringUp (s : State) : exec .bringUp s = execBringUp s := rfl

/-! ## The trip (R348 to R352) -/

/-- A cluster takes the pattern of a save. -/
def savePatternOn (s : State) (k : Nat) : State := s.modCluster k (fun x => x.savePattern s.now)

theorem supplyView_savePatternOn (s : State) (k : Nat) : supplyView (savePatternOn s k) = supplyView s := rfl

theorem pattern_savePatternOn (s : State) (k j : Nat) :
    ((savePatternOn s k).cluster j).pattern = if k = j then 0x8888 else (s.cluster j).pattern := by
  unfold savePatternOn
  rw [State.cluster_modCluster]
  split <;> rfl

/-- A record is only begun: the slots of the keep store change when the save ends. -/
theorem supplyView_startRecord (s : State) (d : Nat) : supplyView (s.startRecord d) = supplyView s :=
  supplyView_modDie _ d (fun _ => ⟨rfl, rfl⟩)

theorem clusters_startRecord (s : State) (d : Nat) : (s.startRecord d).clusters = s.clusters := rfl

theorem saving_startRecord (s : State) (d e : Nat) :
    ((s.startRecord d).die e).saving.isSome = (d == e || (s.die e).saving.isSome) := by
  unfold State.startRecord; dsimp only
  rw [State.die_modDie]
  split
  · rename_i h; simp [h]
  · rename_i h; rw [beq_false_of_ne h]; rfl

/-- The state in which the dies start their records: the ports have settled, committed commands are complete and the others abandoned. -/
def tripped (s : State) : State :=
  let t := { s with boot := .saving, tripAt := s.now, reserve := reserveUnits }
  let t := t.liveSlots.foldl (fun t p => t.finishCommitted p.1 p.2) t.settlePorts
  { t.abandon with groups := t.groups.map Group.stop }

theorem execSupplyTrip_up {s : State} (h : s.boot = .up) :
    execSupplyTrip s = .next ((List.range 8).foldl State.startRecord
      ((List.range 96).foldl savePatternOn (tripped s))) := by
  unfold execSupplyTrip
  rw [if_neg (by simp [h])]
  rfl

theorem supplyView_tripped (s : State) :
    supplyView (tripped s) = supplyView { s with boot := .saving, tripAt := s.now, reserve := reserveUnits } := by
  unfold tripped
  extract_lets started finished
  rw [supplyView_groups, supplyView_abandon]
  exact (foldl_view supplyView (fun s (p : Nat × Nat) => supplyView_finishCommitted s p.1 p.2) _ _).trans (supplyView_settlePorts started)

/-- R349: after the trip every cluster runs the pattern 0x8888, every die writes a record, and the keep stores are as they were. -/
theorem supplyTrip_gives {s : State} (h : s.boot = .up) : Gives (exec .supplyTrip s) (fun t =>
    t.boot = .saving ∧ t.tripAt = s.now ∧ (∀ e < 8, (t.die e).saving.isSome = true) ∧ (∀ k < 96, (t.cluster k).pattern = 0x8888) ∧
      (∀ e < 8, (t.die e).keep0 = (s.die e).keep0 ∧ (t.die e).keep1 = (s.die e).keep1)) := by
  rw [exec_supplyTrip, execSupplyTrip_up h]
  refine gives_next ?_
  generalize hp : (List.range 96).foldl savePatternOn (tripped s) = p
  have hview : supplyView ((List.range 8).foldl State.startRecord p) =
      supplyView { s with boot := .saving, tripAt := s.now, reserve := reserveUnits } := by
    rw [foldl_view supplyView supplyView_startRecord, ← hp]
    exact (foldl_view supplyView supplyView_savePatternOn _ _).trans (supplyView_tripped s)
  obtain ⟨-, hboot, htrip, hkeep⟩ := supplyView_eq hview
  refine ⟨hboot, htrip, fun e he => ?_, fun k hk => ?_, fun e _ => hkeep e⟩
  · exact foldl_reaches (P := fun e (t : State) => (t.die e).saving.isSome = true) (fun s e => by simp [saving_startRecord])
      (fun s e d h => by simp [saving_startRecord, h]) (List.mem_range.mpr he) p
  · rw [State.cluster_congr (foldl_view State.clusters clusters_startRecord _ p) k, ← hp]
    exact foldl_reaches (P := fun k (t : State) => (t.cluster k).pattern = 0x8888) (fun s k => by simp [pattern_savePatternOn])
      (fun s k j h => by simp [pattern_savePatternOn, h]) (List.mem_range.mpr hk) (tripped s)

/-! ## What a module reset leaves (R358, R378) -/

theorem read_filter (p : Nat → Bool) (m : Memory) (a : Nat) :
    Memory.read (m.filter (fun e => p e.1)) a = if p a then Memory.read m a else Memory.unlisted := by
  induction m with
  | nil => simp [Memory.read]
  | cons e m ih =>
    obtain ⟨i, b⟩ := e
    by_cases hi : i = a
    · subst hi
      by_cases hp : p i = true <;> simp [Memory.read, hp, ih]
    · by_cases hp : p i = true <;> simp [Memory.read, hp, hi, ih]

theorem find_map_snd {α β : Type} (f : α → β) (m : Map α) (k : Nat) :
    Map.find (m.map (fun e => (e.1, f e.2))) k = (Map.find m k).map f := by
  induction m with
  | nil => rfl
  | cons e m ih =>
    simp only [List.map_cons, Map.find, ih]
    split <;> rfl

/-- A reset leaves the keep store of a die and nothing else of it. -/
theorem die_restart (s : State) (d : Nat) : s.restart.die d = { keep0 := (s.die d).keep0, keep1 := (s.die d).keep1 } := by
  unfold State.die Map.getD State.restart
  dsimp only
  rw [find_map_snd (fun x : Die => ({ keep0 := x.keep0, keep1 := x.keep1 } : Die))]
  cases Map.find s.dies d <;> rfl

/-- HBM4E is zeroed, and the host's memory stays. -/
theorem read_restart (s : State) :
    (∀ a, a < 2 ^ 45 → s.restart.mem.read a = 0) ∧ ∀ a, 2 ^ 45 ≤ a → s.restart.mem.read a = s.mem.read a := by
  have h : ∀ a, s.restart.mem.read a = if isAperture a then s.mem.read a else 0 := read_filter isAperture s.mem
  exact ⟨fun a ha => by rw [h, if_neg]; simpa [isAperture] using ha, fun a ha => by rw [h, if_pos]; simpa [isAperture] using ha⟩

/-! ## The end of a die's save (R348, R352, R353) -/

/-- One of the two slots of a die's keep store. -/
def keepSlot (n : Nat) (x : Die) : Option KRec := if n = 0 then x.keep0 else x.keep1

theorem keepSlot_putSlot (x : Die) (n : Nat) (r : Option KRec) : keepSlot n (x.putSlot n r) = r := by
  unfold keepSlot Die.putSlot; dsimp only; split <;> rfl

theorem saving_putSlot (x : Die) (n : Nat) (r : Option KRec) : (x.putSlot n r).saving = none := by
  unfold Die.putSlot; dsimp only; split <;> rfl

theorem keepSlot_restart (s : State) (n d : Nat) : keepSlot n (s.restart.die d) = keepSlot n (s.die d) := by
  rw [die_restart]; rfl

/-- A save that is the last to end resets the module. -/
theorem resetIfSaved_last {s : State} (h : ∀ e < 8, (s.die e).saving = none) :
    s.resetIfSaved = { s.restart with resetCause := 0x13 } := by
  unfold State.resetIfSaved
  rw [if_pos]
  simpa using h

/-- While a die is saving the module does not reset. -/
theorem resetIfSaved_more {s : State} (h : ¬∀ e < 8, (s.die e).saving = none) : s.resetIfSaved = s := by
  unfold State.resetIfSaved
  rw [if_neg]
  simpa using h

theorem keepSlot_resetIfSaved (s : State) (n d : Nat) : keepSlot n (s.resetIfSaved.die d) = keepSlot n (s.die d) := by
  unfold State.resetIfSaved
  split
  · exact keepSlot_restart s n d
  · rfl

/-- Once a die has ended its save, none is saving just where no other die was. -/
theorem saved_iff_last (s : State) (d n : Nat) (r : Option KRec) :
    (∀ e < 8, ((s.modDie d (fun y => y.putSlot n r)).die e).saving = none) ↔ ∀ e < 8, e ≠ d → (s.die e).saving = none := by
  refine forall₂_congr (fun e _ => ?_)
  rw [State.die_modDie]
  split
  · rename_i h; simp [saving_putSlot, h]
  · rename_i h; simp [Ne.symm h]

/-! ### What a save has drawn from the reserve (R1, R348, R355) -/

theorem die_charge_ne (s : State) {d e : Nat} (h : e ≠ d) (acct u : Nat) : (s.charge d acct u).die e = s.die e :=
  (State.die_modDie _ d e _).trans (if_neg (Ne.symm h))

theorem saving_charge (s : State) (d acct u e : Nat) : ((s.charge d acct u).die e).saving = (s.die e).saving := by
  unfold State.charge
  rw [State.die_modDie]
  split <;> rfl

theorem die_holdCharge_ne (s : State) {d e : Nat} (h : e ≠ d) (most : Nat) : (s.holdCharge d most).die e = s.die e :=
  die_charge_ne s.draw h 0 _

theorem saving_holdCharge (s : State) (d most e : Nat) : ((s.holdCharge d most).die e).saving = (s.die e).saving :=
  saving_charge s.draw d 0 _ e

theorem reserve_holdCharge (s : State) (d most : Nat) :
    s.reserve - (s.holdCharge d most).reserve ≤ maxDraw * min (s.now - s.tripAt) most ∧ (s.holdCharge d most).reserve ≤ s.reserve := by
  have drawn : ∃ e ≤ maxDraw * min (s.now - s.tripAt) most, (s.holdCharge d most).reserve = s.reserve - e := by
    refine ⟨_, ?_, rfl⟩
    exact Nat.le_trans (Nat.le_of_lt_succ (Nat.mod_lt _ (Nat.succ_pos _))) (Nat.le_trans (Nat.min_le_right _ _) (Nat.sub_le _ _))
  obtain ⟨e, he, hr⟩ := drawn
  rw [hr]
  omega

/-- R352, R353: a save that ends when it may seals its record. -/
theorem exec_keepSaveComplete_seals {s : State} {d n : Nat} {r : KRec} (hs : (s.die d).saving = some (r, n)) (hb : s.boot = .saving)
    (h0 : s.tripAt + 100000 ≤ s.now) (h1 : (s.die d).failing = false ∨ s.now ≤ s.tripAt + 16620000) :
    exec (.keepSaveComplete d) s =
      .next ((s.holdCharge d saveEnd).modDie d (fun y => y.putSlot n (some { r with sealed := true }))).resetIfSaved := by
  rw [exec_keepSaveComplete]
  unfold execKeepSaveComplete
  rw [hs]
  dsimp only
  rw [if_pos]
  have late : ((s.die d).failing && decide (s.tripAt + saveEnd < s.now)) = false := by
    rcases h1 with h | h
    · simp [h]
    · simp [saveEnd, Nat.not_lt.mpr h]
  simp [hb, saveStart, h0, late]

end Sys2Proof.Proofs
end

section
/-! PROOF. The end of a save, a lost reserve and bring-up (R348, R352 to R360, R377, R378), and the obligation on them, O51. -/

namespace Sys2Proof.Proofs

open Sys2Proof Sys2Proof.Machine

/-- A die's save has ended with a slot of its keep store as given; the module resets where it was the last. -/
def saveEnded (s : State) (d n : Nat) (r : Option KRec) : State := (s.modDie d (fun y => y.putSlot n r)).resetIfSaved

theorem keepSlot_saveEnded (s : State) (d n : Nat) (r : Option KRec) : keepSlot n ((saveEnded s d n r).die d) = r := by
  unfold saveEnded
  rw [keepSlot_resetIfSaved, State.die_modDie, if_pos rfl, keepSlot_putSlot]

theorem saveEnded_last {s : State} {d : Nat} (h : ∀ e < 8, e ≠ d → (s.die e).saving = none) (n : Nat) (r : Option KRec) :
    saveEnded s d n r = { (s.modDie d (fun y => y.putSlot n r)).restart with resetCause := 0x13 } :=
  resetIfSaved_last ((saved_iff_last s d n r).mpr h)

theorem saveEnded_more {s : State} {d : Nat} (h : ¬∀ e < 8, e ≠ d → (s.die e).saving = none) (n : Nat) (r : Option KRec) :
    saveEnded s d n r = s.modDie d (fun y => y.putSlot n r) :=
  resetIfSaved_more (fun k => h ((saved_iff_last s d n r).mp k))

/-- The module is off after the last save, with HBM4E zeroed and nothing placed. -/
theorem saveEnded_last_reset {s : State} {d : Nat} (h : ∀ e < 8, e ≠ d → (s.die e).saving = none) (n : Nat) (r : Option KRec) :
    let t := saveEnded s d n r
    t.boot = .off ∧ t.resetCause = 0x13 ∧
      ((∀ a, a < 2 ^ 45 → t.mem.read a = 0) ∧ ∀ a, 2 ^ 45 ≤ a → t.mem.read a = s.mem.read a) ∧ t.cores = [] ∧ t.ctxs = [] := by
  dsimp only
  rw [saveEnded_last h]
  exact ⟨rfl, rfl, read_restart (s.modDie d (fun y => y.putSlot n r)), rfl, rfl⟩

/-- While another die is saving the module goes on, and only the die and the reserve have changed. -/
theorem saveEnded_more_keeps {s : State} {d : Nat} (h : ¬∀ e < 8, e ≠ d → (s.die e).saving = none) (n : Nat) (r : Option KRec) :
    let t := saveEnded s d n r
    t.boot = s.boot ∧ (t.die d).saving = none ∧ (∀ e, e ≠ d → t.die e = s.die e) ∧ t.reserve = s.reserve := by
  dsimp only
  rw [saveEnded_more h]
  refine ⟨rfl, ?_, fun e he => ?_, rfl⟩
  · rw [State.die_modDie, if_pos rfl, saving_putSlot]
  · rw [State.die_modDie, if_neg (Ne.symm he)]

/-- R352, R353, R355: a save that ends when it may seals its record; it draws no more than the greatest draw since the trip. -/
theorem keepSaveComplete_gives {s : State} {d n : Nat} {r : KRec} (hs : (s.die d).saving = some (r, n)) (hb : s.boot = .saving)
    (h0 : s.tripAt + 100000 ≤ s.now) (h1 : (s.die d).failing = false ∨ s.now ≤ s.tripAt + 16620000) :
    Gives (exec (.keepSaveComplete d) s) (fun t =>
      keepSlot n (t.die d) = some { r with sealed := true } ∧
      ((∀ e < 8, e ≠ d → (s.die e).saving = none) → t.boot = .off ∧ t.resetCause = 0x13 ∧
        ((∀ a, a < 2 ^ 45 → t.mem.read a = 0) ∧ ∀ a, 2 ^ 45 ≤ a → t.mem.read a = s.mem.read a) ∧ t.cores = [] ∧ t.ctxs = []) ∧
      (¬(∀ e < 8, e ≠ d → (s.die e).saving = none) → t.boot = .saving ∧ (t.die d).saving = none ∧ (∀ e, e ≠ d → t.die e = s.die e) ∧
        s.reserve - t.reserve ≤ 102400000 * min (s.now - s.tripAt) 16620000 ∧ t.reserve ≤ s.reserve)) := by
  rw [exec_keepSaveComplete_seals hs hb h0 h1]
  refine gives_next (t := saveEnded (s.holdCharge d saveEnd) d n _) ⟨keepSlot_saveEnded _ d n _, fun last => ?_, fun more => ?_⟩
  · exact saveEnded_last_reset (s := s.holdCharge d saveEnd) (by simpa only [saving_holdCharge] using last) n _
  · obtain ⟨boot, saved, others, reserve⟩ :=
      saveEnded_more_keeps (s := s.holdCharge d saveEnd) (by simpa only [saving_holdCharge] using more) n (some { r with sealed := true })
    refine ⟨boot.trans hb, saved, fun e he => (others e he).trans (die_holdCharge_ne s he saveEnd), ?_⟩
    rw [reserve]
    exact reserve_holdCharge s d saveEnd

/-- R349, R355: before 100 us, or past 16.62 ms where the reserve fails, a save does not end. -/
theorem keepSaveComplete_waits {s : State} {d n : Nat} {r : KRec} (hs : (s.die d).saving = some (r, n))
    (h : s.now < s.tripAt + 100000 ∨ ((s.die d).failing = true ∧ s.tripAt + 16620000 < s.now)) :
    Gives (exec (.keepSaveComplete d) s) (fun t => t = s) := by
  refine ⟨s, ?_, rfl⟩
  rw [exec_keepSaveComplete]
  unfold execKeepSaveComplete
  rw [hs]
  dsimp only
  rw [if_neg]
  rcases h with early | ⟨failing, late⟩
  · simp [saveStart, Nat.not_le.mpr early]
  · simp [saveEnd, failing, late]

theorem sealed_cut {r q : KRec} {n : Nat} {begun : Bool} (h : r.cut n begun = some q) : q.sealed = false := by
  unfold KRec.cut at h
  split at h
  · cases h
  · cases h; rfl

/-- R348, R360: a die whose reserve is lost after the guaranteed window leaves its record unsealed. -/
theorem reserveLost_gives {s : State} {d n : Nat} {r : KRec} (hs : (s.die d).saving = some (r, n)) (hb : s.boot = .saving)
    (h : s.tripAt + 20000000 ≤ s.now) :
    Gives (exec (.reserveLost d) s) (fun t => (∀ q, keepSlot n (t.die d) = some q → q.sealed = false) ∧
      ((∀ e < 8, e ≠ d → (s.die e).saving = none) → t.boot = .off ∧ t.resetCause = 0x13)) := by
  rw [exec_reserveLost]
  unfold execReserveLost
  rw [hs]
  dsimp only
  rw [if_pos (by simp [hb, saveWindow, h])]
  refine gives_next (t := saveEnded (s.holdCharge d saveWindow).draw d n _) ⟨fun q hq => ?_, fun last => ?_⟩
  · rw [keepSlot_saveEnded] at hq
    exact sealed_cut hq
  · have last' : ∀ e < 8, e ≠ d → ((s.holdCharge d saveWindow).draw.die e).saving = none := fun e he hne =>
      (saving_holdCharge s d saveWindow e).trans (last e he hne)
    obtain ⟨boot, cause, -⟩ := saveEnded_last_reset last' n _
    exact ⟨boot, cause⟩

/-- R348: within the guaranteed window no reserve is lost. -/
theorem reserveLost_waits {s : State} {d n : Nat} {r : KRec} (hs : (s.die d).saving = some (r, n)) (h : s.now < s.tripAt + 20000000) :
    Gives (exec (.reserveLost d) s) (fun t => t = s) := by
  refine ⟨s, ?_, rfl⟩
  rw [exec_reserveLost]
  unfold execReserveLost
  rw [hs]
  dsimp only
  rw [if_neg (by simp [saveWindow, Nat.not_le.mpr h])]

/-! ## Bring-up (R358, R377, R378) -/

theorem report_countCorrected (s : State) (d i e : Nat) : ((s.countCorrected d i).die e).report = (s.die e).report := by
  unfold State.countCorrected
  rw [State.die_congr (State.draw_dies _), State.die_modDie]
  split <;> rfl

theorem supplyView_countCorrected (s : State) (d i : Nat) : supplyView (s.countCorrected d i) = supplyView s := by
  unfold State.countCorrected
  rw [supplyView_draw]
  exact supplyView_modDie s d (fun _ => ⟨rfl, rfl⟩)

/-- Errors corrected in reading a die's keep store are counted, and its report stands. -/
def reportOn (s : State) (d : Nat) : State := (s.countCorrected d d).modDie d (fun y => { y with report := true })

theorem report_reportOn (s : State) (d e : Nat) : ((reportOn s d).die e).report = (d == e || (s.die e).report) := by
  unfold reportOn
  rw [State.die_modDie]
  split
  · rename_i h; simp [h]
  · rename_i h
    rw [beq_false_of_ne h]
    exact report_countCorrected s d d e

theorem supplyView_reportOn (s : State) (d : Nat) : supplyView (reportOn s d) = supplyView s := by
  unfold reportOn
  rw [supplyView_modDie, supplyView_countCorrected]
  exact fun _ => ⟨rfl, rfl⟩

/-- The module reset, with its firmware accepted and its clock at 0. -/
def booted (s : State) : State :=
  { s.restart with fw := s.fwNext.getD s.fw, fwNext := none, boot := .up, now := 0, resetCause := 0, draws := s.draws + 1 }

theorem die_booted (s : State) (d : Nat) : (booted s).die d = { keep0 := (s.die d).keep0, keep1 := (s.die d).keep1 } :=
  (State.die_congr (s := s.restart) rfl d).trans (die_restart s d)

/-- The state that bring-up gives before it posts its events. -/
def broughtUp (s : State) : State := (List.range 8).foldl reportOn (booted s)

theorem report_broughtUp (s : State) {e : Nat} (he : e < 8) : ((broughtUp s).die e).report = true :=
  foldl_reaches (P := fun e (t : State) => (t.die e).report = true) (fun s e => by simp [report_reportOn])
    (fun s e d h => by simp [report_reportOn, h]) (List.mem_range.mpr he) (booted s)

theorem keep_broughtUp (s : State) (e : Nat) :
    ((broughtUp s).die e).keep0 = (s.die e).keep0 ∧ ((broughtUp s).die e).keep1 = (s.die e).keep1 := by
  obtain ⟨-, -, -, keep⟩ := supplyView_eq (foldl_view supplyView supplyView_reportOn (List.range 8) (booted s))
  have h := keep e
  rw [die_booted] at h
  exact h

/-- Counting errors and marking reports changes no part of the state but the dies and the draws. -/
theorem broughtUp_rest (s : State) : { broughtUp s with dies := [], draws := 0 } = { booted s with dies := [], draws := 0 } :=
  foldl_view (fun t : State => { t with dies := [], draws := 0 }) (f := reportOn) (fun _ _ => rfl) _ _

/-- An event changes no part of the state but the event queue and what waits for it. -/
theorem posts_rest (l : List HostEvent) (s : State) (p : Nat) :
    { l.foldl (fun t e => t.post p e) s with events := [], lateEvents := [] } = { s with events := [], lateEvents := [] } := by
  refine foldl_view (fun t : State => { t with events := [], lateEvents := [] }) (f := fun t e => State.post t p e) (fun t e => ?_) l s
  unfold State.post
  split <;> rfl

/-- An event for a function whose queues the host has not enabled waits behind the others (R374). -/
theorem post_notEnabled {s : State} (h : s.queues = []) (p : Nat) (e : HostEvent) :
    s.post p e = { s with lateEvents := s.lateEvents.set p (s.lateEvents.getD p [] ++ [e]) } := by
  have full : s.eventsFull p = true := by
    unfold State.eventsFull State.ringEntries
    rw [h]; simp [Map.getD, Map.find]
  unfold State.post
  rw [if_pos full]

theorem execBringUp_ok {s : State} (hb : s.boot = .off) (hf : fwOk (s.fwNext.getD s.fw) = true) :
    ∃ cause, (s.resetCause = 0x13 → cause = 0x13) ∧
      execBringUp s = .next (((broughtUp s).bringUpEvents cause).foldl (fun t e => t.post 0 e) (broughtUp s)) := by
  refine ⟨if s.resetCause == 0x13 then 0x13 else Config.freeNat s.draws, fun h => by rw [h]; rfl, ?_⟩
  unfold execBringUp
  rw [if_neg (by simp [hb])]
  dsimp only
  rw [if_neg (by simp [hf]), hb]
  rfl

/-- R377: a module whose firmware is refused stays in recovery. -/
theorem bringUp_refused {s : State} (hb : s.boot ≠ .saving) (hf : fwOk (s.fwNext.getD s.fw) = false) :
    Gives (exec .bringUp s) (fun t => t.boot = .recovery) := by
  rw [exec_bringUp]
  unfold execBringUp
  rw [if_neg (by simpa using hb)]
  dsimp only
  rw [if_pos (by simp [hf])]
  exact gives_next rfl

/-- R358, R378: what a module whose firmware is accepted holds after bring-up. -/
theorem bringUp_gives {s : State} (hb : s.boot = .off) (hf : fwOk (s.fwNext.getD s.fw) = true) : Gives (exec .bringUp s) (fun t =>
    t.boot = .up ∧ t.now = 0 ∧ ((∀ a, a < 2 ^ 45 → t.mem.read a = 0) ∧ ∀ a, 2 ^ 45 ≤ a → t.mem.read a = s.mem.read a) ∧
      t.cores = [] ∧ t.ctxs = [] ∧ t.fw = s.fwNext.getD s.fw ∧ t.accounts = [] ∧
      (∀ e < 8, (t.die e).report = true ∧ (t.die e).keep0 = (s.die e).keep0 ∧ (t.die e).keep1 = (s.die e).keep1) ∧
      (s.resetCause = 0x13 → (t.events.getD 0 [] ++ t.lateEvents.getD 0 []).getLast? = some (.resetCause 0x13))) := by
  obtain ⟨cause, hcause, hrun⟩ := execBringUp_ok hb hf
  rw [exec_bringUp, hrun]
  generalize ht : ((broughtUp s).bringUpEvents cause).foldl (fun t e => t.post 0 e) (broughtUp s) = t
  have rest : { t with events := [], lateEvents := [], dies := [], draws := 0 } =
      { booted s with events := [], lateEvents := [], dies := [], draws := 0 } := by
    have posted := posts_rest ((broughtUp s).bringUpEvents cause) (broughtUp s) 0
    rw [ht] at posted
    exact (congrArg (fun t : State => { t with dies := [], draws := 0 }) posted).trans
      (congrArg (fun t : State => { t with events := [], lateEvents := [] }) (broughtUp_rest s))
  have dies : ∀ e, t.die e = (broughtUp s).die e := by
    intro e
    rw [← ht]
    exact State.die_congr (foldl_view State.dies (fun t e => State.post_dies t 0 e) _ _) e
  have hmem : t.mem = s.restart.mem := congrArg (·.mem) rest
  refine gives_next ⟨congrArg (·.boot) rest, congrArg (·.now) rest, ?_, congrArg (·.cores) rest, congrArg (·.ctxs) rest,
    congrArg (·.fw) rest, congrArg (·.accounts) rest, fun e he => ?_, fun h => ?_⟩
  · rw [hmem]
    exact read_restart s
  · rw [dies]
    exact ⟨report_broughtUp s he, keep_broughtUp s e⟩
  · rw [← ht, State.bringUpEvents, List.foldl_append, List.foldl_cons, List.foldl_nil, post_notEnabled, hcause h]
    · simp
    · rw [foldl_view State.queues (fun t e => State.post_queues t 0 e)]
      exact congrArg (·.queues) (broughtUp_rest s)

/-! ## The obligation -/

/-- Settles O51: the four steps of a supply loss and bring-up, each by its own lemma. -/
theorem supplyLossAndBringUp : Obligations.SupplyLossAndBringUp := by
  unfold Obligations.SupplyLossAndBringUp
  intro s d n r _ _
  dsimp only
  refine ⟨supplyTrip_gives, fun hb hs => ⟨fun h0 h1 => ?_, keepSaveComplete_waits hs, fun h => ?_, reserveLost_waits hs⟩,
    bringUp_gives, bringUp_refused⟩
  · exact keepSaveComplete_gives hs hb h0 h1
  · exact reserveLost_gives hs hb h

end Sys2Proof.Proofs
end

section
/-! SUPPORT. Fetching from a cached page with nothing under way to its home (R43, R44, R193, R337). -/

namespace Sys2Proof.Proofs

open Sys2Proof Sys2Proof.Machine

/-! ## An access with nothing under way -/

theorem drainRoot_none {s : State} (h : s.root = []) : s.drainRoot = s := by
  unfold State.drainRoot
  obtain ⟨⟩ := s
  subst h
  rfl

theorem drainTo_none {s : State} (h : s.transit = []) (src home : Nat) : s.drainTo src home = s := by
  unfold State.drainTo
  rw [h]
  rfl

theorem closeTouched_none {s : State} (h : ∀ d, (s.die d).held = []) (pa n : Nat) : s.closeTouched pa n = s := by
  unfold State.closeTouched
  dsimp only
  rw [h]
  rfl

/-- An access brings nothing about at its home where nothing is under way and no line is held. -/
theorem portTouch_none {s : State} (ht : s.transit = []) (hr : s.root = []) (hh : ∀ d, (s.die d).held = []) (src pa n : Nat) :
    s.portTouch src pa n = s := by
  unfold State.portTouch
  dsimp only
  rw [drainTo_none ht, closeTouched_none hh, drainRoot_none hr, ite_self]

/-! ## A fetch from a cached page -/

theorem fill_cached {s : State} {d ctx va : Nat} {e : TlbE} (h : lookup (s.die d).tlb ctx va = some e) : s.fill d ctx va = .ok (e, s) := by
  unfold State.fill
  rw [h]

theorem codeWord_plain {s : State} (hs : s.stale = []) (hl : s.laid = []) (ctx va pa : Nat) :
    s.codeWord ctx va pa = leNat (s.mem.bytes pa 4) := by
  unfold State.codeWord State.memBytes
  rw [hs, hl]
  rfl

/-- What a fetched word leaves behind: the charge, and the note of its page. -/
def fetchedFrom (s : State) (c pa : Nat) (p : Pin) : State :=
  ({ s.chargeFetch c pa with draws := s.draws + 1 } : State).noteFetch (s.ctxOf c) p

theorem noteFetch_rest (s : State) (i : Nat) (p : Pin) : s.noteFetch i p = { s with fetched := (s.noteFetch i p).fetched } := by
  unfold State.noteFetch
  split <;> rfl

theorem chargeFetch_rest (s : State) (c pa : Nat) : s.chargeFetch c pa =
    { s with
      accounts := (s.chargeFetch c pa).accounts, dies := (s.chargeFetch c pa).dies, clusters := (s.chargeFetch c pa).clusters } := rfl

theorem fetchedFrom_rest (s : State) (c pa : Nat) (p : Pin) :
    let t := fetchedFrom s c pa p
    t = { s with draws := t.draws, fetched := t.fetched, accounts := t.accounts, dies := t.dies, clusters := t.clusters } := by
  dsimp only
  unfold fetchedFrom
  rw [noteFetch_rest, chargeFetch_rest]

theorem clusterRest_addCount (s : State) (cl a e n x : Nat) :
    { (s.addCount cl a e n).cluster x with counts := [] } = { s.cluster x with counts := [] } := by
  unfold State.addCount
  rw [State.cluster_modCluster]
  split <;> rfl

theorem clusterRest_fetchedFrom (s : State) (c pa : Nat) (p : Pin) (x : Nat) :
    { (fetchedFrom s c pa p).cluster x with counts := [] } = { s.cluster x with counts := [] } := by
  have noted : (fetchedFrom s c pa p).clusters = (s.chargeFetch c pa).clusters := by
    unfold fetchedFrom State.noteFetch
    split <;> rfl
  rw [State.cluster_congr noted]
  exact clusterRest_addCount (s.charge (homeDie pa) (s.acct c) _) (clusterOf c) (s.acct c) 45 _ x

/-- R44: a word of a cached page with X is fetched at its home, where nothing stands in its way. -/
theorem fetchWord_cached {s : State} {c va : Nat} {e : TlbE} (he : lookup (s.die (c / 48)).tlb (s.ctxOf c) va = some e) (hx : e.x = true)
    (hs : s.stale = []) (ht : s.transit = []) (hr : s.root = []) (hl : s.laid = []) (hp : s.poison = [])
    (hh : ∀ d, (s.die d).held = []) :
    s.fetchWord c va = .ok (leNat (s.mem.bytes (e.pin.pa va) 4), fetchedFrom s c (e.pin.pa va) e.pin) := by
  have sound : (s.chargeFetch c (e.pin.pa va)).poisoned (e.pin.pa va) 4 = false := by
    show s.poison.any _ = false
    rw [hp]; rfl
  have word := codeWord_plain (s := s.chargeFetch c (e.pin.pa va)) hs hl (s.ctxOf c) va (e.pin.pa va)
  unfold State.fetchWord
  dsimp only
  rw [fill_cached (d := dieOf c) he]
  dsimp only
  rw [portTouch_none ht hr hh, if_neg (by simp [hx]), if_neg (by simp [sound]), word]
  rfl

/-- R43: an instruction of one word is fetched with its first word. -/
theorem fetch_one {s s' : State} {c va w : Nat} (h : s.fetchWord c va = .ok (w, s')) (hw : lengthOf w = 1) :
    s.fetch c va = .ok ([w], s') := by
  unfold State.fetch
  rw [h]
  dsimp only
  rw [hw]
  rfl

end Sys2Proof.Proofs
end

section
/-! PROOF. What a turn comes to (R43, R44, R60, R374; log entries 1, 2 and 15), and the obligation on it, O54. -/

namespace Sys2Proof.Proofs

open Sys2Proof Sys2Proof.Machine

/-! ## The next turn (log entries 1 and 2) -/

theorem nextTurn_cons {s : State} {x : Turn} {r : List Turn} (h : s.agenda = x :: r) : s.nextTurn = (x, { s with agenda := r }) := by
  unfold State.nextTurn
  rw [h]

/-- The head of the agenda takes place where nothing is due before its time. -/
theorem turn_of_next {s : State} {dt : Nat} {who : Who} {r : List Turn} (h : s.agenda = ⟨dt, who⟩ :: r)
    (hd : ({ s with agenda := r } : State).dueBefore (s.now + dt) = none) :
    s.turn = (({ s with agenda := r } : State).pass dt).turnOf who := by
  unfold State.turn
  rw [nextTurn_cons h]
  dsimp only
  rw [hd]

/-- What is due before the time of the head of the agenda comes first, and the head stays the next turn. -/
theorem turn_of_due {s : State} {dt at_ : Nat} {who : Who} {i : Instr} {r : List Turn} (h : s.agenda = ⟨dt, who⟩ :: r)
    (hd : ({ s with agenda := r } : State).dueBefore (s.now + dt) = some (at_, i)) :
    s.turn =
      let w := ({ s with agenda := ⟨dt - (at_ - s.now), who⟩ :: r } : State).pass (at_ - s.now)
      .run i (w.notePlace (w.placeOf 0 i)) := by
  unfold State.turn
  rw [nextTurn_cons h]
  dsimp only
  rw [hd]

theorem step_done {s t : State} (h : s.turn = .done t) : step s = .next t := by unfold step; rw [h]

theorem step_run {s t : State} {i : Instr} (h : s.turn = .run i t) : step s = exec i t := by unfold step; rw [h]

/-! ## The places of an operation (R172, R178, R188) -/

theorem inPlace_nil (s : State) : s.inPlace [] = true := rfl

theorem notePlace_nil (s : State) : s.notePlace [] = s := rfl

/-! ## A sequencer's turn (R43, R44, R60) -/

/-- The sequencer of a core has a stream that runs, with no fault to take. -/
structure Executes (s : State) (c : Nat) : Prop where
  runs : s.runs c = true
  may : s.mayIssue c = true
  running : s.cur.st = .running
  clean : s.cur.intrap = true ∨ s.cur.faults = []

theorem no_fault {s : State} {c : Nat} (h : Executes s c) : (!s.cur.intrap && !s.cur.faults.isEmpty) = false := by
  rcases h.clean with h | h <;> simp [h]

/-- What is fetched is decoded, and runs where its place in the cycle is still to come. -/
theorem sequencerTurn_fetched {s s' : State} {c : Nat} {ws : List Nat} (h : Executes { s with sel := c } c)
    (hf : State.fetch { s with sel := c } c (State.cur { s with sel := c }).pc.toNat = .ok (ws, s')) :
    let p := State.placeOf { s with sel := c } c (decodeFetched ws)
    s.sequencerTurn c =
      if State.inPlace { s with sel := c } p then .run (decodeFetched ws) (s'.notePlace p) else .done { s with sel := c } := by
  unfold State.sequencerTurn
  dsimp only
  rw [h.runs, h.may, h.running, no_fault h, hf]
  rfl

/-- What cannot be fetched traps. -/
theorem sequencerTurn_unfetched {s s' : State} {c : Nat} {e : Trap} (h : Executes { s with sel := c } c)
    (hf : State.fetch { s with sel := c } c (State.cur { s with sel := c }).pc.toNat = .error (e, s')) :
    s.sequencerTurn c = .done (s'.trap e) := by
  unfold State.sequencerTurn
  dsimp only
  rw [h.runs, h.may, h.running, no_fault h, hf]
  rfl

/-! ## Turns of the device and of the host -/

theorem turnOf_event {s : State} {i : Instr} (hi : isEvent i = true) (hp : s.inPlace (s.placeOf 0 i) = true) :
    s.turnOf (.event i) = .run i (s.notePlace (s.placeOf 0 i)) := by
  unfold State.turnOf
  dsimp only
  rw [hi, hp]
  rfl

theorem turnOf_serve {s : State} {func q : Nat} {i : Instr} (hb : s.boot = .up) (hq : s.nextEntry func = some (q, i)) :
    s.turnOf (.serve func) = .run i (s.pop func q) := by
  unfold State.turnOf
  dsimp only
  rw [hq, hb]
  rfl

/-! ## Queues (R374) -/

/-- The rings of a function whose queues have been enabled have the sizes that the host gave. -/
theorem ringEntries_enable {s : State} {func : Nat} {sizes : List Nat} (hb : s.boot = .up) (hf : func ≤ 128)
    (hq : s.queues.find func = none) (hl : sizes.length = 12) (hn : ∀ n ∈ sizes, 4 ≤ n ∧ n ≤ 12) {q : Nat} (h : q < 12) :
    (s.enable func sizes).ringEntries func q = 2 ^ sizes.getD q 0 := by
  have set : (s.enable func sizes).queues = s.queues.set func sizes := by
    unfold State.enable
    rw [if_pos (by simpa [hb, hf, hq, hl] using hn)]
  have some_ : sizes[q]? = some (sizes.getD q 0) := by
    rw [List.getD_eq_getElem?_getD, List.getElem?_eq_getElem (by omega)]; rfl
  unfold State.ringEntries
  rw [set, Map.getD_set_self, some_]

/-! ## The obligation -/

/-- Settles O54: each kind of turn by what it comes to. -/
theorem stepRunsTheDecodedInstruction : Obligations.StepRunsTheDecodedInstruction := by
  unfold Obligations.StepRunsTheDecodedInstruction
  intro s c dt r a v u pc next
  have turn : ∀ {who}, next who → s.turn = v.turnOf who := fun h => turn_of_next h.1 h.2
  refine ⟨fun h hr hm hst hf => ?_, fun i h hi hp => step_run ((turn h).trans (turnOf_event hi hp)), fun func queue i h => step_done (turn h),
    fun func sizes h => step_done (turn h), fun func sizes hb hf hq hl hn q h => ringEntries_enable hb hf hq hl hn h,
    fun func q i h hb hq => step_run ((turn h).trans (turnOf_serve hb hq)), fun at_ i who h hd hle => ?_⟩
  case refine_1 =>
    have runs : Executes u c := ⟨hr, hm, hst, hf⟩
    refine ⟨fun ws s' hok => ?_, fun e s' herr => step_done ((turn h).trans (sequencerTurn_unfetched runs herr)),
      fun e he hx hs ht hroot hl hp hh => ?_⟩
    · have seq := (turn h).trans (sequencerTurn_fetched runs hok)
      intro words i
      have goes : u.inPlace (u.placeOf c i) = true → step s = exec i (s'.notePlace (u.placeOf c i)) := fun hp =>
        step_run (seq.trans (if_pos hp))
      refine ⟨goes, fun hn => ?_, fun hp => step_done (seq.trans (if_neg (Bool.eq_false_iff.mp hp)))⟩
      rw [hn] at goes
      exact goes (inPlace_nil u)
    · intro w hw
      exact ⟨_, fetch_one (fetchWord_cached he hx hs ht hroot hl hp hh) hw, fetchedFrom_rest u c _ e.pin,
        clusterRest_fetchedFrom u c _ e.pin⟩
  case refine_2 =>
    have due := turn_of_due h hd
    rw [show dt - (at_ - s.now) = s.now + dt - at_ by omega] at due
    exact step_run due

end Sys2Proof.Proofs
end

section
/-! PROOF. What `sysrd` reads (R312 to R315), one lemma for each group of registers whose value is not written out in the model's table, and
the obligation on it, O22. -/

namespace Sys2Proof.Proofs

open Sys2Proof Sys2Proof.Machine

/-! ## Ill-formed instructions and traps (R60) -/

theorem checked_wellFormed {i : Instr} (h : i.wellFormed = true) (s : State) (r : Out) : checked i s r = r := if_pos h

theorem checked_illFormed {i : Instr} (h : i.wellFormed = false) (s : State) (r : Out) : checked i s r = trapOut s illegal :=
  if_neg (by simp [h])

/-- An instruction whose meaning is a trap without a code enters the handler with the trap's record. -/
theorem traps_of_exec {s : State} {i : Instr} {t : Trap} (h : exec i s = trapOut s t) (hc : t.code = 0) :
    Traps s i t.cause t.stat t.va := by
  intro fresh outside vec
  have handled := Laws.handler_trap s t fresh outside vec
  rw [hc] at handled
  rw [h]
  exact gives_next handled

/-! ## The three outcomes of `sysrd` -/

theorem exec_sysrd (d : BitVec 5) (id : BitVec 12) (s : State) : exec (.sysrd d id) s = execSysrd d id s := rfl

theorem wellFormed_sysrd (d : BitVec 5) (id : BitVec 12) : Instr.wellFormed (.sysrd d id) = sysReadable id.toNat := rfl

/-- The ids that every context may read: those of R312 but BARST_N, which an allotment guards (R186). -/
def sysUnguarded (id : Nat) : Bool := sysReadable id && (decide (id < 0x130) || decide (0x140 ≤ id))

theorem sysrd_gives {s : State} {d : BitVec 5} {id : BitVec 12} {v : W64} (hr : sysReadable id.toNat = true)
    (hb : 0x130 ≤ id.toNat → id.toNat < 0x140 → s.barForeign (id.toNat % 16) = false) (hv : s.sysValue id.toNat = v) :
    Gives (exec (.sysrd d id) s) (fun t => Writes s.draw t d v 1) := by
  have owned : ¬(decide (0x130 ≤ id.toNat) && decide (id.toNat < 0x140) && s.barForeign (id.toNat % 16)) = true := by
    simpa [and_assoc] using hb
  rw [exec_sysrd, execSysrd, checked_wellFormed ((wellFormed_sysrd d id).trans hr)]
  dsimp only
  rw [if_neg owned, hv]
  exact Laws.writes_writeS s.draw d v 1

theorem sysrd_unguarded {s : State} {d : BitVec 5} {id : BitVec 12} {v : W64} (h : sysUnguarded id.toNat = true)
    (hv : s.sysValue id.toNat = v) : Gives (exec (.sysrd d id) s) (fun t => Writes s.draw t d v 1) := by
  simp only [sysUnguarded, Bool.and_eq_true, Bool.or_eq_true, decide_eq_true_eq] at h
  obtain ⟨hr, outside⟩ := h
  exact sysrd_gives hr (fun lo hi => by omega) hv

theorem sysrd_traps_unreadable {s : State} {d : BitVec 5} {id : BitVec 12} (h : sysReadable id.toNat = false) :
    Traps s (.sysrd d id) 0x01 0 0 :=
  traps_of_exec (t := illegal) ((exec_sysrd d id s).trans (checked_illFormed ((wellFormed_sysrd d id).trans h) s _)) rfl

/-! ## Registers with a number (R78, R166, R189, R268) -/

theorem toNat_sysId {n : Nat} (h : n < 0x1000) : (BitVec.ofNat 12 n).toNat = n := Nat.mod_eq_of_lt h

/-- The ids of WRAP_A, RINGD, BARST, FSA and FSB, whose low bits are a number. -/
theorem sysValue_numbered (s : State) {id : Nat} (h : 0x100 ≤ id ∧ id < 0x110 ∨ 0x120 ≤ id ∧ id < 0x150) :
    s.sysValue id =
      if id < 0x110 then sx (s.cur.getA (id % 16)).wrap
      else if id < 0x130 then s.ringd (id % 16)
      else if id < 0x140 then (s.bar (clusterOf s.sel) (id % 16)).word
      else if id < 0x148 then (s.core s.sel).fsa.getD (id % 8) 0
      else (s.core s.sel).fsb.getD (id % 8) 0 := by
  simp (disch := omega) only [State.sysValue]

theorem sysValue_wrap (s : State) {n : Nat} (h : n < 16) : s.sysValue (0x100 + n) = BitVec.ofInt 64 (s.cur.getA n).wrap.toInt := by
  rw [sysValue_numbered s (by omega), if_pos (by omega), show (0x100 + n) % 16 = n by omega]
  rfl

theorem sysValue_ringd (s : State) {n : Nat} (h : n < 16) : s.sysValue (0x120 + n) = s.ringd n := by
  rw [sysValue_numbered s (by omega), if_neg (by omega), if_pos (by omega), show (0x120 + n) % 16 = n by omega]

theorem sysValue_barst (s : State) {n : Nat} (h : n < 16) : s.sysValue (0x130 + n) = (s.bar (clusterOf s.sel) n).word := by
  rw [sysValue_numbered s (by omega), if_neg (by omega), if_neg (by omega), if_pos (by omega), show (0x130 + n) % 16 = n by omega]

theorem sysValue_fsa (s : State) {n : Nat} (h : n < 8) : s.sysValue (0x140 + n) = (s.core s.sel).fsa.getD n 0 := by
  rw [sysValue_numbered s (by omega), if_neg (by omega), if_neg (by omega), if_neg (by omega), if_pos (by omega),
    show (0x140 + n) % 8 = n by omega]

theorem sysValue_fsb (s : State) {n : Nat} (h : n < 8) : s.sysValue (0x148 + n) = (s.core s.sel).fsb.getD n 0 := by
  rw [sysValue_numbered s (by omega), if_neg (by omega), if_neg (by omega), if_neg (by omega), if_neg (by omega),
    show (0x148 + n) % 8 = n by omega]

/-- A numbered register other than a barrier's status. -/
theorem sysrd_numbered {s : State} {d : BitVec 5} {id : Nat} {v : W64}
    (h : 0x100 ≤ id ∧ id < 0x110 ∨ 0x120 ≤ id ∧ id < 0x130 ∨ 0x140 ≤ id ∧ id < 0x150) (hv : s.sysValue id = v) :
    Gives (exec (.sysrd d (BitVec.ofNat 12 id)) s) (fun t => Writes s.draw t d v 1) := by
  have e := toNat_sysId (n := id) (by omega)
  refine sysrd_unguarded ?_ (by rw [e, hv])
  rw [e]
  simp only [sysUnguarded, sysReadable, Bool.and_eq_true, Bool.or_eq_true, decide_eq_true_eq]
  omega

/-! ## Barriers (R186, R189) -/

theorem sysReadable_barst {n : Nat} (h : n < 16) : sysReadable (0x130 + n) = true := by
  simp only [sysReadable, Bool.and_eq_true, Bool.or_eq_true, decide_eq_true_eq]
  omega

theorem sysrd_barst {s : State} {d : BitVec 5} {n : Nat} (h : n < 16) (hb : s.curCtx.hasBar (s.sel / 4) n = true) :
    Gives (exec (.sysrd d (BitVec.ofNat 12 (0x130 + n))) s) (fun t => Writes s.draw t d (s.bar (s.sel / 4) n).word 1) := by
  have e := toNat_sysId (n := 0x130 + n) (by omega)
  have own : s.barForeign n = false := congrArg not hb
  refine sysrd_gives ?_ (fun _ _ => ?_) ?_
  · rw [e]; exact sysReadable_barst h
  · rw [e, show (0x130 + n) % 16 = n by omega, own]
  · rw [e]; exact sysValue_barst s h

theorem sysrd_traps_foreignBar {s : State} {d : BitVec 5} {n : Nat} (h : n < 16) (hb : s.curCtx.hasBar (s.sel / 4) n = false) :
    Traps s (.sysrd d (BitVec.ofNat 12 (0x130 + n))) 0x05 0 0 := by
  have e := toNat_sysId (n := 0x130 + n) (by omega)
  have foreign : s.barForeign n = true := congrArg not hb
  refine traps_of_exec (t := { cause := 0x05 }) ?_ rfl
  rw [exec_sysrd, execSysrd, checked_wellFormed (by rw [wellFormed_sysrd, e]; exact sysReadable_barst h)]
  dsimp only
  rw [e, show (0x130 + n) % 16 = n by omega, foreign]
  exact if_pos (by simp; omega)

/-! ## TRAPST (R314) -/

theorem getLsbD_foldl_setBit (l : List PFault) (m : BitVec 6) {e : Nat} (he : e < 6) :
    (l.foldl (fun (m : BitVec 6) f => m ||| (1 <<< f.eng)) m).getLsbD e = (m.getLsbD e || l.any (fun f => f.eng == e)) := by
  induction l generalizing m with
  | nil => simp
  | cons f l ih =>
    have one : ((1 <<< f.eng : Nat) : BitVec 6).getLsbD e = (f.eng == e) := by
      rw [BitVec.natCast_eq_ofNat, BitVec.getLsbD_ofNat, Nat.one_shiftLeft, Nat.testBit_two_pow, decide_eq_true he, Bool.true_and]
      rfl
    rw [List.foldl_cons, ih, BitVec.getLsbD_or, one, List.any_cons, Bool.or_assoc]

/-- Bits 13:8 mark the engines with a pending fault. -/
theorem getLsbD_pendingMask (t : Stream) {e : Nat} (he : e < 6) : t.pendingMask.getLsbD e = t.faults.any (fun f => f.eng == e) := by
  unfold Stream.pendingMask
  rw [getLsbD_foldl_setBit _ _ he]
  simp

/-- TRAPST in its three fields, the highest first. -/
theorem toNat_trapst (t : Stream) :
    t.trapst.toNat = 2 ^ 8 * (2 ^ 7 * t.intrap.toNat + t.pendingMask.toNat) + t.halted.toNat ∧
      2 ^ 7 * t.intrap.toNat + t.pendingMask.toNat < 2 ^ 8 ∧ t.pendingMask.toNat < 2 ^ 7 ∧ t.halted.toNat < 2 ^ 8 := by
  have hp := t.pendingMask.isLt
  have hh := t.halted.isLt
  unfold Stream.trapst
  rw [BitVec.toNat_ofNat]
  cases t.intrap <;> simp <;> omega

theorem trapst_fields (t : Stream) : t.trapst.toNat < 2 ^ 16 ∧ t.trapst.getLsbD 15 = t.intrap ∧
    ∀ e < 6, t.trapst.getLsbD (8 + e) = t.faults.any (fun f => f.eng == e) ∧ t.trapst.getLsbD e = t.halted.getLsbD e := by
  obtain ⟨eq, upper, pending, halted⟩ := toNat_trapst t
  refine ⟨by omega, ?_, fun e he => ⟨?_, ?_⟩⟩
  · rw [BitVec.getLsbD, eq, Nat.testBit_two_pow_mul_add _ halted, if_neg (by omega), Nat.testBit_two_pow_mul_add _ pending]
    cases t.intrap <;> rfl
  · rw [BitVec.getLsbD, eq, Nat.testBit_two_pow_mul_add _ halted, if_neg (by omega), Nat.testBit_two_pow_mul_add _ pending,
      if_pos (by omega), ← getLsbD_pendingMask t he, Nat.add_sub_cancel_left]
    rfl
  · rw [BitVec.getLsbD, eq, Nat.testBit_two_pow_mul_add _ halted, if_pos (by omega)]
    rfl

/-! ## The registers with a free value (R136, R313) -/

/-- EXACT is the context's where no write of it is remembered. -/
theorem exactBit_settled {s : State} (h : ∀ e ∈ s.deeds, ∀ w b, e.what ≠ .exact w b) : s.exactBit = s.curCtx.exact := by
  unfold State.exactBit
  extract_lets olds
  have settled : olds = [] := by
    refine List.filterMap_eq_nil_iff.mpr fun e he => ?_
    split
    · rename_i w b hw
      exact absurd hw (h e he w b)
    · rfl
  rw [settled]
  rfl

/-- VSTAT is the stream's where no result in flight may set a flag. -/
theorem vstat_settled {s : State} (h : ∀ w ∈ s.cur.pend, w.dst ≠ .vstat) : s.vstat =
    BitVec.ofNat 64 (s.cur.rrb * 2 ^ 8 + s.cur.prb * 2 ^ 4 + (if s.cur.dqmiss then 2 else 0) + (if s.cur.olclamp then 1 else 0)) := by
  have idle : ∀ k, (s.cur.pend.any fun w => w.dst == .vstat && w.mask.getLsbD k) = false := fun k =>
    List.any_eq_false.mpr fun w hw => by simp [h w hw]
  unfold State.vstat
  simp only [idle, Bool.false_and, Bool.or_false]

/-! ## The obligation -/

/-- Settles O22: every read is one of the three outcomes of `sysrd`; the values are the rows of the model's table, but for those that the
lemmas above give. -/
theorem systemRegisterReads : Obligations.SystemRegisterReads := by
  unfold Obligations.SystemRegisterReads
  refine ⟨fun s d => ?_, fun s d n hn => ⟨sysrd_barst hn, sysrd_traps_foreignBar hn⟩⟩
  intro t x i cl die reads
  have row (id : BitVec 12) (h : sysUnguarded id.toNat = true := by rfl) : reads id (s.sysValue id.toNat) := sysrd_unguarded h rfl
  refine ⟨row 0x000, row 0x001, row 0x002, row 0x004, row 0x005, row 0x006, row 0x007, row 0x008, row 0x009, row 0x010, row 0x011,
    row 0x012, row 0x013, row 0x014, row 0x015, row 0x016, row 0x017, row 0x018, row 0x019, row 0x029, row 0x030, row 0x111, row 0x112,
    row 0x113, fun n hn => ?wrap, ⟨s.exactBit, exactBit_settled, row 0x003⟩, ⟨t.trapst, row 0x00A, trapst_fields t⟩, row 0x020, row 0x021,
    row 0x022, row 0x028, row 0x031, fun h => ?vstat, fun n hn => ?ringd, row 0x150, row 0x151, fun n hn => ⟨?fsa, ?fsb⟩,
    fun id hr ho => ⟨_, row id ?readable⟩, fun id => sysrd_traps_unreadable⟩
  case wrap => exact sysrd_numbered (by omega) (sysValue_wrap s hn)
  case vstat => exact sysrd_unguarded rfl (vstat_settled h)
  case ringd => exact sysrd_numbered (by omega) (sysValue_ringd s hn)
  case fsa => exact sysrd_numbered (by omega) (sysValue_fsa s hn)
  case fsb => exact sysrd_numbered (by omega) (sysValue_fsb s hn)
  case readable => simpa [sysUnguarded, hr] using ho

end Sys2Proof.Proofs
end
